-- ==== Sys2Proof/Word.lean ====
section
/-! DEFINITION. The word types of the block: a byte, a register word or address, a frame index (spec R8, R21, R33). -/

namespace Sys2Proof

/-- One byte of IN, of OUT or of the sub-block buffer. -/
abbrev Byte := BitVec 8

/-- A 32-bit register word; the base of a region of IN or OUT is one (R21, R25). -/
abbrev Word := BitVec 32

/-- A frame index, or 0xFFFF where no frame applies (R23, R130). -/
abbrev FrameIdx := BitVec 16

/-- ERRFRAME's value when no frame applies (R23). -/
abbrev noFrame : FrameIdx := 0xFFFF#16

end Sys2Proof
end

