-- ==== Sys2Proof/Config.lean ====
section
/-! DEFINITION. What a build of the block fixes (the parameters P_ of R6), and the values the spec leaves free. -/

namespace Sys2Proof

/-- P_CODE_LIMIT: a code is inserted only while NEXT is below it; the two admitted values (R6, R73, D9). -/
inductive CodeLimit where
  | l4096
  | l2049
  deriving DecidableEq, Repr

/-- The number P_CODE_LIMIT stands for. -/
def CodeLimit.toNat : CodeLimit → Nat
  | .l4096 => 4096
  | .l2049 => 2049

/-- P_END_CODE_WIDTH: the width rule of the end code (R6, R78, D10). -/
inductive EndCodeWidth where
  | literal
  | decoderAligned
  deriving DecidableEq, Repr

/-- One palette entry's three channels. -/
structure Rgb where
  r : Byte
  g : Byte
  b : Byte
  deriving DecidableEq, Repr

/-- What a build of the block and its platform fix and a rule depends on: the parameters of R6 that have more than one
admitted value, and whether IN and OUT are one memory (R32, R146 (f)). The build stands in `State`, where no step changes
it, so that every statement covers every build (log 10). -/
structure Build where
  /-- P_CODE_LIMIT -/
  codeLimit : CodeLimit
  /-- P_END_CODE_WIDTH -/
  endCodeWidth : EndCodeWidth
  /-- P_COLOR_RES, a 3-bit field (R60) -/
  colorRes : BitVec 3
  /-- P_FILLER (R99) -/
  filler : Rgb
  /-- P_ADDR_BITS, the width of IN and OUT addresses (R9, R33) -/
  addrBits : Nat
  /-- the platform backs IN and OUT with the same physical memory (R146 (f), U14; log 14) -/
  sharedMemory : Bool
  deriving DecidableEq, Repr

/-- The build in which every parameter has its default (R6), with IN and OUT separate (R32). -/
def Build.default : Build where
  codeLimit := .l4096
  endCodeWidth := .literal
  colorRes := 7#3
  filler := ⟨0#8, 0#8, 0#8⟩
  addrBits := 32
  sharedMemory := false

namespace Config

/-- P_M_MIN (R6). -/
abbrev mMin : Nat := 2
/-- P_M_MAX (R6). -/
abbrev mMax : Nat := 8
/-- P_W_MAX, the largest code width (R6). -/
abbrev wMax : Nat := 12
/-- P_PAL_MIN (R6). -/
abbrev palMin : Nat := 2
/-- P_PAL_MAX (R6). -/
abbrev palMax : Nat := 256
/-- P_SUB_MAX, the largest sub-block payload (R6). -/
abbrev subMax : Nat := 255
/-- The number of codes TABLE is indexed by (R17). -/
abbrev tableSize : Nat := 4096

/-- P_CSR_BASE: where the platform places the register window. OPEN in the spec (R6, R43, D39), so a free value; a host
access is modelled by its offset in the window, and no rule depends on this base. -/
opaque csrBase : Nat

/-- FREE VALUE (R32, U7): what an IN byte the host never wrote holds, for each draw and address. The draw is a counter of
State that an accept advances, so the value is fixed for a job once drawn. -/
opaque inUnwritten : Nat → Nat → Byte

/-- FREE VALUE (R131, U10, D17): what an OUT byte holds that nothing wrote (draw 0), or that an abort left unspecified
(the draw of that abort), for each draw and address. -/
opaque outUnwritten : Nat → Nat → Byte

/-- FREE VALUE (R19, U9): what a byte of CHUNK holds that no chunk_byte wrote since reset, for each index. -/
opaque chunkUnwritten : Nat → Byte

/-- FREE VALUE (R8): the size field G.LSD computes from a PLEN that is not one of the legal padded lengths. The spec uses
log2 only on powers of two, and PLEN = 0 holds only before a job sets it (R31). -/
opaque sizeFieldUnstated : BitVec 9 → BitVec 3

end Config

end Sys2Proof
end

