-- ==== Sys2Proof/Syntax.lean ====
section
/-! DEFINITION. The instructions of spec/opcode_table.json, one constructor per row: the command words (CMD), the two
register transactions (BUS) and the operations of the sequencer (SEQ) (R52, R54, R56). -/

namespace Sys2Proof

/-- The sixteen registers of the window, in the order of their offsets 0x00, 0x04, …, 0x3C (R21). -/
inductive Reg where
  | cmd
  | status
  | ctrl
  | width
  | height
  | palBase
  | palLen
  | frameBase
  | nframes
  | srcBase
  | srcLen
  | outBase
  | outCap
  | outLen
  | lzwLast
  | params
  deriving DecidableEq, Repr

/-- Every row of the opcode table. -/
inductive Instr where
  /-- CMD 0x00000000 (R122) -/
  | nop
  /-- CMD 0x00000001 (R123) -/
  | gifEncodeLoop0
  /-- CMD 0x00001001 (R123) -/
  | gifEncodeLoop1
  /-- CMD 0x00000002 with the minimum code size M in bits 11:8 (R124) -/
  | lzwEncode (m : BitVec 4)
  /-- CMD 0x0000000F (R125) -/
  | softReset
  /-- BUS write of the word v to a register (R118) -/
  | wr (r : Reg) (v : Word)
  /-- BUS read of a register (R119) -/
  | rd (r : Reg)
  /-- SEQ 0x00 (R126) -/
  | idle
  /-- SEQ 0x10 (R87) -/
  | lCheckSrc
  /-- SEQ 0x11 (R88) -/
  | lInit
  /-- SEQ 0x12 (R89) -/
  | lEmitClear
  /-- SEQ 0x13 (R90) -/
  | lStep
  /-- SEQ 0x14 (R91) -/
  | lFlushAcc
  /-- SEQ 0x15 (R92) -/
  | lEmitEnd
  /-- SEQ 0x16 (R93) -/
  | lPad
  /-- SEQ 0x20 (R104) -/
  | gCheckPal
  /-- SEQ 0x21 (R105) -/
  | gCheckFrame
  /-- SEQ 0x22 (R106) -/
  | gSig
  /-- SEQ 0x23 (R107) -/
  | gLsd
  /-- SEQ 0x24 (R108) -/
  | gGct
  /-- SEQ 0x25 (R109) -/
  | gNetscape
  /-- SEQ 0x26 (R110) -/
  | gGce
  /-- SEQ 0x27 (R111) -/
  | gIdesc
  /-- SEQ 0x28 (R112) -/
  | gMincode
  /-- SEQ 0x29 (R113) -/
  | bTerm
  /-- SEQ 0x2A (R114) -/
  | gNextFrame
  /-- SEQ 0x2B (R115) -/
  | gTrailer
  /-- SEQ 0x30 (R127) -/
  | xFinish
  deriving DecidableEq, Repr

/-- The three formats that stand in a word of their own (R52). -/
inductive Format where
  | cmd
  | bus
  | seq
  deriving DecidableEq, Repr

/-- The format of each row. -/
def Instr.format : Instr → Format
  | .nop | .gifEncodeLoop0 | .gifEncodeLoop1 | .lzwEncode _ | .softReset => .cmd
  | .wr _ _ | .rd _ => .bus
  | .idle | .lCheckSrc | .lInit | .lEmitClear | .lStep | .lFlushAcc | .lEmitEnd | .lPad
  | .gCheckPal | .gCheckFrame | .gSig | .gLsd | .gGct | .gNetscape | .gGce | .gIdesc | .gMincode
  | .bTerm | .gNextFrame | .gTrailer | .xFinish => .seq

end Sys2Proof
end

