-- ==== Sys2Proof/WellFormed.lean ====
section
/-! DEFINITION. Which instructions are well-formed: LZW_ENCODE's M is in the range 2 to 8 (R54, R55 (e)). Every other
instruction is well-formed, since its operands are registers of the window and whole words. -/

namespace Sys2Proof

/-- The least M an LZW_ENCODE word may carry (R55 (e): M < 2 is illegal). -/
def mNotTooSmall (m : BitVec 4) : Bool := Config.mMin ≤ m.toNat

/-- The greatest M an LZW_ENCODE word may carry (R55 (e): M > 8 is illegal). -/
def mNotTooLarge (m : BitVec 4) : Bool := m.toNat ≤ Config.mMax

/-- M is a minimum code size: 2 ≤ M ≤ 8 (R54). -/
def legalM (m : BitVec 4) : Bool := mNotTooSmall m && mNotTooLarge m

/-- The checks of R55 that are not already in an instruction's type. -/
def WellFormed : Instr → Bool
  | .lzwEncode m => legalM m
  | .nop | .gifEncodeLoop0 | .gifEncodeLoop1 | .softReset | .wr _ _ | .rd _
  | .idle | .lCheckSrc | .lInit | .lEmitClear | .lStep | .lFlushAcc | .lEmitEnd | .lPad
  | .gCheckPal | .gCheckFrame | .gSig | .gLsd | .gGct | .gNetscape | .gGce | .gIdesc | .gMincode
  | .bTerm | .gNextFrame | .gTrailer | .xFinish => true

end Sys2Proof
end

