-- ==== Sys2Proof/Decode.lean ====
section
/-! DEFINITION. The encodings of R52 to R56: the command word, the bus access and the sequencer code; a total decoder
that rejects by name, the encoder written from the same tables, and the opcode table's match and mask. -/

namespace Sys2Proof

/-- A word in the format its place gives it (R52): the word written to CMD, a bus access (the 7-bit pattern and, for a
write, the data word), or the code in SEQ. The formats share bit patterns; the place tells them apart, never the bits. -/
inductive Encoded where
  | cmd (v : Word)
  | bus (p : BitVec 7) (data : Option Word)
  | seq (c : BitVec 8)
  deriving DecidableEq, Repr

/-- Why the decoder rejects a word. -/
inductive DecodeError where
  /-- R55 (a): OPC is none of 0x00, 0x01, 0x02, 0x0F -/
  | illegalOpcode
  /-- R55 (b): a bit of [31:13] is 1 -/
  | reservedBits
  /-- R55 (c), (d), (e): an M the command does not admit -/
  | illegalM
  /-- R55 (c), (e): LOOP set in a command other than GIF_ENCODE -/
  | illegalLoop
  /-- R52, R40: OFF[1:0] is not 0 -/
  | unalignedOffset
  /-- R52: a write without a data word -/
  | missingData
  /-- R52: a read with a data word -/
  | dataOnRead
  /-- R56: a code that is not in the operation table -/
  | unlistedSeqCode
  deriving DecidableEq, Repr

/-! ### The register numbers (R21: offset / 4) -/

/-- The register number, OFF[5:2] (R52). -/
def Reg.num : Reg → BitVec 4
  | .cmd => 0 | .status => 1 | .ctrl => 2 | .width => 3
  | .height => 4 | .palBase => 5 | .palLen => 6 | .frameBase => 7
  | .nframes => 8 | .srcBase => 9 | .srcLen => 10 | .outBase => 11
  | .outCap => 12 | .outLen => 13 | .lzwLast => 14 | .params => 15

/-- The register a number names: all sixteen numbers are taken (R21, R52). -/
def Reg.ofNum (n : BitVec 4) : Reg :=
  match n.toNat with
  | 0 => .cmd | 1 => .status | 2 => .ctrl | 3 => .width
  | 4 => .height | 5 => .palBase | 6 => .palLen | 7 => .frameBase
  | 8 => .nframes | 9 => .srcBase | 10 => .srcLen | 11 => .outBase
  | 12 => .outCap | 13 => .outLen | 14 => .lzwLast | _ => .params

/-- The byte offset of a register in the window (R21). -/
def Reg.offset (r : Reg) : Nat := 4 * r.num.toNat

/-! ### The sequencer codes (R56) -/

namespace SeqCode
abbrev idle : BitVec 8 := 0x00#8
abbrev lCheckSrc : BitVec 8 := 0x10#8
abbrev lInit : BitVec 8 := 0x11#8
abbrev lEmitClear : BitVec 8 := 0x12#8
abbrev lStep : BitVec 8 := 0x13#8
abbrev lFlushAcc : BitVec 8 := 0x14#8
abbrev lEmitEnd : BitVec 8 := 0x15#8
abbrev lPad : BitVec 8 := 0x16#8
abbrev gCheckPal : BitVec 8 := 0x20#8
abbrev gCheckFrame : BitVec 8 := 0x21#8
abbrev gSig : BitVec 8 := 0x22#8
abbrev gLsd : BitVec 8 := 0x23#8
abbrev gGct : BitVec 8 := 0x24#8
abbrev gNetscape : BitVec 8 := 0x25#8
abbrev gGce : BitVec 8 := 0x26#8
abbrev gIdesc : BitVec 8 := 0x27#8
abbrev gMincode : BitVec 8 := 0x28#8
abbrev bTerm : BitVec 8 := 0x29#8
abbrev gNextFrame : BitVec 8 := 0x2A#8
abbrev gTrailer : BitVec 8 := 0x2B#8
abbrev xFinish : BitVec 8 := 0x30#8
end SeqCode

/-! ### The fields of a command word (R53) -/

/-- OPC = v[7:0]. -/
def opcField (v : Word) : BitVec 8 := v.extractLsb' 0 8
/-- M = v[11:8]. -/
def mField (v : Word) : BitVec 4 := v.extractLsb' 8 4
/-- LOOP = v[12]. -/
def loopField (v : Word) : Bool := v.getLsbD 12
/-- The reserved bits v[31:13]. -/
def reservedField (v : Word) : BitVec 19 := v.extractLsb' 13 19

/-- OPC of NOP, GIF_ENCODE, LZW_ENCODE and SOFT_RESET (R54). -/
abbrev opcNop : BitVec 8 := 0x00#8
abbrev opcGif : BitVec 8 := 0x01#8
abbrev opcLzw : BitVec 8 := 0x02#8
abbrev opcReset : BitVec 8 := 0x0F#8

/-- illegal(v), clause by clause as R55 writes it. -/
def illegalWord (v : Word) : Bool :=
  -- (a)
  (opcField v != opcNop && opcField v != opcGif && opcField v != opcLzw && opcField v != opcReset)
  -- (b)
  || reservedField v != 0
  -- (c)
  || ((opcField v == opcNop || opcField v == opcReset) && (mField v != 0 || loopField v))
  -- (d)
  || (opcField v == opcGif && mField v != 0)
  -- (e)
  || (opcField v == opcLzw && (!legalM (mField v) || loopField v))

/-! ### The decoder -/

/-- A command word without operands beside OPC: M and LOOP are 0 (R54). -/
def decodeBare (v : Word) (i : Instr) : Except DecodeError Instr :=
  if mField v ≠ 0 then .error .illegalM
  else if loopField v then .error .illegalLoop
  else .ok i

/-- A command word, by the rows of R54. -/
def decodeCmd (v : Word) : Except DecodeError Instr :=
  if reservedField v ≠ 0 then .error .reservedBits
  else if opcField v = opcNop then decodeBare v .nop
  else if opcField v = opcGif then
    if mField v ≠ 0 then .error .illegalM
    else .ok (if loopField v then .gifEncodeLoop1 else .gifEncodeLoop0)
  else if opcField v = opcLzw then
    if loopField v then .error .illegalLoop
    else if legalM (mField v) then .ok (.lzwEncode (mField v))
    else .error .illegalM
  else if opcField v = opcReset then decodeBare v .softReset
  else .error .illegalOpcode

/-- A bus access: D = p[6], OFF = p[5:0] with OFF[1:0] = 0 (R52). -/
def decodeBus (p : BitVec 7) (data : Option Word) : Except DecodeError Instr :=
  if p.extractLsb' 0 2 ≠ 0 then .error .unalignedOffset
  else
    match p.getLsbD 6, data with
    | true, some v => .ok (.wr (Reg.ofNum (p.extractLsb' 2 4)) v)
    | true, none => .error .missingData
    | false, some _ => .error .dataOnRead
    | false, none => .ok (.rd (Reg.ofNum (p.extractLsb' 2 4)))

/-- The operation a code of SEQ stands for (R56). -/
def decodeSeq (c : BitVec 8) : Except DecodeError Instr :=
  match c.toNat with
  | 0x00 => .ok .idle
  | 0x10 => .ok .lCheckSrc
  | 0x11 => .ok .lInit
  | 0x12 => .ok .lEmitClear
  | 0x13 => .ok .lStep
  | 0x14 => .ok .lFlushAcc
  | 0x15 => .ok .lEmitEnd
  | 0x16 => .ok .lPad
  | 0x20 => .ok .gCheckPal
  | 0x21 => .ok .gCheckFrame
  | 0x22 => .ok .gSig
  | 0x23 => .ok .gLsd
  | 0x24 => .ok .gGct
  | 0x25 => .ok .gNetscape
  | 0x26 => .ok .gGce
  | 0x27 => .ok .gIdesc
  | 0x28 => .ok .gMincode
  | 0x29 => .ok .bTerm
  | 0x2A => .ok .gNextFrame
  | 0x2B => .ok .gTrailer
  | 0x30 => .ok .xFinish
  | _ => .error .unlistedSeqCode

/-- The decoder: total on every word of every format. -/
def decode : Encoded → Except DecodeError Instr
  | .cmd v => decodeCmd v
  | .bus p data => decodeBus p data
  | .seq c => decodeSeq c

/-! ### The encoder -/

/-- The bus pattern {D, OFF[5:2], 00} (R52). -/
def busPattern (write : Bool) (r : Reg) : BitVec 7 := BitVec.ofBool write ++ r.num ++ 0#2

/-- LZW_ENCODE's word 0x00000002 | (M << 8) (R124). -/
def lzwWord (m : BitVec 4) : Word := 0x00000002#32 ||| (m.setWidth 32 <<< 8)

/-- The word of an instruction (R52, R54, R56). -/
def encode : Instr → Encoded
  | .nop => .cmd 0x00000000#32
  | .gifEncodeLoop0 => .cmd 0x00000001#32
  | .gifEncodeLoop1 => .cmd 0x00001001#32
  | .lzwEncode m => .cmd (lzwWord m)
  | .softReset => .cmd 0x0000000F#32
  | .wr r v => .bus (busPattern true r) (some v)
  | .rd r => .bus (busPattern false r) none
  | .idle => .seq SeqCode.idle
  | .lCheckSrc => .seq SeqCode.lCheckSrc
  | .lInit => .seq SeqCode.lInit
  | .lEmitClear => .seq SeqCode.lEmitClear
  | .lStep => .seq SeqCode.lStep
  | .lFlushAcc => .seq SeqCode.lFlushAcc
  | .lEmitEnd => .seq SeqCode.lEmitEnd
  | .lPad => .seq SeqCode.lPad
  | .gCheckPal => .seq SeqCode.gCheckPal
  | .gCheckFrame => .seq SeqCode.gCheckFrame
  | .gSig => .seq SeqCode.gSig
  | .gLsd => .seq SeqCode.gLsd
  | .gGct => .seq SeqCode.gGct
  | .gNetscape => .seq SeqCode.gNetscape
  | .gGce => .seq SeqCode.gGce
  | .gIdesc => .seq SeqCode.gIdesc
  | .gMincode => .seq SeqCode.gMincode
  | .bTerm => .seq SeqCode.bTerm
  | .gNextFrame => .seq SeqCode.gNextFrame
  | .gTrailer => .seq SeqCode.gTrailer
  | .xFinish => .seq SeqCode.xFinish

/-! ### The opcode table's match and mask -/

/-- A word and a row's match and mask agree (R54, R56). -/
def matchesRow (word rowMatch rowMask : Nat) : Bool := word &&& rowMask == rowMatch

/-- The match and mask of an instruction's row of the opcode table: R54's columns for CMD, the pattern `Doooo00` for BUS
(o free), the whole byte for SEQ. -/
def tableRow : Instr → Nat × Nat
  | .nop => (0x00000000, 0xFFFFFFFF)
  | .gifEncodeLoop0 => (0x00000001, 0xFFFFFFFF)
  | .gifEncodeLoop1 => (0x00001001, 0xFFFFFFFF)
  | .lzwEncode _ => (0x00000002, 0xFFFFF0FF)
  | .softReset => (0x0000000F, 0xFFFFFFFF)
  | .wr _ _ => (0x40, 0x43)
  | .rd _ => (0x00, 0x43)
  | .idle => (0x00, 0xFF)
  | .lCheckSrc => (0x10, 0xFF)
  | .lInit => (0x11, 0xFF)
  | .lEmitClear => (0x12, 0xFF)
  | .lStep => (0x13, 0xFF)
  | .lFlushAcc => (0x14, 0xFF)
  | .lEmitEnd => (0x15, 0xFF)
  | .lPad => (0x16, 0xFF)
  | .gCheckPal => (0x20, 0xFF)
  | .gCheckFrame => (0x21, 0xFF)
  | .gSig => (0x22, 0xFF)
  | .gLsd => (0x23, 0xFF)
  | .gGct => (0x24, 0xFF)
  | .gNetscape => (0x25, 0xFF)
  | .gGce => (0x26, 0xFF)
  | .gIdesc => (0x27, 0xFF)
  | .gMincode => (0x28, 0xFF)
  | .bTerm => (0x29, 0xFF)
  | .gNextFrame => (0x2A, 0xFF)
  | .gTrailer => (0x2B, 0xFF)
  | .xFinish => (0x30, 0xFF)

/-- The bits of a word that the opcode table numbers: the command word, the bus pattern, the sequencer code. -/
def Encoded.tableBits : Encoded → Nat
  | .cmd v => v.toNat
  | .bus p _ => p.toNat
  | .seq c => c.toNat

/-! ### The table's words as the host asks about them -/

/-- A bus word of the table: D and OFF in bits 6:0; a write's data word, whose bits the table does not give, in the
bits from 8 up (DESIGN CHOICE, safe: log 9). -/
def tableBus (w : Nat) : Encoded :=
  .bus (BitVec.ofNat 7 w) (if w.testBit 6 then some (BitVec.ofNat 32 (w >>> 8)) else none)

/-- The word a table row's bits stand for. Rows of 32 bits are CMD, rows of 7 bits or of more than 32 are BUS. A row of
8 bits is SEQ, or BUS where the byte is no code of SEQ: bus reads and sequencer codes share byte values, and the place
that tells them apart is not in the number (DESIGN CHOICE, safe: log 9). -/
def ofTableWord (nbits w : Nat) : Option Encoded :=
  if nbits = 32 then
    if w < 2 ^ 32 then some (.cmd (BitVec.ofNat 32 w)) else none
  else if nbits = 8 then
    if w < 2 ^ 8 then
      match decodeSeq (BitVec.ofNat 8 w) with
      | .ok _ => some (.seq (BitVec.ofNat 8 w))
      | .error _ => if w < 2 ^ 7 then some (tableBus w) else none
    else none
  else if nbits = 7 then
    if w < 2 ^ 7 then some (tableBus w) else none
  else if nbits = 40 then
    if w < 2 ^ 40 ∧ w.testBit 7 = false then some (tableBus w) else none
  else none

/-- The instruction the decoder reads from a table row's bits. -/
def decodeTableWord (nbits w : Nat) : Option Instr :=
  match ofTableWord nbits w with
  | none => none
  | some e =>
    match decode e with
    | .ok i => some i
    | .error _ => none

end Sys2Proof
end

