-- ==== Sys2Proof/Machine/State.lean ====
section
/-! DEFINITION. The state of the system (R12, R117): the block's registers, the code table, the packer and chunk buffer,
the spaces IN and OUT, and the host's turns still to come; the reasons a step stops; the state after reset (R31). -/

namespace Sys2Proof.Machine

/-! ### The parts of the state -/

/-- The errors of R130, one per code of ERRCODE. The codes 0x08 to 0xFF are never written, so ERRCODE is this type. -/
inductive ErrCode where
  | noError
  | invalidPaletteSize
  | pixelIndexOutOfRange
  | dimensionMismatch
  | codeWidthOverflow
  | illegalCommand
  | lzwSymbolOutOfRange
  | outputOverflow
  deriving DecidableEq, Repr

/-- SINK: where the bit packer's bytes go (R15, R86). -/
inductive Sink where
  | raw
  | sub
  deriving DecidableEq, Repr

/-- One entry of TABLE: PREFIX (12 bits) and SUFFIX (8 bits) (R17). -/
structure TableEntry where
  prefixCode : BitVec 12
  suffix : Byte
  deriving DecidableEq, Repr

/-- A part of OUT that an abort left unspecified (R131): the bytes base + k, k < cap, with the draw of the abort. -/
structure FreeRegion where
  base : Word
  cap : Word
  draw : Nat
  deriving DecidableEq, Repr

/-- One turn of the system (R117): an engine operation, or one action of the host or the platform. -/
inductive Turn where
  /-- the engine performs the operation SEQ holds -/
  | engine
  /-- one access to the register window: direction, byte offset, width in bytes, and a write's data word (R40, R118, R119) -/
  | access (write : Bool) (offset : Nat) (bytes : Nat) (data : Word)
  /-- POLL: read a register until the masked word equals the value (R66) -/
  | poll (r : Reg) (mask value : Word)
  /-- the host writes one byte of IN (MEMW of R66) -/
  | writeIn (a : Nat) (v : Byte)
  /-- the host reads one byte of IN (R117 (a)) -/
  | readIn (a : Nat)
  /-- the host writes one byte of OUT (R33, R117 (a)) -/
  | writeOut (a : Nat) (v : Byte)
  /-- the host reads one byte of OUT (MEMR of R66) -/
  | readOut (a : Nat)
  /-- the platform asserts the reset input, or power returns (R141, R143) -/
  | resetInput
  deriving DecidableEq, Repr

/-! ### The state -/

/-- The whole system. Every field but the model's own (the last group) is named by a rule of the spec. -/
structure State where
  /-- SEQ, the code of the next operation (R14) -/
  seq : BitVec 8
  /-- JOB, the command the job runs (R15) -/
  job : BitVec 8
  /-- LOOPL, the loop flag of the command word (R15) -/
  loopL : Bool
  /-- FI, the current frame index (R15) -/
  fi : BitVec 16
  /-- PI, the index of the next symbol (R15) -/
  pi : BitVec 32
  /-- CUR_SRC, the IN address of the current source (R15) -/
  curSrc : Word
  /-- CUR_N, the number of symbols in the current source (R15) -/
  curN : BitVec 32
  /-- SINK (R15) -/
  sink : Sink
  /-- OUT_PTR, the number of bytes the job has written (R15) -/
  outPtr : BitVec 32
  /-- PLEN, the padded palette length (R15) -/
  plen : BitVec 9
  /-- MCS, the minimum code size m (R16) -/
  mcs : BitVec 4
  /-- CLEAR (R16) -/
  clearCode : BitVec 9
  /-- END (R16) -/
  endCode : BitVec 9
  /-- W, the code width (R16) -/
  w : BitVec 4
  /-- NEXT, the next available code number (R16) -/
  next : BitVec 13
  /-- ACC_VALID (R16) -/
  accValid : Bool
  /-- ACC_CODE (R16) -/
  accCode : BitVec 12
  /-- TABLE (R17): the entries that hold a meaning, by code, codes strictly rising -/
  table : List (Nat × TableEntry)
  /-- BITBUF (R18) -/
  bitBuf : Byte
  /-- BITCNT (R18) -/
  bitCnt : BitVec 3
  /-- CHUNK (R19): the bytes written since reset, by index, indexes strictly rising -/
  chunk : List (Nat × Byte)
  /-- CHUNK_LEN (R19) -/
  chunkLen : BitVec 8
  /-- STATUS.BUSY (R20, R23) -/
  busy : Bool
  /-- STATUS.DONE (R20, R23) -/
  done : Bool
  /-- STATUS.ERR (R20, R23) -/
  err : Bool
  /-- STATUS.ERRCODE (R23) -/
  errCode : ErrCode
  /-- STATUS.ERRFRAME (R23) -/
  errFrame : FrameIdx
  /-- CTRL.IE (R24) -/
  ie : Bool
  /-- WIDTH (R25) -/
  width : BitVec 16
  /-- HEIGHT (R25) -/
  height : BitVec 16
  /-- PAL_BASE (R25) -/
  palBase : Word
  /-- PAL_LEN (R25) -/
  palLen : BitVec 16
  /-- FRAME_BASE (R25) -/
  frameBase : Word
  /-- NFRAMES (R25) -/
  nframes : BitVec 16
  /-- SRC_BASE (R25) -/
  srcBase : Word
  /-- SRC_LEN (R25) -/
  srcLen : BitVec 32
  /-- OUT_BASE (R25) -/
  outBase : Word
  /-- OUT_CAP (R25) -/
  outCap : BitVec 32
  /-- OUT_LEN (R26) -/
  outLen : BitVec 32
  /-- LZW_LAST (R27): its bits [20:0]; bits [31:21] read 0 -/
  lzwLast : BitVec 21
  /-- IN (R32): the bytes the host wrote, by address, addresses strictly rising; not used where `outMem` backs IN too -/
  inMem : List Host.Cell
  /-- OUT (R32), or the one memory behind IN and OUT (R146 (f)): the bytes that hold a known value, by address, addresses
  strictly rising -/
  outMem : List Host.Cell
  /-- the parts of OUT that aborts left unspecified, the latest first (R131); a listed byte of OUT was written later -/
  outFree : List FreeRegion
  /-- MODEL'S OWN: the parameters of the build and its platform (R6), of which PARAMS reports some (R28); no step changes
  them -/
  build : Build
  /-- MODEL'S OWN: how many draws of free values were made; an accept and an abort advance it (U7, U10) -/
  draws : Nat
  /-- MODEL'S OWN: the turns still to come, the next first; when none is left the engine goes on (R117) -/
  agenda : List Turn
  /-- MODEL'S OWN: what the host's last read returned; a byte is zero-extended (R119) -/
  hostData : Word
  deriving DecidableEq, Repr

/-! ### The reasons a step stops -/

/-- Faults: states in which the spec gives the block no behaviour and says that reaching them is an error of the model.
All are safe (the machine stops where nothing is specified), and no job reaches one (log 11). -/
inductive Fault where
  /-- Raised by `step` when SEQ holds a code that is not in the operation table (R56, U15). Safe. -/
  | seqUnlisted
  /-- Raised by L.STEP on a symbol that is not below 2^MCS (R90, U16). Safe. -/
  | symbolOutOfRange
  /-- Raised by L.INIT, L.STEP, G.CHECK_FRAME, G.NEXT_FRAME and chunk_byte for a register write that does not fit the
  register's width (R10, U17). Safe. -/
  | registerOverflow
  deriving DecidableEq, Repr

/-- Refusals: host actions that the spec refuses, giving the program no meaning. All are safe. -/
inductive Refusal where
  /-- Raised by `exec` for an instruction without a meaning in this model (none is left). Safe. -/
  | notModelled (mnemonic : String)
  /-- Raised by `step` for a register access of another width, at an unaligned offset or above 0x3C (R40, U12). Safe. -/
  | registerAccess
  /-- Raised by `step` when the host writes an IN byte of the running job (R47 (b), R146 (a), U13), and where IN and OUT are
  one memory also when it writes that byte as a byte of OUT. Safe. -/
  | hostWritesJobInput
  /-- Raised by `step` when the host reads or writes the OUT region of the running job (R47 (b), R146 (a), U13), and where IN
  and OUT are one memory also when it does so through IN. Safe. -/
  | hostTouchesJobOutput
  /-- Raised by GIF_ENCODE and LZW_ENCODE, also as a write of CMD, when IN and OUT are one memory and the OUT region overlaps
  an IN byte the job reads (R146 (f), U14). Safe. -/
  | regionsOverlap
  deriving DecidableEq, Repr

/-! ### Reset -/

/-- The state after reset (R31, R143). TABLE and CHUNK are unspecified: nothing is listed in them. IN and OUT list
nothing, the build has the default parameters, no turn is waiting, and the host has read nothing (log 3, 4, 5, 10, 12). -/
def State.reset : State where
  seq := 0x00#8
  job := 0
  loopL := false
  fi := 0
  pi := 0
  curSrc := 0
  curN := 0
  sink := .raw
  outPtr := 0
  plen := 0
  mcs := 0
  clearCode := 0
  endCode := 0
  w := 0
  next := 0
  accValid := false
  accCode := 0
  table := []
  bitBuf := 0
  bitCnt := 0
  chunk := []
  chunkLen := 0
  busy := false
  done := false
  err := false
  errCode := .noError
  errFrame := noFrame
  ie := false
  width := 0
  height := 0
  palBase := 0
  palLen := 0
  frameBase := 0
  nframes := 0
  srcBase := 0
  srcLen := 0
  outBase := 0
  outCap := 0
  outLen := 0
  lzwLast := 0
  inMem := []
  outMem := []
  outFree := []
  build := Build.default
  draws := 0
  agenda := []
  hostData := 0

end Sys2Proof.Machine
end

