-- ==== Sys2Proof/Machine/Cells.lean ====
section
/-! DEFINITION. Sparse data by key: a list of (key, value) pairs with strictly rising keys, which holds IN, OUT, TABLE
and CHUNK; reading, writing and dropping keys; the canonical form. -/

namespace Sys2Proof.Machine

namespace Cells

/-- The value listed for a key. -/
def get {α : Type} : List (Nat × α) → Nat → Option α
  | [], _ => none
  | (k, v) :: rest, a => if k = a then some v else get rest a

/-- Lists a value for a key, in the key's place; a value listed before is replaced. -/
def put {α : Type} : List (Nat × α) → Nat → α → List (Nat × α)
  | [], a, v => [(a, v)]
  | (k, x) :: rest, a, v =>
    if a < k then (a, v) :: (k, x) :: rest
    else if a = k then (a, v) :: rest
    else (k, x) :: put rest a v

/-- Takes the keys that satisfy a test off the list. -/
def drop {α : Type} (cells : List (Nat × α)) (test : Nat → Bool) : List (Nat × α) :=
  cells.filter fun c => !test c.1

/-- The keys rise strictly. -/
abbrev Rising {α : Type} (cells : List (Nat × α)) : Prop :=
  cells.Pairwise fun c d => c.1 < d.1

/-- Every key is below a bound. -/
abbrev Below {α : Type} (cells : List (Nat × α)) (bound : Nat) : Prop :=
  ∀ c ∈ cells, c.1 < bound

end Cells

/-- The canonical form of IN and of OUT: addresses strictly rising and inside the space of 2^P_ADDR_BITS bytes (R32, R33).
What an unlisted address reads as is not a listed byte but a free value, so no entry can equal it. -/
abbrev Memory.wf (addrBits : Nat) (m : List Host.Cell) : Prop :=
  Cells.Rising m ∧ Cells.Below m (2 ^ addrBits)

end Sys2Proof.Machine
end

