-- ==== Sys2Proof/Machine/Operands.lean ====
section
/-! DEFINITION. Operands (R65): the bytes of IN and OUT, the little-endian fields (R36), the effective addresses (R42), the
fields of a frame entry (R35), and which bytes belong to the running job (R47 (b)). -/

namespace Sys2Proof.Machine

/-! ### Addresses (R33, R42) -/

/-- An address taken mod 2^P_ADDR_BITS (R9, R33). -/
def wrapAddr (s : State) (a : Nat) : Nat := a % 2 ^ s.build.addrBits

/-- base + k: a pixel of a frame, a symbol of the current source, a source byte, an output byte, a byte of a field. -/
def byteAddr (s : State) (base : Word) (k : Nat) : Nat := wrapAddr s (base.toNat + k)

/-- The address a is one of base + k, k < len, in a space of 2^bits bytes. -/
def inRegion (bits : Nat) (base : Word) (len a : Nat) : Bool :=
  decide (a < 2 ^ bits) && decide ((a + (2 ^ bits - base.toNat % 2 ^ bits)) % 2 ^ bits < len)

/-- Two regions have an address in common: neither is empty, and the start of one lies in the other. -/
def regionsMeet (bits : Nat) (base : Word) (len : Nat) (base' : Word) (len' : Nat) : Bool :=
  decide (0 < len) && decide (0 < len')
    && (inRegion bits base len (base'.toNat % 2 ^ bits) || inRegion bits base' len' (base.toNat % 2 ^ bits))

/-! ### Bytes of the spaces -/

/-- The draw of an OUT byte that holds no known value: that of the latest abort whose region it lies in, else 0. -/
def freeDraw (bits : Nat) : List FreeRegion → Nat → Nat
  | [], _ => 0
  | r :: rest, a => if inRegion bits r.base r.cap.toNat a then r.draw else freeDraw bits rest a

/-- One byte of OUT as the host reads it: a known byte, or the free value of its draw (R32, R131; log 5). -/
def outByteAt (s : State) (a : Nat) : Byte :=
  (Cells.get s.outMem a).getD (Config.outUnwritten (freeDraw s.build.addrBits s.outFree a) a)

/-- One byte of IN. A byte the host never wrote holds a free value, fixed for the job once drawn (R32, U7; log 4). Where
the platform backs IN and OUT with one memory, it is that memory's byte (R146 (f); log 14). -/
def inByte (s : State) (a : Nat) : Byte :=
  if s.build.sharedMemory then outByteAt s a
  else (Cells.get s.inMem a).getD (Config.inUnwritten s.draws a)

/-- One byte of CHUNK (R19). -/
def chunkAt (s : State) (k : Nat) : Byte :=
  (Cells.get s.chunk k).getD (Config.chunkUnwritten k)

/-- The bytes of the sub-block being filled: CHUNK[0 .. n-1]. -/
def chunkBytes (s : State) (n : Nat) : List Byte := (List.range n).map (chunkAt s)

/-! ### Little-endian fields -/

/-- MemRead(base + o, 2) (R9, R36). -/
def read16 (s : State) (base : Word) (o : Nat) : BitVec 16 :=
  inByte s (byteAddr s base (o + 1)) ++ inByte s (byteAddr s base o)

/-- MemRead(base + o, 4) (R9, R36). -/
def read32 (s : State) (base : Word) (o : Nat) : BitVec 32 :=
  inByte s (byteAddr s base (o + 3)) ++ inByte s (byteAddr s base (o + 2))
    ++ inByte s (byteAddr s base (o + 1)) ++ inByte s (byteAddr s base o)

/-- le16(v) = [v[7:0], v[15:8]] (R8). -/
def le16 (v : BitVec 16) : List Byte := [v.extractLsb' 0 8, v.extractLsb' 8 8]

/-- le32(v) (R8). -/
def le32 (v : BitVec 32) : List Byte :=
  [v.extractLsb' 0 8, v.extractLsb' 8 8, v.extractLsb' 16 8, v.extractLsb' 24 8]

/-! ### Effective addresses (R42) -/

/-- PAL_BASE + 3j + c. -/
def palAddr (s : State) (j c : Nat) : Nat := byteAddr s s.palBase (3 * j + c)

/-- The offset of the field at o of frame entry i from FRAME_BASE: 16i + o. -/
def entryOffset (i : BitVec 16) (o : Nat) : Nat := 16 * i.toNat + o

/-! ### The fields of frame entry i (R35) -/

/-- PIX_ADDR, at +0. -/
def pixAddr (s : State) (i : BitVec 16) : Word := read32 s s.frameBase (entryOffset i 0)
/-- PIX_LEN, at +4. -/
def pixLen (s : State) (i : BitVec 16) : BitVec 32 := read32 s s.frameBase (entryOffset i 4)
/-- DELAY, at +8. -/
def delay (s : State) (i : BitVec 16) : BitVec 16 := read16 s s.frameBase (entryOffset i 8)
/-- FLAGS, at +10. -/
def flags (s : State) (i : BitVec 16) : BitVec 16 := read16 s s.frameBase (entryOffset i 10)
/-- FW, at +12. -/
def frameWidth (s : State) (i : BitVec 16) : BitVec 16 := read16 s s.frameBase (entryOffset i 12)
/-- FH, at +14. -/
def frameHeight (s : State) (i : BitVec 16) : BitVec 16 := read16 s s.frameBase (entryOffset i 14)
/-- DIMS_PRESENT, bit 0 of FLAGS; the other bits are ignored. -/
def dimsPresent (s : State) (i : BitVec 16) : Bool := (flags s i).getLsbD 0

/-! ### Runs of symbols -/

/-- The `n` bytes of IN at base + k, base + k + 1, … -/
def inBytes (s : State) (base : Word) : (n k : Nat) → List Byte
  | 0, _ => []
  | n + 1, k => inByte s (byteAddr s base k) :: inBytes s base n (k + 1)

/-- Each of the `n` bytes of IN at base + k, base + k + 1, … is below the bound, read in address order up to the first
that is not (R87, R105). -/
def allBelow (s : State) (base : Word) (bound : Nat) : (n k : Nat) → Bool
  | 0, _ => true
  | n + 1, k => decide ((inByte s (byteAddr s base k)).toNat < bound) && allBelow s base bound n (k + 1)

/-! ### The job's bytes (R47 (b)) -/

/-- The regions of IN a job reads, as base and length: the palette, the frame table, and every pixel buffer the table
names; or the source. -/
def inputRegions (s : State) : List (Word × Nat) :=
  if s.job = opcGif then
    (s.palBase, 3 * s.palLen.toNat) :: (s.frameBase, 16 * s.nframes.toNat)
      :: (List.range s.nframes.toNat).map fun i => (pixAddr s (BitVec.ofNat 16 i), (pixLen s (BitVec.ofNat 16 i)).toNat)
  else [(s.srcBase, s.srcLen.toNat)]

/-- An IN byte of the running job, which the host must not write while BUSY = 1. -/
def jobInput (s : State) (a : Nat) : Bool :=
  (inputRegions s).any fun r => inRegion s.build.addrBits r.1 r.2 a

/-- An OUT byte of the running job, OUT_BASE + k with k < OUT_CAP, which the host must not touch while BUSY = 1. -/
def jobOutput (s : State) (a : Nat) : Bool := inRegion s.build.addrBits s.outBase s.outCap.toNat a

/-- IN and OUT are one memory and the OUT region has a byte of the job's inputs (R146 (f)). -/
def regionsOverlap (s : State) : Bool :=
  s.build.sharedMemory
    && (inputRegions s).any fun r => regionsMeet s.build.addrBits s.outBase s.outCap.toNat r.1 r.2

end Sys2Proof.Machine
end

