-- ==== Sys2Proof/Machine/Flags.lean ====
section
/-! DEFINITION. The flags and the words the host reads them in: STATUS, CTRL, LZW_LAST and PARAMS, the interrupt line,
and the write-1-to-clear of STATUS (R20 to R30). -/

namespace Sys2Proof.Machine

/-- code(E): the number of an error (R130). -/
def ErrCode.code : ErrCode → BitVec 8
  | .noError => 0x00
  | .invalidPaletteSize => 0x01
  | .pixelIndexOutOfRange => 0x02
  | .dimensionMismatch => 0x03
  | .codeWidthOverflow => 0x04
  | .illegalCommand => 0x05
  | .lzwSymbolOutOfRange => 0x06
  | .outputOverflow => 0x07

/-- A flag as a bit of a word. -/
def bit (b : Bool) : Word := (BitVec.ofBool b).setWidth 32

/-- The word STATUS reads: (ERRFRAME << 16) | (ERRCODE << 8) | (ERR << 2) | (DONE << 1) | BUSY (R23, R119). -/
def statusWord (s : State) : Word :=
  (s.errFrame.setWidth 32 <<< 16) ||| (s.errCode.code.setWidth 32 <<< 8)
    ||| (bit s.err <<< 2) ||| (bit s.done <<< 1) ||| bit s.busy

/-- The word CTRL reads (R24). -/
def ctrlWord (s : State) : Word := bit s.ie

/-- The bit of PARAMS that tells P_CODE_LIMIT: 1 for 2049 (R28). -/
def codeLimitBit : CodeLimit → Bool
  | .l4096 => false
  | .l2049 => true

/-- The bit of PARAMS that tells P_END_CODE_WIDTH: 1 for DECODER_ALIGNED (R28). -/
def endWidthBit : EndCodeWidth → Bool
  | .literal => false
  | .decoderAligned => true

/-- The word PARAMS reads (R28). -/
def paramsWord (s : State) : Word :=
  (bit (endWidthBit s.build.endCodeWidth) <<< 4) ||| (bit (codeLimitBit s.build.codeLimit) <<< 3)
    ||| s.build.colorRes.setWidth 32

/-- What L.PAD puts in LZW_LAST: (NEXT << 8) | (MCS << 4) | W (R27, R93). -/
def lzwLastOf (s : State) : BitVec 21 := s.next ++ s.mcs ++ s.w

/-- IRQ = CTRL.IE AND (STATUS.DONE OR STATUS.ERR): a level without state of its own (R30, R136). -/
def irq (s : State) : Bool := s.ie && (s.done || s.err)

/-- Writing 1 to STATUS bit 1: DONE <- 0 (R23). -/
def clearDone (s : State) : State := { s with done := false }

/-- Writing 1 to STATUS bit 2: ERR <- 0, ERRCODE <- 0x00, ERRFRAME <- 0xFFFF (R23). -/
def clearErr (s : State) : State := { s with err := false, errCode := .noError, errFrame := noFrame }

/-- A host write of STATUS: DONE, then ERR, where v has a 1; the other bits are ignored (R23, R118). -/
def writeStatus (v : Word) (s : State) : State :=
  let s := if v.getLsbD 1 then clearDone s else s
  if v.getLsbD 2 then clearErr s else s

end Sys2Proof.Machine
end

