-- ==== Sys2Proof/Machine/Ops.lean ====
section
/-! DEFINITION. The named procedures the operations share: the transfer `pc <- op`, raising an error and the abort (R131),
the illegal command (R132), reset (R143), the start of a job (R121), register reads and writes (R118, R119), writing OUT
(R102), the sub-block packer (R103), the bit packer (R83 to R86), and the lookup of the code table (R81). -/

namespace Sys2Proof.Machine

/-! ### The result of a procedure -/

/-- How a procedure ends: it went on; it raised an error, leaving the state as it stood there (R131); or it reached a
state the spec gives no behaviour (R10). -/
inductive Flow where
  | ok (s : State)
  | raise (e : ErrCode) (f : FrameIdx) (s : State)
  | fault (r : Fault)
  deriving DecidableEq, Repr

/-- Goes on with the next part only if the first part went on. -/
def Flow.andThen (x : Flow) (f : State → Flow) : Flow :=
  match x with
  | .ok s => f s
  | .raise e n s => .raise e n s
  | .fault r => .fault r

/-- `pc <- op` (R9, R14). -/
def goto (c : BitVec 8) (s : State) : State := { s with seq := c }

/-! ### Abort: the block's exception entry (R131) -/

/-- A part of OUT becomes unspecified: its known bytes are forgotten, and the region is noted with a fresh draw. -/
def forgetOut (base cap : Word) (s : State) : State :=
  { s with
    outMem := Cells.drop s.outMem (inRegion s.build.addrBits base cap.toNat)
    outFree := ⟨base, cap, s.draws + 1⟩ :: s.outFree
    draws := s.draws + 1 }

/-- abort(E, f): the error is recorded, the job ends, control goes to IDLE, and the bytes of the job's OUT region are
unspecified. The internal registers keep what the raising operation left (U11; log 7). -/
def abort (e : ErrCode) (f : FrameIdx) (s : State) : State :=
  goto SeqCode.idle
    { forgetOut s.outBase s.outCap s with
      err := true
      errCode := e
      errFrame := f
      done := false
      busy := false
      outLen := 0 }

/-- The end of an operation: the next state, or the state after the abort. There is no return from an abort (R133). -/
def Flow.close : Flow → Host.Outcome State Fault Refusal
  | .ok s => .next s
  | .raise e f s => .next (abort e f s)
  | .fault r => .fault r

/-- raise_illegal() (R132). -/
def raiseIllegal (s : State) : State :=
  { s with done := false, err := true, errCode := .illegalCommand, errFrame := noFrame, outLen := 0 }

/-! ### Reset (R125, R143) -/

/-- Every piece of the block's state takes its value of R31. IN, OUT, the build and the host's side are not changed
(log 13). -/
def resetBlock (s : State) : State :=
  { State.reset with
    inMem := s.inMem
    outMem := s.outMem
    outFree := s.outFree
    build := s.build
    draws := s.draws
    agenda := s.agenda
    hostData := s.hostData }

/-! ### The start of a job (R121) -/

/-- The part of accept(v) common to both commands; the unwritten bytes of IN are drawn for the job (U7). -/
def acceptCommon (job : BitVec 8) (s : State) : State :=
  { s with
    done := false
    err := false
    errCode := .noError
    errFrame := noFrame
    outLen := 0
    lzwLast := 0
    outPtr := 0
    busy := true
    job := job
    draws := s.draws + 1 }

/-- accept(v) for GIF_ENCODE, and the transfer to G.CHECK_PAL (R121, R123). -/
def acceptGif (loop : Bool) (s : State) : State :=
  goto SeqCode.gCheckPal { acceptCommon opcGif s with loopL := loop }

/-- accept(v) for LZW_ENCODE, and the transfer to L.CHECK_SRC (R121, R124). It writes LOOPL and FI, as R121's pseudocode
does, although R15's table does not name this accept in their rows (log 21). -/
def acceptLzw (m : BitVec 4) (s : State) : State :=
  goto SeqCode.lCheckSrc
    { acceptCommon opcLzw s with
      loopL := false
      mcs := m
      fi := 0
      curSrc := s.srcBase
      curN := s.srcLen
      sink := .raw }

/-- The accepted job starts, unless IN and OUT are one memory and its regions overlap: then the program is refused
(R146 (f), U14; log 14). -/
def startJob (accepted : State) : Host.Outcome State Fault Refusal :=
  if regionsOverlap accepted then .refused .regionsOverlap else .next accepted

/-- command(v): what a host write of v to CMD does (R120). -/
def command (v : Word) (s : State) : Host.Outcome State Fault Refusal :=
  if s.busy then .next (if v = 0x0000000F#32 then resetBlock s else s)
  else if illegalWord v then .next (raiseIllegal s)
  else if opcField v = opcNop then .next s
  else if opcField v = opcGif then startJob (acceptGif (loopField v) s)
  else if opcField v = opcLzw then startJob (acceptLzw (mField v) s)
  else .next (resetBlock s)

/-! ### Registers of the window (R21, R118, R119) -/

/-- The word a register reads. -/
def regRead (s : State) : Reg → Word
  | .cmd => 0
  | .status => statusWord s
  | .ctrl => ctrlWord s
  | .width => s.width.setWidth 32
  | .height => s.height.setWidth 32
  | .palBase => s.palBase
  | .palLen => s.palLen.setWidth 32
  | .frameBase => s.frameBase
  | .nframes => s.nframes.setWidth 32
  | .srcBase => s.srcBase
  | .srcLen => s.srcLen
  | .outBase => s.outBase
  | .outCap => s.outCap
  | .outLen => s.outLen
  | .lzwLast => s.lzwLast.setWidth 32
  | .params => paramsWord s

/-- A configuration write: dropped while a job runs (R25). -/
def configWrite (s : State) (written : State) : State := if s.busy then s else written

/-- A host write of the word v to a register other than CMD, which holds no state (R22). -/
def regWrite (r : Reg) (v : Word) (s : State) : State :=
  match r with
  | .cmd => s
  | .status => writeStatus v s
  | .ctrl => { s with ie := v.getLsbD 0 }
  | .width => configWrite s { s with width := v.setWidth 16 }
  | .height => configWrite s { s with height := v.setWidth 16 }
  | .palBase => configWrite s { s with palBase := v }
  | .palLen => configWrite s { s with palLen := v.setWidth 16 }
  | .frameBase => configWrite s { s with frameBase := v }
  | .nframes => configWrite s { s with nframes := v.setWidth 16 }
  | .srcBase => configWrite s { s with srcBase := v }
  | .srcLen => configWrite s { s with srcLen := v }
  | .outBase => configWrite s { s with outBase := v }
  | .outCap => configWrite s { s with outCap := v }
  | .outLen => s
  | .lzwLast => s
  | .params => s

/-! ### Output (R102) -/

/-- The operations during which an output byte belongs to a frame: G.GCE, G.IDESC, G.MINCODE, the L.* and B.TERM. -/
def frameOp (c : BitVec 8) : Bool :=
  c == SeqCode.gGce || c == SeqCode.gIdesc || c == SeqCode.gMincode || c == SeqCode.bTerm
  || c == SeqCode.lCheckSrc || c == SeqCode.lInit || c == SeqCode.lEmitClear || c == SeqCode.lStep
  || c == SeqCode.lFlushAcc || c == SeqCode.lEmitEnd || c == SeqCode.lPad

/-- frame_ctx(): the frame an output error is reported for (R102). -/
def frameCtx (s : State) : FrameIdx :=
  if s.job = opcGif ∧ frameOp s.seq = true then s.fi else noFrame

/-- frame_or_none(): the frame a code-width error is reported for (R83). -/
def frameOrNone (s : State) : FrameIdx := if s.job = opcGif then s.fi else noFrame

/-- MemWrite(a, 1, v) to OUT (R9, R42). -/
def writeOutByte (a : Nat) (v : Byte) (s : State) : State :=
  { s with outMem := Cells.put s.outMem a v }

/-- The next byte of the job's output lands at OUT_BASE + OUT_PTR, and OUT_PTR counts it. -/
def pushOut (v : Byte) (s : State) : State :=
  { writeOutByte (byteAddr s s.outBase s.outPtr.toNat) v s with outPtr := s.outPtr + 1 }

/-- out_byte(v) (R102). -/
def outByte (v : Byte) (s : State) : Flow :=
  if s.outPtr < s.outCap then .ok (pushOut v s)
  else .raise .outputOverflow (frameCtx s) s

/-- out_byte of each byte of a list, in order. -/
def outBytes : List Byte → State → Flow
  | [], s => .ok s
  | v :: rest, s => (outByte v s).andThen (outBytes rest)

/-! ### The sub-block packer (R103) -/

/-- CHUNK_LEN <- 0. -/
def emptyChunk (s : State) : State := { s with chunkLen := 0 }

/-- CHUNK[CHUNK_LEN] <- v; CHUNK_LEN <- CHUNK_LEN + 1. -/
def pushChunk (v : Byte) (s : State) : State :=
  { s with chunk := Cells.put s.chunk s.chunkLen.toNat v, chunkLen := s.chunkLen + 1 }

/-- Writes the sub-block being filled, its length byte first, and empties CHUNK. -/
def flushChunk (s : State) : Flow :=
  (outBytes (s.chunkLen :: chunkBytes s s.chunkLen.toNat) s).andThen fun t => .ok (emptyChunk t)

/-- chunk_byte(v). CHUNK has no byte 255, and CHUNK_LEN would not hold 256 (R10). -/
def chunkByte (v : Byte) (s : State) : Flow :=
  if s.chunkLen = 255#8 then .fault .registerOverflow
  else if (pushChunk v s).chunkLen = 255#8 then flushChunk (pushChunk v s)
  else .ok (pushChunk v s)

/-! ### The bit packer (R83 to R86) -/

/-- sink_byte(v) (R86). -/
def sinkByte (v : Byte) (s : State) : Flow :=
  match s.sink with
  | .raw => outByte v s
  | .sub => chunkByte v s

/-- BITBUF[BITCNT] <- b. -/
def setBit (b : Bool) (s : State) : State :=
  { s with bitBuf := (s.bitBuf &&& ~~~(1#8 <<< s.bitCnt.toNat))
                      ||| ((BitVec.ofBool b).setWidth 8 <<< s.bitCnt.toNat) }

/-- BITBUF <- 0; BITCNT <- 0. -/
def clearBits (s : State) : State := { s with bitBuf := 0, bitCnt := 0 }

/-- BITCNT <- BITCNT + 1. -/
def countBit (s : State) : State := { s with bitCnt := s.bitCnt + 1 }

/-- sink_byte(BITBUF); BITBUF <- 0; BITCNT <- 0. -/
def sinkBits (s : State) : Flow := (sinkByte s.bitBuf s).andThen fun t => .ok (clearBits t)

/-- put_bit(b) (R84). -/
def putBit (b : Bool) (s : State) : Flow :=
  if s.bitCnt = 7#3 then sinkBits (setBit b s) else .ok (countBit (setBit b s))

/-- put_bit of each bit of a list, in order. -/
def putBits : List Bool → State → Flow
  | [], s => .ok s
  | b :: rest, s => (putBit b s).andThen (putBits rest)

/-- The bits of code c at width w, least significant first: c[0], c[1], …, c[w-1] (R58, R76). -/
def codeBits (c w : Nat) : List Bool := (List.range w).map c.testBit

/-- emit(c, w) (R83). -/
def emit (c w : Nat) (s : State) : Flow :=
  if w ≤ Config.wMax ∧ c < 2 ^ w then putBits (codeBits c w) s
  else .raise .codeWidthOverflow (frameOrNone s) s

/-- pad() (R85). -/
def padBits (s : State) : Flow := if s.bitCnt = 0#3 then .ok s else sinkBits s

/-! ### The code table (R17, R81) -/

/-- The entry for code c is one lookup(p, x) may find: 2^MCS + 2 ≤ c < NEXT, c a code of TABLE, and TABLE[c] = (p, x). -/
def entryIs (s : State) (p : BitVec 12) (x : Byte) (c : Nat × TableEntry) : Bool :=
  decide (2 ^ s.mcs.toNat + 2 ≤ c.1 ∧ c.1 < s.next.toNat ∧ c.1 < Config.tableSize) && c.2 == ⟨p, x⟩

/-- lookup(p, x): the code whose entry is (p, x), or none (R81; log 18). -/
def lookup (s : State) (p : BitVec 12) (x : Byte) : Option (BitVec 12) :=
  (s.table.find? (entryIs s p x)).map fun c => BitVec.ofNat 12 c.1

end Sys2Proof.Machine
end

