-- ==== Sys2Proof/Machine/Gif.lean ====
section
/-! DEFINITION. Palette normalisation (R99), the section bytes (R59 to R63), and the meanings of the GIF writer's
operations and of B.TERM (R104 to R115). -/

namespace Sys2Proof.Machine

/-! ### Palette normalisation (R8, R99) -/

/-- The least j ≥ k with 2^j ≥ n, looked for in `fuel` steps. -/
def ceilLog2From (n : Nat) : (fuel k : Nat) → Nat
  | 0, k => k
  | fuel + 1, k => if n ≤ 2 ^ k then k else ceilLog2From n fuel (k + 1)

/-- ceil_log2(n): the least k ≥ 0 with 2^k ≥ n (R8). -/
def ceilLog2 (n : Nat) : Nat := ceilLog2From n n 0

/-- P = max(2, 2^ceil_log2(L_in)) (R99). -/
def paddedLen (len : Nat) : Nat := max Config.palMin (2 ^ ceilLog2 len)

/-- m = max(2, log2 P) (R99). -/
def minCodeSize (padded : Nat) : Nat := max Config.mMin (Nat.log2 padded)

/-- PAL_LEN is 1 to 256 (R100 (a)). -/
def palLenOk (s : State) : Bool := s.palLen.toNat ≠ 0 && s.palLen.toNat ≤ Config.palMax

/-! ### The section bytes (R59 to R63) -/

/-- "GIF89a". -/
def signature : List Byte := [0x47, 0x49, 0x46, 0x38, 0x39, 0x61]

/-- The legal values of PLEN (R15). -/
def legalPlen (p : BitVec 9) : Bool := p.toNat ∈ [2, 4, 8, 16, 32, 64, 128, 256]

/-- The size field of the screen descriptor: log2(P) - 1 (R60); of a PLEN no job has, a free value (log 8). -/
def sizeField (p : BitVec 9) : BitVec 3 :=
  if legalPlen p then BitVec.ofNat 3 (Nat.log2 p.toNat - 1) else Config.sizeFieldUnstated p

/-- PACKED_LSD: the table flag, P_COLOR_RES at [6:4], the sort flag 0, the size field (R60). -/
def packedLsd (colorRes : BitVec 3) (p : BitVec 9) : Byte := 1#1 ++ colorRes ++ 0#1 ++ sizeField p

/-- The logical screen descriptor (R59, R107). -/
def screenDescriptor (s : State) : List Byte :=
  le16 s.width ++ le16 s.height ++ [packedLsd s.build.colorRes s.plen, 0x00, 0x00]

/-- Entry j of the global color table: the supplied channels, or the filler (R108). -/
def tableEntryBytes (s : State) (j : Nat) : List Byte :=
  if j < s.palLen.toNat then
    [inByte s (palAddr s j 0), inByte s (palAddr s j 1), inByte s (palAddr s j 2)]
  else [s.build.filler.r, s.build.filler.g, s.build.filler.b]

/-- The global color table: P entries (R108). -/
def colorTable (s : State) : List Byte := (List.range s.plen.toNat).flatMap (tableEntryBytes s)

/-- The Netscape loop extension (R63). -/
def netscapeBlock : List Byte :=
  [0x21, 0xFF, 0x0B, 0x4E, 0x45, 0x54, 0x53, 0x43, 0x41, 0x50, 0x45, 0x32, 0x2E, 0x30, 0x03, 0x01, 0x00, 0x00, 0x00]

/-- A graphic control extension with the given delay (R59, R61). -/
def graphicControl (d : BitVec 16) : List Byte := [0x21, 0xF9, 0x04, 0x00] ++ le16 d ++ [0x00, 0x00]

/-- An image descriptor of the given size (R59, R62). -/
def imageDescriptor (wd ht : BitVec 16) : List Byte :=
  [0x2C, 0x00, 0x00, 0x00, 0x00] ++ le16 wd ++ le16 ht ++ [0x00]

/-! ### Validation and the header -/

/-- PLEN, MCS and FI for a legal palette (R104). -/
def setPalette (s : State) : State :=
  { s with
    plen := BitVec.ofNat 9 (paddedLen s.palLen.toNat)
    mcs := BitVec.ofNat 4 (minCodeSize (paddedLen s.palLen.toNat))
    fi := 0 }

/-- G.CHECK_PAL (R104). -/
def execGCheckPal (s : State) : Host.Outcome State Fault Refusal :=
  if palLenOk s then
    .next (goto (if s.nframes = 0 then SeqCode.gSig else SeqCode.gCheckFrame) (setPalette s))
  else (Flow.raise .invalidPaletteSize noFrame s).close

/-- PIX_LEN of frame i is WIDTH × HEIGHT, and its dimensions, where given, are WIDTH and HEIGHT (R100 (b), (c)). -/
def dimsOk (s : State) (i : BitVec 16) : Bool :=
  (pixLen s i).toNat = s.width.toNat * s.height.toNat
    && (!dimsPresent s i || (frameWidth s i == s.width && frameHeight s i == s.height))

/-- Every pixel of frame i is below PAL_LEN (R100 (d)). -/
def pixelsOk (s : State) (i : BitVec 16) : Bool :=
  allBelow s (pixAddr s i) s.palLen.toNat (pixLen s i).toNat 0

/-- FI <- FI + 1. -/
def nextFi (s : State) : State := { s with fi := s.fi + 1 }

/-- G.CHECK_FRAME (R105). FI would not hold 65536, which no job reaches (R10). -/
def execGCheckFrame (s : State) : Host.Outcome State Fault Refusal :=
  if dimsOk s s.fi = false then (Flow.raise .dimensionMismatch s.fi s).close
  else if pixelsOk s s.fi = false then (Flow.raise .pixelIndexOutOfRange s.fi s).close
  else if s.fi = 0xFFFF#16 then .fault .registerOverflow
  else
    .next (goto (if s.fi + 1 = s.nframes then SeqCode.gSig else SeqCode.gCheckFrame) (nextFi s))

/-- G.SIG (R106). -/
def execGSig (s : State) : Host.Outcome State Fault Refusal :=
  ((outBytes signature s).andThen fun t => .ok (goto SeqCode.gLsd { t with fi := 0 })).close

/-- G.LSD (R107). -/
def execGLsd (s : State) : Host.Outcome State Fault Refusal :=
  ((outBytes (screenDescriptor s) s).andThen fun t => .ok (goto SeqCode.gGct t)).close

/-- Where the header goes on: to the trailer without a frame, else to the first frame (R108, R109). -/
def firstFrame (s : State) : BitVec 8 := if s.nframes = 0 then SeqCode.gTrailer else SeqCode.gGce

/-- G.GCT (R108). -/
def execGGct (s : State) : Host.Outcome State Fault Refusal :=
  ((outBytes (colorTable s) s).andThen fun t =>
    .ok (goto (if t.loopL then SeqCode.gNetscape else firstFrame t) t)).close

/-- G.NETSCAPE (R109). -/
def execGNetscape (s : State) : Host.Outcome State Fault Refusal :=
  ((outBytes netscapeBlock s).andThen fun t => .ok (goto (firstFrame t) t)).close

/-! ### One frame -/

/-- G.GCE (R110). -/
def execGGce (s : State) : Host.Outcome State Fault Refusal :=
  ((outBytes (graphicControl (delay s s.fi)) s).andThen fun t => .ok (goto SeqCode.gIdesc t)).close

/-- G.IDESC (R111). -/
def execGIdesc (s : State) : Host.Outcome State Fault Refusal :=
  ((outBytes (imageDescriptor s.width s.height) s).andThen fun t => .ok (goto SeqCode.gMincode t)).close

/-- The frame's pixels become the current source, and the packer writes sub-blocks (R112). It writes CHUNK_LEN, as R112's
pseudocode does, although R19 does not name G.MINCODE as its writer (log 21). -/
def startImage (s : State) : State :=
  { s with curSrc := pixAddr s s.fi, curN := pixLen s s.fi, sink := .sub, chunkLen := 0 }

/-- G.MINCODE (R112). -/
def execGMincode (s : State) : Host.Outcome State Fault Refusal :=
  ((outByte (s.mcs.setWidth 8) s).andThen fun t => .ok (goto SeqCode.lInit (startImage t))).close

/-- B.TERM (R113). -/
def execBTerm (s : State) : Host.Outcome State Fault Refusal :=
  (((if s.chunkLen = 0 then .ok s else flushChunk s : Flow).andThen (outByte 0x00#8)).andThen fun t =>
    .ok (goto SeqCode.gNextFrame t)).close

/-- G.NEXT_FRAME (R114). FI would not hold 65536, which no job reaches (R10). -/
def execGNextFrame (s : State) : Host.Outcome State Fault Refusal :=
  if s.fi = 0xFFFF#16 then .fault .registerOverflow
  else .next (goto (if s.fi + 1 = s.nframes then SeqCode.gTrailer else SeqCode.gGce) (nextFi s))

/-- G.TRAILER (R115). -/
def execGTrailer (s : State) : Host.Outcome State Fault Refusal :=
  ((outByte 0x3B#8 s).andThen fun t => .ok (goto SeqCode.xFinish t)).close

end Sys2Proof.Machine
end

