-- ==== Sys2Proof/Machine/HostCommands.lean ====
section
/-! DEFINITION. The meanings of the command words, the two register transactions, IDLE and X.FINISH (R118 to R127). -/

namespace Sys2Proof.Machine

/-- A command other than SOFT_RESET is dropped without a trace while a job runs (R120). -/
def unlessBusy (s : State) (accepted : Host.Outcome State Fault Refusal) : Host.Outcome State Fault Refusal :=
  if s.busy then .next s else accepted

/-- NOP (R122): idle or busy, nothing changes. -/
def execNop (s : State) : Host.Outcome State Fault Refusal := .next s

/-- GIF_ENCODE loop=0 (R123). -/
def execGifEncodeLoop0 (s : State) : Host.Outcome State Fault Refusal :=
  unlessBusy s (startJob (acceptGif false s))

/-- GIF_ENCODE loop=1 (R123). -/
def execGifEncodeLoop1 (s : State) : Host.Outcome State Fault Refusal :=
  unlessBusy s (startJob (acceptGif true s))

/-- LZW_ENCODE m (R124). A word with M outside 2 to 8 is illegal (R55 (e)) and raises ILLEGAL_COMMAND
(log 19). -/
def execLzwEncode (m : BitVec 4) (s : State) : Host.Outcome State Fault Refusal :=
  unlessBusy s (if legalM m then startJob (acceptLzw m s) else .next (raiseIllegal s))

/-- SOFT_RESET (R125): accepted while a job runs too, which it abandons. -/
def execSoftReset (s : State) : Host.Outcome State Fault Refusal := .next (resetBlock s)

/-- WR (R118). A write of CMD issues its word as a command (R22). -/
def execWr (r : Reg) (v : Word) (s : State) : Host.Outcome State Fault Refusal :=
  match r with
  | .cmd => command v s
  | _ => .next (regWrite r v s)

/-- RD (R119): the word goes to the host, and the block does not change. -/
def execRd (r : Reg) (s : State) : Host.Outcome State Fault Refusal :=
  .next { s with hostData := regRead s r }

/-- IDLE (R126): no operation runs. -/
def execIdle (s : State) : Host.Outcome State Fault Refusal := .next s

/-- X.FINISH (R127): the job ends without error. -/
def execXFinish (s : State) : Host.Outcome State Fault Refusal :=
  .next (goto SeqCode.idle { s with outLen := s.outPtr, done := true, busy := false })

end Sys2Proof.Machine
end

