-- ==== Sys2Proof/Machine/Lzw.lean ====
section
/-! DEFINITION. The meanings of the LZW encoder's seven operations (R87 to R93). -/

namespace Sys2Proof.Machine

/-- L.CHECK_SRC (R87). -/
def execLCheckSrc (s : State) : Host.Outcome State Fault Refusal :=
  if allBelow s s.srcBase (2 ^ s.mcs.toNat) s.srcLen.toNat 0 then .next (goto SeqCode.lInit s)
  else (Flow.raise .lzwSymbolOutOfRange noFrame s).close

/-- The registers L.INIT sets for a pass: the reserved codes and first width of R68, an empty table (R69), an empty
accumulator and an empty bit buffer. It writes ACC_CODE, BITBUF and BITCNT, as R88's pseudocode does, although R16's table
and R18 do not name L.INIT as their writer (log 21). -/
def startPass (s : State) : State :=
  { s with
    clearCode := 1#9 <<< s.mcs.toNat
    endCode := (1#9 <<< s.mcs.toNat) + 1
    w := s.mcs + 1
    next := (1#13 <<< s.mcs.toNat) + 2
    table := []
    accValid := false
    accCode := 0
    bitBuf := 0
    bitCnt := 0
    pi := 0 }

/-- L.INIT (R88). END would not hold 2^MCS + 1 for an MCS above 8, which no job has (R10). -/
def execLInit (s : State) : Host.Outcome State Fault Refusal :=
  if s.mcs.toNat ≤ Config.mMax then .next (goto SeqCode.lEmitClear (startPass s))
  else .fault .registerOverflow

/-- L.EMIT_CLEAR (R89). -/
def execLEmitClear (s : State) : Host.Outcome State Fault Refusal :=
  ((emit s.clearCode.toNat s.w.toNat s).andThen fun t =>
    .ok (goto (if t.curN = 0 then SeqCode.lFlushAcc else SeqCode.lStep) t)).close

/-- `if NEXT > 2^W and W < 12: W <- W + 1` (R72). -/
def widen (s : State) : State :=
  if s.next.toNat > 2 ^ s.w.toNat ∧ s.w.toNat < Config.wMax then { s with w := s.w + 1 } else s

/-- TABLE[NEXT] <- (ACC_CODE, x); NEXT <- NEXT + 1 (R90). -/
def insertEntry (x : Byte) (s : State) : State :=
  { s with table := Cells.put s.table s.next.toNat ⟨s.accCode, x⟩, next := s.next + 1 }

/-- The insertion of the extended sequence and the widening, while the table still grows (R72, R73). -/
def grow (x : Byte) (s : State) : State :=
  if s.next.toNat < s.build.codeLimit.toNat then widen (insertEntry x s) else s

/-- ACC_CODE <- x: the accumulator is the one symbol x. -/
def restartAcc (x : Byte) (s : State) : State := { s with accCode := x.setWidth 12 }

/-- One input symbol extends the accumulator, or ends it and starts the next one (R71, R90). -/
def consume (x : Byte) (s : State) : Flow :=
  if s.accValid then
    match lookup s s.accCode x with
    | some h => .ok { s with accCode := h }
    | none => (emit s.accCode.toNat s.w.toNat s).andThen fun t => .ok (restartAcc x (grow x t))
  else .ok { restartAcc x s with accValid := true }

/-- L.STEP (R90). A symbol that is not below 2^MCS is a fault of the model (U16), and so is a PI that would not fit its
register (R10). -/
def execLStep (s : State) : Host.Outcome State Fault Refusal :=
  if (inByte s (byteAddr s s.curSrc s.pi.toNat)).toNat < 2 ^ s.mcs.toNat then
    if s.pi = 0xFFFFFFFF#32 then .fault .registerOverflow
    else
      ((consume (inByte s (byteAddr s s.curSrc s.pi.toNat)) { s with pi := s.pi + 1 }).andThen fun t =>
        .ok (goto (if t.pi = t.curN then SeqCode.lFlushAcc else SeqCode.lStep) t)).close
  else .fault .symbolOutOfRange

/-- The accumulator's code is written and the accumulator is empty (R91). -/
def flushAcc (s : State) : Flow :=
  if s.accValid then
    (emit s.accCode.toNat s.w.toNat s).andThen fun t => .ok { t with accValid := false }
  else .ok s

/-- L.FLUSH_ACC (R91). -/
def execLFlushAcc (s : State) : Host.Outcome State Fault Refusal :=
  ((flushAcc s).andThen fun t => .ok (goto SeqCode.lEmitEnd t)).close

/-- The width of the end code: W, or W + 1 under DECODER_ALIGNED when NEXT = 2^W and W < 12 (R78, R92). -/
def endWidth (s : State) : Nat :=
  if s.build.endCodeWidth = .decoderAligned ∧ s.next.toNat = 2 ^ s.w.toNat ∧ s.w.toNat < Config.wMax
  then s.w.toNat + 1 else s.w.toNat

/-- L.EMIT_END (R92). -/
def execLEmitEnd (s : State) : Host.Outcome State Fault Refusal :=
  ((emit s.endCode.toNat (endWidth s) s).andThen fun t => .ok (goto SeqCode.lPad t)).close

/-- The operation that follows a pass: X.FINISH for RAW, B.TERM for SUB (R93). -/
def afterPass : Sink → BitVec 8
  | .raw => SeqCode.xFinish
  | .sub => SeqCode.bTerm

/-- L.PAD (R93). -/
def execLPad (s : State) : Host.Outcome State Fault Refusal :=
  ((padBits s).andThen fun t => .ok (goto (afterPass t.sink) { t with lzwLast := lzwLastOf t })).close

end Sys2Proof.Machine
end

