-- ==== Sys2Proof/Machine/Dispatch.lean ====
section
/-! DEFINITION. One arm per instruction: its meaning. -/

namespace Sys2Proof.Machine

def exec (i : Instr) (s : State) : Host.Outcome State Fault Refusal :=
  match i with
  | .nop => Sys2Proof.Machine.execNop s
  | .gifEncodeLoop0 => Sys2Proof.Machine.execGifEncodeLoop0 s
  | .gifEncodeLoop1 => Sys2Proof.Machine.execGifEncodeLoop1 s
  | .lzwEncode m => Sys2Proof.Machine.execLzwEncode m s
  | .softReset => Sys2Proof.Machine.execSoftReset s
  | .wr r v => Sys2Proof.Machine.execWr r v s
  | .rd r => Sys2Proof.Machine.execRd r s
  | .idle => Sys2Proof.Machine.execIdle s
  | .lCheckSrc => Sys2Proof.Machine.execLCheckSrc s
  | .lInit => Sys2Proof.Machine.execLInit s
  | .lEmitClear => Sys2Proof.Machine.execLEmitClear s
  | .lStep => Sys2Proof.Machine.execLStep s
  | .lFlushAcc => Sys2Proof.Machine.execLFlushAcc s
  | .lEmitEnd => Sys2Proof.Machine.execLEmitEnd s
  | .lPad => Sys2Proof.Machine.execLPad s
  | .gCheckPal => Sys2Proof.Machine.execGCheckPal s
  | .gCheckFrame => Sys2Proof.Machine.execGCheckFrame s
  | .gSig => Sys2Proof.Machine.execGSig s
  | .gLsd => Sys2Proof.Machine.execGLsd s
  | .gGct => Sys2Proof.Machine.execGGct s
  | .gNetscape => Sys2Proof.Machine.execGNetscape s
  | .gGce => Sys2Proof.Machine.execGGce s
  | .gIdesc => Sys2Proof.Machine.execGIdesc s
  | .gMincode => Sys2Proof.Machine.execGMincode s
  | .bTerm => Sys2Proof.Machine.execBTerm s
  | .gNextFrame => Sys2Proof.Machine.execGNextFrame s
  | .gTrailer => Sys2Proof.Machine.execGTrailer s
  | .xFinish => Sys2Proof.Machine.execXFinish s

end Sys2Proof.Machine
end

