-- ==== Sys2Proof/Machine/HostTurns.lean ====
section
/-! DEFINITION. What the system runs next (R117): the operation SEQ holds, the instruction a register access stands for,
the host's accesses to IN and OUT, a POLL, and the reset input; and how a table word is laid where `step` fetches. -/

namespace Sys2Proof.Machine

/-- The operation SEQ holds (R14, R56). -/
def engineInstr (s : State) : Except Fault Instr :=
  match decode (.seq s.seq) with
  | .ok i => .ok i
  | .error _ => .error .seqUnlisted

/-- A write to CMD issues its word as a command: if the word is legal, it is that command (R22). -/
def issued (i : Instr) : Instr :=
  match i with
  | .wr .cmd v =>
    match decode (.cmd v) with
    | .ok c => c
    | .error _ => i
  | _ => i

/-- The access is one aligned 32-bit word at an offset from 0x00 to 0x3C (R40). -/
def accessOk (offset bytes : Nat) : Bool := bytes = 4 && offset % 4 = 0 && offset ≤ 0x3C

/-- The instruction a register access stands for; any other access is refused (R40, R52). -/
def accessInstr (write : Bool) (offset bytes : Nat) (data : Word) : Except Refusal Instr :=
  if accessOk offset bytes then
    match decode (.bus (BitVec.ofBool write ++ BitVec.ofNat 6 offset) (if write then some data else none)) with
    | .ok i => .ok (issued i)
    | .error _ => .error .registerAccess
  else .error .registerAccess

/-- MemWrite(a, 1, v) by the host to IN, or to the one memory behind IN and OUT (R9, R146 (f)). -/
def writeInByte (a : Nat) (v : Byte) (s : State) : State :=
  if s.build.sharedMemory then writeOutByte a v s else { s with inMem := Cells.put s.inMem a v }

/-- What the host's last read returned, a byte zero-extended. -/
def giveByte (v : Byte) (s : State) : State := { s with hostData := v.setWidth 32 }

/-- The host must not write the byte of IN: a job runs and reads it (R47 (b)). -/
def lockedInput (s : State) (a : Nat) : Bool := s.busy && jobInput s a

/-- The host must not touch the byte of OUT: a job runs and it lies in the job's region (R47 (b)). -/
def lockedOutput (s : State) (a : Nat) : Bool := s.busy && jobOutput s a

/-- The host writes one byte of IN, if it may (R47 (b)). In one memory the byte is OUT's too (log 14). -/
def hostWriteIn (a : Nat) (v : Byte) (s : State) : Host.Outcome State Fault Refusal :=
  if lockedInput s (wrapAddr s a) then .refused .hostWritesJobInput
  else if s.build.sharedMemory && lockedOutput s (wrapAddr s a) then .refused .hostTouchesJobOutput
  else .next (writeInByte (wrapAddr s a) v s)

/-- The host reads one byte of IN, at any time (R47 (b) forbids only writes; log 6). In one memory the byte is OUT's too
(log 14). -/
def hostReadIn (a : Nat) (s : State) : Host.Outcome State Fault Refusal :=
  if s.build.sharedMemory && lockedOutput s (wrapAddr s a) then .refused .hostTouchesJobOutput
  else .next (giveByte (inByte s (wrapAddr s a)) s)

/-- The host writes one byte of OUT, if it may (R33, R47 (b); log 6). In one memory the byte is IN's too (log 14). -/
def hostWriteOut (a : Nat) (v : Byte) (s : State) : Host.Outcome State Fault Refusal :=
  if lockedOutput s (wrapAddr s a) then .refused .hostTouchesJobOutput
  else if s.build.sharedMemory && lockedInput s (wrapAddr s a) then .refused .hostWritesJobInput
  else .next (writeOutByte (wrapAddr s a) v s)

/-- The host reads one byte of OUT; while a job runs, not in the job's region (R47 (b)). -/
def hostReadOut (a : Nat) (s : State) : Host.Outcome State Fault Refusal :=
  if lockedOutput s (wrapAddr s a) then .refused .hostTouchesJobOutput
  else .next (giveByte (outByteAt s (wrapAddr s a)) s)

/-- After one read of a POLL: done if the masked word equals the value, else an engine turn and the poll again (R66;
log 2). -/
def pollAgain (r : Reg) (mask value : Word) (s : State) : State :=
  if s.hostData &&& mask = value then s
  else { s with agenda := .engine :: .poll r mask value :: s.agenda }

/-- The reset input (R143): the same effect as SOFT_RESET. -/
def hardReset (s : State) : Host.Outcome State Fault Refusal := .next (resetBlock s)

/-- A turn put before all others. -/
def State.withTurn (s : State) (t : Turn) : State := { s with agenda := t :: s.agenda }

/-- The access a bus pattern stands for. -/
def busTurn (p : BitVec 7) (data : Option Word) : Turn :=
  .access (p.getLsbD 6) (p.extractLsb' 0 6).toNat 4 (data.getD 0)

/-- The word laid where `step` takes its next instruction: a command word is written to CMD, a bus access is the host's
next turn, and a code goes into SEQ with an engine turn next. -/
def State.withEncoded (s : State) : Encoded → State
  | .cmd v => s.withTurn (.access true Reg.cmd.offset 4 v)
  | .bus p data => s.withTurn (busTurn p data)
  | .seq c => { s with seq := c }.withTurn .engine

end Sys2Proof.Machine
end

