-- ==== Sys2Proof/Machine/Step.lean ====
section
/-! DEFINITION. One step of the system (R117): the next turn of the agenda, or, when none waits, an engine operation. -/

namespace Sys2Proof.Machine

/-- An engine turn: the operation SEQ holds, run to completion (R117 (b)). -/
def runEngine (s : State) : Host.Outcome State Fault Refusal :=
  match engineInstr s with
  | .ok i => exec i s
  | .error f => .fault f

/-- A register access of the host (R117 (a)). -/
def runAccess (write : Bool) (offset bytes : Nat) (data : Word) (s : State) : Host.Outcome State Fault Refusal :=
  match accessInstr write offset bytes data with
  | .ok i => exec i s
  | .error r => .refused r

/-- One try of a POLL: a register read, then the test (R66). -/
def runPoll (r : Reg) (mask value : Word) (s : State) : Host.Outcome State Fault Refusal :=
  match exec (.rd r) s with
  | .next t => .next (pollAgain r mask value t)
  | .fault f => .fault f
  | .refused f => .refused f

/-- One turn. -/
def runTurn (t : Turn) (s : State) : Host.Outcome State Fault Refusal :=
  match t with
  | .engine => runEngine s
  | .access write offset bytes data => runAccess write offset bytes data s
  | .poll r mask value => runPoll r mask value s
  | .writeIn a v => hostWriteIn a v s
  | .readIn a => hostReadIn a s
  | .writeOut a v => hostWriteOut a v s
  | .readOut a => hostReadOut a s
  | .resetInput => hardReset s

/-- One step: the first turn of the agenda is taken off it and run; without one the engine runs, which is how the engine
makes progress (R117, R151). -/
def step (s : State) : Host.Outcome State Fault Refusal :=
  match s.agenda with
  | [] => runEngine s
  | t :: rest => runTurn t { s with agenda := rest }

/-- The state in which the very next step runs the instruction of a table word. A word of no format changes nothing
(log 1). -/
def State.withFetchWord (s : State) (nbits w : Nat) : State :=
  match ofTableWord nbits w with
  | some e => s.withEncoded e
  | none => s

end Sys2Proof.Machine
end

