-- ==== Sys2Proof/Machine/Normative.lean ====
section
/-! DEFINITION. The functions the spec makes normative for the block's output: `lzw_codes`, `bits`, `pack` and `lzw_bytes`
(R77), `subblocks` (R101) and `gif_stream` (R96), with the inputs of a job read from the registers and IN (R95). The
machine does not call them; statements compare what the machine writes with them. -/

namespace Sys2Proof.Machine

/-! ### The LZW encoder as a function (R68 to R77) -/

/-- The variables of `lzw_codes`. -/
structure LzwRun where
  dict : List (List Byte × Nat)
  nextCode : Nat
  width : Nat
  out : List (Nat × Nat)
  acc : List Byte
  deriving DecidableEq, Repr

/-- The code `dict` maps a sequence to. -/
def dictGet (dict : List (List Byte × Nat)) (l : List Byte) : Option Nat :=
  (dict.find? fun e => e.1 == l).map fun e => e.2

/-- dict[l], where l is in dict; R80 shows that it is wherever `lzw_codes` reads it. -/
def codeOf (dict : List (List Byte × Nat)) (l : List Byte) : Nat := (dictGet dict l).getD 0

/-- The start: one entry per literal, the clear code written, the accumulator empty (R68, R69, R70). -/
def lzwStart (m : Nat) : LzwRun where
  dict := (List.range (2 ^ m)).map fun x => ([BitVec.ofNat 8 x], x)
  nextCode := 2 ^ m + 2
  width := m + 1
  out := [(2 ^ m, m + 1)]
  acc := []

/-- The insertion of a sequence and the widening of R72, while next < P_CODE_LIMIT (R73). -/
def lzwInsert (limit : Nat) (ext : List Byte) (r : LzwRun) : LzwRun :=
  if r.nextCode < limit then
    { r with
      dict := r.dict ++ [(ext, r.nextCode)]
      nextCode := r.nextCode + 1
      width := if r.nextCode + 1 > 2 ^ r.width ∧ r.width < Config.wMax then r.width + 1 else r.width }
  else r

/-- One symbol (R71). -/
def lzwSymbol (limit : Nat) (r : LzwRun) (x : Byte) : LzwRun :=
  match dictGet r.dict (r.acc ++ [x]) with
  | some _ => { r with acc := r.acc ++ [x] }
  | none =>
    { lzwInsert limit (r.acc ++ [x]) { r with out := r.out ++ [(codeOf r.dict r.acc, r.width)] } with acc := [x] }

/-- The rest of the accumulator, if any, is written (R74). -/
def lzwFlush (r : LzwRun) : LzwRun :=
  if r.acc = [] then r else { r with out := r.out ++ [(codeOf r.dict r.acc, r.width)] }

/-- The width of the end code (R74, R78). -/
def lzwEndWidth (ecw : EndCodeWidth) (r : LzwRun) : Nat :=
  if ecw = .decoderAligned ∧ r.nextCode = 2 ^ r.width ∧ r.width < Config.wMax then r.width + 1 else r.width

/-- The run over the data, the end code not yet written. -/
def lzwRun (b : Build) (data : List Byte) (m : Nat) : LzwRun :=
  lzwFlush (data.foldl (lzwSymbol b.codeLimit.toNat) (lzwStart m))

/-- lzw_codes(data, m): the codes with their widths (R77). -/
def lzwCodes (b : Build) (data : List Byte) (m : Nat) : List (Nat × Nat) :=
  (lzwRun b data m).out ++ [(2 ^ m + 1, lzwEndWidth b.endCodeWidth (lzwRun b data m))]

/-- bits(codes) (R77). -/
def bitsOf (codes : List (Nat × Nat)) : List Bool := codes.flatMap fun c => codeBits c.1 c.2

/-- Byte j of pack: b_j[i] = bl[8j+i], or 0 past the end (R77). -/
def packByte (bl : List Bool) (j : Nat) : Byte :=
  (List.range 8).foldr (fun i acc => acc ||| (BitVec.ofBool (bl.getD (8 * j + i) false)).setWidth 8 <<< i) 0

/-- pack(bl): ⌈len/8⌉ bytes (R76, R77). -/
def pack (bl : List Bool) : List Byte := (List.range ((bl.length + 7) / 8)).map (packByte bl)

/-- lzw_bytes(data, m) (R77). -/
def lzwBytes (b : Build) (data : List Byte) (m : Nat) : List Byte := pack (bitsOf (lzwCodes b data m))

/-! ### Sub-blocks (R101) -/

/-- The loop of `subblocks`, at most `fuel` times. -/
def subblocksFrom : (fuel : Nat) → List Byte → List Byte
  | 0, _ => [0x00]
  | fuel + 1, d =>
    if d = [] then [0x00]
    else
      BitVec.ofNat 8 (min Config.subMax d.length) :: d.take (min Config.subMax d.length)
        ++ subblocksFrom fuel (d.drop (min Config.subMax d.length))

/-- subblocks(d): a round takes at least one byte, so d.length rounds are enough (R101). -/
def subblocks (d : List Byte) : List Byte := subblocksFrom d.length d

/-! ### The GIF stream (R96) -/

/-- A frame as the writer sees it: its pixels and its delay (R95). -/
structure Frame where
  pix : List Byte
  delay : BitVec 16
  deriving DecidableEq, Repr

/-- An animation: what a GIF_ENCODE job is given (R95). -/
structure Animation where
  palette : List Rgb
  width : BitVec 16
  height : BitVec 16
  loop : Bool
  frames : List Frame
  deriving DecidableEq, Repr

/-- The three bytes of a palette entry. -/
def rgbBytes (c : Rgb) : List Byte := [c.r, c.g, c.b]

/-- Entry j of the padded table (R99). -/
def paddedEntry (b : Build) (pal : List Rgb) (j : Nat) : Rgb := pal.getD j b.filler

/-- The bytes of one frame: control extension, image descriptor, code size, sub-blocks (R96). -/
def frameBytes (b : Build) (a : Animation) (m : Nat) (f : Frame) : List Byte :=
  graphicControl f.delay ++ imageDescriptor a.width a.height ++ [BitVec.ofNat 8 m]
    ++ subblocks (lzwBytes b f.pix m)

/-- The bytes before the first frame (R96). -/
def headerBytes (b : Build) (a : Animation) : List Byte :=
  signature ++ le16 a.width ++ le16 a.height
    ++ [packedLsd b.colorRes (BitVec.ofNat 9 (paddedLen a.palette.length)), 0x00, 0x00]
    ++ (List.range (paddedLen a.palette.length)).flatMap (fun j => rgbBytes (paddedEntry b a.palette j))
    ++ (if a.loop then netscapeBlock else [])

/-- gif_stream(…) (R96). -/
def gifStream (b : Build) (a : Animation) : List Byte :=
  headerBytes b a
    ++ a.frames.flatMap (frameBytes b a (minCodeSize (paddedLen a.palette.length)))
    ++ [0x3B]

/-! ### A job's inputs (R95) -/

/-- Palette entry j as IN holds it (R35). -/
def paletteEntry (s : State) (j : Nat) : Rgb :=
  ⟨inByte s (palAddr s j 0), inByte s (palAddr s j 1), inByte s (palAddr s j 2)⟩

/-- Frame i as the frame table names it (R35). -/
def frameAt (s : State) (i : Nat) : Frame :=
  ⟨inBytes s (pixAddr s (BitVec.ofNat 16 i)) (pixLen s (BitVec.ofNat 16 i)).toNat 0, delay s (BitVec.ofNat 16 i)⟩

/-- The Animation of a GIF_ENCODE job (R95). -/
def animationOf (s : State) (loop : Bool) : Animation where
  palette := (List.range s.palLen.toNat).map (paletteEntry s)
  width := s.width
  height := s.height
  loop := loop
  frames := (List.range s.nframes.toNat).map (frameAt s)

/-- The source of an LZW_ENCODE job (R35). -/
def sourceOf (s : State) : List Byte := inBytes s s.srcBase s.srcLen.toNat 0

/-- The inputs of a GIF_ENCODE job pass the checks of R100. -/
def gifValid (s : State) : Prop :=
  palLenOk s = true
    ∧ ∀ i < s.nframes.toNat, dimsOk s (BitVec.ofNat 16 i) = true ∧ pixelsOk s (BitVec.ofNat 16 i) = true

/-- The source of an LZW_ENCODE job with minimum code size m passes L.CHECK_SRC (R87). -/
def lzwValid (s : State) (m : Nat) : Prop := ∀ x ∈ sourceOf s, x.toNat < 2 ^ m

/-- The `n` OUT bytes from OUT_BASE on, as the host reads them. -/
def outBytesFrom (s : State) (n : Nat) : List Byte :=
  (List.range n).map fun k => outByteAt s (byteAddr s s.outBase k)

end Sys2Proof.Machine
end

