-- ==== Sys2Proof/Safety.lean ====
section
/-! DEFINITION. The terms the statements use: what an operation wrote to OUT, the bits and bytes still held by the packers,
which part of a job SEQ stands in, and the invariant of the system (R18, R19, R20, R23, R26, R57, R79, R80, R81, R147). -/

namespace Sys2Proof.Machine

/-! ### What an operation wrote -/

/-- The bytes `bs`, and nothing else, were written to OUT at OUT_BASE + OUT_PTR onwards, and OUT_PTR counts them (R102).
The first clause also says that OUT_PTR did not wrap. In the second, no later byte of `bs` has byte k's address: a space may
be smaller than the bytes written, and the last byte written to an address is the one that stands there (R9, R33). -/
def WroteOut (s t : State) (bs : List Byte) : Prop :=
  t.outPtr.toNat = s.outPtr.toNat + bs.length
    ∧ (∀ k v, bs[k]? = some v →
        (∀ j, k < j → j < bs.length →
          byteAddr s s.outBase (s.outPtr.toNat + j) ≠ byteAddr s s.outBase (s.outPtr.toNat + k)) →
        outByteAt t (byteAddr s s.outBase (s.outPtr.toNat + k)) = v)
    ∧ ∀ a, (∀ k < bs.length, a ≠ byteAddr s s.outBase (s.outPtr.toNat + k)) → outByteAt t a = outByteAt s a

/-- `n` more bytes fit below OUT_CAP; no byte always fits, since only a written byte is checked (R102). -/
abbrev Fits (s : State) (n : Nat) : Prop := n = 0 ∨ s.outPtr.toNat + n ≤ s.outCap.toNat

/-- Only SEQ, OUT and OUT_PTR changed. -/
def OnlyOut (s t : State) : Prop :=
  t = { s with seq := t.seq, outMem := t.outMem, outPtr := t.outPtr }

/-- Only SEQ, OUT, OUT_PTR, the bit packer and the chunk buffer changed. -/
def OnlyPacker (s t : State) : Prop :=
  t = { s with
    seq := t.seq, outMem := t.outMem, outPtr := t.outPtr, bitBuf := t.bitBuf, bitCnt := t.bitCnt,
    chunk := t.chunk, chunkLen := t.chunkLen }

/-! ### What the packers hold -/

/-- The bits of the unfinished last byte, first to last: BITBUF[0], …, BITBUF[BITCNT-1] (R18). -/
def heldBits (s : State) : List Bool := (List.range s.bitCnt.toNat).map fun i => s.bitBuf.getLsbD i

/-- BITBUF[7:BITCNT] is 0 (R18). -/
abbrev BitsClean (s : State) : Prop := ∀ i < 8, s.bitCnt.toNat ≤ i → s.bitBuf.getLsbD i = false

/-- The bytes of the sub-block being filled (R19). -/
def heldChunk (s : State) : List Byte := chunkBytes s s.chunkLen.toNat

/-- The whole bytes of a bit sequence, in order (R37). -/
def wholeBytes (bl : List Bool) : List Byte := (List.range (bl.length / 8)).map (packByte bl)

/-- The bits after the last whole byte. -/
def leftBits (bl : List Bool) : List Bool := bl.drop (8 * (bl.length / 8))

/-- What the sub-block packer writes, and what it then holds, when `bs` follow the bytes `held` (R103). -/
def chunked : (held bs : List Byte) → List Byte × List Byte
  | held, [] => ([], held)
  | held, v :: rest =>
    if held.length + 1 = Config.subMax then
      ((0xFF#8 :: (held ++ [v])) ++ (chunked [] rest).1, (chunked [] rest).2)
    else chunked (held ++ [v]) rest

/-- What a sink writes to OUT, and what the chunk buffer then holds, for the packed bytes `bs` (R86). -/
def sunk (k : Sink) (held bs : List Byte) : List Byte × List Byte :=
  match k with
  | .raw => (bs, held)
  | .sub => chunked held bs

/-- The bytes that leave for OUT, and the chunk after them, when the bits `bl` follow the held ones. -/
def sunkBits (s : State) (bl : List Bool) : List Byte × List Byte :=
  sunk s.sink (heldChunk s) (wholeBytes (heldBits s ++ bl))

/-- The bits `bl` were appended to the flat bit sequence: its whole bytes went to the sink, the rest is held (R84, R86). -/
def Appended (s t : State) (bl : List Bool) : Prop :=
  WroteOut s t (sunkBits s bl).1
    ∧ heldChunk t = (sunkBits s bl).2
    ∧ heldBits t = leftBits (heldBits s ++ bl)
    ∧ BitsClean t

/-- The packers are in order: no stray bits, and a sub-block being filled has at most 254 bytes (R18, R19). -/
abbrev PackersReady (s : State) : Prop := BitsClean s ∧ (s.sink = .sub → s.chunkLen.toNat ≤ 254)

/-! ### The bytes of a job (R47 (b)) -/

/-- A byte of IN a GIF_ENCODE job reads: of the palette, of the frame table, or of a frame's pixels. -/
def GifReads (s : State) (a : Nat) : Prop :=
  (∃ k < 3 * s.palLen.toNat, a = byteAddr s s.palBase k)
    ∨ (∃ k < 16 * s.nframes.toNat, a = byteAddr s s.frameBase k)
    ∨ ∃ i : BitVec 16, i.toNat < s.nframes.toNat ∧ ∃ k < (pixLen s i).toNat, a = byteAddr s (pixAddr s i) k

/-- A byte of IN an LZW_ENCODE job reads. -/
def LzwReads (s : State) (a : Nat) : Prop := ∃ k < s.srcLen.toNat, a = byteAddr s s.srcBase k

/-- A byte of IN the job of JOB reads. -/
def JobReads (s : State) (a : Nat) : Prop :=
  (s.job = 0x01#8 ∧ GifReads s a) ∨ (s.job ≠ 0x01#8 ∧ LzwReads s a)

/-- A byte of the OUT region of a job. -/
def OutRegion (s : State) (a : Nat) : Prop := ∃ k < s.outCap.toNat, a = byteAddr s s.outBase k

/-! ### What an error left -/

/-- The abort of R131: the error is recorded, the job ends without output, control is at IDLE, LZW_LAST keeps its value,
and OUT reads as before outside the job's region. The internal registers and the region may hold anything; the
configuration, CTRL, IN and the model's own agenda are unchanged. -/
structure Aborted (s t : State) (e : ErrCode) (f : FrameIdx) : Prop where
  err : t.err = true
  errCode : t.errCode = e
  errFrame : t.errFrame = f
  done : t.done = false
  busy : t.busy = false
  outLen : t.outLen = 0
  seq : t.seq = SeqCode.idle
  lzwLast : t.lzwLast = s.lzwLast
  outside : ∀ a, ¬ OutRegion s a → outByteAt t a = outByteAt s a
  inMem : t.inMem = s.inMem
  ie : t.ie = s.ie
  config : t.width = s.width ∧ t.height = s.height ∧ t.palBase = s.palBase ∧ t.palLen = s.palLen
    ∧ t.frameBase = s.frameBase ∧ t.nframes = s.nframes ∧ t.srcBase = s.srcBase ∧ t.srcLen = s.srcLen
    ∧ t.outBase = s.outBase ∧ t.outCap = s.outCap
  build : t.build = s.build
  host : t.agenda = s.agenda ∧ t.hostData = s.hostData

/-! ### Where SEQ stands (R57) -/

/-- The operations of a pass after L.INIT. -/
def inPass (c : BitVec 8) : Bool :=
  c == SeqCode.lEmitClear || c == SeqCode.lStep || c == SeqCode.lFlushAcc || c == SeqCode.lEmitEnd || c == SeqCode.lPad

/-- A pass, with L.INIT. -/
def inLzw (c : BitVec 8) : Bool := c == SeqCode.lInit || inPass c

/-- The header after the checks: G.LSD, G.GCT and G.NETSCAPE. -/
def inHeader (c : BitVec 8) : Bool := c == SeqCode.gLsd || c == SeqCode.gGct || c == SeqCode.gNetscape

/-- The operations of one frame of a GIF_ENCODE job. -/
def inFrame (c : BitVec 8) : Bool :=
  c == SeqCode.gGce || c == SeqCode.gIdesc || c == SeqCode.gMincode || c == SeqCode.bTerm || c == SeqCode.gNextFrame
  || inLzw c

/-- The operations of a GIF_ENCODE job after its checks. -/
def inWriting (c : BitVec 8) : Bool :=
  c == SeqCode.gSig || inHeader c || inFrame c || c == SeqCode.gTrailer || c == SeqCode.xFinish

/-- The operations of a GIF_ENCODE job. -/
def inGif (c : BitVec 8) : Bool := c == SeqCode.gCheckPal || c == SeqCode.gCheckFrame || inWriting c

/-- The operations of an LZW_ENCODE job. -/
def inLzwJob (c : BitVec 8) : Bool := c == SeqCode.lCheckSrc || inLzw c || c == SeqCode.xFinish

/-! ### The invariant -/

/-- Frame i passes the checks of R100 (b), (c), (d). -/
def frameOk (s : State) (i : Nat) : Prop :=
  dimsOk s (BitVec.ofNat 16 i) = true ∧ pixelsOk s (BitVec.ofNat 16 i) = true

/-- The canonical forms: the spaces, TABLE with 4096 codes (R17), CHUNK with 255 bytes (R19). -/
structure CanonicalInv (s : State) : Prop where
  inWf : Memory.wf s.build.addrBits s.inMem
  outWf : Memory.wf s.build.addrBits s.outMem
  tableRising : Cells.Rising s.table
  tableBelow : Cells.Below s.table Config.tableSize
  chunkRising : Cells.Rising s.chunk
  chunkBelow : Cells.Below s.chunk Config.subMax

/-- STATUS and OUT_LEN (R20, R23, R26, R147), and CODE_WIDTH_OVERFLOW is never recorded (R79 (c), R83). -/
structure StatusInv (s : State) : Prop where
  busyIff : s.busy = true ↔ s.seq ≠ SeqCode.idle
  busyClear : s.busy = true → s.done = false ∧ s.err = false ∧ s.outLen = 0
  notBoth : ¬ (s.done = true ∧ s.err = true)
  noErr : s.err = false → s.errCode = .noError ∧ s.errFrame = noFrame
  isErr : s.err = true → s.errCode ≠ .noError ∧ s.outLen = 0
  noWidthError : s.errCode ≠ .codeWidthOverflow

/-- A code that stands for a sequence: a literal, or a table code below NEXT (R58). -/
def isSequence (s : State) (c : Nat) : Prop :=
  c < 2 ^ s.mcs.toNat ∨ (2 ^ s.mcs.toNat + 2 ≤ c ∧ c < s.next.toNat)

/-- The code table during a pass (R17, R81): exactly the codes from 2^MCS + 2 below NEXT have an entry; an entry extends
an earlier sequence by a symbol; and no two codes have the same entry. -/
structure TableInv (s : State) : Prop where
  filled : ∀ c, (Cells.get s.table c).isSome = true ↔ 2 ^ s.mcs.toNat + 2 ≤ c ∧ c < s.next.toNat
  entry : ∀ c e, Cells.get s.table c = some e →
    isSequence s e.prefixCode.toNat ∧ e.prefixCode.toNat < c ∧ e.suffix.toNat < 2 ^ s.mcs.toNat
  distinct : ∀ c d e, Cells.get s.table c = some e → Cells.get s.table d = some e → c = d

/-- The registers of a pass after L.INIT (R16, R18, R79, R80). -/
structure PassInv (s : State) : Prop where
  clearIs : s.clearCode.toNat = 2 ^ s.mcs.toNat
  endIs : s.endCode.toNat = 2 ^ s.mcs.toNat + 1
  wLow : s.mcs.toNat + 1 ≤ s.w.toNat
  wHigh : s.w.toNat ≤ Config.wMax
  nextLow : 2 ^ s.mcs.toNat + 2 ≤ s.next.toNat
  nextHigh : s.next.toNat ≤ 2 ^ s.w.toNat
  nextLimit : s.next.toNat ≤ s.build.codeLimit.toNat
  wFull : s.next.toNat = s.build.codeLimit.toNat → s.w.toNat = Config.wMax
  table : TableInv s
  accSequence : s.accValid = true → isSequence s s.accCode.toNat
  accStarted : s.seq = SeqCode.lStep → (s.accValid = true ↔ s.pi ≠ 0)
  piLe : s.pi.toNat ≤ s.curN.toNat
  piLt : s.seq = SeqCode.lStep → s.pi.toNat < s.curN.toNat
  piStart : s.seq = SeqCode.lEmitClear → s.pi = 0 ∧ s.accValid = false
  bits : BitsClean s

/-- A pass, from L.INIT on: MCS is 2 to 8, and every symbol of the current source is below 2^MCS (R67). -/
structure SourceInv (s : State) : Prop where
  mLow : Config.mMin ≤ s.mcs.toNat
  mHigh : s.mcs.toNat ≤ Config.mMax
  symbols : ∀ k < s.curN.toNat, (inByte s (byteAddr s s.curSrc k)).toNat < 2 ^ s.mcs.toNat

/-- A GIF_ENCODE job (R57, R95, R100, R104 to R114). -/
structure GifInv (s : State) : Prop where
  seqIn : inGif s.seq = true
  palette : s.seq ≠ SeqCode.gCheckPal →
    palLenOk s = true ∧ s.plen.toNat = paddedLen s.palLen.toNat
      ∧ s.mcs.toNat = minCodeSize (paddedLen s.palLen.toNat)
  checking : s.seq = SeqCode.gCheckFrame → s.fi.toNat < s.nframes.toNat ∧ ∀ i < s.fi.toNat, frameOk s i
  checked : inWriting s.seq = true → ∀ i < s.nframes.toNat, frameOk s i
  header : inHeader s.seq = true → s.fi = 0
  frame : inFrame s.seq = true → s.fi.toNat < s.nframes.toNat
  source : inLzw s.seq = true → s.curSrc = pixAddr s s.fi ∧ s.curN = pixLen s s.fi ∧ s.sink = .sub
  chunkLow : inLzw s.seq = true ∨ s.seq = SeqCode.bTerm → s.chunkLen.toNat ≤ 254

/-- An LZW_ENCODE job (R57, R121, R124). -/
structure LzwJobInv (s : State) : Prop where
  seqIn : inLzwJob s.seq = true
  mLegal : legalM s.mcs = true
  source : s.curSrc = s.srcBase ∧ s.curN = s.srcLen ∧ s.sink = .raw

/-- A running job (R15, R57). Where IN and OUT are one memory, no byte of its OUT region is one it reads (R146 (f)). -/
structure JobInv (s : State) : Prop where
  jobIs : s.job = opcGif ∨ s.job = opcLzw
  outLow : s.outPtr.toNat ≤ s.outCap.toNat
  gif : s.job = opcGif → GifInv s
  lzw : s.job = opcLzw → LzwJobInv s
  source : inLzw s.seq = true → SourceInv s
  pass : inPass s.seq = true → PassInv s
  disjoint : s.build.sharedMemory = true → ∀ a, OutRegion s a → ¬ JobReads s a

/-- The invariant of the system. -/
structure Inv (s : State) : Prop where
  canonical : CanonicalInv s
  status : StatusInv s
  job : s.busy = true → JobInv s

/-! ### Runs -/

/-- The system goes from s to t in n steps. -/
def Runs (n : Nat) (s t : State) : Prop := Sys2Proof.core.run n s = .next t

end Sys2Proof.Machine
end

