-- ==== Sys2Proof/Certificates/Slice0/Obligations.lean ====
section
/-! DEFINITION. The statements for the provers. Each docstring names the rule of the spec it formalises; where a clause is
the model's own choice, it names the log entry. -/

open Sys2Proof Sys2Proof.Machine

/-! ### Encoding -/

/-- Decode and encode agree: every well-formed instruction's word decodes to it, with every operand at every value. -/
def Obligations.DecodeOfEncodeIsIdentity : Prop :=
  ∀ i : Instr, WellFormed i = true → decode (encode i) = .ok i

/-- No two words of a format stand for one instruction, and the decoder yields well-formed instructions only. -/
def Obligations.EncodeOfDecodeIsIdentity : Prop :=
  ∀ (e : Encoded) (i : Instr), decode e = .ok i → encode i = e ∧ WellFormed i = true

/-- R54: which word stands for which command: 0x00000000, 0x00000001, 0x00001001, 0x0000000F, and 0x00000002 + (M << 8)
with 2 ≤ M ≤ 8, are the legal command words, and every other word is illegal. -/
def Obligations.LegalCommandWords : Prop :=
  ∀ v : Word,
    (∀ i, decode (.cmd v) = .ok i ↔
      (v = 0x00000000#32 ∧ i = .nop) ∨ (v = 0x00000001#32 ∧ i = .gifEncodeLoop0)
      ∨ (v = 0x00001001#32 ∧ i = .gifEncodeLoop1) ∨ (v = 0x0000000F#32 ∧ i = .softReset)
      ∨ ∃ m : BitVec 4, 2 ≤ m.toNat ∧ m.toNat ≤ 8 ∧ v.toNat = 0x00000002 + m.toNat * 2 ^ 8 ∧ i = .lzwEncode m)
    ∧ (illegalWord v = true ↔ ¬ ∃ i, decode (.cmd v) = .ok i)

/-- R56: which code is which operation, and no other code is one. That SEQ holds no other code in a state of the invariant is
what R56 derives ([derived: every successor named is a listed code]); that an engine step which finds another code ends in
the fault `seqUnlisted` is the model's choice (log 11). -/
def Obligations.SeqCodesAreTheOperations : Prop :=
  (∀ (c : BitVec 8) (i : Instr), decode (.seq c) = .ok i ↔
      (c.toNat, i) ∈ [(0x00, Instr.idle), (0x10, .lCheckSrc), (0x11, .lInit), (0x12, .lEmitClear), (0x13, .lStep),
        (0x14, .lFlushAcc), (0x15, .lEmitEnd), (0x16, .lPad), (0x20, .gCheckPal), (0x21, .gCheckFrame), (0x22, .gSig),
        (0x23, .gLsd), (0x24, .gGct), (0x25, .gNetscape), (0x26, .gGce), (0x27, .gIdesc), (0x28, .gMincode),
        (0x29, .bTerm), (0x2A, .gNextFrame), (0x2B, .gTrailer), (0x30, .xFinish)])
  ∧ (∀ s : State, Inv s → ∃ i, decode (.seq s.seq) = .ok i)
  ∧ ∀ s : State, s.agenda = [] ∨ s.agenda.head? = some .engine →
      (¬ ∃ i, decode (.seq s.seq) = .ok i) → step s = .fault .seqUnlisted

/-- A few words written out from the tables of R52, R54 and R56 decode to the instructions they stand for. -/
def Obligations.WordsOfTheTablesDecode : Prop :=
  decode (.cmd 0x00001001#32) = .ok .gifEncodeLoop1
    ∧ decode (.cmd 0x00000802#32) = .ok (.lzwEncode 8)
    ∧ decode (.bus 0b1110000#7 (some 5#32)) = .ok (.wr .outCap 5#32)
    ∧ decode (.bus 0b0000100#7 none) = .ok (.rd .status)
    ∧ decode (.seq 0x13#8) = .ok .lStep
    ∧ decode (.seq 0x29#8) = .ok .bTerm

/-! ### The step -/

/-- R117 (b): the engine runs the operation whose code SEQ holds. That a step with no turn waiting is an engine turn, and that
an engine turn runs at SEQ = IDLE too, is the model's choice (log 2). -/
def Obligations.EngineStepRunsSeqOperation : Prop :=
  ∀ (s : State) (rest : List Turn) (i : Instr),
    (s.agenda = [] ∧ rest = []) ∨ s.agenda = .engine :: rest →
    decode (.seq s.seq) = .ok i →
    step s = exec i { s with agenda := rest }

/-- R117 (a), R22: a host access of one aligned word runs the register transaction; a write of a legal word to CMD runs
that command. -/
def Obligations.HostAccessRunsTransaction : Prop :=
  ∀ (s : State) (rest : List Turn) (r : Reg) (v : Word),
    (s.agenda = .access false r.offset 4 v :: rest → step s = exec (.rd r) { s with agenda := rest })
    ∧ (s.agenda = .access true r.offset 4 v :: rest →
        (r ≠ .cmd ∨ illegalWord v = true → step s = exec (.wr r v) { s with agenda := rest })
        ∧ ∀ i, r = .cmd → decode (.cmd v) = .ok i → step s = exec i { s with agenda := rest })

/-- R22: a host write of a legal word to CMD has exactly the effect of the command the word stands for, idle or busy. -/
def Obligations.CmdWriteIsTheCommand : Prop :=
  ∀ (s : State) (v : Word) (i : Instr), decode (.cmd v) = .ok i → exec (.wr .cmd v) s = exec i s

/-- Every instruction laid where `step` takes its next one (log 1) is run by the very next step. -/
def Obligations.LaidInstructionRunsNext : Prop :=
  ∀ (s : State) (i : Instr), WellFormed i = true →
    step (s.withEncoded (encode i)) =
      match encode i with
      | .seq c => exec i { s with seq := c }
      | .cmd _ => exec i s
      | .bus _ _ => exec (issued i) s

/-- R40: an access of the window is refused as a register access (`registerAccess`) exactly when it is not one 32-bit word at
a multiple of 4 from 0x00 to 0x3C. An aligned write of CMD can be refused under another name, `regionsOverlap`, where IN and
OUT are one memory (GifEncodeStartsJob, LzwEncodeStartsJob; log 14). -/
def Obligations.OtherRegisterAccessRefused : Prop :=
  ∀ (s : State) (rest : List Turn) (write : Bool) (offset bytes : Nat) (data : Word),
    s.agenda = .access write offset bytes data :: rest →
    (step s = .refused .registerAccess ↔ ¬ (bytes = 4 ∧ offset % 4 = 0 ∧ offset ≤ 0x3C))

/-- R47 (b): a host write of an IN byte is refused while a job runs that reads the byte. That a host read of IN is never refused
in separate memories is the model's choice (log 6). A write that is not refused reads back, every other byte of IN reads as
before, and nothing else changes; a read gives the host the byte, zero-extended (log 2). Where IN and OUT are one memory, an IN byte is an OUT byte too, and is refused while it lies in the
OUT region of a running job: this is the model's reading (log 14). An address is taken mod 2^P_ADDR_BITS (log 10). -/
def Obligations.HostAccessOfInput : Prop :=
  ∀ (s : State) (rest : List Turn) (a : Nat) (v : Byte),
    let w := a % 2 ^ s.build.addrBits
    let reads := s.busy = true ∧ JobReads s w
    let held := s.build.sharedMemory = true ∧ s.busy = true ∧ OutRegion s w
    (s.agenda = .writeIn a v :: rest →
      (reads → step s = .refused .hostWritesJobInput)
      ∧ (¬ reads → held → step s = .refused .hostTouchesJobOutput)
      ∧ (¬ reads → ¬ held →
          ∃ t, step s = .next t ∧ inByte t w = v ∧ (∀ b, b ≠ w → inByte t b = inByte s b)
            ∧ t = (if s.build.sharedMemory then { s with agenda := rest, outMem := t.outMem }
                else { s with agenda := rest, inMem := t.inMem })))
    ∧ (s.agenda = .readIn a :: rest →
        (held → step s = .refused .hostTouchesJobOutput)
        ∧ (¬ held → step s = .next { s with agenda := rest, hostData := (inByte s w).setWidth 32 }))

/-- R47 (b): the host may touch an OUT byte unless a job runs whose region holds it; then it is refused. A write (log 6)
changes that byte alone; a read gives the host the byte, zero-extended (log 2), and changes nothing else. Where IN and OUT
are one memory, a write is refused too while a job runs that reads the byte: this is the model's reading (log 14). An
address is taken mod 2^P_ADDR_BITS (log 10). -/
def Obligations.HostAccessOfOutput : Prop :=
  ∀ (s : State) (rest : List Turn) (a : Nat) (v : Byte),
    let w := a % 2 ^ s.build.addrBits
    let held := s.busy = true ∧ OutRegion s w
    let reads := s.build.sharedMemory = true ∧ s.busy = true ∧ JobReads s w
    (s.agenda = .writeOut a v :: rest →
      (held → step s = .refused .hostTouchesJobOutput)
      ∧ (¬ held → reads → step s = .refused .hostWritesJobInput)
      ∧ (¬ held → ¬ reads →
          ∃ t, step s = .next t ∧ outByteAt t w = v ∧ (∀ b, b ≠ w → outByteAt t b = outByteAt s b)
            ∧ t = { s with agenda := rest, outMem := t.outMem }))
    ∧ (s.agenda = .readOut a :: rest →
        (held → step s = .refused .hostTouchesJobOutput)
        ∧ (¬ held → step s = .next { s with agenda := rest, hostData := (outByteAt s w).setWidth 32 }))

/-! ### Reset -/

/-- R31: the values after reset: of the machine's first state, and of the state SOFT_RESET leaves, which also keeps IN and
OUT as they were. TABLE and CHUNK are unspecified, so nothing is said of them. -/
def Obligations.ResetValues : Prop :=
  ∀ s t : State, t = State.reset ∨ exec .softReset s = .next t →
    t.seq = 0x00#8 ∧ t.job = 0 ∧ t.loopL = false ∧ t.fi = 0 ∧ t.pi = 0 ∧ t.curSrc = 0 ∧ t.curN = 0 ∧ t.sink = .raw
      ∧ t.outPtr = 0 ∧ t.plen = 0 ∧ t.mcs = 0 ∧ t.clearCode = 0 ∧ t.endCode = 0 ∧ t.w = 0 ∧ t.next = 0
      ∧ t.accValid = false ∧ t.accCode = 0 ∧ t.bitBuf = 0 ∧ t.bitCnt = 0 ∧ t.chunkLen = 0
      ∧ statusWord t = 0xFFFF0000#32 ∧ t.busy = false ∧ t.done = false ∧ t.err = false ∧ t.errCode.code = 0x00
      ∧ t.errFrame = 0xFFFF#16 ∧ t.ie = false
      ∧ t.width = 0 ∧ t.height = 0 ∧ t.palBase = 0 ∧ t.palLen = 0 ∧ t.frameBase = 0 ∧ t.nframes = 0 ∧ t.srcBase = 0
      ∧ t.srcLen = 0 ∧ t.outBase = 0 ∧ t.outCap = 0 ∧ t.outLen = 0 ∧ t.lzwLast = 0
      ∧ (t.build = Build.default → paramsWord t = 0x00000007#32) ∧ irq t = false
      ∧ (exec .softReset s = .next t →
          t.build = s.build ∧ ∀ a, inByte t a = inByte s a ∧ outByteAt t a = outByteAt s a)

/-- R125, R143: SOFT_RESET, idle or busy, and the reset input give every register its reset value; IN, OUT, the build and
the host's side are unchanged (log 13); STATUS reads 0xFFFF0000 and the interrupt line is low. TABLE and CHUNK, which R31
leaves unspecified, list nothing (log 3). -/
def Obligations.SoftResetRestoresReset : Prop :=
  ∀ (s : State) (rest : List Turn), ∃ t,
    exec .softReset s = .next t
    ∧ t = { State.reset with
        inMem := s.inMem, outMem := s.outMem, outFree := s.outFree, build := s.build, draws := s.draws,
        agenda := s.agenda, hostData := s.hostData }
    ∧ (∀ a, inByte t a = inByte s a) ∧ (∀ a, outByteAt t a = outByteAt s a)
    ∧ regRead t .status = 0xFFFF0000#32 ∧ irq t = false
    ∧ (s.agenda = .resetInput :: rest → step s = .next { t with agenda := rest })

/-! ### Commands and register transactions -/

/-- R122: NOP, idle or busy, as an instruction or as its word written to CMD, changes nothing at all; a word with OPC 0x00
and any other bit set is illegal. -/
def Obligations.NopChangesNothing : Prop :=
  (∀ s : State, exec .nop s = .next s ∧ exec (.wr .cmd 0x00000000#32) s = .next s)
  ∧ ∀ v : Word, v.toNat % 2 ^ 8 = 0 → v ≠ 0 → illegalWord v = true

/-- R121, R123: GIF_ENCODE written while idle starts a job at G.CHECK_PAL: DONE, ERR, ERRCODE, ERRFRAME, OUT_LEN, LZW_LAST
and OUT_PTR are cleared, BUSY is 1, JOB is 0x01, LOOPL is the LOOP bit; nothing else of the block changes. R146 (f): it is
refused exactly where IN and OUT are one memory and the OUT region has a byte the job reads; that the refusal comes at the
accept is the model's choice (log 14). -/
def Obligations.GifEncodeStartsJob : Prop :=
  ∀ (s : State) (loop : Bool), s.busy = false →
    let clash := s.build.sharedMemory = true ∧ ∃ a, OutRegion s a ∧ GifReads s a
    (¬ clash → ∃ t, exec (if loop then .gifEncodeLoop1 else .gifEncodeLoop0) s = .next t
      ∧ statusWord t = 0xFFFF0001#32
      ∧ t = { s with
          done := false, err := false, errCode := .noError, errFrame := noFrame, outLen := 0, lzwLast := 0, outPtr := 0,
          busy := true, job := 0x01#8, loopL := loop, seq := 0x20#8, draws := t.draws })
    ∧ (clash → exec (if loop then .gifEncodeLoop1 else .gifEncodeLoop0) s = .refused .regionsOverlap)

/-- R121, R124: LZW_ENCODE written while idle starts a job at L.CHECK_SRC with MCS = M, FI = 0, LOOPL = 0 (log 21), the source
of SRC_BASE and SRC_LEN, and SINK = RAW; nothing else of the block changes. R146 (f): it is refused exactly where IN and OUT
are one memory and the OUT region has a byte of the source; that the refusal comes at the accept is the model's choice
(log 14). -/
def Obligations.LzwEncodeStartsJob : Prop :=
  ∀ (s : State) (m : BitVec 4), s.busy = false → 2 ≤ m.toNat → m.toNat ≤ 8 →
    let clash := s.build.sharedMemory = true ∧ ∃ a, OutRegion s a ∧ LzwReads s a
    (¬ clash → ∃ t, exec (.lzwEncode m) s = .next t
      ∧ statusWord t = 0xFFFF0001#32
      ∧ t = { s with
          done := false, err := false, errCode := .noError, errFrame := noFrame, outLen := 0, lzwLast := 0, outPtr := 0,
          busy := true, job := 0x02#8, loopL := false, mcs := m, fi := 0, curSrc := s.srcBase, curN := s.srcLen,
          sink := .raw, seq := 0x10#8, draws := t.draws })
    ∧ (clash → exec (.lzwEncode m) s = .refused .regionsOverlap)

/-- R120: what a word written to CMD does. While BUSY = 1, SOFT_RESET resets and every other word is dropped without a
trace. While BUSY = 0, an illegal word is reported (R132), and a legal word is the command it stands for. -/
def Obligations.CommandWordDispatch : Prop :=
  ∀ (s : State) (v : Word),
    (s.busy = true → v = 0x0000000F#32 → exec (.wr .cmd v) s = exec .softReset s)
    ∧ (s.busy = true → v ≠ 0x0000000F#32 → exec (.wr .cmd v) s = .next s)
    ∧ (s.busy = false → illegalWord v = true → exec (.wr .cmd v) s = .next
        { s with done := false, err := true, errCode := .illegalCommand, errFrame := 0xFFFF#16, outLen := 0 })
    ∧ ∀ i, s.busy = false → decode (.cmd v) = .ok i → exec (.wr .cmd v) s = exec i s

/-- R23: what a write of v to STATUS does: bit 1 clears DONE, bit 2 clears ERR, ERRCODE and ERRFRAME, every other bit is
ignored, and nothing else changes. -/
def Obligations.StatusIsWriteOneToClear : Prop :=
  ∀ (s : State) (v : Word), ∃ t, exec (.wr .status v) s = .next t
    ∧ t.done = (s.done && !v.getLsbD 1)
    ∧ t.err = (s.err && !v.getLsbD 2)
    ∧ t.errCode = (if v.getLsbD 2 then .noError else s.errCode)
    ∧ t.errFrame = (if v.getLsbD 2 then 0xFFFF#16 else s.errFrame)
    ∧ t = { s with done := t.done, err := t.err, errCode := t.errCode, errFrame := t.errFrame }

/-- R25: a configuration write while BUSY = 1 is ignored; while BUSY = 0 the register reads back v[field width-1 : 0]
with the bits above reading 0, every other register reads as before, and no state outside the configuration changes. -/
def Obligations.ConfigWriteStoresField : Prop :=
  ∀ (s : State) (r : Reg) (v : Word),
    r ∈ [Reg.width, .height, .palBase, .palLen, .frameBase, .nframes, .srcBase, .srcLen, .outBase, .outCap] →
    (s.busy = true → exec (.wr r v) s = .next s)
    ∧ (s.busy = false → ∃ t, exec (.wr r v) s = .next t
        ∧ regRead t r = (if r ∈ [Reg.width, .height, .palLen, .nframes] then v &&& 0xFFFF#32 else v)
        ∧ (∀ q, q ≠ r → regRead t q = regRead s q)
        ∧ t = { s with
            width := t.width, height := t.height, palBase := t.palBase, palLen := t.palLen, frameBase := t.frameBase,
            nframes := t.nframes, srcBase := t.srcBase, srcLen := t.srcLen, outBase := t.outBase, outCap := t.outCap })

/-- R24, R118: CTRL stores IE = v[0] at any time and nothing else changes; a write to OUT_LEN, LZW_LAST or PARAMS has no
effect. -/
def Obligations.CtrlAndReadOnlyWrites : Prop :=
  ∀ (s : State) (v : Word),
    exec (.wr .ctrl v) s = .next { s with ie := v.getLsbD 0 }
    ∧ exec (.wr .outLen v) s = .next s
    ∧ exec (.wr .lzwLast v) s = .next s
    ∧ exec (.wr .params v) s = .next s

/-- R119: a read returns the register's word to the host (log 2) and changes no state of the block. STATUS is
ERRFRAME·2^16 + ERRCODE·2^8 + ERR·4 + DONE·2 + BUSY; CMD reads 0; CTRL reads IE; every other
register but PARAMS reads the value it holds, and PARAMS tells the build (R28). -/
def Obligations.RegisterReadReturnsWord : Prop :=
  ∀ (s : State) (r : Reg), ∃ x : Word, exec (.rd r) s = .next { s with hostData := x }
    ∧ x.toNat = (match r with
      | .cmd => 0
      | .status => s.errFrame.toNat * 2 ^ 16 + s.errCode.code.toNat * 2 ^ 8 + s.err.toNat * 4 + s.done.toNat * 2
          + s.busy.toNat
      | .ctrl => s.ie.toNat
      | .width => s.width.toNat
      | .height => s.height.toNat
      | .palBase => s.palBase.toNat
      | .palLen => s.palLen.toNat
      | .frameBase => s.frameBase.toNat
      | .nframes => s.nframes.toNat
      | .srcBase => s.srcBase.toNat
      | .srcLen => s.srcLen.toNat
      | .outBase => s.outBase.toNat
      | .outCap => s.outCap.toNat
      | .outLen => s.outLen.toNat
      | .lzwLast => s.lzwLast.toNat
      | .params => s.build.colorRes.toNat + (if s.build.codeLimit = .l2049 then 8 else 0)
          + (if s.build.endCodeWidth = .decoderAligned then 16 else 0))

/-- R29: the window holds the offsets 0x00 to 0x3C only; a reserved bit of any register reads 0, and what is written to it
is ignored. -/
def Obligations.ReservedBitsReadZero : Prop :=
  (∀ r : Reg, r.offset ≤ 0x3C)
  ∧ ∀ s : State,
    (∀ j, 3 ≤ j → j ≤ 7 → (regRead s .status).getLsbD j = false)
    ∧ (∀ j, 1 ≤ j → (regRead s .ctrl).getLsbD j = false)
    ∧ (∀ r ∈ [Reg.width, .height, .palLen, .nframes], ∀ j, 16 ≤ j → (regRead s r).getLsbD j = false)
    ∧ (∀ j, 21 ≤ j → (regRead s .lzwLast).getLsbD j = false)
    ∧ (∀ j, 5 ≤ j → (regRead s .params).getLsbD j = false)
    ∧ ∀ v : Word,
      exec (.wr .status v) s = exec (.wr .status (v &&& 0x00000006#32)) s
      ∧ exec (.wr .ctrl v) s = exec (.wr .ctrl (v &&& 0x00000001#32)) s
      ∧ ∀ r ∈ [Reg.width, .height, .palLen, .nframes], exec (.wr r v) s = exec (.wr r (v &&& 0x0000FFFF#32)) s

/-- R30: the interrupt line is a level without state of its own: high exactly while IE and one of DONE and ERR is 1. It is
low after reset. X.FINISH and an illegal command raise it when IE = 1; clearing IE, writing 0x6 to STATUS, SOFT_RESET and
an accept lower it (R136). -/
def Obligations.InterruptFollowsDoneAndErr : Prop :=
  irq State.reset = false
  ∧ ∀ s : State,
    (irq s = true ↔ s.ie = true ∧ (s.done = true ∨ s.err = true))
    ∧ (∀ t, exec .xFinish s = .next t → irq t = s.ie)
    ∧ (∀ t v, s.busy = false → illegalWord v = true → exec (.wr .cmd v) s = .next t → irq t = s.ie)
    ∧ (∀ t v, v.getLsbD 0 = false → exec (.wr .ctrl v) s = .next t → irq t = false)
    ∧ (∀ t v, v.getLsbD 1 = true → v.getLsbD 2 = true → exec (.wr .status v) s = .next t → irq t = false)
    ∧ (∀ t, exec .softReset s = .next t → irq t = false)
    ∧ (∀ t, s.busy = false → exec .gifEncodeLoop0 s = .next t → irq t = false)
    ∧ (∀ t, s.busy = false → exec .gifEncodeLoop1 s = .next t → irq t = false)
    ∧ (∀ (t : State) (m : BitVec 4), s.busy = false → 2 ≤ m.toNat → m.toNat ≤ 8 → exec (.lzwEncode m) s = .next t →
        irq t = false)

/-- R126: with SEQ = IDLE no operation runs, and only a host command leaves IDLE: the step that does so is a write to CMD of a
word that starts a job. That an engine step at IDLE is a step and leaves the state as it is, is the model's choice (log 2).
R147 [derived]: BUSY is 0 exactly at IDLE, in a state of the invariant. -/
def Obligations.IdleTakesNoStep : Prop :=
  (∀ s : State, exec .idle s = .next s ∧ (s.seq = 0x00#8 → s.agenda = [] → step s = .next s))
  ∧ (∀ s t : State, s.seq = 0x00#8 → step s = .next t → t.seq ≠ 0x00#8 →
      ∃ rest v, s.agenda = .access true 0x00 4 v :: rest ∧ illegalWord v = false
        ∧ (v.toNat % 2 ^ 8 = 0x01 ∨ v.toNat % 2 ^ 8 = 0x02))
  ∧ ∀ s : State, Inv s → (s.seq = 0x00#8 ↔ s.busy = false)

/-- R127: X.FINISH sets OUT_LEN to OUT_PTR, DONE to 1, BUSY to 0 and SEQ to IDLE, and changes nothing else; the interrupt
line is then high if IE = 1. -/
def Obligations.FinishEndsJob : Prop :=
  ∀ s : State, ∃ t, exec .xFinish s = .next t
    ∧ t = { s with outLen := s.outPtr, done := true, busy := false, seq := 0x00#8 } ∧ irq t = s.ie

/-! ### The LZW encoder -/

/-- R87: L.CHECK_SRC goes on to L.INIT exactly when every source byte is below 2^MCS, reading only; otherwise it aborts
with LZW_SYMBOL_OUT_OF_RANGE and no frame, before any output. That OUT_PTR keeps its value through the abort is the model's
choice (log 7). -/
def Obligations.CheckSrcValidatesSource : Prop :=
  ∀ s : State,
    let good := ∀ k < s.srcLen.toNat, (inByte s (byteAddr s s.srcBase k)).toNat < 2 ^ s.mcs.toNat
    (good → exec .lCheckSrc s = .next { s with seq := 0x11#8 })
    ∧ (¬ good → ∃ t, exec .lCheckSrc s = .next t ∧ Aborted s t .lzwSymbolOutOfRange 0xFFFF#16 ∧ t.outPtr = s.outPtr)

/-- R88: L.INIT starts a pass: CLEAR = 2^MCS, END = 2^MCS + 1, W = MCS + 1, NEXT = 2^MCS + 2, no table entry, an empty
accumulator (ACC_CODE 0: log 21), an empty bit buffer, PI = 0, and SEQ = L.EMIT_CLEAR; nothing else changes. -/
def Obligations.InitStartsPass : Prop :=
  ∀ s : State, s.mcs.toNat ≤ 8 → ∃ t, exec .lInit s = .next t
    ∧ t.clearCode.toNat = 2 ^ s.mcs.toNat ∧ t.endCode.toNat = 2 ^ s.mcs.toNat + 1
    ∧ t.w.toNat = s.mcs.toNat + 1 ∧ t.next.toNat = 2 ^ s.mcs.toNat + 2
    ∧ (∀ p x, lookup t p x = none)
    ∧ t = { s with
        clearCode := t.clearCode, endCode := t.endCode, w := t.w, next := t.next, table := t.table, accValid := false,
        accCode := 0, bitBuf := 0, bitCnt := 0, pi := 0, seq := 0x12#8 }

/-- R89: L.EMIT_CLEAR appends CLEAR at width W to the bit sequence and goes to L.STEP, or to L.FLUSH_ACC when CUR_N = 0.
It aborts with OUTPUT_OVERFLOW if the bytes that leave do not fit, and with CODE_WIDTH_OVERFLOW if the code does not fit
the width. -/
def Obligations.EmitClearWritesClear : Prop :=
  ∀ s : State, PackersReady s → s.seq = 0x12#8 →
    let bl := codeBits s.clearCode.toNat s.w.toNat
    (s.w.toNat ≤ 12 ∧ s.clearCode.toNat < 2 ^ s.w.toNat →
      (Fits s (sunkBits s bl).1.length → ∃ t, exec .lEmitClear s = .next t ∧ Appended s t bl
        ∧ OnlyPacker s t ∧ t.seq = (if s.curN = 0 then 0x14#8 else 0x13#8))
      ∧ (¬ Fits s (sunkBits s bl).1.length →
          ∃ t, exec .lEmitClear s = .next t ∧ Aborted s t .outputOverflow (frameOrNone s)))
    ∧ (¬ (s.w.toNat ≤ 12 ∧ s.clearCode.toNat < 2 ^ s.w.toNat) →
        ∃ t, exec .lEmitClear s = .next t ∧ Aborted s t .codeWidthOverflow (frameOrNone s))

/-- R90, the first symbol of a pass: it becomes the accumulator and nothing is emitted. PI counts it, and the step that
reaches CUR_N goes on to L.FLUSH_ACC. -/
def Obligations.StepTakesFirstSymbol : Prop :=
  ∀ s : State,
    let x := inByte s (byteAddr s s.curSrc s.pi.toNat)
    x.toNat < 2 ^ s.mcs.toNat → s.pi.toNat + 1 < 2 ^ 32 → s.accValid = false →
    ∃ t, exec .lStep s = .next t ∧ t.pi.toNat = s.pi.toNat + 1 ∧ t.accCode.toNat = x.toNat
      ∧ t.seq = (if t.pi = s.curN then 0x14#8 else 0x13#8)
      ∧ t = { s with pi := t.pi, accCode := t.accCode, accValid := true, seq := t.seq }

/-- R90, R81, a hit: the one code c of TABLE with 2^MCS + 2 ≤ c < NEXT whose entry is (ACC_CODE, x) becomes the
accumulator, and nothing is emitted. -/
def Obligations.StepExtendsAccumulator : Prop :=
  ∀ (s : State) (c : BitVec 12),
    let x := inByte s (byteAddr s s.curSrc s.pi.toNat)
    x.toNat < 2 ^ s.mcs.toNat → s.pi.toNat + 1 < 2 ^ 32 → s.accValid = true →
    2 ^ s.mcs.toNat + 2 ≤ c.toNat → c.toNat < s.next.toNat → (c.toNat, ⟨s.accCode, x⟩) ∈ s.table →
    (∀ d ∈ s.table, 2 ^ s.mcs.toNat + 2 ≤ d.1 → d.1 < s.next.toNat → d.2 = ⟨s.accCode, x⟩ → d.1 = c.toNat) →
    ∃ t, exec .lStep s = .next t ∧ t.pi.toNat = s.pi.toNat + 1
      ∧ t.seq = (if t.pi = s.curN then 0x14#8 else 0x13#8)
      ∧ t = { s with pi := t.pi, accCode := c, seq := t.seq }

/-- R90, R72, R73, a miss: ACC_CODE is appended at the old width W; while NEXT < P_CODE_LIMIT the entry (ACC_CODE, x) is
inserted at NEXT, NEXT counts it, and W grows by 1 if the new NEXT is above 2^W and W < 12; the accumulator is x. It
aborts with OUTPUT_OVERFLOW if the bytes that leave do not fit, and with CODE_WIDTH_OVERFLOW if the code does not fit. -/
def Obligations.StepEmitsAndInserts : Prop :=
  ∀ s : State,
    let x := inByte s (byteAddr s s.curSrc s.pi.toNat)
    let bl := codeBits s.accCode.toNat s.w.toNat
    x.toNat < 2 ^ s.mcs.toNat → s.pi.toNat + 1 < 2 ^ 32 → s.accValid = true →
    (∀ d ∈ s.table, 2 ^ s.mcs.toNat + 2 ≤ d.1 → d.1 < s.next.toNat → d.2 ≠ ⟨s.accCode, x⟩) →
    PackersReady s → s.seq = 0x13#8 →
    (s.w.toNat ≤ 12 ∧ s.accCode.toNat < 2 ^ s.w.toNat →
      (Fits s (sunkBits s bl).1.length → ∃ t, exec .lStep s = .next t ∧ Appended s t bl
        ∧ t.pi.toNat = s.pi.toNat + 1 ∧ t.accCode.toNat = x.toNat
        ∧ t.seq = (if t.pi = s.curN then 0x14#8 else 0x13#8)
        ∧ (s.next.toNat < s.build.codeLimit.toNat →
            t.next.toNat = s.next.toNat + 1
            ∧ Cells.get t.table s.next.toNat = some ⟨s.accCode, x⟩
            ∧ (∀ c, c ≠ s.next.toNat → Cells.get t.table c = Cells.get s.table c)
            ∧ t.w.toNat = (if s.next.toNat + 1 > 2 ^ s.w.toNat ∧ s.w.toNat < 12 then s.w.toNat + 1 else s.w.toNat))
        ∧ (s.build.codeLimit.toNat ≤ s.next.toNat → t.next = s.next ∧ t.table = s.table ∧ t.w = s.w)
        ∧ OnlyPacker { s with pi := t.pi, accCode := t.accCode, next := t.next, table := t.table, w := t.w } t)
      ∧ (¬ Fits s (sunkBits s bl).1.length →
          ∃ t, exec .lStep s = .next t ∧ Aborted s t .outputOverflow (frameOrNone s)))
    ∧ (¬ (s.w.toNat ≤ 12 ∧ s.accCode.toNat < 2 ^ s.w.toNat) →
        ∃ t, exec .lStep s = .next t ∧ Aborted s t .codeWidthOverflow (frameOrNone s))

/-- R91: L.FLUSH_ACC appends ACC_CODE at width W and empties the accumulator if it holds one, else writes nothing; it goes
on to L.EMIT_END. It aborts with OUTPUT_OVERFLOW if the bytes that leave do not fit, and with CODE_WIDTH_OVERFLOW if the
code does not fit the width. -/
def Obligations.FlushAccWritesAccumulator : Prop :=
  ∀ s : State, PackersReady s → s.seq = 0x14#8 →
    let bl := if s.accValid then codeBits s.accCode.toNat s.w.toNat else []
    let narrow := s.accValid = true → s.w.toNat ≤ 12 ∧ s.accCode.toNat < 2 ^ s.w.toNat
    (narrow →
      (Fits s (sunkBits s bl).1.length → ∃ t, exec .lFlushAcc s = .next t ∧ Appended s t bl
        ∧ OnlyPacker { s with accValid := false } t ∧ t.seq = 0x15#8)
      ∧ (¬ Fits s (sunkBits s bl).1.length →
          ∃ t, exec .lFlushAcc s = .next t ∧ Aborted s t .outputOverflow (frameOrNone s)))
    ∧ (¬ narrow → ∃ t, exec .lFlushAcc s = .next t ∧ Aborted s t .codeWidthOverflow (frameOrNone s))

/-- R78, R92: L.EMIT_END appends END at width W, or at W + 1 under DECODER_ALIGNED when NEXT = 2^W and W < 12, and changes
no register but the packers'. It aborts with OUTPUT_OVERFLOW if the bytes that leave do not fit, and with
CODE_WIDTH_OVERFLOW if the code does not fit the width. -/
def Obligations.EmitEndWritesEnd : Prop :=
  ∀ s : State, PackersReady s → s.seq = 0x15#8 →
    let we := if s.build.endCodeWidth = .decoderAligned ∧ s.next.toNat = 2 ^ s.w.toNat ∧ s.w.toNat < 12
      then s.w.toNat + 1 else s.w.toNat
    let bl := codeBits s.endCode.toNat we
    (we ≤ 12 ∧ s.endCode.toNat < 2 ^ we →
      (Fits s (sunkBits s bl).1.length → ∃ t, exec .lEmitEnd s = .next t ∧ Appended s t bl
        ∧ OnlyPacker s t ∧ t.seq = 0x16#8)
      ∧ (¬ Fits s (sunkBits s bl).1.length →
          ∃ t, exec .lEmitEnd s = .next t ∧ Aborted s t .outputOverflow (frameOrNone s)))
    ∧ (¬ (we ≤ 12 ∧ s.endCode.toNat < 2 ^ we) →
        ∃ t, exec .lEmitEnd s = .next t ∧ Aborted s t .codeWidthOverflow (frameOrNone s))

/-- R85, R93: L.PAD completes the unfinished byte with zero bits and passes it to the sink, or writes nothing when BITCNT
is 0; LZW_LAST becomes NEXT·2^8 + MCS·2^4 + W; RAW goes to X.FINISH and SUB to B.TERM. It aborts with OUTPUT_OVERFLOW if
the bytes that leave do not fit. -/
def Obligations.PadEndsPass : Prop :=
  ∀ s : State, PackersReady s → s.seq = 0x16#8 →
    let bl := List.replicate ((8 - s.bitCnt.toNat) % 8) false
    (Fits s (sunkBits s bl).1.length → ∃ t, exec .lPad s = .next t ∧ Appended s t bl ∧ t.bitCnt = 0 ∧ t.bitBuf = 0
      ∧ t.lzwLast.toNat = s.next.toNat * 2 ^ 8 + s.mcs.toNat * 2 ^ 4 + s.w.toNat
      ∧ t.seq = (if s.sink = .raw then 0x30#8 else 0x29#8)
      ∧ OnlyPacker { s with lzwLast := t.lzwLast } t)
    ∧ (¬ Fits s (sunkBits s bl).1.length →
        ∃ t, exec .lPad s = .next t ∧ Aborted s t .outputOverflow (frameOrNone s))

/-- R10, R90 (U16, U17; log 11): the model's own faults. L.STEP faults on a symbol that is not below 2^MCS; and an operation faults
where a register write would not fit: L.INIT for MCS above 8, L.STEP for PI = 2^32 − 1, G.CHECK_FRAME (of a frame that
passes) and G.NEXT_FRAME for FI = 65535, and chunk_byte for CHUNK_LEN = 255, which stops whatever sends it a byte: an emit
whose code completes a byte, as L.EMIT_CLEAR's does, and L.PAD with an unfinished byte. -/
def Obligations.ImpossibleStatesFault : Prop :=
  ∀ s : State,
    (2 ^ s.mcs.toNat ≤ (inByte s (byteAddr s s.curSrc s.pi.toNat)).toNat → exec .lStep s = .fault .symbolOutOfRange)
    ∧ (8 < s.mcs.toNat → exec .lInit s = .fault .registerOverflow)
    ∧ ((inByte s (byteAddr s s.curSrc s.pi.toNat)).toNat < 2 ^ s.mcs.toNat → s.pi.toNat + 1 = 2 ^ 32 →
        exec .lStep s = .fault .registerOverflow)
    ∧ (s.fi.toNat = 65535 → exec .gNextFrame s = .fault .registerOverflow)
    ∧ (s.fi.toNat = 65535 → frameOk s 65535 → exec .gCheckFrame s = .fault .registerOverflow)
    ∧ (s.chunkLen.toNat = 255 → ∀ v, chunkByte v s = .fault .registerOverflow)
    ∧ (s.chunkLen.toNat = 255 → s.sink = .sub →
        (∀ c n, n ≤ 12 → c < 2 ^ n → 8 ≤ s.bitCnt.toNat + n → emit c n s = .fault .registerOverflow)
        ∧ (s.w.toNat ≤ 12 → s.clearCode.toNat < 2 ^ s.w.toNat → 8 ≤ s.bitCnt.toNat + s.w.toNat →
            exec .lEmitClear s = .fault .registerOverflow)
        ∧ (s.bitCnt ≠ 0 → exec .lPad s = .fault .registerOverflow))

/-! ### The GIF writer -/

/-- R104, R99: G.CHECK_PAL accepts a palette of 1 to 256 entries: PLEN is the least power of two that is at least PAL_LEN
and at least 2, MCS is max(2, log2 PLEN), FI is 0; any other length aborts with INVALID_PALETTE_SIZE and no frame. That OUT_PTR
keeps its value through the abort is the model's choice (log 7). -/
def Obligations.CheckPalNormalisesPalette : Prop :=
  ∀ s : State,
    (1 ≤ s.palLen.toNat ∧ s.palLen.toNat ≤ 256 →
      ∃ (t : State) (e : Nat), exec .gCheckPal s = .next t
        ∧ t.plen.toNat = 2 ^ e ∧ s.palLen.toNat ≤ 2 ^ e ∧ 1 ≤ e ∧ e ≤ 8
        ∧ (∀ j, 1 ≤ j → s.palLen.toNat ≤ 2 ^ j → e ≤ j)
        ∧ t.mcs.toNat = max 2 e
        ∧ t.seq = (if s.nframes = 0 then 0x22#8 else 0x21#8)
        ∧ t = { s with plen := t.plen, mcs := t.mcs, fi := 0, seq := t.seq })
    ∧ (s.palLen.toNat = 0 ∨ 256 < s.palLen.toNat →
        ∃ t, exec .gCheckPal s = .next t ∧ Aborted s t .invalidPaletteSize 0xFFFF#16 ∧ t.outPtr = s.outPtr)

/-- R105, R100 (b), (c), (d): G.CHECK_FRAME checks PIX_LEN = WIDTH·HEIGHT and, where DIMS_PRESENT, FW and FH, then every
pixel against PAL_LEN; a frame that passes advances FI, changing nothing else, and a failure aborts with the first check's
error for frame FI, before any output. The entry's fields are little-endian (R36), the address of a byte is its base plus
its offset mod 2^P_ADDR_BITS. That OUT_PTR keeps its value through an abort is the model's choice (log 7). -/
def Obligations.CheckFrameValidatesFrame : Prop :=
  ∀ s : State,
    let e := fun o => (inByte s ((s.frameBase.toNat + (16 * s.fi.toNat + o)) % 2 ^ s.build.addrBits)).toNat
    let pixAddr := e 0 + e 1 * 2 ^ 8 + e 2 * 2 ^ 16 + e 3 * 2 ^ 24
    let pixLen := e 4 + e 5 * 2 ^ 8 + e 6 * 2 ^ 16 + e 7 * 2 ^ 24
    let dims := pixLen = s.width.toNat * s.height.toNat
      ∧ (e 10 % 2 = 1 → e 12 + e 13 * 2 ^ 8 = s.width.toNat ∧ e 14 + e 15 * 2 ^ 8 = s.height.toNat)
    let pixels := ∀ k < pixLen, (inByte s ((pixAddr + k) % 2 ^ s.build.addrBits)).toNat < s.palLen.toNat
    (dims → pixels → s.fi.toNat < 65535 → ∃ t, exec .gCheckFrame s = .next t
        ∧ t.fi.toNat = s.fi.toNat + 1
        ∧ t.seq = (if t.fi = s.nframes then 0x22#8 else 0x21#8) ∧ t = { s with fi := t.fi, seq := t.seq })
    ∧ (¬ dims → ∃ t, exec .gCheckFrame s = .next t ∧ Aborted s t .dimensionMismatch s.fi ∧ t.outPtr = s.outPtr)
    ∧ (dims → ¬ pixels →
        ∃ t, exec .gCheckFrame s = .next t ∧ Aborted s t .pixelIndexOutOfRange s.fi ∧ t.outPtr = s.outPtr)

/-- R106: G.SIG writes "GIF89a", sets FI to 0 and goes on to G.LSD; without room for 6 bytes it aborts with
OUTPUT_OVERFLOW and no frame. -/
def Obligations.SigWritesSignature : Prop :=
  ∀ s : State, s.seq = 0x22#8 →
    (Fits s 6 → ∃ t, exec .gSig s = .next t
      ∧ WroteOut s t [0x47, 0x49, 0x46, 0x38, 0x39, 0x61] ∧ t.seq = 0x23#8 ∧ OnlyOut { s with fi := 0 } t)
    ∧ (¬ Fits s 6 → ∃ t, exec .gSig s = .next t ∧ Aborted s t .outputOverflow 0xFFFF#16)

/-- R107: G.LSD writes WIDTH and HEIGHT little-endian, the packed byte 0x80 + P_COLOR_RES·2^4 + (log2(PLEN) − 1), and two
zero bytes, for every legal padded length PLEN = 2^e (R15); without room for 7 bytes it aborts with OUTPUT_OVERFLOW and no
frame. -/
def Obligations.LsdWritesScreenDescriptor : Prop :=
  ∀ (s : State) (e : Nat), s.seq = 0x23#8 → 1 ≤ e → e ≤ 8 → s.plen.toNat = 2 ^ e →
    (Fits s 7 → ∃ t, exec .gLsd s = .next t
      ∧ WroteOut s t
          [s.width.setWidth 8, (s.width >>> 8).setWidth 8, s.height.setWidth 8, (s.height >>> 8).setWidth 8,
            BitVec.ofNat 8 (0x80 + s.build.colorRes.toNat * 2 ^ 4 + (e - 1)), 0x00, 0x00]
      ∧ t.seq = 0x24#8 ∧ OnlyOut s t)
    ∧ (¬ Fits s 7 → ∃ t, exec .gLsd s = .next t ∧ Aborted s t .outputOverflow 0xFFFF#16)

/-- R108: G.GCT writes 3·PLEN bytes: byte c of entry j is the IN byte at PAL_BASE + 3j + c for j < PAL_LEN, and channel c
of P_FILLER otherwise. It goes on to G.NETSCAPE if LOOPL, else to the first frame or the trailer; without room it aborts
with OUTPUT_OVERFLOW and no frame. -/
def Obligations.GctWritesColorTable : Prop :=
  ∀ s : State, s.seq = 0x24#8 →
    (Fits s (3 * s.plen.toNat) → ∃ (t : State) (bs : List Byte), exec .gGct s = .next t
      ∧ WroteOut s t bs ∧ bs.length = 3 * s.plen.toNat
      ∧ (∀ j < s.plen.toNat, ∀ c < 3, bs[3 * j + c]? = some
          (if j < s.palLen.toNat then inByte s ((s.palBase.toNat + (3 * j + c)) % 2 ^ s.build.addrBits)
            else if c = 0 then s.build.filler.r else if c = 1 then s.build.filler.g else s.build.filler.b))
      ∧ t.seq = (if s.loopL then 0x25#8 else if s.nframes = 0 then 0x2B#8 else 0x26#8) ∧ OnlyOut s t)
    ∧ (¬ Fits s (3 * s.plen.toNat) → ∃ t, exec .gGct s = .next t ∧ Aborted s t .outputOverflow 0xFFFF#16)

/-- R109, R63: G.NETSCAPE writes the 19 bytes of the loop extension and goes on to the first frame or the trailer; without
room it aborts with OUTPUT_OVERFLOW and no frame. -/
def Obligations.NetscapeWritesLoopBlock : Prop :=
  ∀ s : State, s.seq = 0x25#8 →
    (Fits s 19 → ∃ t, exec .gNetscape s = .next t
      ∧ WroteOut s t [0x21, 0xFF, 0x0B, 0x4E, 0x45, 0x54, 0x53, 0x43, 0x41, 0x50, 0x45, 0x32, 0x2E, 0x30, 0x03, 0x01,
          0x00, 0x00, 0x00]
      ∧ t.seq = (if s.nframes = 0 then 0x2B#8 else 0x26#8) ∧ OnlyOut s t)
    ∧ (¬ Fits s 19 → ∃ t, exec .gNetscape s = .next t ∧ Aborted s t .outputOverflow 0xFFFF#16)

/-- R110: G.GCE writes 21 F9 04 00, the two bytes of frame FI's DELAY as IN holds them at +8 and +9, and 00 00, and goes
on to G.IDESC; without room it aborts with OUTPUT_OVERFLOW for frame FI. -/
def Obligations.GceWritesControlExtension : Prop :=
  ∀ s : State, s.seq = 0x26#8 → s.job = 0x01#8 →
    (Fits s 8 → ∃ t, exec .gGce s = .next t
      ∧ WroteOut s t [0x21, 0xF9, 0x04, 0x00,
          inByte s ((s.frameBase.toNat + (16 * s.fi.toNat + 8)) % 2 ^ s.build.addrBits),
          inByte s ((s.frameBase.toNat + (16 * s.fi.toNat + 9)) % 2 ^ s.build.addrBits), 0x00, 0x00]
      ∧ t.seq = 0x27#8 ∧ OnlyOut s t)
    ∧ (¬ Fits s 8 → ∃ t, exec .gGce s = .next t ∧ Aborted s t .outputOverflow s.fi)

/-- R111, R62: G.IDESC writes 2C, the position 0, 0, WIDTH and HEIGHT little-endian, and 00, and goes on to G.MINCODE;
without room it aborts with OUTPUT_OVERFLOW for frame FI. -/
def Obligations.IdescWritesImageDescriptor : Prop :=
  ∀ s : State, s.seq = 0x27#8 → s.job = 0x01#8 →
    (Fits s 10 → ∃ t, exec .gIdesc s = .next t
      ∧ WroteOut s t [0x2C, 0x00, 0x00, 0x00, 0x00, s.width.setWidth 8, (s.width >>> 8).setWidth 8,
          s.height.setWidth 8, (s.height >>> 8).setWidth 8, 0x00]
      ∧ t.seq = 0x28#8 ∧ OnlyOut s t)
    ∧ (¬ Fits s 10 → ∃ t, exec .gIdesc s = .next t ∧ Aborted s t .outputOverflow s.fi)

/-- R112: G.MINCODE writes MCS, takes CUR_SRC and CUR_N from frame FI's PIX_ADDR and PIX_LEN, the little-endian words at +0 and
+4 of its entry as IN holds them after that write, sets SINK to SUB and CHUNK_LEN to 0, and goes on to L.INIT; without room
it aborts with OUTPUT_OVERFLOW for frame FI. -/
def Obligations.MincodeStartsImageData : Prop :=
  ∀ s : State, s.seq = 0x28#8 → s.job = 0x01#8 →
    (Fits s 1 → ∃ t, exec .gMincode s = .next t
      ∧ WroteOut s t [BitVec.ofNat 8 s.mcs.toNat]
      ∧ (let e := fun o => (inByte t ((s.frameBase.toNat + (16 * s.fi.toNat + o)) % 2 ^ s.build.addrBits)).toNat
        t.curSrc.toNat = e 0 + e 1 * 2 ^ 8 + e 2 * 2 ^ 16 + e 3 * 2 ^ 24
          ∧ t.curN.toNat = e 4 + e 5 * 2 ^ 8 + e 6 * 2 ^ 16 + e 7 * 2 ^ 24)
      ∧ t.seq = 0x11#8 ∧ OnlyOut { s with curSrc := t.curSrc, curN := t.curN, sink := .sub, chunkLen := 0 } t)
    ∧ (¬ Fits s 1 → ∃ t, exec .gMincode s = .next t ∧ Aborted s t .outputOverflow s.fi)

/-- R113: B.TERM writes the sub-block being filled, its length first, if it has a byte, and then the terminator 00;
CHUNK_LEN is 0, and G.NEXT_FRAME follows; without room it aborts with OUTPUT_OVERFLOW for frame FI. -/
def Obligations.TermEndsSubBlocks : Prop :=
  ∀ s : State, s.seq = 0x29#8 → s.job = 0x01#8 →
    let bs := if s.chunkLen = 0 then [0x00#8] else (s.chunkLen :: heldChunk s) ++ [0x00#8]
    (Fits s bs.length → ∃ t, exec .bTerm s = .next t
      ∧ WroteOut s t bs ∧ t.seq = 0x2A#8 ∧ OnlyOut { s with chunkLen := 0 } t)
    ∧ (¬ Fits s bs.length → ∃ t, exec .bTerm s = .next t ∧ Aborted s t .outputOverflow s.fi)

/-- R114: G.NEXT_FRAME advances FI and goes to G.TRAILER after the last frame, else to G.GCE; nothing else changes. -/
def Obligations.NextFrameAdvances : Prop :=
  ∀ s : State, s.fi.toNat < 65535 → ∃ t, exec .gNextFrame s = .next t
    ∧ t.fi.toNat = s.fi.toNat + 1
    ∧ t.seq = (if t.fi = s.nframes then 0x2B#8 else 0x26#8) ∧ t = { s with fi := t.fi, seq := t.seq }

/-- R115: G.TRAILER writes 3B and goes on to X.FINISH; without room it aborts with OUTPUT_OVERFLOW and no frame. -/
def Obligations.TrailerWritesLastByte : Prop :=
  ∀ s : State, s.seq = 0x2B#8 →
    (Fits s 1 → ∃ t, exec .gTrailer s = .next t ∧ WroteOut s t [0x3B] ∧ t.seq = 0x30#8 ∧ OnlyOut s t)
    ∧ (¬ Fits s 1 → ∃ t, exec .gTrailer s = .next t ∧ Aborted s t .outputOverflow 0xFFFF#16)

/-! ### Whole-machine rules -/

/-- The invariant holds after reset. -/
def Obligations.ResetMeetsInvariant : Prop := Inv State.reset

/-- Every step keeps the invariant, from every state that meets it: the canonical forms of IN, OUT, TABLE and CHUNK;
STATUS and OUT_LEN (R20, R23, R26, R147); the phases of a job (R57); the bounds of a pass (R79), the accumulator (R80)
and the table (R81); CODE_WIDTH_OVERFLOW is never recorded (R79 (c)); and in one memory no job reads its own OUT region
(R146 (f)). -/
def Obligations.StepKeepsInvariant : Prop :=
  ∀ s t : State, Inv s → step s = .next t → Inv t

/-- From a state that meets the invariant no step faults: SEQ never holds an unlisted code, no symbol is out of range at
L.STEP, and no register write overflows (R10, R56, R82, R90). -/
def Obligations.InvariantStepNeverFaults : Prop :=
  ∀ (s : State) (f : Fault), Inv s → step s ≠ .fault f

/-- R79 (a): from one operation of a pass to the next the code width never decreases, and it never exceeds 12. -/
def Obligations.CodeWidthNeverDecreases : Prop :=
  ∀ s t : State, Inv s → step s = .next t → inPass s.seq = true → inPass t.seq = true →
    s.w.toNat ≤ t.w.toNat ∧ t.w.toNat ≤ 12

/-- The build never changes, so PARAMS reads the same after every step (R28). -/
def Obligations.ParamsNeverChange : Prop :=
  ∀ s t : State, step s = .next t → t.build = s.build ∧ regRead t .params = regRead s .params

/-- R25: while a job runs and goes on running, no step changes a configuration register. -/
def Obligations.ConfigStableDuringJob : Prop :=
  ∀ (s t : State) (r : Reg), s.busy = true → step s = .next t → t.busy = true →
    r ∈ [Reg.width, .height, .palBase, .palLen, .frameBase, .nframes, .srcBase, .srcLen, .outBase, .outCap] →
    regRead t r = regRead s r

/-- R47, R50: while a job runs and goes on running, no step changes an IN byte the job reads, where IN and OUT are one memory
neither (R146 (f)). -/
def Obligations.JobInputStable : Prop :=
  ∀ (s t : State) (a : Nat), Inv s → s.busy = true → step s = .next t → t.busy = true → JobReads s a →
    inByte t a = inByte s a ∧ JobReads t a

/-- R44: an engine step changes OUT only at OUT_BASE + k with k < OUT_CAP. -/
def Obligations.JobWritesOnlyItsRegion : Prop :=
  ∀ (s t : State) (a : Nat), s.agenda = [] ∨ s.agenda.head? = some .engine → step s = .next t →
    ¬ OutRegion s a → outByteAt t a = outByteAt s a

/-- R97: the length of the stream of R96. -/
def Obligations.GifStreamLength : Prop :=
  ∀ (b : Build) (a : Animation), 1 ≤ a.palette.length → a.palette.length ≤ 256 →
    let p := paddedLen a.palette.length
    let n := fun f : Frame => (lzwBytes b f.pix (minCodeSize p)).length
    (gifStream b a).length = 14 + 3 * p + (if a.loop then 19 else 0)
      + (a.frames.map fun f => 19 + n f + (n f + 254) / 255 + 1).sum

/-- R77, R94, R124, R151: an LZW_ENCODE job that is accepted with M = 2 to 8, whose source symbols are below 2^M and whose
output fits in OUT_CAP and in the space, ends after exactly N + 7 engine operations with DONE, with no host turn between, and
OUT holds lzw_bytes(source, M), OUT_LEN its length. -/
def Obligations.LzwJobWritesLzwBytes : Prop :=
  ∀ (s s0 : State) (m : BitVec 4),
    s.busy = false → s.agenda = [] → 2 ≤ m.toNat → m.toNat ≤ 8 → exec (.lzwEncode m) s = .next s0 →
    lzwValid s0 m.toNat → (lzwBytes s.build (sourceOf s0) m.toNat).length ≤ s.outCap.toNat →
    (lzwBytes s.build (sourceOf s0) m.toNat).length ≤ 2 ^ s.build.addrBits →
    ∃ t, Runs (s.srcLen.toNat + 7) s0 t
      ∧ t.seq = 0x00#8 ∧ statusWord t = 0xFFFF0002#32
      ∧ t.outLen.toNat = (lzwBytes s.build (sourceOf s0) m.toNat).length
      ∧ outBytesFrom t t.outLen.toNat = lzwBytes s.build (sourceOf s0) m.toNat

/-- R96, R116, R151: a GIF_ENCODE job whose inputs are valid and whose stream fits in OUT_CAP and in the space ends after
exactly 6 + LOOPL + F + F·(n + 10) engine operations with DONE, with no host turn between, and OUT holds gif_stream(…),
OUT_LEN its length. -/
def Obligations.GifJobWritesGifStream : Prop :=
  ∀ (s s0 : State) (loop : Bool),
    s.busy = false → s.agenda = [] →
    exec (if loop then .gifEncodeLoop1 else .gifEncodeLoop0) s = .next s0 → gifValid s0 →
    (gifStream s.build (animationOf s0 loop)).length ≤ s.outCap.toNat →
    (gifStream s.build (animationOf s0 loop)).length ≤ 2 ^ s.build.addrBits →
    ∃ t, Runs (6 + loop.toNat + s.nframes.toNat
          + s.nframes.toNat * (s.width.toNat * s.height.toNat + 10)) s0 t
      ∧ t.seq = 0x00#8 ∧ statusWord t = 0xFFFF0002#32
      ∧ t.outLen.toNat = (gifStream s.build (animationOf s0 loop)).length
      ∧ outBytesFrom t t.outLen.toNat = gifStream s.build (animationOf s0 loop)

/-- R58, R76: the bits of a code c of width w are c[0], c[1], …, c[w-1], least significant first. R76, R37: pack writes bit i
of the flat sequence to bit (i mod 8) of byte ⌊i/8⌋, in ⌈B/8⌉ bytes, the padding bits of the last byte being 0. -/
def Obligations.PackPlacesBits : Prop :=
  (∀ c w : Nat, (codeBits c w).length = w ∧ ∀ i < w, (codeBits c w)[i]? = some (decide (c / 2 ^ i % 2 = 1)))
  ∧ ∀ bl : List Bool, (pack bl).length = (bl.length + 7) / 8
    ∧ ∀ i < 8 * (pack bl).length, ∃ v, (pack bl)[i / 8]? = some v ∧ v.getLsbD (i % 8) = bl.getD i false
end

