-- ==== Sys2Proof/Laws/Cells.lean ====
section
/-! SUPPORT. The laws of sparse data: read after write, read after drop, and that every operation keeps the canonical form. -/

namespace Sys2Proof.Machine.Cells

variable {α : Type}

@[simp] theorem get_nil (a : Nat) : get ([] : List (Nat × α)) a = none := rfl

@[simp] theorem get_put_self (l : List (Nat × α)) (a : Nat) (v : α) : get (put l a v) a = some v := by
  induction l with
  | nil => simp [put, get]
  | cons c rest ih =>
    obtain ⟨k, x⟩ := c
    simp only [put]
    split
    · simp [get]
    · split
      · simp [get]
      · have : k ≠ a := by omega
        simp [get, this, ih]

theorem get_put_of_ne (l : List (Nat × α)) {a b : Nat} (v : α) (h : b ≠ a) : get (put l a v) b = get l b := by
  induction l with
  | nil => simp [put, get, Ne.symm h]
  | cons c rest ih =>
    obtain ⟨k, x⟩ := c
    simp only [put]
    split
    · simp [get, Ne.symm h]
    · split
      · next hk => subst hk; simp [get, Ne.symm h]
      · simp only [get, ih]

theorem get_put (l : List (Nat × α)) (a b : Nat) (v : α) :
    get (put l a v) b = if b = a then some v else get l b := by
  split
  · next h => subst h; simp
  · next h => exact get_put_of_ne l v h

theorem mem_put {l : List (Nat × α)} {a : Nat} {v : α} {c : Nat × α} (h : c ∈ put l a v) :
    c = (a, v) ∨ c ∈ l := by
  induction l with
  | nil => simpa [put] using h
  | cons d rest ih =>
    obtain ⟨k, x⟩ := d
    simp only [put] at h
    split at h
    · simpa using h
    · split at h
      · simp only [List.mem_cons] at h ⊢
        rcases h with h | h
        · exact .inl h
        · exact .inr (.inr h)
      · simp only [List.mem_cons] at h ⊢
        rcases h with h | h
        · exact .inr (.inl h)
        · rcases ih h with h | h
          · exact .inl h
          · exact .inr (.inr h)

theorem below_put {l : List (Nat × α)} {a bound : Nat} {v : α} (h : Below l bound) (ha : a < bound) :
    Below (put l a v) bound := by
  intro c hc
  rcases mem_put hc with rfl | hc
  · exact ha
  · exact h c hc

theorem rising_put {l : List (Nat × α)} (a : Nat) (v : α) (h : Rising l) : Rising (put l a v) := by
  induction l with
  | nil => simp [put, Rising]
  | cons c rest ih =>
    obtain ⟨k, x⟩ := c
    simp only [Rising, List.pairwise_cons] at h
    simp only [put]
    split
    · next hk =>
      simp only [Rising, List.pairwise_cons, List.mem_cons]
      refine ⟨?_, h⟩
      rintro d (rfl | hd)
      · exact hk
      · exact Nat.lt_trans hk (h.1 d hd)
    · split
      · next hk => subst hk; exact List.pairwise_cons.mpr h
      · next h1 h2 =>
        refine List.pairwise_cons.mpr ⟨?_, ih h.2⟩
        intro d hd
        rcases mem_put hd with rfl | hd
        · show k < a
          omega
        · exact h.1 d hd

theorem get_drop (l : List (Nat × α)) (test : Nat → Bool) (a : Nat) :
    get (drop l test) a = if test a then none else get l a := by
  induction l with
  | nil => simp [drop]
  | cons c rest ih =>
    obtain ⟨k, x⟩ := c
    simp only [drop, List.filter_cons, get] at ih ⊢
    by_cases hk : k = a
    · subst hk
      cases ht : test k <;> simp_all [get]
    · cases ht : test k <;> simp [get, hk, ih]

theorem below_drop {l : List (Nat × α)} {bound : Nat} (test : Nat → Bool) (h : Below l bound) :
    Below (drop l test) bound :=
  fun c hc => h c (List.mem_filter.mp hc).1

theorem rising_drop {l : List (Nat × α)} (test : Nat → Bool) (h : Rising l) : Rising (drop l test) :=
  List.Pairwise.filter _ h

/-- A listed value is read, where the keys rise. -/
theorem get_of_mem {l : List (Nat × α)} (h : Rising l) {a : Nat} {v : α} (hm : (a, v) ∈ l) : get l a = some v := by
  induction l with
  | nil => simp at hm
  | cons c rest ih =>
    obtain ⟨k, x⟩ := c
    simp only [Rising, List.pairwise_cons] at h
    rcases List.mem_cons.mp hm with heq | hm
    · cases heq; simp [get]
    · have hk : k ≠ a := Nat.ne_of_lt (h.1 _ hm)
      simp [get, hk, ih h.2 hm]

/-- A value that is read is listed. -/
theorem mem_of_get {l : List (Nat × α)} {a : Nat} {v : α} (h : get l a = some v) : (a, v) ∈ l := by
  induction l with
  | nil => simp at h
  | cons c rest ih =>
    obtain ⟨k, x⟩ := c
    simp only [get] at h
    split at h
    · next hk => subst hk; cases h; simp
    · exact List.mem_cons_of_mem _ (ih h)

theorem wf_put {bits : Nat} {m : List Host.Cell} {a : Nat} (v : Byte) (ha : a < 2 ^ bits) (h : Memory.wf bits m) :
    Memory.wf bits (put m a v) :=
  ⟨rising_put _ _ h.1, below_put h.2 ha⟩

theorem wf_drop {bits : Nat} {m : List Host.Cell} (test : Nat → Bool) (h : Memory.wf bits m) :
    Memory.wf bits (drop m test) :=
  ⟨rising_drop _ h.1, below_drop _ h.2⟩

end Sys2Proof.Machine.Cells
end

