-- ==== Sys2Proof/Laws/State.lean ====
section
/-! SUPPORT. For each named update of the state, one lemma per field: what the update puts there, or that it leaves the
field alone. All hold by rfl. -/

namespace Sys2Proof.Machine

/-! ### goto -/

@[simp] theorem goto_seq (c : BitVec 8) (s : State) : (goto c s).seq = c := rfl
@[simp] theorem goto_job (c : BitVec 8) (s : State) : (goto c s).job = s.job := rfl
@[simp] theorem goto_loopL (c : BitVec 8) (s : State) : (goto c s).loopL = s.loopL := rfl
@[simp] theorem goto_fi (c : BitVec 8) (s : State) : (goto c s).fi = s.fi := rfl
@[simp] theorem goto_pi (c : BitVec 8) (s : State) : (goto c s).pi = s.pi := rfl
@[simp] theorem goto_curSrc (c : BitVec 8) (s : State) : (goto c s).curSrc = s.curSrc := rfl
@[simp] theorem goto_curN (c : BitVec 8) (s : State) : (goto c s).curN = s.curN := rfl
@[simp] theorem goto_sink (c : BitVec 8) (s : State) : (goto c s).sink = s.sink := rfl
@[simp] theorem goto_outPtr (c : BitVec 8) (s : State) : (goto c s).outPtr = s.outPtr := rfl
@[simp] theorem goto_plen (c : BitVec 8) (s : State) : (goto c s).plen = s.plen := rfl
@[simp] theorem goto_mcs (c : BitVec 8) (s : State) : (goto c s).mcs = s.mcs := rfl
@[simp] theorem goto_clearCode (c : BitVec 8) (s : State) : (goto c s).clearCode = s.clearCode := rfl
@[simp] theorem goto_endCode (c : BitVec 8) (s : State) : (goto c s).endCode = s.endCode := rfl
@[simp] theorem goto_w (c : BitVec 8) (s : State) : (goto c s).w = s.w := rfl
@[simp] theorem goto_next (c : BitVec 8) (s : State) : (goto c s).next = s.next := rfl
@[simp] theorem goto_accValid (c : BitVec 8) (s : State) : (goto c s).accValid = s.accValid := rfl
@[simp] theorem goto_accCode (c : BitVec 8) (s : State) : (goto c s).accCode = s.accCode := rfl
@[simp] theorem goto_table (c : BitVec 8) (s : State) : (goto c s).table = s.table := rfl
@[simp] theorem goto_bitBuf (c : BitVec 8) (s : State) : (goto c s).bitBuf = s.bitBuf := rfl
@[simp] theorem goto_bitCnt (c : BitVec 8) (s : State) : (goto c s).bitCnt = s.bitCnt := rfl
@[simp] theorem goto_chunk (c : BitVec 8) (s : State) : (goto c s).chunk = s.chunk := rfl
@[simp] theorem goto_chunkLen (c : BitVec 8) (s : State) : (goto c s).chunkLen = s.chunkLen := rfl
@[simp] theorem goto_busy (c : BitVec 8) (s : State) : (goto c s).busy = s.busy := rfl
@[simp] theorem goto_done (c : BitVec 8) (s : State) : (goto c s).done = s.done := rfl
@[simp] theorem goto_err (c : BitVec 8) (s : State) : (goto c s).err = s.err := rfl
@[simp] theorem goto_errCode (c : BitVec 8) (s : State) : (goto c s).errCode = s.errCode := rfl
@[simp] theorem goto_errFrame (c : BitVec 8) (s : State) : (goto c s).errFrame = s.errFrame := rfl
@[simp] theorem goto_ie (c : BitVec 8) (s : State) : (goto c s).ie = s.ie := rfl
@[simp] theorem goto_width (c : BitVec 8) (s : State) : (goto c s).width = s.width := rfl
@[simp] theorem goto_height (c : BitVec 8) (s : State) : (goto c s).height = s.height := rfl
@[simp] theorem goto_palBase (c : BitVec 8) (s : State) : (goto c s).palBase = s.palBase := rfl
@[simp] theorem goto_palLen (c : BitVec 8) (s : State) : (goto c s).palLen = s.palLen := rfl
@[simp] theorem goto_frameBase (c : BitVec 8) (s : State) : (goto c s).frameBase = s.frameBase := rfl
@[simp] theorem goto_nframes (c : BitVec 8) (s : State) : (goto c s).nframes = s.nframes := rfl
@[simp] theorem goto_srcBase (c : BitVec 8) (s : State) : (goto c s).srcBase = s.srcBase := rfl
@[simp] theorem goto_srcLen (c : BitVec 8) (s : State) : (goto c s).srcLen = s.srcLen := rfl
@[simp] theorem goto_outBase (c : BitVec 8) (s : State) : (goto c s).outBase = s.outBase := rfl
@[simp] theorem goto_outCap (c : BitVec 8) (s : State) : (goto c s).outCap = s.outCap := rfl
@[simp] theorem goto_outLen (c : BitVec 8) (s : State) : (goto c s).outLen = s.outLen := rfl
@[simp] theorem goto_lzwLast (c : BitVec 8) (s : State) : (goto c s).lzwLast = s.lzwLast := rfl
@[simp] theorem goto_inMem (c : BitVec 8) (s : State) : (goto c s).inMem = s.inMem := rfl
@[simp] theorem goto_outMem (c : BitVec 8) (s : State) : (goto c s).outMem = s.outMem := rfl
@[simp] theorem goto_outFree (c : BitVec 8) (s : State) : (goto c s).outFree = s.outFree := rfl
@[simp] theorem goto_build (c : BitVec 8) (s : State) : (goto c s).build = s.build := rfl
@[simp] theorem goto_draws (c : BitVec 8) (s : State) : (goto c s).draws = s.draws := rfl
@[simp] theorem goto_agenda (c : BitVec 8) (s : State) : (goto c s).agenda = s.agenda := rfl
@[simp] theorem goto_hostData (c : BitVec 8) (s : State) : (goto c s).hostData = s.hostData := rfl

/-! ### writeOutByte -/

@[simp] theorem writeOutByte_seq (a : Nat) (v : Byte) (s : State) : (writeOutByte a v s).seq = s.seq := rfl
@[simp] theorem writeOutByte_job (a : Nat) (v : Byte) (s : State) : (writeOutByte a v s).job = s.job := rfl
@[simp] theorem writeOutByte_loopL (a : Nat) (v : Byte) (s : State) : (writeOutByte a v s).loopL = s.loopL := rfl
@[simp] theorem writeOutByte_fi (a : Nat) (v : Byte) (s : State) : (writeOutByte a v s).fi = s.fi := rfl
@[simp] theorem writeOutByte_pi (a : Nat) (v : Byte) (s : State) : (writeOutByte a v s).pi = s.pi := rfl
@[simp] theorem writeOutByte_curSrc (a : Nat) (v : Byte) (s : State) : (writeOutByte a v s).curSrc = s.curSrc := rfl
@[simp] theorem writeOutByte_curN (a : Nat) (v : Byte) (s : State) : (writeOutByte a v s).curN = s.curN := rfl
@[simp] theorem writeOutByte_sink (a : Nat) (v : Byte) (s : State) : (writeOutByte a v s).sink = s.sink := rfl
@[simp] theorem writeOutByte_outPtr (a : Nat) (v : Byte) (s : State) : (writeOutByte a v s).outPtr = s.outPtr := rfl
@[simp] theorem writeOutByte_plen (a : Nat) (v : Byte) (s : State) : (writeOutByte a v s).plen = s.plen := rfl
@[simp] theorem writeOutByte_mcs (a : Nat) (v : Byte) (s : State) : (writeOutByte a v s).mcs = s.mcs := rfl
@[simp] theorem writeOutByte_clearCode (a : Nat) (v : Byte) (s : State) : (writeOutByte a v s).clearCode = s.clearCode := rfl
@[simp] theorem writeOutByte_endCode (a : Nat) (v : Byte) (s : State) : (writeOutByte a v s).endCode = s.endCode := rfl
@[simp] theorem writeOutByte_w (a : Nat) (v : Byte) (s : State) : (writeOutByte a v s).w = s.w := rfl
@[simp] theorem writeOutByte_next (a : Nat) (v : Byte) (s : State) : (writeOutByte a v s).next = s.next := rfl
@[simp] theorem writeOutByte_accValid (a : Nat) (v : Byte) (s : State) : (writeOutByte a v s).accValid = s.accValid := rfl
@[simp] theorem writeOutByte_accCode (a : Nat) (v : Byte) (s : State) : (writeOutByte a v s).accCode = s.accCode := rfl
@[simp] theorem writeOutByte_table (a : Nat) (v : Byte) (s : State) : (writeOutByte a v s).table = s.table := rfl
@[simp] theorem writeOutByte_bitBuf (a : Nat) (v : Byte) (s : State) : (writeOutByte a v s).bitBuf = s.bitBuf := rfl
@[simp] theorem writeOutByte_bitCnt (a : Nat) (v : Byte) (s : State) : (writeOutByte a v s).bitCnt = s.bitCnt := rfl
@[simp] theorem writeOutByte_chunk (a : Nat) (v : Byte) (s : State) : (writeOutByte a v s).chunk = s.chunk := rfl
@[simp] theorem writeOutByte_chunkLen (a : Nat) (v : Byte) (s : State) : (writeOutByte a v s).chunkLen = s.chunkLen := rfl
@[simp] theorem writeOutByte_busy (a : Nat) (v : Byte) (s : State) : (writeOutByte a v s).busy = s.busy := rfl
@[simp] theorem writeOutByte_done (a : Nat) (v : Byte) (s : State) : (writeOutByte a v s).done = s.done := rfl
@[simp] theorem writeOutByte_err (a : Nat) (v : Byte) (s : State) : (writeOutByte a v s).err = s.err := rfl
@[simp] theorem writeOutByte_errCode (a : Nat) (v : Byte) (s : State) : (writeOutByte a v s).errCode = s.errCode := rfl
@[simp] theorem writeOutByte_errFrame (a : Nat) (v : Byte) (s : State) : (writeOutByte a v s).errFrame = s.errFrame := rfl
@[simp] theorem writeOutByte_ie (a : Nat) (v : Byte) (s : State) : (writeOutByte a v s).ie = s.ie := rfl
@[simp] theorem writeOutByte_width (a : Nat) (v : Byte) (s : State) : (writeOutByte a v s).width = s.width := rfl
@[simp] theorem writeOutByte_height (a : Nat) (v : Byte) (s : State) : (writeOutByte a v s).height = s.height := rfl
@[simp] theorem writeOutByte_palBase (a : Nat) (v : Byte) (s : State) : (writeOutByte a v s).palBase = s.palBase := rfl
@[simp] theorem writeOutByte_palLen (a : Nat) (v : Byte) (s : State) : (writeOutByte a v s).palLen = s.palLen := rfl
@[simp] theorem writeOutByte_frameBase (a : Nat) (v : Byte) (s : State) : (writeOutByte a v s).frameBase = s.frameBase := rfl
@[simp] theorem writeOutByte_nframes (a : Nat) (v : Byte) (s : State) : (writeOutByte a v s).nframes = s.nframes := rfl
@[simp] theorem writeOutByte_srcBase (a : Nat) (v : Byte) (s : State) : (writeOutByte a v s).srcBase = s.srcBase := rfl
@[simp] theorem writeOutByte_srcLen (a : Nat) (v : Byte) (s : State) : (writeOutByte a v s).srcLen = s.srcLen := rfl
@[simp] theorem writeOutByte_outBase (a : Nat) (v : Byte) (s : State) : (writeOutByte a v s).outBase = s.outBase := rfl
@[simp] theorem writeOutByte_outCap (a : Nat) (v : Byte) (s : State) : (writeOutByte a v s).outCap = s.outCap := rfl
@[simp] theorem writeOutByte_outLen (a : Nat) (v : Byte) (s : State) : (writeOutByte a v s).outLen = s.outLen := rfl
@[simp] theorem writeOutByte_lzwLast (a : Nat) (v : Byte) (s : State) : (writeOutByte a v s).lzwLast = s.lzwLast := rfl
@[simp] theorem writeOutByte_inMem (a : Nat) (v : Byte) (s : State) : (writeOutByte a v s).inMem = s.inMem := rfl
@[simp] theorem writeOutByte_outMem (a : Nat) (v : Byte) (s : State) : (writeOutByte a v s).outMem = Cells.put s.outMem a v := rfl
@[simp] theorem writeOutByte_outFree (a : Nat) (v : Byte) (s : State) : (writeOutByte a v s).outFree = s.outFree := rfl
@[simp] theorem writeOutByte_build (a : Nat) (v : Byte) (s : State) : (writeOutByte a v s).build = s.build := rfl
@[simp] theorem writeOutByte_draws (a : Nat) (v : Byte) (s : State) : (writeOutByte a v s).draws = s.draws := rfl
@[simp] theorem writeOutByte_agenda (a : Nat) (v : Byte) (s : State) : (writeOutByte a v s).agenda = s.agenda := rfl
@[simp] theorem writeOutByte_hostData (a : Nat) (v : Byte) (s : State) : (writeOutByte a v s).hostData = s.hostData := rfl

/-! ### pushOut -/

@[simp] theorem pushOut_seq (v : Byte) (s : State) : (pushOut v s).seq = s.seq := rfl
@[simp] theorem pushOut_job (v : Byte) (s : State) : (pushOut v s).job = s.job := rfl
@[simp] theorem pushOut_loopL (v : Byte) (s : State) : (pushOut v s).loopL = s.loopL := rfl
@[simp] theorem pushOut_fi (v : Byte) (s : State) : (pushOut v s).fi = s.fi := rfl
@[simp] theorem pushOut_pi (v : Byte) (s : State) : (pushOut v s).pi = s.pi := rfl
@[simp] theorem pushOut_curSrc (v : Byte) (s : State) : (pushOut v s).curSrc = s.curSrc := rfl
@[simp] theorem pushOut_curN (v : Byte) (s : State) : (pushOut v s).curN = s.curN := rfl
@[simp] theorem pushOut_sink (v : Byte) (s : State) : (pushOut v s).sink = s.sink := rfl
@[simp] theorem pushOut_outPtr (v : Byte) (s : State) : (pushOut v s).outPtr = s.outPtr + 1 := rfl
@[simp] theorem pushOut_plen (v : Byte) (s : State) : (pushOut v s).plen = s.plen := rfl
@[simp] theorem pushOut_mcs (v : Byte) (s : State) : (pushOut v s).mcs = s.mcs := rfl
@[simp] theorem pushOut_clearCode (v : Byte) (s : State) : (pushOut v s).clearCode = s.clearCode := rfl
@[simp] theorem pushOut_endCode (v : Byte) (s : State) : (pushOut v s).endCode = s.endCode := rfl
@[simp] theorem pushOut_w (v : Byte) (s : State) : (pushOut v s).w = s.w := rfl
@[simp] theorem pushOut_next (v : Byte) (s : State) : (pushOut v s).next = s.next := rfl
@[simp] theorem pushOut_accValid (v : Byte) (s : State) : (pushOut v s).accValid = s.accValid := rfl
@[simp] theorem pushOut_accCode (v : Byte) (s : State) : (pushOut v s).accCode = s.accCode := rfl
@[simp] theorem pushOut_table (v : Byte) (s : State) : (pushOut v s).table = s.table := rfl
@[simp] theorem pushOut_bitBuf (v : Byte) (s : State) : (pushOut v s).bitBuf = s.bitBuf := rfl
@[simp] theorem pushOut_bitCnt (v : Byte) (s : State) : (pushOut v s).bitCnt = s.bitCnt := rfl
@[simp] theorem pushOut_chunk (v : Byte) (s : State) : (pushOut v s).chunk = s.chunk := rfl
@[simp] theorem pushOut_chunkLen (v : Byte) (s : State) : (pushOut v s).chunkLen = s.chunkLen := rfl
@[simp] theorem pushOut_busy (v : Byte) (s : State) : (pushOut v s).busy = s.busy := rfl
@[simp] theorem pushOut_done (v : Byte) (s : State) : (pushOut v s).done = s.done := rfl
@[simp] theorem pushOut_err (v : Byte) (s : State) : (pushOut v s).err = s.err := rfl
@[simp] theorem pushOut_errCode (v : Byte) (s : State) : (pushOut v s).errCode = s.errCode := rfl
@[simp] theorem pushOut_errFrame (v : Byte) (s : State) : (pushOut v s).errFrame = s.errFrame := rfl
@[simp] theorem pushOut_ie (v : Byte) (s : State) : (pushOut v s).ie = s.ie := rfl
@[simp] theorem pushOut_width (v : Byte) (s : State) : (pushOut v s).width = s.width := rfl
@[simp] theorem pushOut_height (v : Byte) (s : State) : (pushOut v s).height = s.height := rfl
@[simp] theorem pushOut_palBase (v : Byte) (s : State) : (pushOut v s).palBase = s.palBase := rfl
@[simp] theorem pushOut_palLen (v : Byte) (s : State) : (pushOut v s).palLen = s.palLen := rfl
@[simp] theorem pushOut_frameBase (v : Byte) (s : State) : (pushOut v s).frameBase = s.frameBase := rfl
@[simp] theorem pushOut_nframes (v : Byte) (s : State) : (pushOut v s).nframes = s.nframes := rfl
@[simp] theorem pushOut_srcBase (v : Byte) (s : State) : (pushOut v s).srcBase = s.srcBase := rfl
@[simp] theorem pushOut_srcLen (v : Byte) (s : State) : (pushOut v s).srcLen = s.srcLen := rfl
@[simp] theorem pushOut_outBase (v : Byte) (s : State) : (pushOut v s).outBase = s.outBase := rfl
@[simp] theorem pushOut_outCap (v : Byte) (s : State) : (pushOut v s).outCap = s.outCap := rfl
@[simp] theorem pushOut_outLen (v : Byte) (s : State) : (pushOut v s).outLen = s.outLen := rfl
@[simp] theorem pushOut_lzwLast (v : Byte) (s : State) : (pushOut v s).lzwLast = s.lzwLast := rfl
@[simp] theorem pushOut_inMem (v : Byte) (s : State) : (pushOut v s).inMem = s.inMem := rfl
@[simp] theorem pushOut_outMem (v : Byte) (s : State) : (pushOut v s).outMem = Cells.put s.outMem (byteAddr s s.outBase s.outPtr.toNat) v := rfl
@[simp] theorem pushOut_outFree (v : Byte) (s : State) : (pushOut v s).outFree = s.outFree := rfl
@[simp] theorem pushOut_build (v : Byte) (s : State) : (pushOut v s).build = s.build := rfl
@[simp] theorem pushOut_draws (v : Byte) (s : State) : (pushOut v s).draws = s.draws := rfl
@[simp] theorem pushOut_agenda (v : Byte) (s : State) : (pushOut v s).agenda = s.agenda := rfl
@[simp] theorem pushOut_hostData (v : Byte) (s : State) : (pushOut v s).hostData = s.hostData := rfl

/-! ### emptyChunk -/

@[simp] theorem emptyChunk_seq (s : State) : (emptyChunk s).seq = s.seq := rfl
@[simp] theorem emptyChunk_job (s : State) : (emptyChunk s).job = s.job := rfl
@[simp] theorem emptyChunk_loopL (s : State) : (emptyChunk s).loopL = s.loopL := rfl
@[simp] theorem emptyChunk_fi (s : State) : (emptyChunk s).fi = s.fi := rfl
@[simp] theorem emptyChunk_pi (s : State) : (emptyChunk s).pi = s.pi := rfl
@[simp] theorem emptyChunk_curSrc (s : State) : (emptyChunk s).curSrc = s.curSrc := rfl
@[simp] theorem emptyChunk_curN (s : State) : (emptyChunk s).curN = s.curN := rfl
@[simp] theorem emptyChunk_sink (s : State) : (emptyChunk s).sink = s.sink := rfl
@[simp] theorem emptyChunk_outPtr (s : State) : (emptyChunk s).outPtr = s.outPtr := rfl
@[simp] theorem emptyChunk_plen (s : State) : (emptyChunk s).plen = s.plen := rfl
@[simp] theorem emptyChunk_mcs (s : State) : (emptyChunk s).mcs = s.mcs := rfl
@[simp] theorem emptyChunk_clearCode (s : State) : (emptyChunk s).clearCode = s.clearCode := rfl
@[simp] theorem emptyChunk_endCode (s : State) : (emptyChunk s).endCode = s.endCode := rfl
@[simp] theorem emptyChunk_w (s : State) : (emptyChunk s).w = s.w := rfl
@[simp] theorem emptyChunk_next (s : State) : (emptyChunk s).next = s.next := rfl
@[simp] theorem emptyChunk_accValid (s : State) : (emptyChunk s).accValid = s.accValid := rfl
@[simp] theorem emptyChunk_accCode (s : State) : (emptyChunk s).accCode = s.accCode := rfl
@[simp] theorem emptyChunk_table (s : State) : (emptyChunk s).table = s.table := rfl
@[simp] theorem emptyChunk_bitBuf (s : State) : (emptyChunk s).bitBuf = s.bitBuf := rfl
@[simp] theorem emptyChunk_bitCnt (s : State) : (emptyChunk s).bitCnt = s.bitCnt := rfl
@[simp] theorem emptyChunk_chunk (s : State) : (emptyChunk s).chunk = s.chunk := rfl
@[simp] theorem emptyChunk_chunkLen (s : State) : (emptyChunk s).chunkLen = 0 := rfl
@[simp] theorem emptyChunk_busy (s : State) : (emptyChunk s).busy = s.busy := rfl
@[simp] theorem emptyChunk_done (s : State) : (emptyChunk s).done = s.done := rfl
@[simp] theorem emptyChunk_err (s : State) : (emptyChunk s).err = s.err := rfl
@[simp] theorem emptyChunk_errCode (s : State) : (emptyChunk s).errCode = s.errCode := rfl
@[simp] theorem emptyChunk_errFrame (s : State) : (emptyChunk s).errFrame = s.errFrame := rfl
@[simp] theorem emptyChunk_ie (s : State) : (emptyChunk s).ie = s.ie := rfl
@[simp] theorem emptyChunk_width (s : State) : (emptyChunk s).width = s.width := rfl
@[simp] theorem emptyChunk_height (s : State) : (emptyChunk s).height = s.height := rfl
@[simp] theorem emptyChunk_palBase (s : State) : (emptyChunk s).palBase = s.palBase := rfl
@[simp] theorem emptyChunk_palLen (s : State) : (emptyChunk s).palLen = s.palLen := rfl
@[simp] theorem emptyChunk_frameBase (s : State) : (emptyChunk s).frameBase = s.frameBase := rfl
@[simp] theorem emptyChunk_nframes (s : State) : (emptyChunk s).nframes = s.nframes := rfl
@[simp] theorem emptyChunk_srcBase (s : State) : (emptyChunk s).srcBase = s.srcBase := rfl
@[simp] theorem emptyChunk_srcLen (s : State) : (emptyChunk s).srcLen = s.srcLen := rfl
@[simp] theorem emptyChunk_outBase (s : State) : (emptyChunk s).outBase = s.outBase := rfl
@[simp] theorem emptyChunk_outCap (s : State) : (emptyChunk s).outCap = s.outCap := rfl
@[simp] theorem emptyChunk_outLen (s : State) : (emptyChunk s).outLen = s.outLen := rfl
@[simp] theorem emptyChunk_lzwLast (s : State) : (emptyChunk s).lzwLast = s.lzwLast := rfl
@[simp] theorem emptyChunk_inMem (s : State) : (emptyChunk s).inMem = s.inMem := rfl
@[simp] theorem emptyChunk_outMem (s : State) : (emptyChunk s).outMem = s.outMem := rfl
@[simp] theorem emptyChunk_outFree (s : State) : (emptyChunk s).outFree = s.outFree := rfl
@[simp] theorem emptyChunk_build (s : State) : (emptyChunk s).build = s.build := rfl
@[simp] theorem emptyChunk_draws (s : State) : (emptyChunk s).draws = s.draws := rfl
@[simp] theorem emptyChunk_agenda (s : State) : (emptyChunk s).agenda = s.agenda := rfl
@[simp] theorem emptyChunk_hostData (s : State) : (emptyChunk s).hostData = s.hostData := rfl

/-! ### pushChunk -/

@[simp] theorem pushChunk_seq (v : Byte) (s : State) : (pushChunk v s).seq = s.seq := rfl
@[simp] theorem pushChunk_job (v : Byte) (s : State) : (pushChunk v s).job = s.job := rfl
@[simp] theorem pushChunk_loopL (v : Byte) (s : State) : (pushChunk v s).loopL = s.loopL := rfl
@[simp] theorem pushChunk_fi (v : Byte) (s : State) : (pushChunk v s).fi = s.fi := rfl
@[simp] theorem pushChunk_pi (v : Byte) (s : State) : (pushChunk v s).pi = s.pi := rfl
@[simp] theorem pushChunk_curSrc (v : Byte) (s : State) : (pushChunk v s).curSrc = s.curSrc := rfl
@[simp] theorem pushChunk_curN (v : Byte) (s : State) : (pushChunk v s).curN = s.curN := rfl
@[simp] theorem pushChunk_sink (v : Byte) (s : State) : (pushChunk v s).sink = s.sink := rfl
@[simp] theorem pushChunk_outPtr (v : Byte) (s : State) : (pushChunk v s).outPtr = s.outPtr := rfl
@[simp] theorem pushChunk_plen (v : Byte) (s : State) : (pushChunk v s).plen = s.plen := rfl
@[simp] theorem pushChunk_mcs (v : Byte) (s : State) : (pushChunk v s).mcs = s.mcs := rfl
@[simp] theorem pushChunk_clearCode (v : Byte) (s : State) : (pushChunk v s).clearCode = s.clearCode := rfl
@[simp] theorem pushChunk_endCode (v : Byte) (s : State) : (pushChunk v s).endCode = s.endCode := rfl
@[simp] theorem pushChunk_w (v : Byte) (s : State) : (pushChunk v s).w = s.w := rfl
@[simp] theorem pushChunk_next (v : Byte) (s : State) : (pushChunk v s).next = s.next := rfl
@[simp] theorem pushChunk_accValid (v : Byte) (s : State) : (pushChunk v s).accValid = s.accValid := rfl
@[simp] theorem pushChunk_accCode (v : Byte) (s : State) : (pushChunk v s).accCode = s.accCode := rfl
@[simp] theorem pushChunk_table (v : Byte) (s : State) : (pushChunk v s).table = s.table := rfl
@[simp] theorem pushChunk_bitBuf (v : Byte) (s : State) : (pushChunk v s).bitBuf = s.bitBuf := rfl
@[simp] theorem pushChunk_bitCnt (v : Byte) (s : State) : (pushChunk v s).bitCnt = s.bitCnt := rfl
@[simp] theorem pushChunk_chunk (v : Byte) (s : State) : (pushChunk v s).chunk = Cells.put s.chunk s.chunkLen.toNat v := rfl
@[simp] theorem pushChunk_chunkLen (v : Byte) (s : State) : (pushChunk v s).chunkLen = s.chunkLen + 1 := rfl
@[simp] theorem pushChunk_busy (v : Byte) (s : State) : (pushChunk v s).busy = s.busy := rfl
@[simp] theorem pushChunk_done (v : Byte) (s : State) : (pushChunk v s).done = s.done := rfl
@[simp] theorem pushChunk_err (v : Byte) (s : State) : (pushChunk v s).err = s.err := rfl
@[simp] theorem pushChunk_errCode (v : Byte) (s : State) : (pushChunk v s).errCode = s.errCode := rfl
@[simp] theorem pushChunk_errFrame (v : Byte) (s : State) : (pushChunk v s).errFrame = s.errFrame := rfl
@[simp] theorem pushChunk_ie (v : Byte) (s : State) : (pushChunk v s).ie = s.ie := rfl
@[simp] theorem pushChunk_width (v : Byte) (s : State) : (pushChunk v s).width = s.width := rfl
@[simp] theorem pushChunk_height (v : Byte) (s : State) : (pushChunk v s).height = s.height := rfl
@[simp] theorem pushChunk_palBase (v : Byte) (s : State) : (pushChunk v s).palBase = s.palBase := rfl
@[simp] theorem pushChunk_palLen (v : Byte) (s : State) : (pushChunk v s).palLen = s.palLen := rfl
@[simp] theorem pushChunk_frameBase (v : Byte) (s : State) : (pushChunk v s).frameBase = s.frameBase := rfl
@[simp] theorem pushChunk_nframes (v : Byte) (s : State) : (pushChunk v s).nframes = s.nframes := rfl
@[simp] theorem pushChunk_srcBase (v : Byte) (s : State) : (pushChunk v s).srcBase = s.srcBase := rfl
@[simp] theorem pushChunk_srcLen (v : Byte) (s : State) : (pushChunk v s).srcLen = s.srcLen := rfl
@[simp] theorem pushChunk_outBase (v : Byte) (s : State) : (pushChunk v s).outBase = s.outBase := rfl
@[simp] theorem pushChunk_outCap (v : Byte) (s : State) : (pushChunk v s).outCap = s.outCap := rfl
@[simp] theorem pushChunk_outLen (v : Byte) (s : State) : (pushChunk v s).outLen = s.outLen := rfl
@[simp] theorem pushChunk_lzwLast (v : Byte) (s : State) : (pushChunk v s).lzwLast = s.lzwLast := rfl
@[simp] theorem pushChunk_inMem (v : Byte) (s : State) : (pushChunk v s).inMem = s.inMem := rfl
@[simp] theorem pushChunk_outMem (v : Byte) (s : State) : (pushChunk v s).outMem = s.outMem := rfl
@[simp] theorem pushChunk_outFree (v : Byte) (s : State) : (pushChunk v s).outFree = s.outFree := rfl
@[simp] theorem pushChunk_build (v : Byte) (s : State) : (pushChunk v s).build = s.build := rfl
@[simp] theorem pushChunk_draws (v : Byte) (s : State) : (pushChunk v s).draws = s.draws := rfl
@[simp] theorem pushChunk_agenda (v : Byte) (s : State) : (pushChunk v s).agenda = s.agenda := rfl
@[simp] theorem pushChunk_hostData (v : Byte) (s : State) : (pushChunk v s).hostData = s.hostData := rfl

/-! ### setBit -/

@[simp] theorem setBit_seq (b : Bool) (s : State) : (setBit b s).seq = s.seq := rfl
@[simp] theorem setBit_job (b : Bool) (s : State) : (setBit b s).job = s.job := rfl
@[simp] theorem setBit_loopL (b : Bool) (s : State) : (setBit b s).loopL = s.loopL := rfl
@[simp] theorem setBit_fi (b : Bool) (s : State) : (setBit b s).fi = s.fi := rfl
@[simp] theorem setBit_pi (b : Bool) (s : State) : (setBit b s).pi = s.pi := rfl
@[simp] theorem setBit_curSrc (b : Bool) (s : State) : (setBit b s).curSrc = s.curSrc := rfl
@[simp] theorem setBit_curN (b : Bool) (s : State) : (setBit b s).curN = s.curN := rfl
@[simp] theorem setBit_sink (b : Bool) (s : State) : (setBit b s).sink = s.sink := rfl
@[simp] theorem setBit_outPtr (b : Bool) (s : State) : (setBit b s).outPtr = s.outPtr := rfl
@[simp] theorem setBit_plen (b : Bool) (s : State) : (setBit b s).plen = s.plen := rfl
@[simp] theorem setBit_mcs (b : Bool) (s : State) : (setBit b s).mcs = s.mcs := rfl
@[simp] theorem setBit_clearCode (b : Bool) (s : State) : (setBit b s).clearCode = s.clearCode := rfl
@[simp] theorem setBit_endCode (b : Bool) (s : State) : (setBit b s).endCode = s.endCode := rfl
@[simp] theorem setBit_w (b : Bool) (s : State) : (setBit b s).w = s.w := rfl
@[simp] theorem setBit_next (b : Bool) (s : State) : (setBit b s).next = s.next := rfl
@[simp] theorem setBit_accValid (b : Bool) (s : State) : (setBit b s).accValid = s.accValid := rfl
@[simp] theorem setBit_accCode (b : Bool) (s : State) : (setBit b s).accCode = s.accCode := rfl
@[simp] theorem setBit_table (b : Bool) (s : State) : (setBit b s).table = s.table := rfl
@[simp] theorem setBit_bitBuf (b : Bool) (s : State) : (setBit b s).bitBuf = (s.bitBuf &&& ~~~(1#8 <<< s.bitCnt.toNat)) ||| ((BitVec.ofBool b).setWidth 8 <<< s.bitCnt.toNat) := rfl
@[simp] theorem setBit_bitCnt (b : Bool) (s : State) : (setBit b s).bitCnt = s.bitCnt := rfl
@[simp] theorem setBit_chunk (b : Bool) (s : State) : (setBit b s).chunk = s.chunk := rfl
@[simp] theorem setBit_chunkLen (b : Bool) (s : State) : (setBit b s).chunkLen = s.chunkLen := rfl
@[simp] theorem setBit_busy (b : Bool) (s : State) : (setBit b s).busy = s.busy := rfl
@[simp] theorem setBit_done (b : Bool) (s : State) : (setBit b s).done = s.done := rfl
@[simp] theorem setBit_err (b : Bool) (s : State) : (setBit b s).err = s.err := rfl
@[simp] theorem setBit_errCode (b : Bool) (s : State) : (setBit b s).errCode = s.errCode := rfl
@[simp] theorem setBit_errFrame (b : Bool) (s : State) : (setBit b s).errFrame = s.errFrame := rfl
@[simp] theorem setBit_ie (b : Bool) (s : State) : (setBit b s).ie = s.ie := rfl
@[simp] theorem setBit_width (b : Bool) (s : State) : (setBit b s).width = s.width := rfl
@[simp] theorem setBit_height (b : Bool) (s : State) : (setBit b s).height = s.height := rfl
@[simp] theorem setBit_palBase (b : Bool) (s : State) : (setBit b s).palBase = s.palBase := rfl
@[simp] theorem setBit_palLen (b : Bool) (s : State) : (setBit b s).palLen = s.palLen := rfl
@[simp] theorem setBit_frameBase (b : Bool) (s : State) : (setBit b s).frameBase = s.frameBase := rfl
@[simp] theorem setBit_nframes (b : Bool) (s : State) : (setBit b s).nframes = s.nframes := rfl
@[simp] theorem setBit_srcBase (b : Bool) (s : State) : (setBit b s).srcBase = s.srcBase := rfl
@[simp] theorem setBit_srcLen (b : Bool) (s : State) : (setBit b s).srcLen = s.srcLen := rfl
@[simp] theorem setBit_outBase (b : Bool) (s : State) : (setBit b s).outBase = s.outBase := rfl
@[simp] theorem setBit_outCap (b : Bool) (s : State) : (setBit b s).outCap = s.outCap := rfl
@[simp] theorem setBit_outLen (b : Bool) (s : State) : (setBit b s).outLen = s.outLen := rfl
@[simp] theorem setBit_lzwLast (b : Bool) (s : State) : (setBit b s).lzwLast = s.lzwLast := rfl
@[simp] theorem setBit_inMem (b : Bool) (s : State) : (setBit b s).inMem = s.inMem := rfl
@[simp] theorem setBit_outMem (b : Bool) (s : State) : (setBit b s).outMem = s.outMem := rfl
@[simp] theorem setBit_outFree (b : Bool) (s : State) : (setBit b s).outFree = s.outFree := rfl
@[simp] theorem setBit_build (b : Bool) (s : State) : (setBit b s).build = s.build := rfl
@[simp] theorem setBit_draws (b : Bool) (s : State) : (setBit b s).draws = s.draws := rfl
@[simp] theorem setBit_agenda (b : Bool) (s : State) : (setBit b s).agenda = s.agenda := rfl
@[simp] theorem setBit_hostData (b : Bool) (s : State) : (setBit b s).hostData = s.hostData := rfl

/-! ### clearBits -/

@[simp] theorem clearBits_seq (s : State) : (clearBits s).seq = s.seq := rfl
@[simp] theorem clearBits_job (s : State) : (clearBits s).job = s.job := rfl
@[simp] theorem clearBits_loopL (s : State) : (clearBits s).loopL = s.loopL := rfl
@[simp] theorem clearBits_fi (s : State) : (clearBits s).fi = s.fi := rfl
@[simp] theorem clearBits_pi (s : State) : (clearBits s).pi = s.pi := rfl
@[simp] theorem clearBits_curSrc (s : State) : (clearBits s).curSrc = s.curSrc := rfl
@[simp] theorem clearBits_curN (s : State) : (clearBits s).curN = s.curN := rfl
@[simp] theorem clearBits_sink (s : State) : (clearBits s).sink = s.sink := rfl
@[simp] theorem clearBits_outPtr (s : State) : (clearBits s).outPtr = s.outPtr := rfl
@[simp] theorem clearBits_plen (s : State) : (clearBits s).plen = s.plen := rfl
@[simp] theorem clearBits_mcs (s : State) : (clearBits s).mcs = s.mcs := rfl
@[simp] theorem clearBits_clearCode (s : State) : (clearBits s).clearCode = s.clearCode := rfl
@[simp] theorem clearBits_endCode (s : State) : (clearBits s).endCode = s.endCode := rfl
@[simp] theorem clearBits_w (s : State) : (clearBits s).w = s.w := rfl
@[simp] theorem clearBits_next (s : State) : (clearBits s).next = s.next := rfl
@[simp] theorem clearBits_accValid (s : State) : (clearBits s).accValid = s.accValid := rfl
@[simp] theorem clearBits_accCode (s : State) : (clearBits s).accCode = s.accCode := rfl
@[simp] theorem clearBits_table (s : State) : (clearBits s).table = s.table := rfl
@[simp] theorem clearBits_bitBuf (s : State) : (clearBits s).bitBuf = 0 := rfl
@[simp] theorem clearBits_bitCnt (s : State) : (clearBits s).bitCnt = 0 := rfl
@[simp] theorem clearBits_chunk (s : State) : (clearBits s).chunk = s.chunk := rfl
@[simp] theorem clearBits_chunkLen (s : State) : (clearBits s).chunkLen = s.chunkLen := rfl
@[simp] theorem clearBits_busy (s : State) : (clearBits s).busy = s.busy := rfl
@[simp] theorem clearBits_done (s : State) : (clearBits s).done = s.done := rfl
@[simp] theorem clearBits_err (s : State) : (clearBits s).err = s.err := rfl
@[simp] theorem clearBits_errCode (s : State) : (clearBits s).errCode = s.errCode := rfl
@[simp] theorem clearBits_errFrame (s : State) : (clearBits s).errFrame = s.errFrame := rfl
@[simp] theorem clearBits_ie (s : State) : (clearBits s).ie = s.ie := rfl
@[simp] theorem clearBits_width (s : State) : (clearBits s).width = s.width := rfl
@[simp] theorem clearBits_height (s : State) : (clearBits s).height = s.height := rfl
@[simp] theorem clearBits_palBase (s : State) : (clearBits s).palBase = s.palBase := rfl
@[simp] theorem clearBits_palLen (s : State) : (clearBits s).palLen = s.palLen := rfl
@[simp] theorem clearBits_frameBase (s : State) : (clearBits s).frameBase = s.frameBase := rfl
@[simp] theorem clearBits_nframes (s : State) : (clearBits s).nframes = s.nframes := rfl
@[simp] theorem clearBits_srcBase (s : State) : (clearBits s).srcBase = s.srcBase := rfl
@[simp] theorem clearBits_srcLen (s : State) : (clearBits s).srcLen = s.srcLen := rfl
@[simp] theorem clearBits_outBase (s : State) : (clearBits s).outBase = s.outBase := rfl
@[simp] theorem clearBits_outCap (s : State) : (clearBits s).outCap = s.outCap := rfl
@[simp] theorem clearBits_outLen (s : State) : (clearBits s).outLen = s.outLen := rfl
@[simp] theorem clearBits_lzwLast (s : State) : (clearBits s).lzwLast = s.lzwLast := rfl
@[simp] theorem clearBits_inMem (s : State) : (clearBits s).inMem = s.inMem := rfl
@[simp] theorem clearBits_outMem (s : State) : (clearBits s).outMem = s.outMem := rfl
@[simp] theorem clearBits_outFree (s : State) : (clearBits s).outFree = s.outFree := rfl
@[simp] theorem clearBits_build (s : State) : (clearBits s).build = s.build := rfl
@[simp] theorem clearBits_draws (s : State) : (clearBits s).draws = s.draws := rfl
@[simp] theorem clearBits_agenda (s : State) : (clearBits s).agenda = s.agenda := rfl
@[simp] theorem clearBits_hostData (s : State) : (clearBits s).hostData = s.hostData := rfl

/-! ### countBit -/

@[simp] theorem countBit_seq (s : State) : (countBit s).seq = s.seq := rfl
@[simp] theorem countBit_job (s : State) : (countBit s).job = s.job := rfl
@[simp] theorem countBit_loopL (s : State) : (countBit s).loopL = s.loopL := rfl
@[simp] theorem countBit_fi (s : State) : (countBit s).fi = s.fi := rfl
@[simp] theorem countBit_pi (s : State) : (countBit s).pi = s.pi := rfl
@[simp] theorem countBit_curSrc (s : State) : (countBit s).curSrc = s.curSrc := rfl
@[simp] theorem countBit_curN (s : State) : (countBit s).curN = s.curN := rfl
@[simp] theorem countBit_sink (s : State) : (countBit s).sink = s.sink := rfl
@[simp] theorem countBit_outPtr (s : State) : (countBit s).outPtr = s.outPtr := rfl
@[simp] theorem countBit_plen (s : State) : (countBit s).plen = s.plen := rfl
@[simp] theorem countBit_mcs (s : State) : (countBit s).mcs = s.mcs := rfl
@[simp] theorem countBit_clearCode (s : State) : (countBit s).clearCode = s.clearCode := rfl
@[simp] theorem countBit_endCode (s : State) : (countBit s).endCode = s.endCode := rfl
@[simp] theorem countBit_w (s : State) : (countBit s).w = s.w := rfl
@[simp] theorem countBit_next (s : State) : (countBit s).next = s.next := rfl
@[simp] theorem countBit_accValid (s : State) : (countBit s).accValid = s.accValid := rfl
@[simp] theorem countBit_accCode (s : State) : (countBit s).accCode = s.accCode := rfl
@[simp] theorem countBit_table (s : State) : (countBit s).table = s.table := rfl
@[simp] theorem countBit_bitBuf (s : State) : (countBit s).bitBuf = s.bitBuf := rfl
@[simp] theorem countBit_bitCnt (s : State) : (countBit s).bitCnt = s.bitCnt + 1 := rfl
@[simp] theorem countBit_chunk (s : State) : (countBit s).chunk = s.chunk := rfl
@[simp] theorem countBit_chunkLen (s : State) : (countBit s).chunkLen = s.chunkLen := rfl
@[simp] theorem countBit_busy (s : State) : (countBit s).busy = s.busy := rfl
@[simp] theorem countBit_done (s : State) : (countBit s).done = s.done := rfl
@[simp] theorem countBit_err (s : State) : (countBit s).err = s.err := rfl
@[simp] theorem countBit_errCode (s : State) : (countBit s).errCode = s.errCode := rfl
@[simp] theorem countBit_errFrame (s : State) : (countBit s).errFrame = s.errFrame := rfl
@[simp] theorem countBit_ie (s : State) : (countBit s).ie = s.ie := rfl
@[simp] theorem countBit_width (s : State) : (countBit s).width = s.width := rfl
@[simp] theorem countBit_height (s : State) : (countBit s).height = s.height := rfl
@[simp] theorem countBit_palBase (s : State) : (countBit s).palBase = s.palBase := rfl
@[simp] theorem countBit_palLen (s : State) : (countBit s).palLen = s.palLen := rfl
@[simp] theorem countBit_frameBase (s : State) : (countBit s).frameBase = s.frameBase := rfl
@[simp] theorem countBit_nframes (s : State) : (countBit s).nframes = s.nframes := rfl
@[simp] theorem countBit_srcBase (s : State) : (countBit s).srcBase = s.srcBase := rfl
@[simp] theorem countBit_srcLen (s : State) : (countBit s).srcLen = s.srcLen := rfl
@[simp] theorem countBit_outBase (s : State) : (countBit s).outBase = s.outBase := rfl
@[simp] theorem countBit_outCap (s : State) : (countBit s).outCap = s.outCap := rfl
@[simp] theorem countBit_outLen (s : State) : (countBit s).outLen = s.outLen := rfl
@[simp] theorem countBit_lzwLast (s : State) : (countBit s).lzwLast = s.lzwLast := rfl
@[simp] theorem countBit_inMem (s : State) : (countBit s).inMem = s.inMem := rfl
@[simp] theorem countBit_outMem (s : State) : (countBit s).outMem = s.outMem := rfl
@[simp] theorem countBit_outFree (s : State) : (countBit s).outFree = s.outFree := rfl
@[simp] theorem countBit_build (s : State) : (countBit s).build = s.build := rfl
@[simp] theorem countBit_draws (s : State) : (countBit s).draws = s.draws := rfl
@[simp] theorem countBit_agenda (s : State) : (countBit s).agenda = s.agenda := rfl
@[simp] theorem countBit_hostData (s : State) : (countBit s).hostData = s.hostData := rfl

/-! ### restartAcc -/

@[simp] theorem restartAcc_seq (x : Byte) (s : State) : (restartAcc x s).seq = s.seq := rfl
@[simp] theorem restartAcc_job (x : Byte) (s : State) : (restartAcc x s).job = s.job := rfl
@[simp] theorem restartAcc_loopL (x : Byte) (s : State) : (restartAcc x s).loopL = s.loopL := rfl
@[simp] theorem restartAcc_fi (x : Byte) (s : State) : (restartAcc x s).fi = s.fi := rfl
@[simp] theorem restartAcc_pi (x : Byte) (s : State) : (restartAcc x s).pi = s.pi := rfl
@[simp] theorem restartAcc_curSrc (x : Byte) (s : State) : (restartAcc x s).curSrc = s.curSrc := rfl
@[simp] theorem restartAcc_curN (x : Byte) (s : State) : (restartAcc x s).curN = s.curN := rfl
@[simp] theorem restartAcc_sink (x : Byte) (s : State) : (restartAcc x s).sink = s.sink := rfl
@[simp] theorem restartAcc_outPtr (x : Byte) (s : State) : (restartAcc x s).outPtr = s.outPtr := rfl
@[simp] theorem restartAcc_plen (x : Byte) (s : State) : (restartAcc x s).plen = s.plen := rfl
@[simp] theorem restartAcc_mcs (x : Byte) (s : State) : (restartAcc x s).mcs = s.mcs := rfl
@[simp] theorem restartAcc_clearCode (x : Byte) (s : State) : (restartAcc x s).clearCode = s.clearCode := rfl
@[simp] theorem restartAcc_endCode (x : Byte) (s : State) : (restartAcc x s).endCode = s.endCode := rfl
@[simp] theorem restartAcc_w (x : Byte) (s : State) : (restartAcc x s).w = s.w := rfl
@[simp] theorem restartAcc_next (x : Byte) (s : State) : (restartAcc x s).next = s.next := rfl
@[simp] theorem restartAcc_accValid (x : Byte) (s : State) : (restartAcc x s).accValid = s.accValid := rfl
@[simp] theorem restartAcc_accCode (x : Byte) (s : State) : (restartAcc x s).accCode = x.setWidth 12 := rfl
@[simp] theorem restartAcc_table (x : Byte) (s : State) : (restartAcc x s).table = s.table := rfl
@[simp] theorem restartAcc_bitBuf (x : Byte) (s : State) : (restartAcc x s).bitBuf = s.bitBuf := rfl
@[simp] theorem restartAcc_bitCnt (x : Byte) (s : State) : (restartAcc x s).bitCnt = s.bitCnt := rfl
@[simp] theorem restartAcc_chunk (x : Byte) (s : State) : (restartAcc x s).chunk = s.chunk := rfl
@[simp] theorem restartAcc_chunkLen (x : Byte) (s : State) : (restartAcc x s).chunkLen = s.chunkLen := rfl
@[simp] theorem restartAcc_busy (x : Byte) (s : State) : (restartAcc x s).busy = s.busy := rfl
@[simp] theorem restartAcc_done (x : Byte) (s : State) : (restartAcc x s).done = s.done := rfl
@[simp] theorem restartAcc_err (x : Byte) (s : State) : (restartAcc x s).err = s.err := rfl
@[simp] theorem restartAcc_errCode (x : Byte) (s : State) : (restartAcc x s).errCode = s.errCode := rfl
@[simp] theorem restartAcc_errFrame (x : Byte) (s : State) : (restartAcc x s).errFrame = s.errFrame := rfl
@[simp] theorem restartAcc_ie (x : Byte) (s : State) : (restartAcc x s).ie = s.ie := rfl
@[simp] theorem restartAcc_width (x : Byte) (s : State) : (restartAcc x s).width = s.width := rfl
@[simp] theorem restartAcc_height (x : Byte) (s : State) : (restartAcc x s).height = s.height := rfl
@[simp] theorem restartAcc_palBase (x : Byte) (s : State) : (restartAcc x s).palBase = s.palBase := rfl
@[simp] theorem restartAcc_palLen (x : Byte) (s : State) : (restartAcc x s).palLen = s.palLen := rfl
@[simp] theorem restartAcc_frameBase (x : Byte) (s : State) : (restartAcc x s).frameBase = s.frameBase := rfl
@[simp] theorem restartAcc_nframes (x : Byte) (s : State) : (restartAcc x s).nframes = s.nframes := rfl
@[simp] theorem restartAcc_srcBase (x : Byte) (s : State) : (restartAcc x s).srcBase = s.srcBase := rfl
@[simp] theorem restartAcc_srcLen (x : Byte) (s : State) : (restartAcc x s).srcLen = s.srcLen := rfl
@[simp] theorem restartAcc_outBase (x : Byte) (s : State) : (restartAcc x s).outBase = s.outBase := rfl
@[simp] theorem restartAcc_outCap (x : Byte) (s : State) : (restartAcc x s).outCap = s.outCap := rfl
@[simp] theorem restartAcc_outLen (x : Byte) (s : State) : (restartAcc x s).outLen = s.outLen := rfl
@[simp] theorem restartAcc_lzwLast (x : Byte) (s : State) : (restartAcc x s).lzwLast = s.lzwLast := rfl
@[simp] theorem restartAcc_inMem (x : Byte) (s : State) : (restartAcc x s).inMem = s.inMem := rfl
@[simp] theorem restartAcc_outMem (x : Byte) (s : State) : (restartAcc x s).outMem = s.outMem := rfl
@[simp] theorem restartAcc_outFree (x : Byte) (s : State) : (restartAcc x s).outFree = s.outFree := rfl
@[simp] theorem restartAcc_build (x : Byte) (s : State) : (restartAcc x s).build = s.build := rfl
@[simp] theorem restartAcc_draws (x : Byte) (s : State) : (restartAcc x s).draws = s.draws := rfl
@[simp] theorem restartAcc_agenda (x : Byte) (s : State) : (restartAcc x s).agenda = s.agenda := rfl
@[simp] theorem restartAcc_hostData (x : Byte) (s : State) : (restartAcc x s).hostData = s.hostData := rfl

/-! ### insertEntry -/

@[simp] theorem insertEntry_seq (x : Byte) (s : State) : (insertEntry x s).seq = s.seq := rfl
@[simp] theorem insertEntry_job (x : Byte) (s : State) : (insertEntry x s).job = s.job := rfl
@[simp] theorem insertEntry_loopL (x : Byte) (s : State) : (insertEntry x s).loopL = s.loopL := rfl
@[simp] theorem insertEntry_fi (x : Byte) (s : State) : (insertEntry x s).fi = s.fi := rfl
@[simp] theorem insertEntry_pi (x : Byte) (s : State) : (insertEntry x s).pi = s.pi := rfl
@[simp] theorem insertEntry_curSrc (x : Byte) (s : State) : (insertEntry x s).curSrc = s.curSrc := rfl
@[simp] theorem insertEntry_curN (x : Byte) (s : State) : (insertEntry x s).curN = s.curN := rfl
@[simp] theorem insertEntry_sink (x : Byte) (s : State) : (insertEntry x s).sink = s.sink := rfl
@[simp] theorem insertEntry_outPtr (x : Byte) (s : State) : (insertEntry x s).outPtr = s.outPtr := rfl
@[simp] theorem insertEntry_plen (x : Byte) (s : State) : (insertEntry x s).plen = s.plen := rfl
@[simp] theorem insertEntry_mcs (x : Byte) (s : State) : (insertEntry x s).mcs = s.mcs := rfl
@[simp] theorem insertEntry_clearCode (x : Byte) (s : State) : (insertEntry x s).clearCode = s.clearCode := rfl
@[simp] theorem insertEntry_endCode (x : Byte) (s : State) : (insertEntry x s).endCode = s.endCode := rfl
@[simp] theorem insertEntry_w (x : Byte) (s : State) : (insertEntry x s).w = s.w := rfl
@[simp] theorem insertEntry_next (x : Byte) (s : State) : (insertEntry x s).next = s.next + 1 := rfl
@[simp] theorem insertEntry_accValid (x : Byte) (s : State) : (insertEntry x s).accValid = s.accValid := rfl
@[simp] theorem insertEntry_accCode (x : Byte) (s : State) : (insertEntry x s).accCode = s.accCode := rfl
@[simp] theorem insertEntry_table (x : Byte) (s : State) : (insertEntry x s).table = Cells.put s.table s.next.toNat ⟨s.accCode, x⟩ := rfl
@[simp] theorem insertEntry_bitBuf (x : Byte) (s : State) : (insertEntry x s).bitBuf = s.bitBuf := rfl
@[simp] theorem insertEntry_bitCnt (x : Byte) (s : State) : (insertEntry x s).bitCnt = s.bitCnt := rfl
@[simp] theorem insertEntry_chunk (x : Byte) (s : State) : (insertEntry x s).chunk = s.chunk := rfl
@[simp] theorem insertEntry_chunkLen (x : Byte) (s : State) : (insertEntry x s).chunkLen = s.chunkLen := rfl
@[simp] theorem insertEntry_busy (x : Byte) (s : State) : (insertEntry x s).busy = s.busy := rfl
@[simp] theorem insertEntry_done (x : Byte) (s : State) : (insertEntry x s).done = s.done := rfl
@[simp] theorem insertEntry_err (x : Byte) (s : State) : (insertEntry x s).err = s.err := rfl
@[simp] theorem insertEntry_errCode (x : Byte) (s : State) : (insertEntry x s).errCode = s.errCode := rfl
@[simp] theorem insertEntry_errFrame (x : Byte) (s : State) : (insertEntry x s).errFrame = s.errFrame := rfl
@[simp] theorem insertEntry_ie (x : Byte) (s : State) : (insertEntry x s).ie = s.ie := rfl
@[simp] theorem insertEntry_width (x : Byte) (s : State) : (insertEntry x s).width = s.width := rfl
@[simp] theorem insertEntry_height (x : Byte) (s : State) : (insertEntry x s).height = s.height := rfl
@[simp] theorem insertEntry_palBase (x : Byte) (s : State) : (insertEntry x s).palBase = s.palBase := rfl
@[simp] theorem insertEntry_palLen (x : Byte) (s : State) : (insertEntry x s).palLen = s.palLen := rfl
@[simp] theorem insertEntry_frameBase (x : Byte) (s : State) : (insertEntry x s).frameBase = s.frameBase := rfl
@[simp] theorem insertEntry_nframes (x : Byte) (s : State) : (insertEntry x s).nframes = s.nframes := rfl
@[simp] theorem insertEntry_srcBase (x : Byte) (s : State) : (insertEntry x s).srcBase = s.srcBase := rfl
@[simp] theorem insertEntry_srcLen (x : Byte) (s : State) : (insertEntry x s).srcLen = s.srcLen := rfl
@[simp] theorem insertEntry_outBase (x : Byte) (s : State) : (insertEntry x s).outBase = s.outBase := rfl
@[simp] theorem insertEntry_outCap (x : Byte) (s : State) : (insertEntry x s).outCap = s.outCap := rfl
@[simp] theorem insertEntry_outLen (x : Byte) (s : State) : (insertEntry x s).outLen = s.outLen := rfl
@[simp] theorem insertEntry_lzwLast (x : Byte) (s : State) : (insertEntry x s).lzwLast = s.lzwLast := rfl
@[simp] theorem insertEntry_inMem (x : Byte) (s : State) : (insertEntry x s).inMem = s.inMem := rfl
@[simp] theorem insertEntry_outMem (x : Byte) (s : State) : (insertEntry x s).outMem = s.outMem := rfl
@[simp] theorem insertEntry_outFree (x : Byte) (s : State) : (insertEntry x s).outFree = s.outFree := rfl
@[simp] theorem insertEntry_build (x : Byte) (s : State) : (insertEntry x s).build = s.build := rfl
@[simp] theorem insertEntry_draws (x : Byte) (s : State) : (insertEntry x s).draws = s.draws := rfl
@[simp] theorem insertEntry_agenda (x : Byte) (s : State) : (insertEntry x s).agenda = s.agenda := rfl
@[simp] theorem insertEntry_hostData (x : Byte) (s : State) : (insertEntry x s).hostData = s.hostData := rfl

/-! ### nextFi -/

@[simp] theorem nextFi_seq (s : State) : (nextFi s).seq = s.seq := rfl
@[simp] theorem nextFi_job (s : State) : (nextFi s).job = s.job := rfl
@[simp] theorem nextFi_loopL (s : State) : (nextFi s).loopL = s.loopL := rfl
@[simp] theorem nextFi_fi (s : State) : (nextFi s).fi = s.fi + 1 := rfl
@[simp] theorem nextFi_pi (s : State) : (nextFi s).pi = s.pi := rfl
@[simp] theorem nextFi_curSrc (s : State) : (nextFi s).curSrc = s.curSrc := rfl
@[simp] theorem nextFi_curN (s : State) : (nextFi s).curN = s.curN := rfl
@[simp] theorem nextFi_sink (s : State) : (nextFi s).sink = s.sink := rfl
@[simp] theorem nextFi_outPtr (s : State) : (nextFi s).outPtr = s.outPtr := rfl
@[simp] theorem nextFi_plen (s : State) : (nextFi s).plen = s.plen := rfl
@[simp] theorem nextFi_mcs (s : State) : (nextFi s).mcs = s.mcs := rfl
@[simp] theorem nextFi_clearCode (s : State) : (nextFi s).clearCode = s.clearCode := rfl
@[simp] theorem nextFi_endCode (s : State) : (nextFi s).endCode = s.endCode := rfl
@[simp] theorem nextFi_w (s : State) : (nextFi s).w = s.w := rfl
@[simp] theorem nextFi_next (s : State) : (nextFi s).next = s.next := rfl
@[simp] theorem nextFi_accValid (s : State) : (nextFi s).accValid = s.accValid := rfl
@[simp] theorem nextFi_accCode (s : State) : (nextFi s).accCode = s.accCode := rfl
@[simp] theorem nextFi_table (s : State) : (nextFi s).table = s.table := rfl
@[simp] theorem nextFi_bitBuf (s : State) : (nextFi s).bitBuf = s.bitBuf := rfl
@[simp] theorem nextFi_bitCnt (s : State) : (nextFi s).bitCnt = s.bitCnt := rfl
@[simp] theorem nextFi_chunk (s : State) : (nextFi s).chunk = s.chunk := rfl
@[simp] theorem nextFi_chunkLen (s : State) : (nextFi s).chunkLen = s.chunkLen := rfl
@[simp] theorem nextFi_busy (s : State) : (nextFi s).busy = s.busy := rfl
@[simp] theorem nextFi_done (s : State) : (nextFi s).done = s.done := rfl
@[simp] theorem nextFi_err (s : State) : (nextFi s).err = s.err := rfl
@[simp] theorem nextFi_errCode (s : State) : (nextFi s).errCode = s.errCode := rfl
@[simp] theorem nextFi_errFrame (s : State) : (nextFi s).errFrame = s.errFrame := rfl
@[simp] theorem nextFi_ie (s : State) : (nextFi s).ie = s.ie := rfl
@[simp] theorem nextFi_width (s : State) : (nextFi s).width = s.width := rfl
@[simp] theorem nextFi_height (s : State) : (nextFi s).height = s.height := rfl
@[simp] theorem nextFi_palBase (s : State) : (nextFi s).palBase = s.palBase := rfl
@[simp] theorem nextFi_palLen (s : State) : (nextFi s).palLen = s.palLen := rfl
@[simp] theorem nextFi_frameBase (s : State) : (nextFi s).frameBase = s.frameBase := rfl
@[simp] theorem nextFi_nframes (s : State) : (nextFi s).nframes = s.nframes := rfl
@[simp] theorem nextFi_srcBase (s : State) : (nextFi s).srcBase = s.srcBase := rfl
@[simp] theorem nextFi_srcLen (s : State) : (nextFi s).srcLen = s.srcLen := rfl
@[simp] theorem nextFi_outBase (s : State) : (nextFi s).outBase = s.outBase := rfl
@[simp] theorem nextFi_outCap (s : State) : (nextFi s).outCap = s.outCap := rfl
@[simp] theorem nextFi_outLen (s : State) : (nextFi s).outLen = s.outLen := rfl
@[simp] theorem nextFi_lzwLast (s : State) : (nextFi s).lzwLast = s.lzwLast := rfl
@[simp] theorem nextFi_inMem (s : State) : (nextFi s).inMem = s.inMem := rfl
@[simp] theorem nextFi_outMem (s : State) : (nextFi s).outMem = s.outMem := rfl
@[simp] theorem nextFi_outFree (s : State) : (nextFi s).outFree = s.outFree := rfl
@[simp] theorem nextFi_build (s : State) : (nextFi s).build = s.build := rfl
@[simp] theorem nextFi_draws (s : State) : (nextFi s).draws = s.draws := rfl
@[simp] theorem nextFi_agenda (s : State) : (nextFi s).agenda = s.agenda := rfl
@[simp] theorem nextFi_hostData (s : State) : (nextFi s).hostData = s.hostData := rfl

/-! ### startPass -/

@[simp] theorem startPass_seq (s : State) : (startPass s).seq = s.seq := rfl
@[simp] theorem startPass_job (s : State) : (startPass s).job = s.job := rfl
@[simp] theorem startPass_loopL (s : State) : (startPass s).loopL = s.loopL := rfl
@[simp] theorem startPass_fi (s : State) : (startPass s).fi = s.fi := rfl
@[simp] theorem startPass_pi (s : State) : (startPass s).pi = 0 := rfl
@[simp] theorem startPass_curSrc (s : State) : (startPass s).curSrc = s.curSrc := rfl
@[simp] theorem startPass_curN (s : State) : (startPass s).curN = s.curN := rfl
@[simp] theorem startPass_sink (s : State) : (startPass s).sink = s.sink := rfl
@[simp] theorem startPass_outPtr (s : State) : (startPass s).outPtr = s.outPtr := rfl
@[simp] theorem startPass_plen (s : State) : (startPass s).plen = s.plen := rfl
@[simp] theorem startPass_mcs (s : State) : (startPass s).mcs = s.mcs := rfl
@[simp] theorem startPass_clearCode (s : State) : (startPass s).clearCode = 1#9 <<< s.mcs.toNat := rfl
@[simp] theorem startPass_endCode (s : State) : (startPass s).endCode = (1#9 <<< s.mcs.toNat) + 1 := rfl
@[simp] theorem startPass_w (s : State) : (startPass s).w = s.mcs + 1 := rfl
@[simp] theorem startPass_next (s : State) : (startPass s).next = (1#13 <<< s.mcs.toNat) + 2 := rfl
@[simp] theorem startPass_accValid (s : State) : (startPass s).accValid = false := rfl
@[simp] theorem startPass_accCode (s : State) : (startPass s).accCode = 0 := rfl
@[simp] theorem startPass_table (s : State) : (startPass s).table = [] := rfl
@[simp] theorem startPass_bitBuf (s : State) : (startPass s).bitBuf = 0 := rfl
@[simp] theorem startPass_bitCnt (s : State) : (startPass s).bitCnt = 0 := rfl
@[simp] theorem startPass_chunk (s : State) : (startPass s).chunk = s.chunk := rfl
@[simp] theorem startPass_chunkLen (s : State) : (startPass s).chunkLen = s.chunkLen := rfl
@[simp] theorem startPass_busy (s : State) : (startPass s).busy = s.busy := rfl
@[simp] theorem startPass_done (s : State) : (startPass s).done = s.done := rfl
@[simp] theorem startPass_err (s : State) : (startPass s).err = s.err := rfl
@[simp] theorem startPass_errCode (s : State) : (startPass s).errCode = s.errCode := rfl
@[simp] theorem startPass_errFrame (s : State) : (startPass s).errFrame = s.errFrame := rfl
@[simp] theorem startPass_ie (s : State) : (startPass s).ie = s.ie := rfl
@[simp] theorem startPass_width (s : State) : (startPass s).width = s.width := rfl
@[simp] theorem startPass_height (s : State) : (startPass s).height = s.height := rfl
@[simp] theorem startPass_palBase (s : State) : (startPass s).palBase = s.palBase := rfl
@[simp] theorem startPass_palLen (s : State) : (startPass s).palLen = s.palLen := rfl
@[simp] theorem startPass_frameBase (s : State) : (startPass s).frameBase = s.frameBase := rfl
@[simp] theorem startPass_nframes (s : State) : (startPass s).nframes = s.nframes := rfl
@[simp] theorem startPass_srcBase (s : State) : (startPass s).srcBase = s.srcBase := rfl
@[simp] theorem startPass_srcLen (s : State) : (startPass s).srcLen = s.srcLen := rfl
@[simp] theorem startPass_outBase (s : State) : (startPass s).outBase = s.outBase := rfl
@[simp] theorem startPass_outCap (s : State) : (startPass s).outCap = s.outCap := rfl
@[simp] theorem startPass_outLen (s : State) : (startPass s).outLen = s.outLen := rfl
@[simp] theorem startPass_lzwLast (s : State) : (startPass s).lzwLast = s.lzwLast := rfl
@[simp] theorem startPass_inMem (s : State) : (startPass s).inMem = s.inMem := rfl
@[simp] theorem startPass_outMem (s : State) : (startPass s).outMem = s.outMem := rfl
@[simp] theorem startPass_outFree (s : State) : (startPass s).outFree = s.outFree := rfl
@[simp] theorem startPass_build (s : State) : (startPass s).build = s.build := rfl
@[simp] theorem startPass_draws (s : State) : (startPass s).draws = s.draws := rfl
@[simp] theorem startPass_agenda (s : State) : (startPass s).agenda = s.agenda := rfl
@[simp] theorem startPass_hostData (s : State) : (startPass s).hostData = s.hostData := rfl

/-! ### startImage -/

@[simp] theorem startImage_seq (s : State) : (startImage s).seq = s.seq := rfl
@[simp] theorem startImage_job (s : State) : (startImage s).job = s.job := rfl
@[simp] theorem startImage_loopL (s : State) : (startImage s).loopL = s.loopL := rfl
@[simp] theorem startImage_fi (s : State) : (startImage s).fi = s.fi := rfl
@[simp] theorem startImage_pi (s : State) : (startImage s).pi = s.pi := rfl
@[simp] theorem startImage_curSrc (s : State) : (startImage s).curSrc = pixAddr s s.fi := rfl
@[simp] theorem startImage_curN (s : State) : (startImage s).curN = pixLen s s.fi := rfl
@[simp] theorem startImage_sink (s : State) : (startImage s).sink = .sub := rfl
@[simp] theorem startImage_outPtr (s : State) : (startImage s).outPtr = s.outPtr := rfl
@[simp] theorem startImage_plen (s : State) : (startImage s).plen = s.plen := rfl
@[simp] theorem startImage_mcs (s : State) : (startImage s).mcs = s.mcs := rfl
@[simp] theorem startImage_clearCode (s : State) : (startImage s).clearCode = s.clearCode := rfl
@[simp] theorem startImage_endCode (s : State) : (startImage s).endCode = s.endCode := rfl
@[simp] theorem startImage_w (s : State) : (startImage s).w = s.w := rfl
@[simp] theorem startImage_next (s : State) : (startImage s).next = s.next := rfl
@[simp] theorem startImage_accValid (s : State) : (startImage s).accValid = s.accValid := rfl
@[simp] theorem startImage_accCode (s : State) : (startImage s).accCode = s.accCode := rfl
@[simp] theorem startImage_table (s : State) : (startImage s).table = s.table := rfl
@[simp] theorem startImage_bitBuf (s : State) : (startImage s).bitBuf = s.bitBuf := rfl
@[simp] theorem startImage_bitCnt (s : State) : (startImage s).bitCnt = s.bitCnt := rfl
@[simp] theorem startImage_chunk (s : State) : (startImage s).chunk = s.chunk := rfl
@[simp] theorem startImage_chunkLen (s : State) : (startImage s).chunkLen = 0 := rfl
@[simp] theorem startImage_busy (s : State) : (startImage s).busy = s.busy := rfl
@[simp] theorem startImage_done (s : State) : (startImage s).done = s.done := rfl
@[simp] theorem startImage_err (s : State) : (startImage s).err = s.err := rfl
@[simp] theorem startImage_errCode (s : State) : (startImage s).errCode = s.errCode := rfl
@[simp] theorem startImage_errFrame (s : State) : (startImage s).errFrame = s.errFrame := rfl
@[simp] theorem startImage_ie (s : State) : (startImage s).ie = s.ie := rfl
@[simp] theorem startImage_width (s : State) : (startImage s).width = s.width := rfl
@[simp] theorem startImage_height (s : State) : (startImage s).height = s.height := rfl
@[simp] theorem startImage_palBase (s : State) : (startImage s).palBase = s.palBase := rfl
@[simp] theorem startImage_palLen (s : State) : (startImage s).palLen = s.palLen := rfl
@[simp] theorem startImage_frameBase (s : State) : (startImage s).frameBase = s.frameBase := rfl
@[simp] theorem startImage_nframes (s : State) : (startImage s).nframes = s.nframes := rfl
@[simp] theorem startImage_srcBase (s : State) : (startImage s).srcBase = s.srcBase := rfl
@[simp] theorem startImage_srcLen (s : State) : (startImage s).srcLen = s.srcLen := rfl
@[simp] theorem startImage_outBase (s : State) : (startImage s).outBase = s.outBase := rfl
@[simp] theorem startImage_outCap (s : State) : (startImage s).outCap = s.outCap := rfl
@[simp] theorem startImage_outLen (s : State) : (startImage s).outLen = s.outLen := rfl
@[simp] theorem startImage_lzwLast (s : State) : (startImage s).lzwLast = s.lzwLast := rfl
@[simp] theorem startImage_inMem (s : State) : (startImage s).inMem = s.inMem := rfl
@[simp] theorem startImage_outMem (s : State) : (startImage s).outMem = s.outMem := rfl
@[simp] theorem startImage_outFree (s : State) : (startImage s).outFree = s.outFree := rfl
@[simp] theorem startImage_build (s : State) : (startImage s).build = s.build := rfl
@[simp] theorem startImage_draws (s : State) : (startImage s).draws = s.draws := rfl
@[simp] theorem startImage_agenda (s : State) : (startImage s).agenda = s.agenda := rfl
@[simp] theorem startImage_hostData (s : State) : (startImage s).hostData = s.hostData := rfl

/-! ### setPalette -/

@[simp] theorem setPalette_seq (s : State) : (setPalette s).seq = s.seq := rfl
@[simp] theorem setPalette_job (s : State) : (setPalette s).job = s.job := rfl
@[simp] theorem setPalette_loopL (s : State) : (setPalette s).loopL = s.loopL := rfl
@[simp] theorem setPalette_fi (s : State) : (setPalette s).fi = 0 := rfl
@[simp] theorem setPalette_pi (s : State) : (setPalette s).pi = s.pi := rfl
@[simp] theorem setPalette_curSrc (s : State) : (setPalette s).curSrc = s.curSrc := rfl
@[simp] theorem setPalette_curN (s : State) : (setPalette s).curN = s.curN := rfl
@[simp] theorem setPalette_sink (s : State) : (setPalette s).sink = s.sink := rfl
@[simp] theorem setPalette_outPtr (s : State) : (setPalette s).outPtr = s.outPtr := rfl
@[simp] theorem setPalette_plen (s : State) : (setPalette s).plen = BitVec.ofNat 9 (paddedLen s.palLen.toNat) := rfl
@[simp] theorem setPalette_mcs (s : State) : (setPalette s).mcs = BitVec.ofNat 4 (minCodeSize (paddedLen s.palLen.toNat)) := rfl
@[simp] theorem setPalette_clearCode (s : State) : (setPalette s).clearCode = s.clearCode := rfl
@[simp] theorem setPalette_endCode (s : State) : (setPalette s).endCode = s.endCode := rfl
@[simp] theorem setPalette_w (s : State) : (setPalette s).w = s.w := rfl
@[simp] theorem setPalette_next (s : State) : (setPalette s).next = s.next := rfl
@[simp] theorem setPalette_accValid (s : State) : (setPalette s).accValid = s.accValid := rfl
@[simp] theorem setPalette_accCode (s : State) : (setPalette s).accCode = s.accCode := rfl
@[simp] theorem setPalette_table (s : State) : (setPalette s).table = s.table := rfl
@[simp] theorem setPalette_bitBuf (s : State) : (setPalette s).bitBuf = s.bitBuf := rfl
@[simp] theorem setPalette_bitCnt (s : State) : (setPalette s).bitCnt = s.bitCnt := rfl
@[simp] theorem setPalette_chunk (s : State) : (setPalette s).chunk = s.chunk := rfl
@[simp] theorem setPalette_chunkLen (s : State) : (setPalette s).chunkLen = s.chunkLen := rfl
@[simp] theorem setPalette_busy (s : State) : (setPalette s).busy = s.busy := rfl
@[simp] theorem setPalette_done (s : State) : (setPalette s).done = s.done := rfl
@[simp] theorem setPalette_err (s : State) : (setPalette s).err = s.err := rfl
@[simp] theorem setPalette_errCode (s : State) : (setPalette s).errCode = s.errCode := rfl
@[simp] theorem setPalette_errFrame (s : State) : (setPalette s).errFrame = s.errFrame := rfl
@[simp] theorem setPalette_ie (s : State) : (setPalette s).ie = s.ie := rfl
@[simp] theorem setPalette_width (s : State) : (setPalette s).width = s.width := rfl
@[simp] theorem setPalette_height (s : State) : (setPalette s).height = s.height := rfl
@[simp] theorem setPalette_palBase (s : State) : (setPalette s).palBase = s.palBase := rfl
@[simp] theorem setPalette_palLen (s : State) : (setPalette s).palLen = s.palLen := rfl
@[simp] theorem setPalette_frameBase (s : State) : (setPalette s).frameBase = s.frameBase := rfl
@[simp] theorem setPalette_nframes (s : State) : (setPalette s).nframes = s.nframes := rfl
@[simp] theorem setPalette_srcBase (s : State) : (setPalette s).srcBase = s.srcBase := rfl
@[simp] theorem setPalette_srcLen (s : State) : (setPalette s).srcLen = s.srcLen := rfl
@[simp] theorem setPalette_outBase (s : State) : (setPalette s).outBase = s.outBase := rfl
@[simp] theorem setPalette_outCap (s : State) : (setPalette s).outCap = s.outCap := rfl
@[simp] theorem setPalette_outLen (s : State) : (setPalette s).outLen = s.outLen := rfl
@[simp] theorem setPalette_lzwLast (s : State) : (setPalette s).lzwLast = s.lzwLast := rfl
@[simp] theorem setPalette_inMem (s : State) : (setPalette s).inMem = s.inMem := rfl
@[simp] theorem setPalette_outMem (s : State) : (setPalette s).outMem = s.outMem := rfl
@[simp] theorem setPalette_outFree (s : State) : (setPalette s).outFree = s.outFree := rfl
@[simp] theorem setPalette_build (s : State) : (setPalette s).build = s.build := rfl
@[simp] theorem setPalette_draws (s : State) : (setPalette s).draws = s.draws := rfl
@[simp] theorem setPalette_agenda (s : State) : (setPalette s).agenda = s.agenda := rfl
@[simp] theorem setPalette_hostData (s : State) : (setPalette s).hostData = s.hostData := rfl

/-! ### forgetOut -/

@[simp] theorem forgetOut_seq (base cap : Word) (s : State) : (forgetOut base cap s).seq = s.seq := rfl
@[simp] theorem forgetOut_job (base cap : Word) (s : State) : (forgetOut base cap s).job = s.job := rfl
@[simp] theorem forgetOut_loopL (base cap : Word) (s : State) : (forgetOut base cap s).loopL = s.loopL := rfl
@[simp] theorem forgetOut_fi (base cap : Word) (s : State) : (forgetOut base cap s).fi = s.fi := rfl
@[simp] theorem forgetOut_pi (base cap : Word) (s : State) : (forgetOut base cap s).pi = s.pi := rfl
@[simp] theorem forgetOut_curSrc (base cap : Word) (s : State) : (forgetOut base cap s).curSrc = s.curSrc := rfl
@[simp] theorem forgetOut_curN (base cap : Word) (s : State) : (forgetOut base cap s).curN = s.curN := rfl
@[simp] theorem forgetOut_sink (base cap : Word) (s : State) : (forgetOut base cap s).sink = s.sink := rfl
@[simp] theorem forgetOut_outPtr (base cap : Word) (s : State) : (forgetOut base cap s).outPtr = s.outPtr := rfl
@[simp] theorem forgetOut_plen (base cap : Word) (s : State) : (forgetOut base cap s).plen = s.plen := rfl
@[simp] theorem forgetOut_mcs (base cap : Word) (s : State) : (forgetOut base cap s).mcs = s.mcs := rfl
@[simp] theorem forgetOut_clearCode (base cap : Word) (s : State) : (forgetOut base cap s).clearCode = s.clearCode := rfl
@[simp] theorem forgetOut_endCode (base cap : Word) (s : State) : (forgetOut base cap s).endCode = s.endCode := rfl
@[simp] theorem forgetOut_w (base cap : Word) (s : State) : (forgetOut base cap s).w = s.w := rfl
@[simp] theorem forgetOut_next (base cap : Word) (s : State) : (forgetOut base cap s).next = s.next := rfl
@[simp] theorem forgetOut_accValid (base cap : Word) (s : State) : (forgetOut base cap s).accValid = s.accValid := rfl
@[simp] theorem forgetOut_accCode (base cap : Word) (s : State) : (forgetOut base cap s).accCode = s.accCode := rfl
@[simp] theorem forgetOut_table (base cap : Word) (s : State) : (forgetOut base cap s).table = s.table := rfl
@[simp] theorem forgetOut_bitBuf (base cap : Word) (s : State) : (forgetOut base cap s).bitBuf = s.bitBuf := rfl
@[simp] theorem forgetOut_bitCnt (base cap : Word) (s : State) : (forgetOut base cap s).bitCnt = s.bitCnt := rfl
@[simp] theorem forgetOut_chunk (base cap : Word) (s : State) : (forgetOut base cap s).chunk = s.chunk := rfl
@[simp] theorem forgetOut_chunkLen (base cap : Word) (s : State) : (forgetOut base cap s).chunkLen = s.chunkLen := rfl
@[simp] theorem forgetOut_busy (base cap : Word) (s : State) : (forgetOut base cap s).busy = s.busy := rfl
@[simp] theorem forgetOut_done (base cap : Word) (s : State) : (forgetOut base cap s).done = s.done := rfl
@[simp] theorem forgetOut_err (base cap : Word) (s : State) : (forgetOut base cap s).err = s.err := rfl
@[simp] theorem forgetOut_errCode (base cap : Word) (s : State) : (forgetOut base cap s).errCode = s.errCode := rfl
@[simp] theorem forgetOut_errFrame (base cap : Word) (s : State) : (forgetOut base cap s).errFrame = s.errFrame := rfl
@[simp] theorem forgetOut_ie (base cap : Word) (s : State) : (forgetOut base cap s).ie = s.ie := rfl
@[simp] theorem forgetOut_width (base cap : Word) (s : State) : (forgetOut base cap s).width = s.width := rfl
@[simp] theorem forgetOut_height (base cap : Word) (s : State) : (forgetOut base cap s).height = s.height := rfl
@[simp] theorem forgetOut_palBase (base cap : Word) (s : State) : (forgetOut base cap s).palBase = s.palBase := rfl
@[simp] theorem forgetOut_palLen (base cap : Word) (s : State) : (forgetOut base cap s).palLen = s.palLen := rfl
@[simp] theorem forgetOut_frameBase (base cap : Word) (s : State) : (forgetOut base cap s).frameBase = s.frameBase := rfl
@[simp] theorem forgetOut_nframes (base cap : Word) (s : State) : (forgetOut base cap s).nframes = s.nframes := rfl
@[simp] theorem forgetOut_srcBase (base cap : Word) (s : State) : (forgetOut base cap s).srcBase = s.srcBase := rfl
@[simp] theorem forgetOut_srcLen (base cap : Word) (s : State) : (forgetOut base cap s).srcLen = s.srcLen := rfl
@[simp] theorem forgetOut_outBase (base cap : Word) (s : State) : (forgetOut base cap s).outBase = s.outBase := rfl
@[simp] theorem forgetOut_outCap (base cap : Word) (s : State) : (forgetOut base cap s).outCap = s.outCap := rfl
@[simp] theorem forgetOut_outLen (base cap : Word) (s : State) : (forgetOut base cap s).outLen = s.outLen := rfl
@[simp] theorem forgetOut_lzwLast (base cap : Word) (s : State) : (forgetOut base cap s).lzwLast = s.lzwLast := rfl
@[simp] theorem forgetOut_inMem (base cap : Word) (s : State) : (forgetOut base cap s).inMem = s.inMem := rfl
@[simp] theorem forgetOut_outMem (base cap : Word) (s : State) : (forgetOut base cap s).outMem = Cells.drop s.outMem (inRegion s.build.addrBits base cap.toNat) := rfl
@[simp] theorem forgetOut_outFree (base cap : Word) (s : State) : (forgetOut base cap s).outFree = ⟨base, cap, s.draws + 1⟩ :: s.outFree := rfl
@[simp] theorem forgetOut_build (base cap : Word) (s : State) : (forgetOut base cap s).build = s.build := rfl
@[simp] theorem forgetOut_draws (base cap : Word) (s : State) : (forgetOut base cap s).draws = s.draws + 1 := rfl
@[simp] theorem forgetOut_agenda (base cap : Word) (s : State) : (forgetOut base cap s).agenda = s.agenda := rfl
@[simp] theorem forgetOut_hostData (base cap : Word) (s : State) : (forgetOut base cap s).hostData = s.hostData := rfl

/-! ### abort -/

@[simp] theorem abort_seq (e : ErrCode) (f : FrameIdx) (s : State) : (abort e f s).seq = SeqCode.idle := rfl
@[simp] theorem abort_job (e : ErrCode) (f : FrameIdx) (s : State) : (abort e f s).job = s.job := rfl
@[simp] theorem abort_loopL (e : ErrCode) (f : FrameIdx) (s : State) : (abort e f s).loopL = s.loopL := rfl
@[simp] theorem abort_fi (e : ErrCode) (f : FrameIdx) (s : State) : (abort e f s).fi = s.fi := rfl
@[simp] theorem abort_pi (e : ErrCode) (f : FrameIdx) (s : State) : (abort e f s).pi = s.pi := rfl
@[simp] theorem abort_curSrc (e : ErrCode) (f : FrameIdx) (s : State) : (abort e f s).curSrc = s.curSrc := rfl
@[simp] theorem abort_curN (e : ErrCode) (f : FrameIdx) (s : State) : (abort e f s).curN = s.curN := rfl
@[simp] theorem abort_sink (e : ErrCode) (f : FrameIdx) (s : State) : (abort e f s).sink = s.sink := rfl
@[simp] theorem abort_outPtr (e : ErrCode) (f : FrameIdx) (s : State) : (abort e f s).outPtr = s.outPtr := rfl
@[simp] theorem abort_plen (e : ErrCode) (f : FrameIdx) (s : State) : (abort e f s).plen = s.plen := rfl
@[simp] theorem abort_mcs (e : ErrCode) (f : FrameIdx) (s : State) : (abort e f s).mcs = s.mcs := rfl
@[simp] theorem abort_clearCode (e : ErrCode) (f : FrameIdx) (s : State) : (abort e f s).clearCode = s.clearCode := rfl
@[simp] theorem abort_endCode (e : ErrCode) (f : FrameIdx) (s : State) : (abort e f s).endCode = s.endCode := rfl
@[simp] theorem abort_w (e : ErrCode) (f : FrameIdx) (s : State) : (abort e f s).w = s.w := rfl
@[simp] theorem abort_next (e : ErrCode) (f : FrameIdx) (s : State) : (abort e f s).next = s.next := rfl
@[simp] theorem abort_accValid (e : ErrCode) (f : FrameIdx) (s : State) : (abort e f s).accValid = s.accValid := rfl
@[simp] theorem abort_accCode (e : ErrCode) (f : FrameIdx) (s : State) : (abort e f s).accCode = s.accCode := rfl
@[simp] theorem abort_table (e : ErrCode) (f : FrameIdx) (s : State) : (abort e f s).table = s.table := rfl
@[simp] theorem abort_bitBuf (e : ErrCode) (f : FrameIdx) (s : State) : (abort e f s).bitBuf = s.bitBuf := rfl
@[simp] theorem abort_bitCnt (e : ErrCode) (f : FrameIdx) (s : State) : (abort e f s).bitCnt = s.bitCnt := rfl
@[simp] theorem abort_chunk (e : ErrCode) (f : FrameIdx) (s : State) : (abort e f s).chunk = s.chunk := rfl
@[simp] theorem abort_chunkLen (e : ErrCode) (f : FrameIdx) (s : State) : (abort e f s).chunkLen = s.chunkLen := rfl
@[simp] theorem abort_busy (e : ErrCode) (f : FrameIdx) (s : State) : (abort e f s).busy = false := rfl
@[simp] theorem abort_done (e : ErrCode) (f : FrameIdx) (s : State) : (abort e f s).done = false := rfl
@[simp] theorem abort_err (e : ErrCode) (f : FrameIdx) (s : State) : (abort e f s).err = true := rfl
@[simp] theorem abort_errCode (e : ErrCode) (f : FrameIdx) (s : State) : (abort e f s).errCode = e := rfl
@[simp] theorem abort_errFrame (e : ErrCode) (f : FrameIdx) (s : State) : (abort e f s).errFrame = f := rfl
@[simp] theorem abort_ie (e : ErrCode) (f : FrameIdx) (s : State) : (abort e f s).ie = s.ie := rfl
@[simp] theorem abort_width (e : ErrCode) (f : FrameIdx) (s : State) : (abort e f s).width = s.width := rfl
@[simp] theorem abort_height (e : ErrCode) (f : FrameIdx) (s : State) : (abort e f s).height = s.height := rfl
@[simp] theorem abort_palBase (e : ErrCode) (f : FrameIdx) (s : State) : (abort e f s).palBase = s.palBase := rfl
@[simp] theorem abort_palLen (e : ErrCode) (f : FrameIdx) (s : State) : (abort e f s).palLen = s.palLen := rfl
@[simp] theorem abort_frameBase (e : ErrCode) (f : FrameIdx) (s : State) : (abort e f s).frameBase = s.frameBase := rfl
@[simp] theorem abort_nframes (e : ErrCode) (f : FrameIdx) (s : State) : (abort e f s).nframes = s.nframes := rfl
@[simp] theorem abort_srcBase (e : ErrCode) (f : FrameIdx) (s : State) : (abort e f s).srcBase = s.srcBase := rfl
@[simp] theorem abort_srcLen (e : ErrCode) (f : FrameIdx) (s : State) : (abort e f s).srcLen = s.srcLen := rfl
@[simp] theorem abort_outBase (e : ErrCode) (f : FrameIdx) (s : State) : (abort e f s).outBase = s.outBase := rfl
@[simp] theorem abort_outCap (e : ErrCode) (f : FrameIdx) (s : State) : (abort e f s).outCap = s.outCap := rfl
@[simp] theorem abort_outLen (e : ErrCode) (f : FrameIdx) (s : State) : (abort e f s).outLen = 0 := rfl
@[simp] theorem abort_lzwLast (e : ErrCode) (f : FrameIdx) (s : State) : (abort e f s).lzwLast = s.lzwLast := rfl
@[simp] theorem abort_inMem (e : ErrCode) (f : FrameIdx) (s : State) : (abort e f s).inMem = s.inMem := rfl
@[simp] theorem abort_outMem (e : ErrCode) (f : FrameIdx) (s : State) : (abort e f s).outMem = (forgetOut s.outBase s.outCap s).outMem := rfl
@[simp] theorem abort_outFree (e : ErrCode) (f : FrameIdx) (s : State) : (abort e f s).outFree = ⟨s.outBase, s.outCap, s.draws + 1⟩ :: s.outFree := rfl
@[simp] theorem abort_build (e : ErrCode) (f : FrameIdx) (s : State) : (abort e f s).build = s.build := rfl
@[simp] theorem abort_draws (e : ErrCode) (f : FrameIdx) (s : State) : (abort e f s).draws = s.draws + 1 := rfl
@[simp] theorem abort_agenda (e : ErrCode) (f : FrameIdx) (s : State) : (abort e f s).agenda = s.agenda := rfl
@[simp] theorem abort_hostData (e : ErrCode) (f : FrameIdx) (s : State) : (abort e f s).hostData = s.hostData := rfl

/-! ### raiseIllegal -/

@[simp] theorem raiseIllegal_seq (s : State) : (raiseIllegal s).seq = s.seq := rfl
@[simp] theorem raiseIllegal_job (s : State) : (raiseIllegal s).job = s.job := rfl
@[simp] theorem raiseIllegal_loopL (s : State) : (raiseIllegal s).loopL = s.loopL := rfl
@[simp] theorem raiseIllegal_fi (s : State) : (raiseIllegal s).fi = s.fi := rfl
@[simp] theorem raiseIllegal_pi (s : State) : (raiseIllegal s).pi = s.pi := rfl
@[simp] theorem raiseIllegal_curSrc (s : State) : (raiseIllegal s).curSrc = s.curSrc := rfl
@[simp] theorem raiseIllegal_curN (s : State) : (raiseIllegal s).curN = s.curN := rfl
@[simp] theorem raiseIllegal_sink (s : State) : (raiseIllegal s).sink = s.sink := rfl
@[simp] theorem raiseIllegal_outPtr (s : State) : (raiseIllegal s).outPtr = s.outPtr := rfl
@[simp] theorem raiseIllegal_plen (s : State) : (raiseIllegal s).plen = s.plen := rfl
@[simp] theorem raiseIllegal_mcs (s : State) : (raiseIllegal s).mcs = s.mcs := rfl
@[simp] theorem raiseIllegal_clearCode (s : State) : (raiseIllegal s).clearCode = s.clearCode := rfl
@[simp] theorem raiseIllegal_endCode (s : State) : (raiseIllegal s).endCode = s.endCode := rfl
@[simp] theorem raiseIllegal_w (s : State) : (raiseIllegal s).w = s.w := rfl
@[simp] theorem raiseIllegal_next (s : State) : (raiseIllegal s).next = s.next := rfl
@[simp] theorem raiseIllegal_accValid (s : State) : (raiseIllegal s).accValid = s.accValid := rfl
@[simp] theorem raiseIllegal_accCode (s : State) : (raiseIllegal s).accCode = s.accCode := rfl
@[simp] theorem raiseIllegal_table (s : State) : (raiseIllegal s).table = s.table := rfl
@[simp] theorem raiseIllegal_bitBuf (s : State) : (raiseIllegal s).bitBuf = s.bitBuf := rfl
@[simp] theorem raiseIllegal_bitCnt (s : State) : (raiseIllegal s).bitCnt = s.bitCnt := rfl
@[simp] theorem raiseIllegal_chunk (s : State) : (raiseIllegal s).chunk = s.chunk := rfl
@[simp] theorem raiseIllegal_chunkLen (s : State) : (raiseIllegal s).chunkLen = s.chunkLen := rfl
@[simp] theorem raiseIllegal_busy (s : State) : (raiseIllegal s).busy = s.busy := rfl
@[simp] theorem raiseIllegal_done (s : State) : (raiseIllegal s).done = false := rfl
@[simp] theorem raiseIllegal_err (s : State) : (raiseIllegal s).err = true := rfl
@[simp] theorem raiseIllegal_errCode (s : State) : (raiseIllegal s).errCode = .illegalCommand := rfl
@[simp] theorem raiseIllegal_errFrame (s : State) : (raiseIllegal s).errFrame = noFrame := rfl
@[simp] theorem raiseIllegal_ie (s : State) : (raiseIllegal s).ie = s.ie := rfl
@[simp] theorem raiseIllegal_width (s : State) : (raiseIllegal s).width = s.width := rfl
@[simp] theorem raiseIllegal_height (s : State) : (raiseIllegal s).height = s.height := rfl
@[simp] theorem raiseIllegal_palBase (s : State) : (raiseIllegal s).palBase = s.palBase := rfl
@[simp] theorem raiseIllegal_palLen (s : State) : (raiseIllegal s).palLen = s.palLen := rfl
@[simp] theorem raiseIllegal_frameBase (s : State) : (raiseIllegal s).frameBase = s.frameBase := rfl
@[simp] theorem raiseIllegal_nframes (s : State) : (raiseIllegal s).nframes = s.nframes := rfl
@[simp] theorem raiseIllegal_srcBase (s : State) : (raiseIllegal s).srcBase = s.srcBase := rfl
@[simp] theorem raiseIllegal_srcLen (s : State) : (raiseIllegal s).srcLen = s.srcLen := rfl
@[simp] theorem raiseIllegal_outBase (s : State) : (raiseIllegal s).outBase = s.outBase := rfl
@[simp] theorem raiseIllegal_outCap (s : State) : (raiseIllegal s).outCap = s.outCap := rfl
@[simp] theorem raiseIllegal_outLen (s : State) : (raiseIllegal s).outLen = 0 := rfl
@[simp] theorem raiseIllegal_lzwLast (s : State) : (raiseIllegal s).lzwLast = s.lzwLast := rfl
@[simp] theorem raiseIllegal_inMem (s : State) : (raiseIllegal s).inMem = s.inMem := rfl
@[simp] theorem raiseIllegal_outMem (s : State) : (raiseIllegal s).outMem = s.outMem := rfl
@[simp] theorem raiseIllegal_outFree (s : State) : (raiseIllegal s).outFree = s.outFree := rfl
@[simp] theorem raiseIllegal_build (s : State) : (raiseIllegal s).build = s.build := rfl
@[simp] theorem raiseIllegal_draws (s : State) : (raiseIllegal s).draws = s.draws := rfl
@[simp] theorem raiseIllegal_agenda (s : State) : (raiseIllegal s).agenda = s.agenda := rfl
@[simp] theorem raiseIllegal_hostData (s : State) : (raiseIllegal s).hostData = s.hostData := rfl

/-! ### acceptCommon -/

@[simp] theorem acceptCommon_seq (j : BitVec 8) (s : State) : (acceptCommon j s).seq = s.seq := rfl
@[simp] theorem acceptCommon_job (j : BitVec 8) (s : State) : (acceptCommon j s).job = j := rfl
@[simp] theorem acceptCommon_loopL (j : BitVec 8) (s : State) : (acceptCommon j s).loopL = s.loopL := rfl
@[simp] theorem acceptCommon_fi (j : BitVec 8) (s : State) : (acceptCommon j s).fi = s.fi := rfl
@[simp] theorem acceptCommon_pi (j : BitVec 8) (s : State) : (acceptCommon j s).pi = s.pi := rfl
@[simp] theorem acceptCommon_curSrc (j : BitVec 8) (s : State) : (acceptCommon j s).curSrc = s.curSrc := rfl
@[simp] theorem acceptCommon_curN (j : BitVec 8) (s : State) : (acceptCommon j s).curN = s.curN := rfl
@[simp] theorem acceptCommon_sink (j : BitVec 8) (s : State) : (acceptCommon j s).sink = s.sink := rfl
@[simp] theorem acceptCommon_outPtr (j : BitVec 8) (s : State) : (acceptCommon j s).outPtr = 0 := rfl
@[simp] theorem acceptCommon_plen (j : BitVec 8) (s : State) : (acceptCommon j s).plen = s.plen := rfl
@[simp] theorem acceptCommon_mcs (j : BitVec 8) (s : State) : (acceptCommon j s).mcs = s.mcs := rfl
@[simp] theorem acceptCommon_clearCode (j : BitVec 8) (s : State) : (acceptCommon j s).clearCode = s.clearCode := rfl
@[simp] theorem acceptCommon_endCode (j : BitVec 8) (s : State) : (acceptCommon j s).endCode = s.endCode := rfl
@[simp] theorem acceptCommon_w (j : BitVec 8) (s : State) : (acceptCommon j s).w = s.w := rfl
@[simp] theorem acceptCommon_next (j : BitVec 8) (s : State) : (acceptCommon j s).next = s.next := rfl
@[simp] theorem acceptCommon_accValid (j : BitVec 8) (s : State) : (acceptCommon j s).accValid = s.accValid := rfl
@[simp] theorem acceptCommon_accCode (j : BitVec 8) (s : State) : (acceptCommon j s).accCode = s.accCode := rfl
@[simp] theorem acceptCommon_table (j : BitVec 8) (s : State) : (acceptCommon j s).table = s.table := rfl
@[simp] theorem acceptCommon_bitBuf (j : BitVec 8) (s : State) : (acceptCommon j s).bitBuf = s.bitBuf := rfl
@[simp] theorem acceptCommon_bitCnt (j : BitVec 8) (s : State) : (acceptCommon j s).bitCnt = s.bitCnt := rfl
@[simp] theorem acceptCommon_chunk (j : BitVec 8) (s : State) : (acceptCommon j s).chunk = s.chunk := rfl
@[simp] theorem acceptCommon_chunkLen (j : BitVec 8) (s : State) : (acceptCommon j s).chunkLen = s.chunkLen := rfl
@[simp] theorem acceptCommon_busy (j : BitVec 8) (s : State) : (acceptCommon j s).busy = true := rfl
@[simp] theorem acceptCommon_done (j : BitVec 8) (s : State) : (acceptCommon j s).done = false := rfl
@[simp] theorem acceptCommon_err (j : BitVec 8) (s : State) : (acceptCommon j s).err = false := rfl
@[simp] theorem acceptCommon_errCode (j : BitVec 8) (s : State) : (acceptCommon j s).errCode = .noError := rfl
@[simp] theorem acceptCommon_errFrame (j : BitVec 8) (s : State) : (acceptCommon j s).errFrame = noFrame := rfl
@[simp] theorem acceptCommon_ie (j : BitVec 8) (s : State) : (acceptCommon j s).ie = s.ie := rfl
@[simp] theorem acceptCommon_width (j : BitVec 8) (s : State) : (acceptCommon j s).width = s.width := rfl
@[simp] theorem acceptCommon_height (j : BitVec 8) (s : State) : (acceptCommon j s).height = s.height := rfl
@[simp] theorem acceptCommon_palBase (j : BitVec 8) (s : State) : (acceptCommon j s).palBase = s.palBase := rfl
@[simp] theorem acceptCommon_palLen (j : BitVec 8) (s : State) : (acceptCommon j s).palLen = s.palLen := rfl
@[simp] theorem acceptCommon_frameBase (j : BitVec 8) (s : State) : (acceptCommon j s).frameBase = s.frameBase := rfl
@[simp] theorem acceptCommon_nframes (j : BitVec 8) (s : State) : (acceptCommon j s).nframes = s.nframes := rfl
@[simp] theorem acceptCommon_srcBase (j : BitVec 8) (s : State) : (acceptCommon j s).srcBase = s.srcBase := rfl
@[simp] theorem acceptCommon_srcLen (j : BitVec 8) (s : State) : (acceptCommon j s).srcLen = s.srcLen := rfl
@[simp] theorem acceptCommon_outBase (j : BitVec 8) (s : State) : (acceptCommon j s).outBase = s.outBase := rfl
@[simp] theorem acceptCommon_outCap (j : BitVec 8) (s : State) : (acceptCommon j s).outCap = s.outCap := rfl
@[simp] theorem acceptCommon_outLen (j : BitVec 8) (s : State) : (acceptCommon j s).outLen = 0 := rfl
@[simp] theorem acceptCommon_lzwLast (j : BitVec 8) (s : State) : (acceptCommon j s).lzwLast = 0 := rfl
@[simp] theorem acceptCommon_inMem (j : BitVec 8) (s : State) : (acceptCommon j s).inMem = s.inMem := rfl
@[simp] theorem acceptCommon_outMem (j : BitVec 8) (s : State) : (acceptCommon j s).outMem = s.outMem := rfl
@[simp] theorem acceptCommon_outFree (j : BitVec 8) (s : State) : (acceptCommon j s).outFree = s.outFree := rfl
@[simp] theorem acceptCommon_build (j : BitVec 8) (s : State) : (acceptCommon j s).build = s.build := rfl
@[simp] theorem acceptCommon_draws (j : BitVec 8) (s : State) : (acceptCommon j s).draws = s.draws + 1 := rfl
@[simp] theorem acceptCommon_agenda (j : BitVec 8) (s : State) : (acceptCommon j s).agenda = s.agenda := rfl
@[simp] theorem acceptCommon_hostData (j : BitVec 8) (s : State) : (acceptCommon j s).hostData = s.hostData := rfl

/-! ### giveByte -/

@[simp] theorem giveByte_seq (v : Byte) (s : State) : (giveByte v s).seq = s.seq := rfl
@[simp] theorem giveByte_job (v : Byte) (s : State) : (giveByte v s).job = s.job := rfl
@[simp] theorem giveByte_loopL (v : Byte) (s : State) : (giveByte v s).loopL = s.loopL := rfl
@[simp] theorem giveByte_fi (v : Byte) (s : State) : (giveByte v s).fi = s.fi := rfl
@[simp] theorem giveByte_pi (v : Byte) (s : State) : (giveByte v s).pi = s.pi := rfl
@[simp] theorem giveByte_curSrc (v : Byte) (s : State) : (giveByte v s).curSrc = s.curSrc := rfl
@[simp] theorem giveByte_curN (v : Byte) (s : State) : (giveByte v s).curN = s.curN := rfl
@[simp] theorem giveByte_sink (v : Byte) (s : State) : (giveByte v s).sink = s.sink := rfl
@[simp] theorem giveByte_outPtr (v : Byte) (s : State) : (giveByte v s).outPtr = s.outPtr := rfl
@[simp] theorem giveByte_plen (v : Byte) (s : State) : (giveByte v s).plen = s.plen := rfl
@[simp] theorem giveByte_mcs (v : Byte) (s : State) : (giveByte v s).mcs = s.mcs := rfl
@[simp] theorem giveByte_clearCode (v : Byte) (s : State) : (giveByte v s).clearCode = s.clearCode := rfl
@[simp] theorem giveByte_endCode (v : Byte) (s : State) : (giveByte v s).endCode = s.endCode := rfl
@[simp] theorem giveByte_w (v : Byte) (s : State) : (giveByte v s).w = s.w := rfl
@[simp] theorem giveByte_next (v : Byte) (s : State) : (giveByte v s).next = s.next := rfl
@[simp] theorem giveByte_accValid (v : Byte) (s : State) : (giveByte v s).accValid = s.accValid := rfl
@[simp] theorem giveByte_accCode (v : Byte) (s : State) : (giveByte v s).accCode = s.accCode := rfl
@[simp] theorem giveByte_table (v : Byte) (s : State) : (giveByte v s).table = s.table := rfl
@[simp] theorem giveByte_bitBuf (v : Byte) (s : State) : (giveByte v s).bitBuf = s.bitBuf := rfl
@[simp] theorem giveByte_bitCnt (v : Byte) (s : State) : (giveByte v s).bitCnt = s.bitCnt := rfl
@[simp] theorem giveByte_chunk (v : Byte) (s : State) : (giveByte v s).chunk = s.chunk := rfl
@[simp] theorem giveByte_chunkLen (v : Byte) (s : State) : (giveByte v s).chunkLen = s.chunkLen := rfl
@[simp] theorem giveByte_busy (v : Byte) (s : State) : (giveByte v s).busy = s.busy := rfl
@[simp] theorem giveByte_done (v : Byte) (s : State) : (giveByte v s).done = s.done := rfl
@[simp] theorem giveByte_err (v : Byte) (s : State) : (giveByte v s).err = s.err := rfl
@[simp] theorem giveByte_errCode (v : Byte) (s : State) : (giveByte v s).errCode = s.errCode := rfl
@[simp] theorem giveByte_errFrame (v : Byte) (s : State) : (giveByte v s).errFrame = s.errFrame := rfl
@[simp] theorem giveByte_ie (v : Byte) (s : State) : (giveByte v s).ie = s.ie := rfl
@[simp] theorem giveByte_width (v : Byte) (s : State) : (giveByte v s).width = s.width := rfl
@[simp] theorem giveByte_height (v : Byte) (s : State) : (giveByte v s).height = s.height := rfl
@[simp] theorem giveByte_palBase (v : Byte) (s : State) : (giveByte v s).palBase = s.palBase := rfl
@[simp] theorem giveByte_palLen (v : Byte) (s : State) : (giveByte v s).palLen = s.palLen := rfl
@[simp] theorem giveByte_frameBase (v : Byte) (s : State) : (giveByte v s).frameBase = s.frameBase := rfl
@[simp] theorem giveByte_nframes (v : Byte) (s : State) : (giveByte v s).nframes = s.nframes := rfl
@[simp] theorem giveByte_srcBase (v : Byte) (s : State) : (giveByte v s).srcBase = s.srcBase := rfl
@[simp] theorem giveByte_srcLen (v : Byte) (s : State) : (giveByte v s).srcLen = s.srcLen := rfl
@[simp] theorem giveByte_outBase (v : Byte) (s : State) : (giveByte v s).outBase = s.outBase := rfl
@[simp] theorem giveByte_outCap (v : Byte) (s : State) : (giveByte v s).outCap = s.outCap := rfl
@[simp] theorem giveByte_outLen (v : Byte) (s : State) : (giveByte v s).outLen = s.outLen := rfl
@[simp] theorem giveByte_lzwLast (v : Byte) (s : State) : (giveByte v s).lzwLast = s.lzwLast := rfl
@[simp] theorem giveByte_inMem (v : Byte) (s : State) : (giveByte v s).inMem = s.inMem := rfl
@[simp] theorem giveByte_outMem (v : Byte) (s : State) : (giveByte v s).outMem = s.outMem := rfl
@[simp] theorem giveByte_outFree (v : Byte) (s : State) : (giveByte v s).outFree = s.outFree := rfl
@[simp] theorem giveByte_build (v : Byte) (s : State) : (giveByte v s).build = s.build := rfl
@[simp] theorem giveByte_draws (v : Byte) (s : State) : (giveByte v s).draws = s.draws := rfl
@[simp] theorem giveByte_agenda (v : Byte) (s : State) : (giveByte v s).agenda = s.agenda := rfl
@[simp] theorem giveByte_hostData (v : Byte) (s : State) : (giveByte v s).hostData = v.setWidth 32 := rfl

/-! ### clearDone -/

@[simp] theorem clearDone_seq (s : State) : (clearDone s).seq = s.seq := rfl
@[simp] theorem clearDone_job (s : State) : (clearDone s).job = s.job := rfl
@[simp] theorem clearDone_loopL (s : State) : (clearDone s).loopL = s.loopL := rfl
@[simp] theorem clearDone_fi (s : State) : (clearDone s).fi = s.fi := rfl
@[simp] theorem clearDone_pi (s : State) : (clearDone s).pi = s.pi := rfl
@[simp] theorem clearDone_curSrc (s : State) : (clearDone s).curSrc = s.curSrc := rfl
@[simp] theorem clearDone_curN (s : State) : (clearDone s).curN = s.curN := rfl
@[simp] theorem clearDone_sink (s : State) : (clearDone s).sink = s.sink := rfl
@[simp] theorem clearDone_outPtr (s : State) : (clearDone s).outPtr = s.outPtr := rfl
@[simp] theorem clearDone_plen (s : State) : (clearDone s).plen = s.plen := rfl
@[simp] theorem clearDone_mcs (s : State) : (clearDone s).mcs = s.mcs := rfl
@[simp] theorem clearDone_clearCode (s : State) : (clearDone s).clearCode = s.clearCode := rfl
@[simp] theorem clearDone_endCode (s : State) : (clearDone s).endCode = s.endCode := rfl
@[simp] theorem clearDone_w (s : State) : (clearDone s).w = s.w := rfl
@[simp] theorem clearDone_next (s : State) : (clearDone s).next = s.next := rfl
@[simp] theorem clearDone_accValid (s : State) : (clearDone s).accValid = s.accValid := rfl
@[simp] theorem clearDone_accCode (s : State) : (clearDone s).accCode = s.accCode := rfl
@[simp] theorem clearDone_table (s : State) : (clearDone s).table = s.table := rfl
@[simp] theorem clearDone_bitBuf (s : State) : (clearDone s).bitBuf = s.bitBuf := rfl
@[simp] theorem clearDone_bitCnt (s : State) : (clearDone s).bitCnt = s.bitCnt := rfl
@[simp] theorem clearDone_chunk (s : State) : (clearDone s).chunk = s.chunk := rfl
@[simp] theorem clearDone_chunkLen (s : State) : (clearDone s).chunkLen = s.chunkLen := rfl
@[simp] theorem clearDone_busy (s : State) : (clearDone s).busy = s.busy := rfl
@[simp] theorem clearDone_done (s : State) : (clearDone s).done = false := rfl
@[simp] theorem clearDone_err (s : State) : (clearDone s).err = s.err := rfl
@[simp] theorem clearDone_errCode (s : State) : (clearDone s).errCode = s.errCode := rfl
@[simp] theorem clearDone_errFrame (s : State) : (clearDone s).errFrame = s.errFrame := rfl
@[simp] theorem clearDone_ie (s : State) : (clearDone s).ie = s.ie := rfl
@[simp] theorem clearDone_width (s : State) : (clearDone s).width = s.width := rfl
@[simp] theorem clearDone_height (s : State) : (clearDone s).height = s.height := rfl
@[simp] theorem clearDone_palBase (s : State) : (clearDone s).palBase = s.palBase := rfl
@[simp] theorem clearDone_palLen (s : State) : (clearDone s).palLen = s.palLen := rfl
@[simp] theorem clearDone_frameBase (s : State) : (clearDone s).frameBase = s.frameBase := rfl
@[simp] theorem clearDone_nframes (s : State) : (clearDone s).nframes = s.nframes := rfl
@[simp] theorem clearDone_srcBase (s : State) : (clearDone s).srcBase = s.srcBase := rfl
@[simp] theorem clearDone_srcLen (s : State) : (clearDone s).srcLen = s.srcLen := rfl
@[simp] theorem clearDone_outBase (s : State) : (clearDone s).outBase = s.outBase := rfl
@[simp] theorem clearDone_outCap (s : State) : (clearDone s).outCap = s.outCap := rfl
@[simp] theorem clearDone_outLen (s : State) : (clearDone s).outLen = s.outLen := rfl
@[simp] theorem clearDone_lzwLast (s : State) : (clearDone s).lzwLast = s.lzwLast := rfl
@[simp] theorem clearDone_inMem (s : State) : (clearDone s).inMem = s.inMem := rfl
@[simp] theorem clearDone_outMem (s : State) : (clearDone s).outMem = s.outMem := rfl
@[simp] theorem clearDone_outFree (s : State) : (clearDone s).outFree = s.outFree := rfl
@[simp] theorem clearDone_build (s : State) : (clearDone s).build = s.build := rfl
@[simp] theorem clearDone_draws (s : State) : (clearDone s).draws = s.draws := rfl
@[simp] theorem clearDone_agenda (s : State) : (clearDone s).agenda = s.agenda := rfl
@[simp] theorem clearDone_hostData (s : State) : (clearDone s).hostData = s.hostData := rfl

/-! ### clearErr -/

@[simp] theorem clearErr_seq (s : State) : (clearErr s).seq = s.seq := rfl
@[simp] theorem clearErr_job (s : State) : (clearErr s).job = s.job := rfl
@[simp] theorem clearErr_loopL (s : State) : (clearErr s).loopL = s.loopL := rfl
@[simp] theorem clearErr_fi (s : State) : (clearErr s).fi = s.fi := rfl
@[simp] theorem clearErr_pi (s : State) : (clearErr s).pi = s.pi := rfl
@[simp] theorem clearErr_curSrc (s : State) : (clearErr s).curSrc = s.curSrc := rfl
@[simp] theorem clearErr_curN (s : State) : (clearErr s).curN = s.curN := rfl
@[simp] theorem clearErr_sink (s : State) : (clearErr s).sink = s.sink := rfl
@[simp] theorem clearErr_outPtr (s : State) : (clearErr s).outPtr = s.outPtr := rfl
@[simp] theorem clearErr_plen (s : State) : (clearErr s).plen = s.plen := rfl
@[simp] theorem clearErr_mcs (s : State) : (clearErr s).mcs = s.mcs := rfl
@[simp] theorem clearErr_clearCode (s : State) : (clearErr s).clearCode = s.clearCode := rfl
@[simp] theorem clearErr_endCode (s : State) : (clearErr s).endCode = s.endCode := rfl
@[simp] theorem clearErr_w (s : State) : (clearErr s).w = s.w := rfl
@[simp] theorem clearErr_next (s : State) : (clearErr s).next = s.next := rfl
@[simp] theorem clearErr_accValid (s : State) : (clearErr s).accValid = s.accValid := rfl
@[simp] theorem clearErr_accCode (s : State) : (clearErr s).accCode = s.accCode := rfl
@[simp] theorem clearErr_table (s : State) : (clearErr s).table = s.table := rfl
@[simp] theorem clearErr_bitBuf (s : State) : (clearErr s).bitBuf = s.bitBuf := rfl
@[simp] theorem clearErr_bitCnt (s : State) : (clearErr s).bitCnt = s.bitCnt := rfl
@[simp] theorem clearErr_chunk (s : State) : (clearErr s).chunk = s.chunk := rfl
@[simp] theorem clearErr_chunkLen (s : State) : (clearErr s).chunkLen = s.chunkLen := rfl
@[simp] theorem clearErr_busy (s : State) : (clearErr s).busy = s.busy := rfl
@[simp] theorem clearErr_done (s : State) : (clearErr s).done = s.done := rfl
@[simp] theorem clearErr_err (s : State) : (clearErr s).err = false := rfl
@[simp] theorem clearErr_errCode (s : State) : (clearErr s).errCode = .noError := rfl
@[simp] theorem clearErr_errFrame (s : State) : (clearErr s).errFrame = noFrame := rfl
@[simp] theorem clearErr_ie (s : State) : (clearErr s).ie = s.ie := rfl
@[simp] theorem clearErr_width (s : State) : (clearErr s).width = s.width := rfl
@[simp] theorem clearErr_height (s : State) : (clearErr s).height = s.height := rfl
@[simp] theorem clearErr_palBase (s : State) : (clearErr s).palBase = s.palBase := rfl
@[simp] theorem clearErr_palLen (s : State) : (clearErr s).palLen = s.palLen := rfl
@[simp] theorem clearErr_frameBase (s : State) : (clearErr s).frameBase = s.frameBase := rfl
@[simp] theorem clearErr_nframes (s : State) : (clearErr s).nframes = s.nframes := rfl
@[simp] theorem clearErr_srcBase (s : State) : (clearErr s).srcBase = s.srcBase := rfl
@[simp] theorem clearErr_srcLen (s : State) : (clearErr s).srcLen = s.srcLen := rfl
@[simp] theorem clearErr_outBase (s : State) : (clearErr s).outBase = s.outBase := rfl
@[simp] theorem clearErr_outCap (s : State) : (clearErr s).outCap = s.outCap := rfl
@[simp] theorem clearErr_outLen (s : State) : (clearErr s).outLen = s.outLen := rfl
@[simp] theorem clearErr_lzwLast (s : State) : (clearErr s).lzwLast = s.lzwLast := rfl
@[simp] theorem clearErr_inMem (s : State) : (clearErr s).inMem = s.inMem := rfl
@[simp] theorem clearErr_outMem (s : State) : (clearErr s).outMem = s.outMem := rfl
@[simp] theorem clearErr_outFree (s : State) : (clearErr s).outFree = s.outFree := rfl
@[simp] theorem clearErr_build (s : State) : (clearErr s).build = s.build := rfl
@[simp] theorem clearErr_draws (s : State) : (clearErr s).draws = s.draws := rfl
@[simp] theorem clearErr_agenda (s : State) : (clearErr s).agenda = s.agenda := rfl
@[simp] theorem clearErr_hostData (s : State) : (clearErr s).hostData = s.hostData := rfl

/-! ### acceptGif -/

@[simp] theorem acceptGif_seq (l : Bool) (s : State) : (acceptGif l s).seq = SeqCode.gCheckPal := rfl
@[simp] theorem acceptGif_job (l : Bool) (s : State) : (acceptGif l s).job = opcGif := rfl
@[simp] theorem acceptGif_loopL (l : Bool) (s : State) : (acceptGif l s).loopL = l := rfl
@[simp] theorem acceptGif_fi (l : Bool) (s : State) : (acceptGif l s).fi = s.fi := rfl
@[simp] theorem acceptGif_pi (l : Bool) (s : State) : (acceptGif l s).pi = s.pi := rfl
@[simp] theorem acceptGif_curSrc (l : Bool) (s : State) : (acceptGif l s).curSrc = s.curSrc := rfl
@[simp] theorem acceptGif_curN (l : Bool) (s : State) : (acceptGif l s).curN = s.curN := rfl
@[simp] theorem acceptGif_sink (l : Bool) (s : State) : (acceptGif l s).sink = s.sink := rfl
@[simp] theorem acceptGif_outPtr (l : Bool) (s : State) : (acceptGif l s).outPtr = 0 := rfl
@[simp] theorem acceptGif_plen (l : Bool) (s : State) : (acceptGif l s).plen = s.plen := rfl
@[simp] theorem acceptGif_mcs (l : Bool) (s : State) : (acceptGif l s).mcs = s.mcs := rfl
@[simp] theorem acceptGif_clearCode (l : Bool) (s : State) : (acceptGif l s).clearCode = s.clearCode := rfl
@[simp] theorem acceptGif_endCode (l : Bool) (s : State) : (acceptGif l s).endCode = s.endCode := rfl
@[simp] theorem acceptGif_w (l : Bool) (s : State) : (acceptGif l s).w = s.w := rfl
@[simp] theorem acceptGif_next (l : Bool) (s : State) : (acceptGif l s).next = s.next := rfl
@[simp] theorem acceptGif_accValid (l : Bool) (s : State) : (acceptGif l s).accValid = s.accValid := rfl
@[simp] theorem acceptGif_accCode (l : Bool) (s : State) : (acceptGif l s).accCode = s.accCode := rfl
@[simp] theorem acceptGif_table (l : Bool) (s : State) : (acceptGif l s).table = s.table := rfl
@[simp] theorem acceptGif_bitBuf (l : Bool) (s : State) : (acceptGif l s).bitBuf = s.bitBuf := rfl
@[simp] theorem acceptGif_bitCnt (l : Bool) (s : State) : (acceptGif l s).bitCnt = s.bitCnt := rfl
@[simp] theorem acceptGif_chunk (l : Bool) (s : State) : (acceptGif l s).chunk = s.chunk := rfl
@[simp] theorem acceptGif_chunkLen (l : Bool) (s : State) : (acceptGif l s).chunkLen = s.chunkLen := rfl
@[simp] theorem acceptGif_busy (l : Bool) (s : State) : (acceptGif l s).busy = true := rfl
@[simp] theorem acceptGif_done (l : Bool) (s : State) : (acceptGif l s).done = false := rfl
@[simp] theorem acceptGif_err (l : Bool) (s : State) : (acceptGif l s).err = false := rfl
@[simp] theorem acceptGif_errCode (l : Bool) (s : State) : (acceptGif l s).errCode = .noError := rfl
@[simp] theorem acceptGif_errFrame (l : Bool) (s : State) : (acceptGif l s).errFrame = noFrame := rfl
@[simp] theorem acceptGif_ie (l : Bool) (s : State) : (acceptGif l s).ie = s.ie := rfl
@[simp] theorem acceptGif_width (l : Bool) (s : State) : (acceptGif l s).width = s.width := rfl
@[simp] theorem acceptGif_height (l : Bool) (s : State) : (acceptGif l s).height = s.height := rfl
@[simp] theorem acceptGif_palBase (l : Bool) (s : State) : (acceptGif l s).palBase = s.palBase := rfl
@[simp] theorem acceptGif_palLen (l : Bool) (s : State) : (acceptGif l s).palLen = s.palLen := rfl
@[simp] theorem acceptGif_frameBase (l : Bool) (s : State) : (acceptGif l s).frameBase = s.frameBase := rfl
@[simp] theorem acceptGif_nframes (l : Bool) (s : State) : (acceptGif l s).nframes = s.nframes := rfl
@[simp] theorem acceptGif_srcBase (l : Bool) (s : State) : (acceptGif l s).srcBase = s.srcBase := rfl
@[simp] theorem acceptGif_srcLen (l : Bool) (s : State) : (acceptGif l s).srcLen = s.srcLen := rfl
@[simp] theorem acceptGif_outBase (l : Bool) (s : State) : (acceptGif l s).outBase = s.outBase := rfl
@[simp] theorem acceptGif_outCap (l : Bool) (s : State) : (acceptGif l s).outCap = s.outCap := rfl
@[simp] theorem acceptGif_outLen (l : Bool) (s : State) : (acceptGif l s).outLen = 0 := rfl
@[simp] theorem acceptGif_lzwLast (l : Bool) (s : State) : (acceptGif l s).lzwLast = 0 := rfl
@[simp] theorem acceptGif_inMem (l : Bool) (s : State) : (acceptGif l s).inMem = s.inMem := rfl
@[simp] theorem acceptGif_outMem (l : Bool) (s : State) : (acceptGif l s).outMem = s.outMem := rfl
@[simp] theorem acceptGif_outFree (l : Bool) (s : State) : (acceptGif l s).outFree = s.outFree := rfl
@[simp] theorem acceptGif_build (l : Bool) (s : State) : (acceptGif l s).build = s.build := rfl
@[simp] theorem acceptGif_draws (l : Bool) (s : State) : (acceptGif l s).draws = s.draws + 1 := rfl
@[simp] theorem acceptGif_agenda (l : Bool) (s : State) : (acceptGif l s).agenda = s.agenda := rfl
@[simp] theorem acceptGif_hostData (l : Bool) (s : State) : (acceptGif l s).hostData = s.hostData := rfl

/-! ### acceptLzw -/

@[simp] theorem acceptLzw_seq (m : BitVec 4) (s : State) : (acceptLzw m s).seq = SeqCode.lCheckSrc := rfl
@[simp] theorem acceptLzw_job (m : BitVec 4) (s : State) : (acceptLzw m s).job = opcLzw := rfl
@[simp] theorem acceptLzw_loopL (m : BitVec 4) (s : State) : (acceptLzw m s).loopL = false := rfl
@[simp] theorem acceptLzw_fi (m : BitVec 4) (s : State) : (acceptLzw m s).fi = 0 := rfl
@[simp] theorem acceptLzw_pi (m : BitVec 4) (s : State) : (acceptLzw m s).pi = s.pi := rfl
@[simp] theorem acceptLzw_curSrc (m : BitVec 4) (s : State) : (acceptLzw m s).curSrc = s.srcBase := rfl
@[simp] theorem acceptLzw_curN (m : BitVec 4) (s : State) : (acceptLzw m s).curN = s.srcLen := rfl
@[simp] theorem acceptLzw_sink (m : BitVec 4) (s : State) : (acceptLzw m s).sink = .raw := rfl
@[simp] theorem acceptLzw_outPtr (m : BitVec 4) (s : State) : (acceptLzw m s).outPtr = 0 := rfl
@[simp] theorem acceptLzw_plen (m : BitVec 4) (s : State) : (acceptLzw m s).plen = s.plen := rfl
@[simp] theorem acceptLzw_mcs (m : BitVec 4) (s : State) : (acceptLzw m s).mcs = m := rfl
@[simp] theorem acceptLzw_clearCode (m : BitVec 4) (s : State) : (acceptLzw m s).clearCode = s.clearCode := rfl
@[simp] theorem acceptLzw_endCode (m : BitVec 4) (s : State) : (acceptLzw m s).endCode = s.endCode := rfl
@[simp] theorem acceptLzw_w (m : BitVec 4) (s : State) : (acceptLzw m s).w = s.w := rfl
@[simp] theorem acceptLzw_next (m : BitVec 4) (s : State) : (acceptLzw m s).next = s.next := rfl
@[simp] theorem acceptLzw_accValid (m : BitVec 4) (s : State) : (acceptLzw m s).accValid = s.accValid := rfl
@[simp] theorem acceptLzw_accCode (m : BitVec 4) (s : State) : (acceptLzw m s).accCode = s.accCode := rfl
@[simp] theorem acceptLzw_table (m : BitVec 4) (s : State) : (acceptLzw m s).table = s.table := rfl
@[simp] theorem acceptLzw_bitBuf (m : BitVec 4) (s : State) : (acceptLzw m s).bitBuf = s.bitBuf := rfl
@[simp] theorem acceptLzw_bitCnt (m : BitVec 4) (s : State) : (acceptLzw m s).bitCnt = s.bitCnt := rfl
@[simp] theorem acceptLzw_chunk (m : BitVec 4) (s : State) : (acceptLzw m s).chunk = s.chunk := rfl
@[simp] theorem acceptLzw_chunkLen (m : BitVec 4) (s : State) : (acceptLzw m s).chunkLen = s.chunkLen := rfl
@[simp] theorem acceptLzw_busy (m : BitVec 4) (s : State) : (acceptLzw m s).busy = true := rfl
@[simp] theorem acceptLzw_done (m : BitVec 4) (s : State) : (acceptLzw m s).done = false := rfl
@[simp] theorem acceptLzw_err (m : BitVec 4) (s : State) : (acceptLzw m s).err = false := rfl
@[simp] theorem acceptLzw_errCode (m : BitVec 4) (s : State) : (acceptLzw m s).errCode = .noError := rfl
@[simp] theorem acceptLzw_errFrame (m : BitVec 4) (s : State) : (acceptLzw m s).errFrame = noFrame := rfl
@[simp] theorem acceptLzw_ie (m : BitVec 4) (s : State) : (acceptLzw m s).ie = s.ie := rfl
@[simp] theorem acceptLzw_width (m : BitVec 4) (s : State) : (acceptLzw m s).width = s.width := rfl
@[simp] theorem acceptLzw_height (m : BitVec 4) (s : State) : (acceptLzw m s).height = s.height := rfl
@[simp] theorem acceptLzw_palBase (m : BitVec 4) (s : State) : (acceptLzw m s).palBase = s.palBase := rfl
@[simp] theorem acceptLzw_palLen (m : BitVec 4) (s : State) : (acceptLzw m s).palLen = s.palLen := rfl
@[simp] theorem acceptLzw_frameBase (m : BitVec 4) (s : State) : (acceptLzw m s).frameBase = s.frameBase := rfl
@[simp] theorem acceptLzw_nframes (m : BitVec 4) (s : State) : (acceptLzw m s).nframes = s.nframes := rfl
@[simp] theorem acceptLzw_srcBase (m : BitVec 4) (s : State) : (acceptLzw m s).srcBase = s.srcBase := rfl
@[simp] theorem acceptLzw_srcLen (m : BitVec 4) (s : State) : (acceptLzw m s).srcLen = s.srcLen := rfl
@[simp] theorem acceptLzw_outBase (m : BitVec 4) (s : State) : (acceptLzw m s).outBase = s.outBase := rfl
@[simp] theorem acceptLzw_outCap (m : BitVec 4) (s : State) : (acceptLzw m s).outCap = s.outCap := rfl
@[simp] theorem acceptLzw_outLen (m : BitVec 4) (s : State) : (acceptLzw m s).outLen = 0 := rfl
@[simp] theorem acceptLzw_lzwLast (m : BitVec 4) (s : State) : (acceptLzw m s).lzwLast = 0 := rfl
@[simp] theorem acceptLzw_inMem (m : BitVec 4) (s : State) : (acceptLzw m s).inMem = s.inMem := rfl
@[simp] theorem acceptLzw_outMem (m : BitVec 4) (s : State) : (acceptLzw m s).outMem = s.outMem := rfl
@[simp] theorem acceptLzw_outFree (m : BitVec 4) (s : State) : (acceptLzw m s).outFree = s.outFree := rfl
@[simp] theorem acceptLzw_build (m : BitVec 4) (s : State) : (acceptLzw m s).build = s.build := rfl
@[simp] theorem acceptLzw_draws (m : BitVec 4) (s : State) : (acceptLzw m s).draws = s.draws + 1 := rfl
@[simp] theorem acceptLzw_agenda (m : BitVec 4) (s : State) : (acceptLzw m s).agenda = s.agenda := rfl
@[simp] theorem acceptLzw_hostData (m : BitVec 4) (s : State) : (acceptLzw m s).hostData = s.hostData := rfl

/-! ### resetBlock -/

@[simp] theorem resetBlock_seq (s : State) : (resetBlock s).seq = State.reset.seq := rfl
@[simp] theorem resetBlock_job (s : State) : (resetBlock s).job = State.reset.job := rfl
@[simp] theorem resetBlock_loopL (s : State) : (resetBlock s).loopL = State.reset.loopL := rfl
@[simp] theorem resetBlock_fi (s : State) : (resetBlock s).fi = State.reset.fi := rfl
@[simp] theorem resetBlock_pi (s : State) : (resetBlock s).pi = State.reset.pi := rfl
@[simp] theorem resetBlock_curSrc (s : State) : (resetBlock s).curSrc = State.reset.curSrc := rfl
@[simp] theorem resetBlock_curN (s : State) : (resetBlock s).curN = State.reset.curN := rfl
@[simp] theorem resetBlock_sink (s : State) : (resetBlock s).sink = State.reset.sink := rfl
@[simp] theorem resetBlock_outPtr (s : State) : (resetBlock s).outPtr = State.reset.outPtr := rfl
@[simp] theorem resetBlock_plen (s : State) : (resetBlock s).plen = State.reset.plen := rfl
@[simp] theorem resetBlock_mcs (s : State) : (resetBlock s).mcs = State.reset.mcs := rfl
@[simp] theorem resetBlock_clearCode (s : State) : (resetBlock s).clearCode = State.reset.clearCode := rfl
@[simp] theorem resetBlock_endCode (s : State) : (resetBlock s).endCode = State.reset.endCode := rfl
@[simp] theorem resetBlock_w (s : State) : (resetBlock s).w = State.reset.w := rfl
@[simp] theorem resetBlock_next (s : State) : (resetBlock s).next = State.reset.next := rfl
@[simp] theorem resetBlock_accValid (s : State) : (resetBlock s).accValid = State.reset.accValid := rfl
@[simp] theorem resetBlock_accCode (s : State) : (resetBlock s).accCode = State.reset.accCode := rfl
@[simp] theorem resetBlock_table (s : State) : (resetBlock s).table = State.reset.table := rfl
@[simp] theorem resetBlock_bitBuf (s : State) : (resetBlock s).bitBuf = State.reset.bitBuf := rfl
@[simp] theorem resetBlock_bitCnt (s : State) : (resetBlock s).bitCnt = State.reset.bitCnt := rfl
@[simp] theorem resetBlock_chunk (s : State) : (resetBlock s).chunk = State.reset.chunk := rfl
@[simp] theorem resetBlock_chunkLen (s : State) : (resetBlock s).chunkLen = State.reset.chunkLen := rfl
@[simp] theorem resetBlock_busy (s : State) : (resetBlock s).busy = State.reset.busy := rfl
@[simp] theorem resetBlock_done (s : State) : (resetBlock s).done = State.reset.done := rfl
@[simp] theorem resetBlock_err (s : State) : (resetBlock s).err = State.reset.err := rfl
@[simp] theorem resetBlock_errCode (s : State) : (resetBlock s).errCode = State.reset.errCode := rfl
@[simp] theorem resetBlock_errFrame (s : State) : (resetBlock s).errFrame = State.reset.errFrame := rfl
@[simp] theorem resetBlock_ie (s : State) : (resetBlock s).ie = State.reset.ie := rfl
@[simp] theorem resetBlock_width (s : State) : (resetBlock s).width = State.reset.width := rfl
@[simp] theorem resetBlock_height (s : State) : (resetBlock s).height = State.reset.height := rfl
@[simp] theorem resetBlock_palBase (s : State) : (resetBlock s).palBase = State.reset.palBase := rfl
@[simp] theorem resetBlock_palLen (s : State) : (resetBlock s).palLen = State.reset.palLen := rfl
@[simp] theorem resetBlock_frameBase (s : State) : (resetBlock s).frameBase = State.reset.frameBase := rfl
@[simp] theorem resetBlock_nframes (s : State) : (resetBlock s).nframes = State.reset.nframes := rfl
@[simp] theorem resetBlock_srcBase (s : State) : (resetBlock s).srcBase = State.reset.srcBase := rfl
@[simp] theorem resetBlock_srcLen (s : State) : (resetBlock s).srcLen = State.reset.srcLen := rfl
@[simp] theorem resetBlock_outBase (s : State) : (resetBlock s).outBase = State.reset.outBase := rfl
@[simp] theorem resetBlock_outCap (s : State) : (resetBlock s).outCap = State.reset.outCap := rfl
@[simp] theorem resetBlock_outLen (s : State) : (resetBlock s).outLen = State.reset.outLen := rfl
@[simp] theorem resetBlock_lzwLast (s : State) : (resetBlock s).lzwLast = State.reset.lzwLast := rfl
@[simp] theorem resetBlock_inMem (s : State) : (resetBlock s).inMem = s.inMem := rfl
@[simp] theorem resetBlock_outMem (s : State) : (resetBlock s).outMem = s.outMem := rfl
@[simp] theorem resetBlock_outFree (s : State) : (resetBlock s).outFree = s.outFree := rfl
@[simp] theorem resetBlock_build (s : State) : (resetBlock s).build = s.build := rfl
@[simp] theorem resetBlock_draws (s : State) : (resetBlock s).draws = s.draws := rfl
@[simp] theorem resetBlock_agenda (s : State) : (resetBlock s).agenda = s.agenda := rfl
@[simp] theorem resetBlock_hostData (s : State) : (resetBlock s).hostData = s.hostData := rfl

end Sys2Proof.Machine
end

