-- ==== Sys2Proof/Laws/Operands.lean ====
section
/-! SUPPORT. The laws of the operands: when an address lies in a region and when two regions meet, what a byte of IN or OUT
depends on, which bytes a job reads, what a run of symbols that passes a check says. -/

namespace Sys2Proof.Machine

/-! ### Addresses and regions -/

theorem wrapAddr_lt (s : State) (a : Nat) : wrapAddr s a < 2 ^ s.build.addrBits := Nat.mod_lt _ (Nat.two_pow_pos _)

theorem byteAddr_lt (s : State) (base : Word) (k : Nat) : byteAddr s base k < 2 ^ s.build.addrBits := wrapAddr_lt _ _

/-- An address depends on P_ADDR_BITS alone. -/
theorem byteAddr_congr {s t : State} (hb : t.build = s.build) (base : Word) (k : Nat) :
    byteAddr t base k = byteAddr s base k := by
  unfold byteAddr wrapAddr
  rw [hb]

/-- Offsets below the size of the space give different addresses. -/
theorem byteAddr_inj (s : State) (base : Word) {j k : Nat} (hj : j < 2 ^ s.build.addrBits)
    (hk : k < 2 ^ s.build.addrBits) (h : byteAddr s base j = byteAddr s base k) : j = k := by
  have h' : j ≡ k [MOD 2 ^ s.build.addrBits] := Nat.ModEq.add_left_cancel' _ h
  rwa [Nat.ModEq, Nat.mod_eq_of_lt hj, Nat.mod_eq_of_lt hk] at h'

/-- The offset of the address base + k is k, mod the size of the space. -/
theorem offset_mod (m b k : Nat) (hm : 0 < m) : ((b + k) % m + (m - b % m)) % m = k % m := by
  have hr : b % m < m := Nat.mod_lt _ hm
  have hb : m * (b / m) + b % m = b := Nat.div_add_mod b m
  rw [Nat.mod_add_mod, show b + k + (m - b % m) = k + m * (b / m + 1) by rw [Nat.mul_succ]; omega,
    Nat.add_mul_mod_self_left]

/-- The address at the offset of a is a. -/
theorem base_add_offset (m b a : Nat) (ha : a < m) : (b + (a + (m - b % m)) % m) % m = a := by
  have hr : b % m < m := Nat.mod_lt _ (by omega)
  have hb : m * (b / m) + b % m = b := Nat.div_add_mod b m
  rw [Nat.add_mod_mod, show b + (a + (m - b % m)) = a + m * (b / m + 1) by rw [Nat.mul_succ]; omega,
    Nat.add_mul_mod_self_left, Nat.mod_eq_of_lt ha]

/-- A region holds exactly the addresses base + k mod 2^bits, k below its length (R33). -/
theorem inRegion_iff (bits : Nat) (base : Word) (len a : Nat) :
    inRegion bits base len a = true ↔ ∃ k < len, a = (base.toNat + k) % 2 ^ bits := by
  have hm := Nat.two_pow_pos bits
  unfold inRegion
  rw [Bool.and_eq_true, decide_eq_true_iff, decide_eq_true_iff]
  constructor
  · rintro ⟨ha, h⟩
    exact ⟨_, h, (base_add_offset _ _ _ ha).symm⟩
  · rintro ⟨k, hk, rfl⟩
    refine ⟨Nat.mod_lt _ hm, ?_⟩
    rw [offset_mod _ _ _ hm]
    exact Nat.lt_of_le_of_lt (Nat.mod_le _ _) hk

/-- The OUT region depends on OUT_BASE, OUT_CAP and P_ADDR_BITS. -/
theorem outRegion_congr {s t : State} (hb : t.build = s.build) (hbase : t.outBase = s.outBase)
    (hcap : t.outCap = s.outCap) (a : Nat) : OutRegion t a ↔ OutRegion s a := by
  unfold OutRegion
  rw [hbase, hcap]
  simp only [byteAddr_congr hb]

theorem jobOutput_iff (s : State) (a : Nat) : jobOutput s a = true ↔ OutRegion s a := inRegion_iff _ _ _ _

theorem jobOutput_eq_false_iff (s : State) (a : Nat) : jobOutput s a = false ↔ ¬ OutRegion s a := by
  rw [← Bool.not_eq_true, jobOutput_iff]

/-- Two offsets of one address: the start of the region with the smaller one lies in the other region. -/
theorem start_inRegion {bits : Nat} {b b' : Word} {len j k : Nat} (hk : k < len) (hle : j ≤ k)
    (h : (b.toNat + k) % 2 ^ bits = (b'.toNat + j) % 2 ^ bits) :
    inRegion bits b len (b'.toNat % 2 ^ bits) = true := by
  refine (inRegion_iff _ _ _ _).mpr ⟨k - j, by omega, ?_⟩
  have h' : b'.toNat + j ≡ b.toNat + (k - j) + j [MOD 2 ^ bits] := by
    rw [show b.toNat + (k - j) + j = b.toNat + k by omega]
    exact h.symm
  exact Nat.ModEq.add_right_cancel' _ h'

/-- Two regions meet exactly when an address lies in both. -/
theorem regionsMeet_iff (bits : Nat) (b : Word) (len : Nat) (b' : Word) (len' : Nat) :
    regionsMeet bits b len b' len' = true
      ↔ ∃ a, inRegion bits b len a = true ∧ inRegion bits b' len' a = true := by
  have self : ∀ (c : Word) (n : Nat), 0 < n → inRegion bits c n (c.toNat % 2 ^ bits) = true :=
    fun c n hn => (inRegion_iff _ _ _ _).mpr ⟨0, hn, rfl⟩
  unfold regionsMeet
  simp only [Bool.and_eq_true, Bool.or_eq_true, decide_eq_true_iff]
  constructor
  · rintro ⟨⟨h, h'⟩, hin | hin⟩
    · exact ⟨_, hin, self b' len' h'⟩
    · exact ⟨_, self b len h, hin⟩
  · rintro ⟨a, h, h'⟩
    obtain ⟨k, hk, rfl⟩ := (inRegion_iff _ _ _ _).mp h
    obtain ⟨j, hj, he⟩ := (inRegion_iff _ _ _ _).mp h'
    refine ⟨⟨by omega, by omega⟩, ?_⟩
    rcases Nat.le_total j k with hle | hle
    · exact .inl (start_inRegion hk hle he)
    · exact .inr (start_inRegion hj hle he.symm)

/-! ### Bytes of OUT -/

/-- A byte of OUT depends on the known bytes and the unspecified regions. -/
theorem outByteAt_congr {s t : State} (hb : t.build = s.build) (hm : t.outMem = s.outMem)
    (hf : t.outFree = s.outFree) (a : Nat) : outByteAt t a = outByteAt s a := by
  unfold outByteAt
  rw [hb, hm, hf]

theorem outByteAt_writeOutByte (a : Nat) (v : Byte) (s : State) (b : Nat) :
    outByteAt (writeOutByte a v s) b = if b = a then v else outByteAt s b := by
  unfold outByteAt
  simp only [writeOutByte_outMem, writeOutByte_outFree, writeOutByte_build, Cells.get_put]
  by_cases h : b = a <;> simp [h]

theorem outByteAt_forgetOut (base cap : Word) (s : State) {a : Nat}
    (h : inRegion s.build.addrBits base cap.toNat a = false) :
    outByteAt (forgetOut base cap s) a = outByteAt s a := by
  unfold outByteAt
  simp [Cells.get_drop, freeDraw, h]

/-- An abort leaves every OUT byte outside the job's region as it was (R131). -/
theorem outByteAt_abort (e : ErrCode) (f : FrameIdx) (s : State) {a : Nat} (h : ¬ OutRegion s a) :
    outByteAt (abort e f s) a = outByteAt s a := by
  rw [← outByteAt_forgetOut s.outBase s.outCap s ((jobOutput_eq_false_iff s a).mpr h)]
  exact outByteAt_congr rfl rfl rfl a

/-! ### Bytes of IN -/

/-- In separate memories, a byte of IN depends on the bytes the host wrote and on the draw. -/
theorem inByte_congr_separate {s t : State} (hb : t.build = s.build) (hs : s.build.sharedMemory = false)
    (hm : t.inMem = s.inMem) (hd : t.draws = s.draws) (a : Nat) : inByte t a = inByte s a := by
  unfold inByte
  simp [hb, hs, hm, hd]

/-- In one memory, a byte of IN is that byte of OUT. -/
theorem inByte_of_shared {s : State} (hs : s.build.sharedMemory = true) (a : Nat) : inByte s a = outByteAt s a := by
  unfold inByte
  simp [hs]

/-- What a byte of IN depends on. -/
theorem inByte_congr {s t : State} (hb : t.build = s.build) (hm : t.inMem = s.inMem) (hd : t.draws = s.draws)
    (ho : t.outMem = s.outMem) (hf : t.outFree = s.outFree) (a : Nat) : inByte t a = inByte s a := by
  cases hs : s.build.sharedMemory
  · exact inByte_congr_separate hb hs hm hd a
  · rw [inByte_of_shared hs, inByte_of_shared (hb ▸ hs), outByteAt_congr hb ho hf]

theorem inByte_writeInByte (a : Nat) (v : Byte) (s : State) (b : Nat) :
    inByte (writeInByte a v s) b = if b = a then v else inByte s b := by
  cases hs : s.build.sharedMemory
  · simp only [writeInByte, inByte, hs, Cells.get_put, Bool.false_eq_true, if_false]
    by_cases h : b = a <;> simp [h]
  · simp only [writeInByte, inByte, hs, if_true, writeOutByte_build, outByteAt_writeOutByte]

/-- A host write of IN changes one memory alone. -/
theorem writeInByte_eq (a : Nat) (v : Byte) (s : State) :
    writeInByte a v s =
      if s.build.sharedMemory then { s with outMem := Cells.put s.outMem a v }
      else { s with inMem := Cells.put s.inMem a v } := rfl

/-- A host write keeps the canonical forms. -/
theorem wf_writeInByte {a : Nat} {v : Byte} {s : State} (ha : a < 2 ^ s.build.addrBits)
    (hi : Memory.wf s.build.addrBits s.inMem) (ho : Memory.wf s.build.addrBits s.outMem) :
    Memory.wf s.build.addrBits (writeInByte a v s).inMem ∧ Memory.wf s.build.addrBits (writeInByte a v s).outMem := by
  rw [writeInByte_eq]
  cases s.build.sharedMemory
  · exact ⟨Cells.wf_put v ha hi, ho⟩
  · exact ⟨hi, Cells.wf_put v ha ho⟩

theorem wf_writeOutByte {a : Nat} {v : Byte} {s : State} (ha : a < 2 ^ s.build.addrBits)
    (ho : Memory.wf s.build.addrBits s.outMem) : Memory.wf s.build.addrBits (writeOutByte a v s).outMem :=
  Cells.wf_put v ha ho

theorem wf_forgetOut {base cap : Word} {s : State} (ho : Memory.wf s.build.addrBits s.outMem) :
    Memory.wf s.build.addrBits (forgetOut base cap s).outMem := Cells.wf_drop _ ho

/-- A field depends on its bytes. -/
theorem read16_congr {s t : State} {base : Word} {o : Nat} (hb : t.build = s.build)
    (h : ∀ i < 2, inByte t (byteAddr s base (o + i)) = inByte s (byteAddr s base (o + i))) :
    read16 t base o = read16 s base o := by
  simp only [read16, byteAddr_congr hb]
  rw [h 1 (by omega), show byteAddr s base o = byteAddr s base (o + 0) from rfl, h 0 (by omega)]

theorem read32_congr {s t : State} {base : Word} {o : Nat} (hb : t.build = s.build)
    (h : ∀ i < 4, inByte t (byteAddr s base (o + i)) = inByte s (byteAddr s base (o + i))) :
    read32 t base o = read32 s base o := by
  simp only [read32, byteAddr_congr hb]
  rw [h 3 (by omega), h 2 (by omega), h 1 (by omega), show byteAddr s base o = byteAddr s base (o + 0) from rfl,
    h 0 (by omega)]

/-- Two bit vectors side by side, as a number. -/
theorem toNat_append_eq {m n : Nat} (x : BitVec m) (y : BitVec n) : (x ++ y).toNat = x.toNat * 2 ^ n + y.toNat := by
  rw [BitVec.toNat_append, ← Nat.shiftLeft_add_eq_or_of_lt y.isLt, Nat.shiftLeft_eq]

/-- A little-endian field as a number (R36). -/
theorem toNat_read16 (s : State) (base : Word) (o : Nat) :
    (read16 s base o).toNat
      = (inByte s (byteAddr s base o)).toNat + (inByte s (byteAddr s base (o + 1))).toNat * 2 ^ 8 := by
  rw [read16, toNat_append_eq]
  omega

theorem toNat_read32 (s : State) (base : Word) (o : Nat) :
    (read32 s base o).toNat
      = (inByte s (byteAddr s base o)).toNat + (inByte s (byteAddr s base (o + 1))).toNat * 2 ^ 8
        + (inByte s (byteAddr s base (o + 2))).toNat * 2 ^ 16 + (inByte s (byteAddr s base (o + 3))).toNat * 2 ^ 24 := by
  rw [read32, toNat_append_eq, toNat_append_eq, toNat_append_eq]
  omega

/-! ### The bytes of a job (R47 (b)) -/

/-- The bytes the model takes for the job's inputs are those the job reads. -/
theorem jobInput_iff (s : State) (a : Nat) : jobInput s a = true ↔ JobReads s a := by
  have hof : ∀ i : BitVec 16, BitVec.ofNat 16 i.toNat = i := fun i => by simp
  simp only [jobInput, inputRegions, JobReads, opcGif]
  by_cases h : s.job = 0x01#8
  · simp only [h, if_true, List.any_cons, Bool.or_eq_true, List.any_map, List.any_eq_true, List.mem_range,
      Function.comp_apply, inRegion_iff, true_and, ne_eq, not_true_eq_false, false_and, or_false, GifReads]
    refine or_congr Iff.rfl (or_congr Iff.rfl ⟨?_, ?_⟩)
    · rintro ⟨i, hi, k, hk, rfl⟩
      have := s.nframes.isLt
      exact ⟨BitVec.ofNat 16 i, by rw [BitVec.toNat_ofNat, Nat.mod_eq_of_lt (by omega)]; exact hi, k, hk, rfl⟩
    · rintro ⟨i, hi, k, hk, rfl⟩
      exact ⟨i.toNat, hi, k, by rwa [hof], by rw [hof]; rfl⟩
  · simp only [h, if_false, List.any_cons, List.any_nil, Bool.or_false, inRegion_iff, false_and, false_or, ne_eq,
      not_false_eq_true, true_and]
    rfl

/-- The host is refused a write of IN exactly while a job runs that reads the byte. -/
theorem lockedInput_iff (s : State) (a : Nat) : lockedInput s a = true ↔ s.busy = true ∧ JobReads s a := by
  rw [lockedInput, Bool.and_eq_true, jobInput_iff]

theorem lockedOutput_iff (s : State) (a : Nat) : lockedOutput s a = true ↔ s.busy = true ∧ OutRegion s a := by
  rw [lockedOutput, Bool.and_eq_true, jobOutput_iff]

/-- The accept is refused exactly where the one memory has a byte in the OUT region and among the job's inputs. -/
theorem regionsOverlap_iff (s : State) :
    regionsOverlap s = true ↔ s.build.sharedMemory = true ∧ ∃ a, OutRegion s a ∧ JobReads s a := by
  rw [regionsOverlap, Bool.and_eq_true]
  refine and_congr Iff.rfl ?_
  simp only [List.any_eq_true, regionsMeet_iff]
  constructor
  · rintro ⟨r, hr, a, ho, hi⟩
    exact ⟨a, (jobOutput_iff s a).mp ho, (jobInput_iff s a).mp (List.any_eq_true.mpr ⟨r, hr, hi⟩)⟩
  · rintro ⟨a, ho, hi⟩
    obtain ⟨r, hr, hir⟩ := List.any_eq_true.mp ((jobInput_iff s a).mpr hi)
    exact ⟨r, hr, a, (jobOutput_iff s a).mpr ho, hir⟩

/-! ### Runs of symbols -/

theorem allBelow_iff (s : State) (base : Word) (bound n k : Nat) :
    allBelow s base bound n k = true ↔ ∀ j < n, (inByte s (byteAddr s base (k + j))).toNat < bound := by
  induction n generalizing k with
  | zero => simp [allBelow]
  | succ n ih =>
    rw [allBelow, Bool.and_eq_true, decide_eq_true_iff, ih]
    constructor
    · rintro ⟨h0, h⟩ j hj
      cases j with
      | zero => exact h0
      | succ j =>
        have := h j (by omega)
        rwa [show k + 1 + j = k + (j + 1) by omega] at this
    · intro h
      refine ⟨h 0 (by omega), fun j hj => ?_⟩
      have := h (j + 1) (by omega)
      rwa [show k + (j + 1) = k + 1 + j by omega] at this

theorem inBytes_eq_map (s : State) (base : Word) (n k : Nat) :
    inBytes s base n k = (List.range n).map fun j => inByte s (byteAddr s base (k + j)) := by
  induction n generalizing k with
  | zero => rfl
  | succ n ih =>
    rw [inBytes, ih, List.range_succ_eq_map, List.map_cons, List.map_map]
    simp [Function.comp_def, Nat.add_assoc, Nat.add_comm 1]

@[simp] theorem length_inBytes (s : State) (base : Word) (n k : Nat) : (inBytes s base n k).length = n := by
  simp [inBytes_eq_map]

end Sys2Proof.Machine
end

