-- ==== Sys2Proof/Laws/Commands.lean ====
section
/-! SUPPORT. What a command word and a register write can do to the state (R118, R120 to R125). -/

namespace Sys2Proof.Machine

/-- A job starts, or its program is refused because in one memory it reads its own OUT region (R146 (f)). -/
theorem startJob_cases (u : State) :
    ((u.build.sharedMemory = true → ∀ a, OutRegion u a → ¬ JobReads u a) ∧ startJob u = .next u)
      ∨ ((u.build.sharedMemory = true ∧ ∃ a, OutRegion u a ∧ JobReads u a)
        ∧ startJob u = .refused .regionsOverlap) := by
  unfold startJob
  by_cases h : regionsOverlap u = true
  · exact .inr ⟨(regionsOverlap_iff u).mp h, if_pos h⟩
  · refine .inl ⟨fun hs a ho hj => h ((regionsOverlap_iff u).mpr ⟨hs, a, ho, hj⟩), if_neg h⟩

/-- Every effect a command word can have. -/
theorem command_cases (v : Word) (s : State) :
    command v s = .next s
      ∨ (s.busy = false ∧ illegalWord v = true ∧ command v s = .next (raiseIllegal s))
      ∨ (s.busy = false ∧ ∃ loop, command v s = startJob (acceptGif loop s))
      ∨ (s.busy = false ∧ ∃ m, illegalWord v = false ∧ opcField v = opcLzw ∧ m = mField v
          ∧ command v s = startJob (acceptLzw m s))
      ∨ command v s = .next (resetBlock s) := by
  unfold command
  cases hb : s.busy
  · simp only [Bool.false_eq_true, if_false]
    cases hi : illegalWord v
    · simp only [Bool.false_eq_true, if_false]
      by_cases h0 : opcField v = opcNop
      · exact .inl (if_pos h0)
      · rw [if_neg h0]
        by_cases h1 : opcField v = opcGif
        · exact .inr (.inr (.inl ⟨trivial, loopField v, if_pos h1⟩))
        · rw [if_neg h1]
          by_cases h2 : opcField v = opcLzw
          · exact .inr (.inr (.inr (.inl ⟨trivial, _, trivial, h2, rfl, if_pos h2⟩)))
          · exact .inr (.inr (.inr (.inr (if_neg h2))))
    · exact .inr (.inl ⟨trivial, rfl, if_pos rfl⟩)
  · simp only [if_true]
    by_cases h : v = 0x0000000F#32
    · exact .inr (.inr (.inr (.inr (by rw [if_pos h]))))
    · exact .inl (by rw [if_neg h])

/-- An LZW_ENCODE word that is not illegal carries a legal M. -/
theorem legalM_of_legal {v : Word} (h : illegalWord v = false) (ho : opcField v = opcLzw) : legalM (mField v) = true := by
  simp only [illegalWord, ho, Bool.or_eq_false_iff, Bool.and_eq_false_iff] at h
  rcases h.2 with h | h
  · exact absurd h (by decide)
  · simpa using h.1

/-- The configuration registers, where every other field is that of the first state. -/
def OnlyConfig (s t : State) : Prop :=
  t = { s with
    width := t.width, height := t.height, palBase := t.palBase, palLen := t.palLen, frameBase := t.frameBase,
    nframes := t.nframes, srcBase := t.srcBase, srcLen := t.srcLen, outBase := t.outBase, outCap := t.outCap }

/-- Every effect a write of a register other than CMD can have. -/
theorem regWrite_cases (r : Reg) (v : Word) (s : State) :
    regWrite r v s = s
      ∨ (r = .status ∧ regWrite r v s = writeStatus v s)
      ∨ (r = .ctrl ∧ regWrite r v s = { s with ie := v.getLsbD 0 })
      ∨ (s.busy = false ∧ OnlyConfig s (regWrite r v s)) := by
  cases hb : s.busy <;> cases r <;> simp [regWrite, configWrite, OnlyConfig, hb]

/-- What a write of STATUS does, as one update. -/
theorem writeStatus_eq (v : Word) (s : State) :
    writeStatus v s = { s with
      done := s.done && !v.getLsbD 1
      err := s.err && !v.getLsbD 2
      errCode := if v.getLsbD 2 then .noError else s.errCode
      errFrame := if v.getLsbD 2 then noFrame else s.errFrame } := by
  unfold writeStatus
  cases h1 : v.getLsbD 1 <;> cases h2 : v.getLsbD 2 <;> simp [clearDone, clearErr]

end Sys2Proof.Machine
end

