-- ==== Sys2Proof/Laws/Out.lean ====
section
/-! SUPPORT. The laws of `Flow`, and what `outByte` and `outBytes` can do: the bytes land and only OUT and OUT_PTR change,
or the operation raises OUTPUT_OVERFLOW at the first byte past OUT_CAP (R102). -/

namespace Sys2Proof.Machine

/-! ### Flow -/

@[simp] theorem Flow.ok_andThen (s : State) (f : State → Flow) : (Flow.ok s).andThen f = f s := rfl
@[simp] theorem Flow.raise_andThen (e : ErrCode) (n : FrameIdx) (s : State) (f : State → Flow) :
    (Flow.raise e n s).andThen f = .raise e n s := rfl
@[simp] theorem Flow.fault_andThen (r : Fault) (f : State → Flow) : (Flow.fault r).andThen f = .fault r := rfl
@[simp] theorem Flow.close_ok (s : State) : (Flow.ok s).close = .next s := rfl
@[simp] theorem Flow.close_raise (e : ErrCode) (n : FrameIdx) (s : State) :
    (Flow.raise e n s).close = .next (abort e n s) := rfl
@[simp] theorem Flow.close_fault (r : Fault) : (Flow.fault r).close = .fault r := rfl

theorem Flow.andThen_assoc (x : Flow) (f g : State → Flow) :
    (x.andThen f).andThen g = x.andThen fun s => (f s).andThen g := by
  cases x <;> rfl

/-! ### Writing a list of bytes -/

/-- The state after all the bytes landed. -/
def pushAll (bs : List Byte) (s : State) : State := bs.foldl (fun t v => pushOut v t) s

@[simp] theorem pushAll_nil (s : State) : pushAll [] s = s := rfl
@[simp] theorem pushAll_cons (v : Byte) (bs : List Byte) (s : State) :
    pushAll (v :: bs) s = pushAll bs (pushOut v s) := rfl

theorem pushAll_append (bs cs : List Byte) (s : State) : pushAll (bs ++ cs) s = pushAll cs (pushAll bs s) := by
  simp [pushAll, List.foldl_append]

/-- Only OUT and OUT_PTR change. -/
theorem pushAll_eq (bs : List Byte) (s : State) :
    pushAll bs s = { s with outMem := (pushAll bs s).outMem, outPtr := (pushAll bs s).outPtr } := by
  induction bs generalizing s with
  | nil => rfl
  | cons v bs ih => rw [pushAll_cons, ih (pushOut v s)]; rfl

/-- A byte that fits lands; another raises OUTPUT_OVERFLOW and leaves the state as it was. -/
theorem outByte_cases (v : Byte) (s : State) :
    (s.outPtr.toNat < s.outCap.toNat ∧ outByte v s = .ok (pushOut v s))
      ∨ (s.outCap.toNat ≤ s.outPtr.toNat ∧ outByte v s = .raise .outputOverflow (frameCtx s) s) := by
  unfold outByte
  by_cases h : s.outPtr < s.outCap
  · exact .inl ⟨h, if_pos h⟩
  · exact .inr ⟨Nat.le_of_not_lt h, if_neg h⟩

theorem outPtr_pushOut_toNat {v : Byte} {s : State} (h : s.outPtr.toNat < s.outCap.toNat) :
    (pushOut v s).outPtr.toNat = s.outPtr.toNat + 1 := by
  have := s.outCap.isLt
  simp only [pushOut_outPtr]
  bv_omega

theorem Fits.of_cons {s : State} {v : Byte} {n : Nat} (h : Fits s (n + 1)) :
    s.outPtr.toNat < s.outCap.toNat ∧ Fits (pushOut v s) n := by
  simp only [Fits] at h ⊢
  have hlt : s.outPtr.toNat < s.outCap.toNat := by omega
  refine ⟨hlt, ?_⟩
  rw [outPtr_pushOut_toNat hlt, pushOut_outCap]
  omega

theorem outBytes_fits {bs : List Byte} {s : State} (h : Fits s bs.length) :
    outBytes bs s = .ok (pushAll bs s) := by
  induction bs generalizing s with
  | nil => rfl
  | cons v bs ih =>
    obtain ⟨hlt, hf⟩ := Fits.of_cons (v := v) h
    rcases outByte_cases v s with ⟨_, he⟩ | ⟨hge, _⟩
    · rw [outBytes, he, Flow.ok_andThen, pushAll_cons, ih hf]
    · omega

/-- Bytes that do not all fit raise OUTPUT_OVERFLOW; those that fit were written (R102). -/
theorem outBytes_overflow {bs : List Byte} {s : State} (h : ¬ Fits s bs.length) :
    outBytes bs s = .raise .outputOverflow (frameCtx s) (pushAll (bs.take (s.outCap.toNat - s.outPtr.toNat)) s) := by
  induction bs generalizing s with
  | nil => simp [Fits] at h
  | cons v bs ih =>
    rcases outByte_cases v s with ⟨hlt, he⟩ | ⟨hge, he⟩
    · have hptr := outPtr_pushOut_toNat (v := v) hlt
      have hn : ¬ Fits (pushOut v s) bs.length := by
        simp only [Fits, List.length_cons, hptr, pushOut_outCap] at h ⊢
        omega
      have hk : s.outCap.toNat - s.outPtr.toNat = (s.outCap.toNat - (pushOut v s).outPtr.toNat) + 1 := by omega
      rw [outBytes, he, Flow.ok_andThen, ih hn, hk, List.take_succ_cons, pushAll_cons, pushOut_outCap]
      rfl
    · rw [outBytes, he, Flow.raise_andThen, Nat.sub_eq_zero_of_le hge]
      rfl

/-! ### What the bytes look like in OUT -/

theorem WroteOut.nil (s t : State) (hb : t.build = s.build) (hp : t.outPtr = s.outPtr) (hm : t.outMem = s.outMem)
    (hf : t.outFree = s.outFree) : WroteOut s t [] :=
  ⟨by simp [hp], by simp, fun a _ => outByteAt_congr hb hm hf a⟩

/-- Writing goes on where it left off. -/
theorem WroteOut.append {s t u : State} {bs cs : List Byte} (h1 : WroteOut s t bs) (hb : t.outBase = s.outBase)
    (hd : t.build = s.build) (h2 : WroteOut t u cs) : WroteOut s u (bs ++ cs) := by
  obtain ⟨p1, r1, o1⟩ := h1
  obtain ⟨p2, r2, o2⟩ := h2
  simp only [byteAddr_congr hd, hb, p1, Nat.add_assoc] at r2 o2
  have hlen : (bs ++ cs).length = bs.length + cs.length := List.length_append
  refine ⟨by omega, ?_, ?_⟩
  · intro k v hk hlast
    by_cases hlt : k < bs.length
    · rw [List.getElem?_append_left hlt] at hk
      rw [o2, r1 k v hk fun j hj hj' => hlast j hj (by omega)]
      exact fun j hj heq => hlast (bs.length + j) (by omega) (by omega) heq.symm
    · rw [List.getElem?_append_right (by omega)] at hk
      have hk' : bs.length + (k - bs.length) = k := by omega
      have h := r2 _ v hk
      rw [hk'] at h
      exact h fun j hj hj' => hlast (bs.length + j) (by omega) (by omega)
  · intro a ha
    rw [o2, o1]
    · exact fun k hk => ha k (by omega)
    · exact fun k hk => ha (bs.length + k) (by omega)

theorem WroteOut.pushOut {s : State} (v : Byte) (h : s.outPtr.toNat < s.outCap.toNat) :
    WroteOut s (pushOut v s) [v] := by
  refine ⟨by rw [outPtr_pushOut_toNat h]; rfl, ?_, ?_⟩
  · intro k x hk _
    cases k with
    | zero =>
      cases hk
      exact (outByteAt_writeOutByte _ _ _ _).trans (if_pos rfl)
    | succ k => simp at hk
  · exact fun a ha => (outByteAt_writeOutByte _ _ _ _).trans (if_neg (ha 0 (by simp)))

theorem pushAll_wrote {bs : List Byte} {s : State} (h : Fits s bs.length) : WroteOut s (pushAll bs s) bs := by
  induction bs generalizing s with
  | nil => exact WroteOut.nil s s rfl rfl rfl rfl
  | cons v bs ih =>
    obtain ⟨hlt, hf⟩ := Fits.of_cons (v := v) h
    exact (WroteOut.pushOut v hlt).append rfl rfl (ih hf)

/-- Bytes that fit land inside the job's region. -/
theorem WroteOut.outside {s t : State} {bs : List Byte} (h : WroteOut s t bs) (hf : Fits s bs.length) {a : Nat}
    (ha : ¬ OutRegion s a) : outByteAt t a = outByteAt s a := by
  refine h.2.2 a fun k hk heq => ha ⟨_, ?_, heq⟩
  simp only [Fits] at hf
  omega

theorem fits_take (bs : List Byte) (s : State) : Fits s (bs.take (s.outCap.toNat - s.outPtr.toNat)).length := by
  simp only [Fits, List.length_take]
  omega

/-- Written bytes keep OUT's canonical form. -/
theorem wf_pushAll {bs : List Byte} {s : State} (h : Memory.wf s.build.addrBits s.outMem) :
    Memory.wf s.build.addrBits (pushAll bs s).outMem := by
  induction bs generalizing s with
  | nil => exact h
  | cons v bs ih => exact ih (s := pushOut v s) (Cells.wf_put v (byteAddr_lt _ _ _) h)

/-- What `outBytes` can do, said once. -/
theorem outBytes_cases (bs : List Byte) (s : State) :
    (Fits s bs.length ∧ ∃ t, outBytes bs s = .ok t ∧ WroteOut s t bs ∧ OnlyOut s t ∧ t.seq = s.seq)
      ∨ (¬ Fits s bs.length ∧ ∃ t, outBytes bs s = .raise .outputOverflow (frameCtx s) t ∧ OnlyOut s t
          ∧ t.seq = s.seq
          ∧ ∀ a, ¬ OutRegion s a → outByteAt t a = outByteAt s a) := by
  by_cases h : Fits s bs.length
  · refine .inl ⟨h, _, outBytes_fits h, pushAll_wrote h, ?_, ?_⟩
    · rw [OnlyOut, pushAll_eq]
    · rw [pushAll_eq]
  · refine .inr ⟨h, _, outBytes_overflow h, ?_, ?_, fun a ha => ?_⟩
    · rw [OnlyOut, pushAll_eq]
    · rw [pushAll_eq]
    · exact (pushAll_wrote (fits_take bs s)).outside (fits_take bs s) ha

/-! ### The abort -/

/-- The abort from a state that differs from s in the packers and OUT's region only. -/
theorem aborted_abort {s u : State} (e : ErrCode) (f : FrameIdx) (hl : u.lzwLast = s.lzwLast)
    (ho : ∀ a, ¬ OutRegion s a → outByteAt u a = outByteAt s a)
    (hi : u.inMem = s.inMem) (hie : u.ie = s.ie)
    (hc : u.width = s.width ∧ u.height = s.height ∧ u.palBase = s.palBase ∧ u.palLen = s.palLen
      ∧ u.frameBase = s.frameBase ∧ u.nframes = s.nframes ∧ u.srcBase = s.srcBase ∧ u.srcLen = s.srcLen
      ∧ u.outBase = s.outBase ∧ u.outCap = s.outCap)
    (hb : u.build = s.build) (hh : u.agenda = s.agenda ∧ u.hostData = s.hostData) :
    Aborted s (abort e f u) e f where
  err := rfl
  errCode := rfl
  errFrame := rfl
  done := rfl
  busy := rfl
  outLen := rfl
  seq := rfl
  lzwLast := hl
  outside := by
    intro a ha
    obtain ⟨_, _, _, _, _, _, _, _, hbase, hcap⟩ := hc
    rw [outByteAt_abort _ _ _ (mt (outRegion_congr hb hbase hcap a).mp ha), ho a ha]
  inMem := hi
  ie := hie
  config := hc
  build := hb
  host := hh

end Sys2Proof.Machine
end

