-- ==== Sys2Proof/Laws/Packer.lean ====
section
/-! SUPPORT. What the sub-block packer, the bit packer and `emit` can do (R76, R83 to R86, R103): the bits are appended to
the flat sequence, its whole bytes go to the sink, and only the packers and OUT change; or an error is raised. -/

namespace Sys2Proof.Machine

/-! ### Bytes out of bits -/

theorem getLsbD_packByte (bl : List Bool) (j i : Nat) (hi : i < 8) :
    (packByte bl j).getLsbD i = bl.getD (8 * j + i) false := by
  unfold packByte
  simp only [show List.range 8 = [0, 1, 2, 3, 4, 5, 6, 7] from rfl, List.foldr_cons, List.foldr_nil]
  have key : ∀ (b : Bool) (n : Nat), n < 8 →
      ((BitVec.ofBool b).setWidth 8 <<< n : BitVec 8).getLsbD i = (decide (i = n) && b) := by
    intro b n hn
    cases b <;> interval_cases n <;> interval_cases i <;> decide
  simp only [BitVec.getLsbD_or, key _ _ (by omega : 0 < 8), key _ _ (by omega : 1 < 8), key _ _ (by omega : 2 < 8),
    key _ _ (by omega : 3 < 8), key _ _ (by omega : 4 < 8), key _ _ (by omega : 5 < 8), key _ _ (by omega : 6 < 8),
    key _ _ (by omega : 7 < 8)]
  interval_cases i <;> simp

theorem byte_ext {x y : Byte} (h : ∀ i < 8, x.getLsbD i = y.getLsbD i) : x = y :=
  BitVec.eq_of_getLsbD_eq fun i hi => h i hi

theorem packByte_congr {bl cl : List Bool} {j k : Nat}
    (h : ∀ i < 8, bl.getD (8 * j + i) false = cl.getD (8 * k + i) false) : packByte bl j = packByte cl k :=
  byte_ext fun i hi => by rw [getLsbD_packByte _ _ _ hi, getLsbD_packByte _ _ _ hi, h i hi]

@[simp] theorem length_wholeBytes (bl : List Bool) : (wholeBytes bl).length = bl.length / 8 := by simp [wholeBytes]

theorem length_leftBits (bl : List Bool) : (leftBits bl).length = bl.length % 8 := by
  simp only [leftBits, List.length_drop]
  omega

theorem wholeBytes_append (x y : List Bool) : wholeBytes (x ++ y) = wholeBytes x ++ wholeBytes (leftBits x ++ y) := by
  have hlen : (x ++ y).length / 8 = x.length / 8 + (leftBits x ++ y).length / 8 := by
    simp only [List.length_append, length_leftBits]
    omega
  unfold wholeBytes
  rw [hlen, List.range_add, List.map_append, List.map_map]
  congr 1
  · apply List.map_congr_left
    intro j hj
    apply packByte_congr
    intro i hi
    have := List.mem_range.mp hj
    rw [List.getD_append _ _ _ _ (by omega)]
  · apply List.map_congr_left
    intro j hj
    show packByte (x ++ y) (x.length / 8 + j) = packByte (leftBits x ++ y) j
    apply packByte_congr
    intro i hi
    have hx : x ++ y = x.take (8 * (x.length / 8)) ++ (leftBits x ++ y) := by
      rw [leftBits, ← List.append_assoc, List.take_append_drop]
    have hl : (x.take (8 * (x.length / 8))).length = 8 * (x.length / 8) := by
      rw [List.length_take]
      omega
    conv_lhs => rw [hx]
    rw [List.getD_append_right _ _ _ _ (by omega), hl]
    congr 1
    omega

theorem leftBits_append (x y : List Bool) : leftBits (x ++ y) = leftBits (leftBits x ++ y) := by
  have h1 : leftBits x ++ y = (x ++ y).drop (8 * (x.length / 8)) := by
    rw [leftBits, List.drop_append_of_le_length (by omega)]
  have h2 : (leftBits x ++ y).length = (x ++ y).length - 8 * (x.length / 8) := by
    rw [h1, List.length_drop]
  unfold leftBits at h1 h2 ⊢
  rw [h2, h1, List.drop_drop]
  congr 1
  simp only [List.length_append]
  omega

@[simp] theorem wholeBytes_short {bl : List Bool} (h : bl.length < 8) : wholeBytes bl = [] := by
  simp [wholeBytes, Nat.div_eq_of_lt h]

@[simp] theorem leftBits_short {bl : List Bool} (h : bl.length < 8) : leftBits bl = bl := by
  simp [leftBits, Nat.div_eq_of_lt h]

/-! ### Chunks out of bytes -/

theorem chunked_append (held x y : List Byte) :
    chunked held (x ++ y) =
      ((chunked held x).1 ++ (chunked (chunked held x).2 y).1, (chunked (chunked held x).2 y).2) := by
  induction x generalizing held with
  | nil => simp [chunked]
  | cons v x ih =>
    simp only [List.cons_append, chunked]
    split
    · simp [ih]
    · exact ih _

theorem sunk_append (k : Sink) (held x y : List Byte) :
    sunk k held (x ++ y) = ((sunk k held x).1 ++ (sunk k (sunk k held x).2 y).1, (sunk k (sunk k held x).2 y).2) := by
  cases k
  · simp [sunk]
  · exact chunked_append held x y

@[simp] theorem sunk_nil (k : Sink) (held : List Byte) : sunk k held [] = ([], held) := by cases k <;> rfl

/-- What the bits of two runs do is what the first run does and then the second. -/
theorem sunkBits_append {s t : State} {x : List Bool} (y : List Bool) (hk : t.sink = s.sink)
    (hc : heldChunk t = (sunkBits s x).2) (hb : heldBits t = leftBits (heldBits s ++ x)) :
    sunkBits s (x ++ y) = ((sunkBits s x).1 ++ (sunkBits t y).1, (sunkBits t y).2) := by
  unfold sunkBits at hc ⊢
  rw [← List.append_assoc, wholeBytes_append, sunk_append, hk, hc, hb]

/-! ### The chunk buffer -/

@[simp] theorem length_chunkBytes (s : State) (n : Nat) : (chunkBytes s n).length = n := by simp [chunkBytes]

@[simp] theorem length_heldChunk (s : State) : (heldChunk s).length = s.chunkLen.toNat := by simp [heldChunk]

theorem chunkBytes_congr {s t : State} (h : t.chunk = s.chunk) (n : Nat) : chunkBytes t n = chunkBytes s n := by
  unfold chunkBytes chunkAt
  rw [h]

theorem heldChunk_congr {s t : State} (h : t.chunk = s.chunk) (hl : t.chunkLen = s.chunkLen) :
    heldChunk t = heldChunk s := by
  unfold heldChunk
  rw [hl, chunkBytes_congr h]

theorem toNat_chunkLen_pushChunk {v : Byte} {s : State} (h : s.chunkLen.toNat ≤ 254) :
    (pushChunk v s).chunkLen.toNat = s.chunkLen.toNat + 1 := by
  simp only [pushChunk_chunkLen]
  bv_omega

/-- A byte that is pushed is held after the others. -/
theorem heldChunk_pushChunk {v : Byte} {s : State} (h : s.chunkLen.toNat ≤ 254) :
    heldChunk (pushChunk v s) = heldChunk s ++ [v] := by
  unfold heldChunk chunkBytes
  rw [toNat_chunkLen_pushChunk h, List.range_succ, List.map_append]
  congr 1
  · apply List.map_congr_left
    intro k hk
    have := List.mem_range.mp hk
    unfold chunkAt
    rw [pushChunk_chunk, Cells.get_put_of_ne _ _ (by omega)]
  · simp [chunkAt]

/-- What `flushChunk` can do: the sub-block leaves with its length byte, or OUTPUT_OVERFLOW. -/
theorem flushChunk_cases (s : State) :
    (Fits s (s.chunkLen.toNat + 1) ∧ ∃ t, flushChunk s = .ok t ∧ WroteOut s t (s.chunkLen :: heldChunk s)
        ∧ t.seq = s.seq ∧ OnlyOut { s with chunkLen := 0 } t)
      ∨ (¬ Fits s (s.chunkLen.toNat + 1) ∧ ∃ t, flushChunk s = .raise .outputOverflow (frameCtx s) t
        ∧ OnlyOut s t ∧ t.seq = s.seq
        ∧ ∀ a, ¬ OutRegion s a → outByteAt t a = outByteAt s a) := by
  have hlen : (s.chunkLen :: chunkBytes s s.chunkLen.toNat).length = s.chunkLen.toNat + 1 := by simp
  unfold flushChunk
  rcases outBytes_cases (s.chunkLen :: chunkBytes s s.chunkLen.toNat) s with ⟨hf, t, ht, hw, ho, hs⟩ | ⟨hf, t, ht, h⟩
  · rw [hlen] at hf
    refine .inl ⟨hf, emptyChunk t, by rw [ht, Flow.ok_andThen], ?_, hs, ?_⟩
    · exact ⟨hw.1, fun k v hk => hw.2.1 k v hk, hw.2.2⟩
    · rw [OnlyOut] at ho ⊢
      rw [ho]
      rfl
  · rw [hlen] at hf
    exact .inr ⟨hf, t, by rw [ht, Flow.raise_andThen], h⟩

/-! ### The bit buffer -/

theorem getLsbD_setBit (b : Bool) (s : State) (i : Nat) (hi : i < 8) :
    (setBit b s).bitBuf.getLsbD i = if i = s.bitCnt.toNat then b else s.bitBuf.getLsbD i := by
  rw [setBit_bitBuf]
  have hc : s.bitCnt.toNat < 8 := s.bitCnt.isLt
  generalize s.bitCnt.toNat = n at hc
  have k1 : (~~~(1#8 <<< n)).getLsbD i = !decide (i = n) := by
    interval_cases n <;> interval_cases i <;> decide
  have k2 : ((BitVec.ofBool b).setWidth 8 <<< n : BitVec 8).getLsbD i = (decide (i = n) && b) := by
    cases b <;> interval_cases n <;> interval_cases i <;> decide
  rw [BitVec.getLsbD_or, BitVec.getLsbD_and, k1, k2]
  by_cases h : i = n <;> simp [h]

@[simp] theorem length_heldBits (s : State) : (heldBits s).length = s.bitCnt.toNat := by simp [heldBits]

theorem getD_heldBits (s : State) (i : Nat) :
    (heldBits s).getD i false = if i < s.bitCnt.toNat then s.bitBuf.getLsbD i else false := by
  unfold heldBits
  rw [List.getD_eq_getElem?_getD, List.getElem?_map]
  by_cases h : i < s.bitCnt.toNat
  · simp [h]
  · simp [h]

/-- A bit that does not fill the byte is held after the others. -/
theorem heldBits_countBit {b : Bool} {s : State} (h : s.bitCnt.toNat < 7) :
    heldBits (countBit (setBit b s)) = heldBits s ++ [b] := by
  have hc : (countBit (setBit b s)).bitCnt.toNat = s.bitCnt.toNat + 1 := by
    simp only [countBit_bitCnt, setBit_bitCnt]
    bv_omega
  unfold heldBits
  rw [hc, List.range_succ, List.map_append]
  simp only [countBit_bitBuf]
  congr 1
  · apply List.map_congr_left
    intro i hi
    have := List.mem_range.mp hi
    rw [getLsbD_setBit b s i (by omega), if_neg (by omega)]
  · rw [List.map_singleton, getLsbD_setBit b s _ (by omega), if_pos rfl]

theorem bitsClean_countBit {b : Bool} {s : State} (h : s.bitCnt.toNat < 7) (hb : BitsClean s) :
    BitsClean (countBit (setBit b s)) := by
  intro i hi hle
  have hc : (countBit (setBit b s)).bitCnt.toNat = s.bitCnt.toNat + 1 := by
    simp only [countBit_bitCnt, setBit_bitCnt]
    bv_omega
  rw [countBit_bitBuf, getLsbD_setBit b s i hi, if_neg (by omega)]
  exact hb i hi (by omega)

/-- The eighth bit makes BITBUF the packed byte. -/
theorem setBit_full {b : Bool} {s : State} (h : s.bitCnt.toNat = 7) :
    wholeBytes (heldBits s ++ [b]) = [(setBit b s).bitBuf] := by
  have hlen : (heldBits s ++ [b]).length = 8 := by simp [h]
  rw [wholeBytes, hlen]
  show [packByte _ 0] = _
  congr 1
  apply byte_ext
  intro i hi
  rw [getLsbD_packByte _ _ _ hi, getLsbD_setBit _ _ _ hi, Nat.mul_zero, Nat.zero_add, h]
  by_cases h7 : i = 7
  · subst h7
    rw [List.getD_append_right _ _ _ _ (by simp [h])]
    simp [h]
  · rw [List.getD_append _ _ _ _ (by simp [h]; omega), getD_heldBits, if_pos (by omega), if_neg h7]

theorem heldBits_clearBits (s : State) : heldBits (clearBits s) = [] := rfl

theorem bitsClean_clearBits (s : State) : BitsClean (clearBits s) := by
  intro i _ _
  simp

/-! ### Frames -/

theorem OnlyPacker.refl (s : State) : OnlyPacker s s := rfl

theorem OnlyPacker.trans {s t u : State} (h1 : OnlyPacker s t) (h2 : OnlyPacker t u) : OnlyPacker s u := by
  unfold OnlyPacker at h1 h2 ⊢
  calc u = _ := h2
    _ = _ := by rw [h1]

theorem OnlyPacker.of_onlyOut {s t : State} (h : OnlyOut s t) : OnlyPacker s t := by
  unfold OnlyOut at h
  unfold OnlyPacker
  rw [h]

/-- The registers a packer leaves alone. -/
theorem OnlyPacker.keeps {s t : State} (h : OnlyPacker s t) :
    t.sink = s.sink ∧ t.outBase = s.outBase ∧ t.outCap = s.outCap ∧ t.job = s.job ∧ t.fi = s.fi
      ∧ t.build = s.build := by
  unfold OnlyPacker at h
  rw [h]
  exact ⟨rfl, rfl, rfl, rfl, rfl, rfl⟩

/-- How a packer raises OUTPUT_OVERFLOW: only packers and OUT's region changed. -/
structure Overflowed (s : State) (x : Flow) (u : State) : Prop where
  raised : x = .raise .outputOverflow (frameCtx s) u
  only : OnlyPacker s u
  seq : u.seq = s.seq
  outside : ∀ a, ¬ OutRegion s a → outByteAt u a = outByteAt s a

/-- The abort that follows an overflow. -/
theorem Overflowed.aborted {s u : State} {x : Flow} (h : Overflowed s x u) :
    Aborted s (abort .outputOverflow (frameCtx s) u) .outputOverflow (frameCtx s) := by
  have ho := h.only
  unfold OnlyPacker at ho
  apply aborted_abort _ _ _ h.outside
  all_goals rw [ho]
  all_goals simp

/-! ### The sink -/

/-- What `sinkByte` can do, said once. -/
theorem sinkByte_cases (v : Byte) (s : State) (hc : s.sink = .sub → s.chunkLen.toNat ≤ 254) :
    (Fits s (sunk s.sink (heldChunk s) [v]).1.length ∧ ∃ t, sinkByte v s = .ok t
        ∧ WroteOut s t (sunk s.sink (heldChunk s) [v]).1 ∧ heldChunk t = (sunk s.sink (heldChunk s) [v]).2
        ∧ (t.sink = .sub → t.chunkLen.toNat ≤ 254) ∧ OnlyPacker s t ∧ t.seq = s.seq
        ∧ t.bitBuf = s.bitBuf ∧ t.bitCnt = s.bitCnt)
      ∨ (¬ Fits s (sunk s.sink (heldChunk s) [v]).1.length ∧ ∃ u, Overflowed s (sinkByte v s) u) := by
  cases hk : s.sink with
  | raw =>
    simp only [sinkByte, hk, sunk, List.length_singleton]
    rcases outByte_cases v s with ⟨hlt, he⟩ | ⟨hge, he⟩
    · refine .inl ⟨.inr hlt, _, he, WroteOut.pushOut v hlt, heldChunk_congr rfl rfl, ?_, rfl, rfl, rfl, rfl⟩
      rw [pushOut_sink, hk]
      exact fun h => nomatch h
    · refine .inr ⟨?_, s, he, rfl, rfl, fun _ _ => rfl⟩
      simp only [Fits]
      omega
  | sub =>
    have hle := hc hk
    have hne : s.chunkLen ≠ 255#8 := by
      intro h
      rw [h] at hle
      exact absurd hle (by decide)
    have hlen := toNat_chunkLen_pushChunk (v := v) hle
    have hheld := heldChunk_pushChunk (v := v) hle
    simp only [sinkByte, hk, chunkByte, if_neg hne, sunk, chunked, length_heldChunk]
    by_cases hfull : s.chunkLen.toNat + 1 = 255
    · have hfull' : (pushChunk v s).chunkLen = 255#8 := BitVec.eq_of_toNat_eq (by rw [hlen, hfull]; rfl)
      have h255 : (pushChunk v s).chunkLen.toNat = 255 := by rw [hlen, hfull]
      rw [if_pos hfull', if_pos hfull]
      have hl : (0xFF#8 :: (heldChunk s ++ [v]) ++ (([], []) : List Byte × List Byte).1).length = 256 := by
        simp [hfull]
      rcases flushChunk_cases (pushChunk v s) with ⟨hf, t, ht, hw, hs, ho⟩ | ⟨hf, t, ht, ho, hs, hout⟩
      · rw [h255] at hf
        refine .inl ⟨by rw [hl]; exact hf, t, ht, ?_, ?_, ?_, ?_, hs, ?_, ?_⟩
        · rw [hfull', hheld] at hw
          rw [List.append_nil]
          exact hw
        · unfold OnlyOut at ho
          rw [ho]
          rfl
        · unfold OnlyOut at ho
          rw [ho]
          intro _
          simp
        · unfold OnlyOut at ho
          unfold OnlyPacker
          rw [ho]
          rfl
        · unfold OnlyOut at ho
          rw [ho]
          rfl
        · unfold OnlyOut at ho
          rw [ho]
          rfl
      · rw [h255] at hf
        refine .inr ⟨by rw [hl]; exact hf, t, ht, ?_, hs, hout⟩
        exact OnlyPacker.trans (t := pushChunk v s) rfl (OnlyPacker.of_onlyOut ho)
    · have hfull' : (pushChunk v s).chunkLen ≠ 255#8 := by
        intro h
        rw [h] at hlen
        exact hfull hlen.symm
      rw [if_neg hfull', if_neg hfull]
      refine .inl ⟨.inl rfl, _, rfl, WroteOut.nil _ _ rfl rfl rfl rfl, hheld, fun _ => ?_, rfl, rfl, rfl, rfl⟩
      rw [hlen]
      omega

/-! ### Bits -/

/-- What one bit does (R84). -/
theorem putBit_cases (b : Bool) (s : State) (hp : PackersReady s) :
    (Fits s (sunkBits s [b]).1.length ∧ ∃ t, putBit b s = .ok t ∧ Appended s t [b] ∧ PackersReady t
        ∧ OnlyPacker s t ∧ t.seq = s.seq)
      ∨ (¬ Fits s (sunkBits s [b]).1.length ∧ ∃ u, Overflowed s (putBit b s) u) := by
  obtain ⟨hb, hc⟩ := hp
  by_cases h7 : s.bitCnt = 7#3
  · have h7' : s.bitCnt.toNat = 7 := by rw [h7]; rfl
    have hwhole := setBit_full (b := b) h7'
    have hchunk : heldChunk (setBit b s) = heldChunk s := heldChunk_congr rfl rfl
    have hsunk : sunk (setBit b s).sink (heldChunk (setBit b s)) [(setBit b s).bitBuf] = sunkBits s [b] := by
      rw [sunkBits, hwhole, hchunk]
      rfl
    simp only [putBit, if_pos h7, sinkBits]
    rcases sinkByte_cases (setBit b s).bitBuf (setBit b s) hc with
      ⟨hf, t, ht, hw, hh, hc', ho, hs, _, _⟩ | ⟨hf, u, hu⟩
    · rw [hsunk] at hf hw hh
      refine .inl ⟨hf, clearBits t, by rw [ht, Flow.ok_andThen], ⟨?_, ?_, ?_, bitsClean_clearBits t⟩,
        ⟨bitsClean_clearBits t, hc'⟩, ?_, hs⟩
      · exact hw
      · rw [← hh]
        exact heldChunk_congr rfl rfl
      · rw [heldBits_clearBits, leftBits, List.drop_eq_nil_of_le]
        simp [h7']
      · exact (OnlyPacker.trans (t := setBit b s) rfl ho).trans (u := clearBits t) rfl
    · rw [hsunk] at hf
      refine .inr ⟨hf, u, ?_⟩
      exact ⟨by rw [hu.raised]; rfl, OnlyPacker.trans (t := setBit b s) rfl hu.only, hu.seq, hu.outside⟩
  · have h7' : s.bitCnt.toNat < 7 := by
      have := s.bitCnt.isLt
      have hne : s.bitCnt.toNat ≠ 7 := fun h => h7 (BitVec.eq_of_toNat_eq h)
      omega
    have hshort : (heldBits s ++ [b]).length < 8 := by simp; omega
    have hsunk : sunkBits s [b] = ([], heldChunk s) := by
      rw [sunkBits, wholeBytes_short hshort, sunk_nil]
    simp only [putBit, if_neg h7]
    refine .inl ⟨by rw [hsunk]; exact .inl rfl, _, rfl, ⟨?_, ?_, ?_, bitsClean_countBit h7' hb⟩,
      ⟨bitsClean_countBit h7' hb, hc⟩, rfl, rfl⟩
    · rw [hsunk]
      exact WroteOut.nil _ _ rfl rfl rfl rfl
    · rw [hsunk]
      exact heldChunk_congr rfl rfl
    · rw [heldBits_countBit h7', leftBits_short hshort]

/-- One run of bits after another. -/
theorem Appended.append {s t u : State} {x y : List Bool} (h1 : Appended s t x) (ho : OnlyPacker s t)
    (h2 : Appended t u y) : Appended s u (x ++ y) := by
  obtain ⟨w1, c1, b1, _⟩ := h1
  obtain ⟨w2, c2, b2, k2⟩ := h2
  obtain ⟨hk, hbase, _, _, _, hbuild⟩ := ho.keeps
  have hsplit := sunkBits_append y hk c1 b1
  refine ⟨?_, ?_, ?_, k2⟩
  · rw [hsplit]
    exact w1.append hbase hbuild w2
  · rw [hsplit]
    exact c2
  · rw [b2, b1, ← leftBits_append, List.append_assoc]

/-- No bit changes nothing. -/
theorem appended_nil {s t : State} (hb : BitsClean s) (h0 : t.build = s.build) (h1 : t.outPtr = s.outPtr) (h2 : t.outMem = s.outMem)
    (h3 : t.outFree = s.outFree) (h4 : t.chunk = s.chunk) (h5 : t.chunkLen = s.chunkLen)
    (h6 : t.bitBuf = s.bitBuf) (h7 : t.bitCnt = s.bitCnt) : Appended s t [] := by
  have hshort : (heldBits s).length < 8 := by
    rw [length_heldBits]
    exact s.bitCnt.isLt
  have hsunk : sunkBits s [] = ([], heldChunk s) := by
    rw [sunkBits, List.append_nil, wholeBytes_short hshort, sunk_nil]
  refine ⟨?_, ?_, ?_, ?_⟩
  · rw [hsunk]
    exact WroteOut.nil _ _ h0 h1 h2 h3
  · rw [hsunk]
    exact heldChunk_congr h4 h5
  · rw [List.append_nil, leftBits_short hshort]
    unfold heldBits
    rw [h6, h7]
  · unfold BitsClean
    rw [h6, h7]
    exact hb

/-- What a run of bits does, said once (R84, R86). -/
theorem putBits_cases (bl : List Bool) (s : State) (hp : PackersReady s) :
    (Fits s (sunkBits s bl).1.length ∧ ∃ t, putBits bl s = .ok t ∧ Appended s t bl ∧ PackersReady t
        ∧ OnlyPacker s t ∧ t.seq = s.seq)
      ∨ (¬ Fits s (sunkBits s bl).1.length ∧ ∃ u, Overflowed s (putBits bl s) u) := by
  induction bl generalizing s with
  | nil =>
    have ha : Appended s s [] := appended_nil hp.1 rfl rfl rfl rfl rfl rfl rfl rfl
    have hshort : (heldBits s).length < 8 := by
      rw [length_heldBits]
      exact s.bitCnt.isLt
    refine .inl ⟨?_, s, rfl, ha, hp, rfl, rfl⟩
    rw [sunkBits, List.append_nil, wholeBytes_short hshort, sunk_nil]
    exact .inl rfl
  | cons b bl ih =>
    rcases putBit_cases b s hp with ⟨hf, t, ht, ha, hp', ho, hs⟩ | ⟨hf, u, hu⟩
    · obtain ⟨hk, hbase, hcap, hjob, hfi, hbuild⟩ := ho.keeps
      have hsplit : sunkBits s (b :: bl) = _ := sunkBits_append (x := [b]) bl hk ha.2.1 ha.2.2.1
      have hlen : (sunkBits s (b :: bl)).1.length = (sunkBits s [b]).1.length + (sunkBits t bl).1.length := by
        rw [hsplit, List.length_append]
      have hptr := ha.1.1
      have hstep : putBits (b :: bl) s = putBits bl t := by rw [putBits, ht, Flow.ok_andThen]
      rcases ih t hp' with ⟨hf2, u, hu, ha2, hp2, ho2, hs2⟩ | ⟨hf2, u, hu⟩
      · refine .inl ⟨?_, u, by rw [hstep, hu], ha.append ho ha2, hp2, ho.trans ho2, hs2.trans hs⟩
        rw [hlen]
        simp only [Fits, hcap, hptr] at hf hf2 ⊢
        omega
      · refine .inr ⟨?_, u, ?_⟩
        · rw [hlen]
          simp only [Fits, hcap, hptr] at hf hf2 ⊢
          omega
        · have hctx : frameCtx t = frameCtx s := by simp only [frameCtx, hjob, hfi, hs]
          refine ⟨by rw [hstep, hu.raised, hctx], ho.trans hu.only, hu.seq.trans hs, fun a ha' => ?_⟩
          rw [hu.outside a (mt (outRegion_congr hbuild hbase hcap a).mp ha'), ha.1.outside hf ha']
    · refine .inr ⟨?_, u, ?_⟩
      · have hle : (sunkBits s [b]).1.length ≤ (sunkBits s (b :: bl)).1.length := by
          have hsplit : wholeBytes (heldBits s ++ b :: bl)
              = wholeBytes (heldBits s ++ [b]) ++ wholeBytes (leftBits (heldBits s ++ [b]) ++ bl) := by
            rw [← wholeBytes_append, List.append_assoc, List.singleton_append]
          unfold sunkBits
          rw [hsplit, sunk_append]
          simp
        simp only [Fits] at hf ⊢
        omega
      · exact ⟨by rw [putBits, hu.raised, Flow.raise_andThen], hu.only, hu.seq, hu.outside⟩

/-! ### emit and pad -/

/-- What `emit` can do with a code that fits its width (R83). -/
theorem emit_cases (c w : Nat) (s : State) (hp : PackersReady s) (hw : w ≤ 12) (hc : c < 2 ^ w) :
    (Fits s (sunkBits s (codeBits c w)).1.length ∧ ∃ t, emit c w s = .ok t ∧ Appended s t (codeBits c w)
        ∧ PackersReady t ∧ OnlyPacker s t ∧ t.seq = s.seq)
      ∨ (¬ Fits s (sunkBits s (codeBits c w)).1.length ∧ ∃ u, Overflowed s (emit c w s) u) := by
  have : emit c w s = putBits (codeBits c w) s := if_pos ⟨hw, hc⟩
  rw [this]
  exact putBits_cases _ s hp

/-- A code that does not fit its width raises CODE_WIDTH_OVERFLOW and nothing is written (R83). -/
theorem emit_wide {c w : Nat} (s : State) (h : w > 12 ∨ 2 ^ w ≤ c) :
    emit c w s = .raise .codeWidthOverflow (frameOrNone s) s := by
  have : ¬ (w ≤ Config.wMax ∧ c < 2 ^ w) := by
    simp only [Config.wMax]
    omega
  exact if_neg this

/-- Zero bits that complete a byte leave the byte as BITBUF holds it. -/
theorem wholeBytes_pad {s : State} (hb : BitsClean s) (h : s.bitCnt.toNat ≠ 0) :
    wholeBytes (heldBits s ++ List.replicate ((8 - s.bitCnt.toNat) % 8) false) = [s.bitBuf] := by
  have hlt := s.bitCnt.isLt
  have hmod : (8 - s.bitCnt.toNat) % 8 = 8 - s.bitCnt.toNat := Nat.mod_eq_of_lt (by omega)
  have hlen : (heldBits s ++ List.replicate ((8 - s.bitCnt.toNat) % 8) false).length = 8 := by
    rw [List.length_append, length_heldBits, List.length_replicate, hmod]
    omega
  rw [wholeBytes, hlen]
  show [packByte _ 0] = _
  congr 1
  apply byte_ext
  intro i hi
  rw [getLsbD_packByte _ _ _ hi, Nat.mul_zero, Nat.zero_add]
  by_cases hin : i < s.bitCnt.toNat
  · rw [List.getD_append _ _ _ _ (by rw [length_heldBits]; exact hin), getD_heldBits, if_pos hin]
  · rw [List.getD_append_right _ _ _ _ (by rw [length_heldBits]; omega), hb i hi (by omega)]
    rw [List.getD_eq_getElem?_getD, List.getElem?_replicate]
    split <;> rfl

/-- What `padBits` can do, said once (R85). -/
theorem padBits_cases (s : State) (hp : PackersReady s) :
    (Fits s (sunkBits s (List.replicate ((8 - s.bitCnt.toNat) % 8) false)).1.length ∧ ∃ t, padBits s = .ok t
        ∧ Appended s t (List.replicate ((8 - s.bitCnt.toNat) % 8) false) ∧ t.bitCnt = 0 ∧ t.bitBuf = 0
        ∧ PackersReady t ∧ OnlyPacker s t ∧ t.seq = s.seq)
      ∨ (¬ Fits s (sunkBits s (List.replicate ((8 - s.bitCnt.toNat) % 8) false)).1.length
        ∧ ∃ u, Overflowed s (padBits s) u) := by
  by_cases h0 : s.bitCnt = 0#3
  · have h0' : s.bitCnt.toNat = 0 := by rw [h0]; rfl
    have hbl : List.replicate ((8 - s.bitCnt.toNat) % 8) false = [] := by rw [h0']; rfl
    have hbuf : s.bitBuf = 0 := by
      apply byte_ext
      intro i hi
      rw [hp.1 i hi (by omega)]
      simp
    have hpad : padBits s = .ok s := if_pos h0
    rw [hbl, hpad]
    refine .inl ⟨?_, s, rfl, appended_nil hp.1 rfl rfl rfl rfl rfl rfl rfl rfl, h0, hbuf, hp, rfl, rfl⟩
    have hshort : (heldBits s).length < 8 := by rw [length_heldBits]; omega
    rw [sunkBits, List.append_nil, wholeBytes_short hshort, sunk_nil]
    exact .inl rfl
  · have h0' : s.bitCnt.toNat ≠ 0 := fun h => h0 (BitVec.eq_of_toNat_eq h)
    have hlt := s.bitCnt.isLt
    have hwhole := wholeBytes_pad hp.1 h0'
    have hsunk : sunk s.sink (heldChunk s) [s.bitBuf]
        = sunkBits s (List.replicate ((8 - s.bitCnt.toNat) % 8) false) := by rw [sunkBits, hwhole]
    have hpad : padBits s = sinkBits s := if_neg h0
    rw [hpad, sinkBits]
    rcases sinkByte_cases s.bitBuf s hp.2 with ⟨hf, t, ht, hw, hh, hc', ho, hs, _, _⟩ | ⟨hf, u, hu⟩
    · rw [hsunk] at hf hw hh
      refine .inl ⟨hf, clearBits t, by rw [ht, Flow.ok_andThen], ⟨hw, ?_, ?_, bitsClean_clearBits t⟩, rfl, rfl,
        ⟨bitsClean_clearBits t, hc'⟩, ho.trans (u := clearBits t) rfl, hs⟩
      · rw [← hh]
        exact heldChunk_congr rfl rfl
      · rw [heldBits_clearBits, leftBits, List.drop_eq_nil_of_le]
        rw [List.length_append, length_heldBits, List.length_replicate, Nat.mod_eq_of_lt (by omega : 8 - s.bitCnt.toNat < 8)]
        omega
    · rw [hsunk] at hf
      exact .inr ⟨hf, u, by rw [hu.raised, Flow.raise_andThen], hu.only, hu.seq, hu.outside⟩

end Sys2Proof.Machine
end

