-- ==== Sys2Proof/Laws/PerInstr.lean ====
section
/-! SUPPORT. A statement about every instruction as syntax: the word the encoder gives a well-formed instruction agrees
with the match and mask of its row of the opcode table (R52, R54, R56). -/

namespace Sys2Proof.Laws.EncodingMatchesTable

/-- The encoded word has the row's fixed bits. -/
def Statement (i : Instr) : Prop :=
  WellFormed i = true → matchesRow (encode i).tableBits (tableRow i).1 (tableRow i).2 = true

theorem nop : Statement .nop := fun _ => by decide
theorem gifEncodeLoop0 : Statement .gifEncodeLoop0 := fun _ => by decide
theorem gifEncodeLoop1 : Statement .gifEncodeLoop1 := fun _ => by decide

theorem lzwEncode (m : BitVec 4) : Statement (.lzwEncode m) := by
  revert m
  unfold Statement
  decide

theorem softReset : Statement .softReset := fun _ => by decide

/-- A write's pattern has D = 1 and OFF[1:0] = 0, whatever its register. -/
theorem busWrite (r : Reg) : matchesRow (busPattern true r).toNat 0x40 0x43 = true := by
  cases r <;> decide

theorem wr (r : Reg) (v : Word) : Statement (.wr r v) := fun _ => busWrite r
theorem rd (r : Reg) : Statement (.rd r) := fun _ => by cases r <;> decide
theorem idle : Statement .idle := fun _ => by decide
theorem lCheckSrc : Statement .lCheckSrc := fun _ => by decide
theorem lInit : Statement .lInit := fun _ => by decide
theorem lEmitClear : Statement .lEmitClear := fun _ => by decide
theorem lStep : Statement .lStep := fun _ => by decide
theorem lFlushAcc : Statement .lFlushAcc := fun _ => by decide
theorem lEmitEnd : Statement .lEmitEnd := fun _ => by decide
theorem lPad : Statement .lPad := fun _ => by decide
theorem gCheckPal : Statement .gCheckPal := fun _ => by decide
theorem gCheckFrame : Statement .gCheckFrame := fun _ => by decide
theorem gSig : Statement .gSig := fun _ => by decide
theorem gLsd : Statement .gLsd := fun _ => by decide
theorem gGct : Statement .gGct := fun _ => by decide
theorem gNetscape : Statement .gNetscape := fun _ => by decide
theorem gGce : Statement .gGce := fun _ => by decide
theorem gIdesc : Statement .gIdesc := fun _ => by decide
theorem gMincode : Statement .gMincode := fun _ => by decide
theorem bTerm : Statement .bTerm := fun _ => by decide
theorem gNextFrame : Statement .gNextFrame := fun _ => by decide
theorem gTrailer : Statement .gTrailer := fun _ => by decide
theorem xFinish : Statement .xFinish := fun _ => by decide

end Sys2Proof.Laws.EncodingMatchesTable
end

