-- ==== Sys2Proof/Laws/Step.lean ====
section
/-! SUPPORT. What one step can be (R117), turn by turn. -/

namespace Sys2Proof.Machine

/-- Without a waiting turn, a step is an engine turn. -/
theorem step_engine {s : State} (h : s.agenda = []) : step s = runEngine s := by
  simp only [step, h]

/-- A waiting turn is taken off the agenda and run. -/
theorem step_turn {s : State} {t : Turn} {rest : List Turn} (h : s.agenda = t :: rest) :
    step s = runTurn t { s with agenda := rest } := by
  simp only [step, h]

/-- An engine turn runs the operation SEQ holds, or faults on a code of no operation. -/
theorem runEngine_cases (s : State) :
    (∃ i, decode (.seq s.seq) = .ok i ∧ runEngine s = exec i s)
      ∨ ((∀ i, decode (.seq s.seq) ≠ .ok i) ∧ runEngine s = .fault .seqUnlisted) := by
  unfold runEngine engineInstr
  cases h : decode (.seq s.seq) with
  | ok i => exact .inl ⟨i, rfl, rfl⟩
  | error e => exact .inr ⟨fun _ => nofun, rfl⟩

/-- A register access is refused, or runs the instruction its pattern stands for, a legal CMD word as that command. -/
theorem runAccess_cases (write : Bool) (offset bytes : Nat) (data : Word) (s : State) :
    runAccess write offset bytes data s = .refused .registerAccess
      ∨ ∃ i, runAccess write offset bytes data s = exec (issued i) s
          ∧ decode (.bus (BitVec.ofBool write ++ BitVec.ofNat 6 offset) (if write then some data else none)) = .ok i := by
  unfold runAccess accessInstr
  cases accessOk offset bytes
  · exact .inl rfl
  · cases h : decode (.bus (BitVec.ofBool write ++ BitVec.ofNat 6 offset) (if write then some data else none)) with
    | ok i => exact .inr ⟨i, rfl, rfl⟩
    | error e => exact .inl rfl

/-- A POLL never stops: it reads, and waits by putting an engine turn and itself on the agenda again. -/
theorem runPoll_eq (r : Reg) (mask value : Word) (s : State) :
    runPoll r mask value s = .next (pollAgain r mask value { s with hostData := regRead s r }) := rfl

/-- A host write of IN is refused, or changes one byte. -/
theorem hostWriteIn_cases (a : Nat) (v : Byte) (s : State) :
    ((s.busy = true ∧ JobReads s (wrapAddr s a)) ∧ hostWriteIn a v s = .refused .hostWritesJobInput)
      ∨ (¬ (s.busy = true ∧ JobReads s (wrapAddr s a))
        ∧ (((s.build.sharedMemory = true ∧ s.busy = true ∧ OutRegion s (wrapAddr s a))
            ∧ hostWriteIn a v s = .refused .hostTouchesJobOutput)
          ∨ (¬ (s.build.sharedMemory = true ∧ s.busy = true ∧ OutRegion s (wrapAddr s a))
            ∧ hostWriteIn a v s = .next (writeInByte (wrapAddr s a) v s)))) := by
  unfold hostWriteIn
  rw [← lockedInput_iff, ← lockedOutput_iff]
  cases lockedInput s (wrapAddr s a) <;> cases s.build.sharedMemory <;> cases lockedOutput s (wrapAddr s a) <;> simp

/-- A host read of IN is refused, or gives the host the byte. -/
theorem hostReadIn_cases (a : Nat) (s : State) :
    ((s.build.sharedMemory = true ∧ s.busy = true ∧ OutRegion s (wrapAddr s a))
        ∧ hostReadIn a s = .refused .hostTouchesJobOutput)
      ∨ (¬ (s.build.sharedMemory = true ∧ s.busy = true ∧ OutRegion s (wrapAddr s a))
        ∧ hostReadIn a s = .next (giveByte (inByte s (wrapAddr s a)) s)) := by
  unfold hostReadIn
  rw [← lockedOutput_iff]
  cases s.build.sharedMemory <;> cases lockedOutput s (wrapAddr s a) <;> simp

/-- A host write of OUT is refused, or changes one byte. -/
theorem hostWriteOut_cases (a : Nat) (v : Byte) (s : State) :
    ((s.busy = true ∧ OutRegion s (wrapAddr s a)) ∧ hostWriteOut a v s = .refused .hostTouchesJobOutput)
      ∨ (¬ (s.busy = true ∧ OutRegion s (wrapAddr s a))
        ∧ (((s.build.sharedMemory = true ∧ s.busy = true ∧ JobReads s (wrapAddr s a))
            ∧ hostWriteOut a v s = .refused .hostWritesJobInput)
          ∨ (¬ (s.build.sharedMemory = true ∧ s.busy = true ∧ JobReads s (wrapAddr s a))
            ∧ hostWriteOut a v s = .next (writeOutByte (wrapAddr s a) v s)))) := by
  unfold hostWriteOut
  rw [← lockedInput_iff, ← lockedOutput_iff]
  cases lockedInput s (wrapAddr s a) <;> cases s.build.sharedMemory <;> cases lockedOutput s (wrapAddr s a) <;> simp

/-- A host read of OUT is refused, or gives the host the byte. -/
theorem hostReadOut_cases (a : Nat) (s : State) :
    ((s.busy = true ∧ OutRegion s (wrapAddr s a)) ∧ hostReadOut a s = .refused .hostTouchesJobOutput)
      ∨ (¬ (s.busy = true ∧ OutRegion s (wrapAddr s a))
        ∧ hostReadOut a s = .next (giveByte (outByteAt s (wrapAddr s a)) s)) := by
  unfold hostReadOut
  rw [← lockedOutput_iff]
  cases lockedOutput s (wrapAddr s a) <;> simp

end Sys2Proof.Machine
end

