-- ==== Sys2Proof/Laws/Table.lean ====
section
/-! SUPPORT. What the lookup of the code table finds, and what an insertion does (R72, R73, R81, R90). -/

namespace Sys2Proof.Machine

/-- A hit names a listed entry of the searched range. -/
theorem lookup_some {s : State} {p c : BitVec 12} {x : Byte} (h : lookup s p x = some c) :
    (c.toNat, ⟨p, x⟩) ∈ s.table ∧ 2 ^ s.mcs.toNat + 2 ≤ c.toNat ∧ c.toNat < s.next.toNat := by
  obtain ⟨d, hd, hc⟩ := Option.map_eq_some_iff.mp h
  have hm := List.mem_of_find?_eq_some hd
  have he := List.find?_some hd
  simp only [entryIs, Bool.and_eq_true, decide_eq_true_eq, beq_iff_eq] at he
  obtain ⟨⟨h1, h2, h3⟩, h4⟩ := he
  have hn : c.toNat = d.1 := by
    rw [← hc, BitVec.toNat_ofNat]
    exact Nat.mod_eq_of_lt (by simpa [Config.tableSize] using h3)
  rw [hn, ← h4]
  exact ⟨hm, h1, h2⟩

/-- A miss: no listed entry of the searched range is the pair. -/
theorem lookup_none {s : State} {p : BitVec 12} {x : Byte} :
    lookup s p x = none ↔
      ∀ d ∈ s.table, 2 ^ s.mcs.toNat + 2 ≤ d.1 → d.1 < s.next.toNat → d.1 < Config.tableSize → d.2 ≠ ⟨p, x⟩ := by
  simp only [lookup, Option.map_eq_none_iff, List.find?_eq_none, entryIs, Bool.and_eq_true, decide_eq_true_eq,
    beq_iff_eq, not_and]
  constructor
  · exact fun h d hd h1 h2 h3 => h d hd ⟨h1, h2, h3⟩
  · exact fun h d hd hk => h d hd hk.1 hk.2.1 hk.2.2

/-- What `grow` can do: nothing at the limit; below it, one entry at NEXT, and W is one more where R72 says so. -/
theorem grow_cases (x : Byte) (s : State) :
    (s.build.codeLimit.toNat ≤ s.next.toNat ∧ grow x s = s)
      ∨ (s.next.toNat < s.build.codeLimit.toNat
        ∧ grow x s = { s with
            table := Cells.put s.table s.next.toNat ⟨s.accCode, x⟩, next := s.next + 1,
            w := if (s.next + 1).toNat > 2 ^ s.w.toNat ∧ s.w.toNat < 12 then s.w + 1 else s.w }) := by
  unfold grow widen
  by_cases h : s.next.toNat < s.build.codeLimit.toNat
  · refine Or.inr ⟨h, ?_⟩
    rw [if_pos h]
    by_cases hw : (s.next + 1).toNat > 2 ^ s.w.toNat ∧ s.w.toNat < 12
    · rw [if_pos (by simpa [insertEntry, Config.wMax] using hw), if_pos hw]
      rfl
    · rw [if_neg (by simpa [insertEntry, Config.wMax] using hw), if_neg hw]
      rfl
  · exact Or.inl ⟨by omega, if_neg h⟩

/-- NEXT counts an insertion without wrapping. -/
theorem toNat_next_succ {s : State} (h : s.next.toNat < s.build.codeLimit.toNat) :
    (s.next + 1).toNat = s.next.toNat + 1 := by
  have : s.build.codeLimit.toNat ≤ 4096 := by cases s.build.codeLimit <;> decide
  rw [BitVec.toNat_add]
  exact Nat.mod_eq_of_lt (by simp; omega)

end Sys2Proof.Machine
end

