-- ==== Sys2Proof/Tests/Slice0.lean ====
section
/-! SUPPORT. The model's own tests: the ill-formed terms that WellFormed refuses, words written out from the spec's
encodings, at most two small tests per instruction with expected values from the spec's examples and vectors, and, for
each statement with hypotheses, a witness that meets them together. -/

namespace Sys2Proof.Tests

open Sys2Proof.Machine

/-! ### Helpers -/

/-- A field of the state an outcome goes on to. -/
def after {α : Type} (o : Host.Outcome State Fault Refusal) (f : State → α) : Option α :=
  match o with
  | .next s => some (f s)
  | .fault _ => none
  | .refused _ => none

/-- The refusal of an outcome. -/
def refusal (o : Host.Outcome State Fault Refusal) : Option Refusal :=
  match o with
  | .refused r => some r
  | .next _ => none
  | .fault _ => none

/-- The fault of an outcome. -/
def faultOf (o : Host.Outcome State Fault Refusal) : Option Fault :=
  match o with
  | .fault r => some r
  | .next _ => none
  | .refused _ => none

/-- The decoder's answer, if it is an instruction. -/
def decoded (e : Encoded) : Option Instr :=
  match decode e with
  | .ok i => some i
  | .error _ => none

/-- The bytes of OUT from OUT_BASE on that are listed. -/
def written (s : State) : List Byte := s.outMem.map fun c => c.2

/-- Bytes of IN at an address. -/
def bytesAt (a : Nat) (bs : List Byte) : List Host.Cell := bs.zipIdx.map fun c => (a + c.2, c.1)

/-- P1's job, LZW_ENCODE m = 2 of four zero symbols (95, P1), idle and with the agenda empty. -/
def lzwIdle : State :=
  { State.reset with
    inMem := bytesAt 0x100 [0, 0, 0, 0]
    srcBase := 0x100#32, srcLen := 4#32, outBase := 0x8000#32, outCap := 0x10#32 }

/-- P1's job at an operation of its pass, with the registers L.INIT gives. -/
def lzwAt (c : BitVec 8) : State :=
  { lzwIdle with
    busy := true, job := 0x02#8, seq := c, mcs := 2, curSrc := 0x100#32, curN := 4
    clearCode := 4, endCode := 5, w := 3, next := 6 }

/-- P1's job before its third L.STEP: TABLE[6] = (0, 0), ACC = 0, PI = 2 (95, P1, row 5). -/
def lzwHit : State :=
  { lzwAt 0x13#8 with
    next := 7, table := [(6, ⟨0, 0⟩)], accValid := true, pi := 2, bitBuf := 0x04, bitCnt := 6 }

/-- P1's job before its fourth L.STEP: ACC = 6, PI = 3 (95, P1, row 6). -/
def lzwMiss : State := { lzwHit with accCode := 6, pi := 3 }

/-- A build whose platform backs IN and OUT with one memory (R146 (f)). -/
def sharedBuild : Build := { Build.default with sharedMemory := true }

/-- P1's job, idle, in one memory, with its OUT region at an address of choice. -/
def sharedIdle (outBase : Word) : State :=
  { lzwIdle with build := sharedBuild, inMem := [], outMem := bytesAt 0x100 [0, 0, 0, 0], outBase := outBase }

/-- P1's job before its fourth L.STEP, in separate memories and in one memory. -/
def missOn (shared : Bool) : State :=
  { lzwMiss with
    build := { Build.default with sharedMemory := shared }, outMem := bytesAt 0x100 [0, 0, 0, 0] }

/-- A GIF_ENCODE job of one 1×1 frame: palette 00 00 00, FF FF FF; pixel 01; delay 10; DIMS_PRESENT, FW = FH = 1. -/
def gifIdle : State :=
  { State.reset with
    inMem := bytesAt 0x10 [0, 0, 0, 0xFF, 0xFF, 0xFF]
      ++ bytesAt 0x20 [0x40, 0, 0, 0, 1, 0, 0, 0, 0x0A, 0, 1, 0, 1, 0, 1, 0] ++ bytesAt 0x40 [1]
    width := 1, height := 1, palBase := 0x10#32, palLen := 2, frameBase := 0x20#32, nframes := 1
    outBase := 0x8000#32, outCap := 0x100#32 }

/-- That job at an operation after G.CHECK_PAL. -/
def gifAt (c : BitVec 8) : State :=
  { gifIdle with busy := true, job := 0x01#8, seq := c, plen := 2, mcs := 2 }

/-- The same with no room in OUT. -/
def fullAt (c : BitVec 8) : State := { gifAt c with outCap := 0 }

/-! ### WellFormed: each check refuses an ill-formed term -/

theorem test_wellFormed_refuses_m_below_2 : WellFormed (.lzwEncode 1) = false ∧ mNotTooSmall 1 = false := by decide
theorem test_wellFormed_refuses_m_above_8 : WellFormed (.lzwEncode 9) = false ∧ mNotTooLarge 9 = false := by decide
theorem test_wellFormed_admits_2_and_8 : WellFormed (.lzwEncode 2) = true ∧ WellFormed (.lzwEncode 8) = true := by decide

/-! ### Decoding: every constructor, from a word written out from the spec's encoding -/

/-- R54's words; LZW_ENCODE with m = 2 is 0x00000202 and with m = 8 it is 0x00000802. -/
theorem test_decode_command_words :
    decoded (.cmd 0b00000000000000000000000000000000#32) = some .nop
    ∧ decoded (.cmd 0b00000000000000000000000000000001#32) = some .gifEncodeLoop0
    ∧ decoded (.cmd 0b00000000000000000001000000000001#32) = some .gifEncodeLoop1
    ∧ decoded (.cmd 0b00000000000000000000001000000010#32) = some (.lzwEncode 2)
    ∧ decoded (.cmd 0b00000000000000000000100000000010#32) = some (.lzwEncode 8)
    ∧ decoded (.cmd 0b00000000000000000000000000001111#32) = some .softReset := by decide

/-- R52: WR is 1oooo00 and RD is 0oooo00, oooo the register number. -/
theorem test_decode_bus_patterns :
    decoded (.bus 0b1000000#7 (some 7)) = some (.wr .cmd 7)
    ∧ decoded (.bus 0b1110000#7 (some 5)) = some (.wr .outCap 5)
    ∧ decoded (.bus 0b0000100#7 none) = some (.rd .status)
    ∧ decoded (.bus 0b0111100#7 none) = some (.rd .params) := by decide

/-- R56's codes. -/
theorem test_decode_seq_codes :
    [0x00, 0x10, 0x11, 0x12, 0x13, 0x14, 0x15, 0x16, 0x20, 0x21, 0x22, 0x23, 0x24, 0x25, 0x26, 0x27, 0x28, 0x29, 0x2A,
      0x2B, 0x30].map (fun c => decoded (.seq (BitVec.ofNat 8 c)))
    = [Instr.idle, .lCheckSrc, .lInit, .lEmitClear, .lStep, .lFlushAcc, .lEmitEnd, .lPad, .gCheckPal, .gCheckFrame,
      .gSig, .gLsd, .gGct, .gNetscape, .gGce, .gIdesc, .gMincode, .bTerm, .gNextFrame, .gTrailer, .xFinish].map some := by
  decide

/-- The illegal words of 95 section 8 are rejected, each by its name. -/
theorem test_decode_rejects_illegal_words :
    decode (.cmd 0x00000003#32) = .error .illegalOpcode ∧ decode (.cmd 0x00000010#32) = .error .illegalOpcode
    ∧ decode (.cmd 0x00000102#32) = .error .illegalM ∧ decode (.cmd 0x00000902#32) = .error .illegalM
    ∧ decode (.cmd 0x00001002#32) = .error .illegalLoop ∧ decode (.cmd 0x00000101#32) = .error .illegalM
    ∧ decode (.cmd 0x00002001#32) = .error .reservedBits ∧ decode (.cmd 0x80000001#32) = .error .reservedBits
    ∧ decode (.cmd 0x0000100F#32) = .error .illegalLoop := ⟨rfl, rfl, rfl, rfl, rfl, rfl, rfl, rfl, rfl⟩

/-- Bad bus words and unlisted codes. -/
theorem test_decode_rejects_bus_and_seq :
    decode (.bus 0b0000101#7 none) = .error .unalignedOffset ∧ decode (.bus 0b1000000#7 none) = .error .missingData
    ∧ decode (.bus 0b0000000#7 (some 1)) = .error .dataOnRead ∧ decode (.seq 0x17#8) = .error .unlistedSeqCode :=
  ⟨rfl, rfl, rfl, rfl⟩

/-- The words as the opcode table numbers them (log 9). -/
theorem test_decodeTableWord :
    decodeTableWord 32 0x00000402 = some (.lzwEncode 4) ∧ decodeTableWord 8 0x13 = some .lStep
    ∧ decodeTableWord 8 0x44 = some (.wr .status 0) ∧ decodeTableWord 8 0x04 = some (.rd .status)
    ∧ decodeTableWord 7 0x00 = some (.rd .cmd) ∧ decodeTableWord 32 0x00000902 = none
    ∧ decodeTableWord 8 0x17 = none := by decide

/-- Laid after reset, the very next step runs the word: LZW_ENCODE starts a job, X.FINISH sets DONE, WR CTRL sets IE. -/
theorem test_withFetchWord :
    after (step (State.reset.withFetchWord 32 0x00000202)) (fun t => t.seq) = some 0x10#8
    ∧ after (step (State.reset.withFetchWord 8 0x30)) (fun t => t.done) = some true
    ∧ after (step (State.reset.withFetchWord 40 0x0000000148)) (fun t => t.ie) = some true
    ∧ after (step (State.reset.withFetchWord 7 0x3C)) (fun t => t.hostData) = some 0x00000007#32 := by decide

/-! ### Commands and register transactions -/

/-- R122's example: DONE stays. -/
theorem test_nop : after (exec .nop { State.reset with done := true }) statusWord = some 0xFFFF0002#32 := by decide

theorem test_gifEncodeLoop0 : after (exec .gifEncodeLoop0 gifIdle)
    (fun t => (statusWord t, t.seq, t.loopL)) = some (0xFFFF0001#32, 0x20#8, false) := by decide

theorem test_gifEncodeLoop1 : after (exec .gifEncodeLoop1 gifIdle)
    (fun t => (statusWord t, t.seq, t.loopL)) = some (0xFFFF0001#32, 0x20#8, true) := by decide

theorem test_lzwEncode : after (exec (.lzwEncode 2) lzwIdle)
    (fun t => (t.seq, t.mcs, t.curSrc, t.curN, t.sink)) = some (0x10#8, 2, 0x100#32, 4, .raw) := by decide

/-- R125's example, during a job. -/
theorem test_softReset : after (exec .softReset (lzwAt 0x13#8))
    (fun t => (statusWord t, t.seq, t.outCap)) = some (0xFFFF0000#32, 0x00#8, 0) := by decide

/-- 95 section 8: each illegal word gives 0xFFFF0504. -/
theorem test_wr_illegal_command :
    [0x00000003, 0x00000102, 0x00000902, 0x00001002, 0x00000101, 0x00002001, 0x80000001, 0x0000100F].map
      (fun v => after (exec (.wr .cmd (BitVec.ofNat 32 v)) State.reset) statusWord)
    = List.replicate 8 (some 0xFFFF0504#32) := by decide

/-- P5: the configuration is locked while a job runs; R118's example: 0x6 to STATUS clears an error. -/
theorem test_wr_config_and_status :
    after (exec (.wr .outCap 5) (lzwAt 0x11#8)) (fun t => t.outCap) = some 0x10#32
    ∧ after (exec (.wr .palLen 0x00012345#32) State.reset) (fun t => t.palLen) = some 0x2345#16
    ∧ after (exec (.wr .status 6) (raiseIllegal State.reset)) statusWord = some 0xFFFF0000#32 := by decide

/-- 95 section 8: PARAMS is 7 by default; it tells the other build too (R28). LZW_LAST reads whole (R27). -/
theorem test_rd :
    after (exec (.rd .params) State.reset) (fun t => t.hostData) = some 0x00000007#32
    ∧ after (exec (.rd .params) { State.reset with 
            build := { Build.default with codeLimit := .l2049, endCodeWidth := .decoderAligned, colorRes := 1 } })
        (fun t => t.hostData) = some 0x00000019#32
    ∧ after (exec (.rd .lzwLast) { State.reset with lzwLast := 0x0010008C#21 }) (fun t => t.hostData)
        = some 0x0010008C#32 := by decide

theorem test_idle : after (exec .idle State.reset) (fun t => t = State.reset) = some True := by
  simp [exec, execIdle, after]

/-- P2's end: OUT_LEN is OUT_PTR, DONE is 1, and the interrupt line is high with IE = 1. -/
theorem test_xFinish : after (exec .xFinish { gifAt 0x30#8 with outPtr := 43, ie := true })
    (fun t => (statusWord t, t.outLen, t.seq, irq t)) = some (0xFFFF0002#32, 43, 0x00#8, true) := by decide

/-! ### The host's other turns -/

theorem test_access_refused :
    [(2, 2), (3, 4), (0x40, 4), (0, 1)].map
      (fun p => refusal (step { State.reset with agenda := [.access false p.1 p.2 0] }))
    = List.replicate 4 (some .registerAccess) := by decide

theorem test_host_touches_job :
    refusal (step { lzwAt 0x13#8 with agenda := [.writeIn 0x103 9] }) = some .hostWritesJobInput
    ∧ after (step { lzwAt 0x13#8 with agenda := [.writeIn 0x104 9] }) (fun t => inByte t 0x104) = some 9
    ∧ refusal (step { lzwAt 0x13#8 with agenda := [.readOut 0x800F] }) = some .hostTouchesJobOutput
    ∧ after (step { lzwAt 0x13#8 with agenda := [.writeOut 0x8010 9] }) (fun t => outByteAt t 0x8010) = some 9 := by
  decide

/-- R9: addresses wrap mod 2^P_ADDR_BITS; with 8 bits, 0x1FF and 0xFF are one byte. -/
theorem test_address_bits :
    byteAddr { State.reset with build := { Build.default with addrBits := 8 } } 0x1FE#32 3 = 0x01
    ∧ after (step { State.reset with build := { Build.default with addrBits := 8 }, agenda := [.writeIn 0x1FF 7] })
        (fun t => (t.inMem, inByte t 0xFF)) = some ([(0xFF, 7)], 7) := by decide

/-- R146 (f): in one memory, LZW_ENCODE is refused where the OUT region reaches the source at 0x100 to 0x103; a written OUT
byte is an IN byte; and L.CHECK_SRC reads the one memory. -/
theorem test_shared_memory :
    [0xF1, 0x103, 0x104, 0xF0].map (fun b => refusal (exec (.lzwEncode 2) (sharedIdle b)))
      = [some .regionsOverlap, some .regionsOverlap, none, none]
    ∧ refusal (exec (.wr .cmd 0x00000202#32) (sharedIdle 0x100)) = some .regionsOverlap
    ∧ refusal (exec (.lzwEncode 2) { lzwIdle with outBase := 0x100 }) = none
    ∧ after (step { sharedIdle 0x8000 with agenda := [.writeOut 0x102 4] }) (fun t => inByte t 0x102) = some 4
    ∧ after (exec .lCheckSrc { acceptLzw 2 (sharedIdle 0x8000) with outMem := bytesAt 0x100 [0, 0, 4, 0] }) statusWord
      = some 0xFFFF0604#32 := by decide

/-- A POLL of BUSY waits while BUSY = 1 and is done when it is 0. -/
theorem test_poll :
    after (step { lzwAt 0x10#8 with agenda := [.poll .status 1 0] }) (fun t => t.agenda)
      = some [.engine, .poll .status 1 0]
    ∧ after (step { State.reset with agenda := [.poll .status 1 0] }) (fun t => t.agenda) = some [] := by decide

theorem test_reset_input : after (step { lzwAt 0x13#8 with agenda := [.resetInput] })
    (fun t => (statusWord t, t.seq)) = some (0xFFFF0000#32, 0x00#8) := by decide

/-! ### The LZW encoder: the trace of P1 (95 section 10) and the examples of R87 to R93 -/

/-- R87's example: source 00 03 04 with m = 2. -/
theorem test_lCheckSrc :
    after (exec .lCheckSrc (lzwAt 0x10#8)) (fun t => t.seq) = some 0x11#8
    ∧ after (exec .lCheckSrc { lzwAt 0x10#8 with inMem := bytesAt 0x100 [0, 3, 4], srcLen := 3 }) statusWord
      = some 0xFFFF0604#32 := by decide

/-- R88's example; an earlier pass is forgotten. -/
theorem test_lInit :
    after (exec .lInit { lzwHit with seq := 0x11#8 }) (fun t => (t.clearCode, t.endCode, t.w, t.next, t.seq))
      = some (4, 5, 3, 6, 0x12#8)
    ∧ after (exec .lInit { lzwHit with seq := 0x11#8 }) (fun t => (t.table, t.accValid, t.pi, t.bitCnt))
      = some ([], false, 0, 0) := by decide

/-- At MCS = 8 the clear code 256 at width 9 fills a byte 00, which leaves (R89). -/
theorem test_lEmitClear :
    after (exec .lEmitClear (lzwAt 0x12#8)) (fun t => (t.bitBuf, t.bitCnt, t.seq)) = some (0x04, 3, 0x13#8)
    ∧ after (exec .lEmitClear { lzwAt 0x12#8 with mcs := 8, clearCode := 256, w := 9 })
        (fun t => (t.bitBuf, t.bitCnt, written t)) = some (0x01, 1, [0x00]) := by decide

/-- P1 row 6: a hit. -/
theorem test_lStep_hit : after (exec .lStep lzwHit) (fun t => (t.accCode, t.pi, t.bitCnt, t.next, t.seq))
    = some (6, 3, 6, 7, 0x13#8) := by decide

/-- P1 row 7: a miss writes 6/3, byte 84 leaves, TABLE[7] = (6, 0), and W stays 3 as 8 > 8 is false. -/
theorem test_lStep_miss :
    after (exec .lStep lzwMiss) (fun t => (t.accCode, t.pi, t.bitBuf, t.bitCnt, t.seq)) = some (0, 4, 0x01, 1, 0x14#8)
    ∧ after (exec .lStep lzwMiss) (fun t => (t.next, t.w, written t)) = some (8, 3, [0x84])
    ∧ after (exec .lStep lzwMiss) (fun t => t.table) = some [(6, ⟨0, 0⟩), (7, ⟨6, 0⟩)] := by decide

/-- P1 row 8. -/
theorem test_lFlushAcc :
    after (exec .lFlushAcc { lzwAt 0x14#8 with accValid := true, bitBuf := 0x01, bitCnt := 1 })
      (fun t => (t.bitBuf, t.bitCnt, t.accValid, t.seq)) = some (0x01, 4, false, 0x15#8) := by decide

/-- P1 row 9; with DECODER_ALIGNED and NEXT = 2^W the end code has one bit more (R92). -/
theorem test_lEmitEnd :
    after (exec .lEmitEnd { lzwAt 0x15#8 with next := 8, bitBuf := 0x01, bitCnt := 4 })
      (fun t => (t.bitBuf, t.bitCnt, t.seq)) = some (0x51, 7, 0x16#8)
    ∧ after (exec .lEmitEnd { lzwAt 0x15#8 with
          next := 8, build := { Build.default with endCodeWidth := .decoderAligned } })
        (fun t => (t.bitBuf, t.bitCnt)) = some (0x05, 4) := by decide

/-- R93's example. -/
theorem test_lPad :
    after (exec .lPad { lzwAt 0x16#8 with next := 8, bitBuf := 0x51, bitCnt := 7 })
      (fun t => (written t, t.lzwLast, t.bitCnt, t.seq)) = some ([0x51], 0x00000823#21, 0, 0x30#8) := by decide

/-- The functions of R77 on vector LZW-6, and on LZW-H1 with each end-code width. -/
theorem test_lzwCodes_vector_6 :
    lzwCodes Build.default [0, 1, 2, 3, 0, 1, 2, 3, 0, 1, 2, 3] 2
      = [(4, 3), (0, 3), (1, 3), (2, 3), (3, 4), (6, 4), (8, 4), (10, 4), (3, 4), (5, 4)] := by decide

theorem test_lzwBytes_vector_H1 :
    lzwBytes Build.default [2, 0, 2, 3, 2, 2, 1, 0, 0, 1, 2] 2 = [0x14, 0x34, 0x22, 0x01, 0x10, 0x52]
    ∧ lzwBytes { Build.default with endCodeWidth := .decoderAligned } [2, 0, 2, 3, 2, 2, 1, 0, 0, 1, 2] 2
      = [0x14, 0x34, 0x22, 0x01, 0x10, 0x52, 0x00] := by decide

/-! ### The GIF writer: the examples of R104 to R115 and the vectors of 95 sections 6 and 7 -/

/-- 95 section 6: PAL_LEN 1, 6, 129; 0 and 257 are INVALID_PALETTE_SIZE. -/
theorem test_gCheckPal :
    [1, 6, 129].map (fun n => after (exec .gCheckPal { gifAt 0x20#8 with palLen := n }) (fun t => (t.plen, t.mcs, t.seq)))
      = [some (2, 2, 0x21#8), some (8, 3, 0x21#8), some (256, 8, 0x21#8)]
    ∧ [0, 257].map (fun n => after (exec .gCheckPal { gifAt 0x20#8 with palLen := n }) statusWord)
      = [some 0xFFFF0104#32, some 0xFFFF0104#32] := by decide

/-- 95 section 9: a length that is not WIDTH·HEIGHT; and a pixel that is not below PAL_LEN. -/
theorem test_gCheckFrame :
    after (exec .gCheckFrame (gifAt 0x21#8)) (fun t => (t.fi, t.seq)) = some (1, 0x22#8)
    ∧ after (exec .gCheckFrame { gifAt 0x21#8 with width := 2 }) statusWord = some 0x00000304#32
    ∧ after (exec .gCheckFrame { gifAt 0x21#8 with palLen := 1 }) statusWord = some 0x00000204#32 := by decide

theorem test_gSig : after (exec .gSig (gifAt 0x22#8)) (fun t => (written t, t.outPtr, t.seq))
    = some ([0x47, 0x49, 0x46, 0x38, 0x39, 0x61], 6, 0x23#8) := by decide

/-- WIDTH 320, HEIGHT 90, PLEN 2. -/
theorem test_gLsd : after (exec .gLsd { gifAt 0x23#8 with width := 320, height := 90 }) (fun t => (written t, t.seq))
    = some ([0x40, 0x01, 0x5A, 0x00, 0xF0, 0x00, 0x00], 0x24#8) := by decide

/-- Three entries of P4's palette pad to four. -/
theorem test_gGct : after (exec .gGct { gifAt 0x24#8 with
      inMem := bytesAt 0x10 [0xFF, 0, 0, 0, 0xFF, 0, 0, 0, 0xFF], palLen := 3, plen := 4 })
    (fun t => (written t, t.seq)) = some ([0xFF, 0, 0, 0, 0xFF, 0, 0, 0, 0xFF, 0, 0, 0], 0x26#8) := by decide

theorem test_gNetscape : after (exec .gNetscape (gifAt 0x25#8)) (fun t => (written t, t.seq))
    = some ([0x21, 0xFF, 0x0B, 0x4E, 0x45, 0x54, 0x53, 0x43, 0x41, 0x50, 0x45, 0x32, 0x2E, 0x30, 0x03, 0x01, 0x00, 0x00,
        0x00], 0x26#8) := by decide

/-- R110's example: delay 10. -/
theorem test_gGce : after (exec .gGce (gifAt 0x26#8)) (fun t => (written t, t.seq))
    = some ([0x21, 0xF9, 0x04, 0x00, 0x0A, 0x00, 0x00, 0x00], 0x27#8) := by decide

/-- R111's example: 2×2. -/
theorem test_gIdesc : after (exec .gIdesc { gifAt 0x27#8 with width := 2, height := 2 }) (fun t => (written t, t.seq))
    = some ([0x2C, 0, 0, 0, 0, 0x02, 0x00, 0x02, 0x00, 0x00], 0x28#8) := by decide

theorem test_gMincode : after (exec .gMincode (gifAt 0x28#8))
    (fun t => (written t, t.curSrc, t.curN, t.sink, t.seq)) = some ([0x02], 0x40#32, 1, .sub, 0x11#8) := by decide

/-- R113's example: CHUNK = [84 51] writes 02 84 51 00. -/
theorem test_bTerm : after (exec .bTerm { gifAt 0x29#8 with chunk := [(0, 0x84), (1, 0x51)], chunkLen := 2 })
    (fun t => (written t, t.chunkLen, t.seq)) = some ([0x02, 0x84, 0x51, 0x00], 0, 0x2A#8) := by decide

/-- R114's example. -/
theorem test_gNextFrame : after (exec .gNextFrame (gifAt 0x2A#8)) (fun t => (t.fi, t.seq)) = some (1, 0x2B#8) := by
  decide

theorem test_gTrailer : after (exec .gTrailer (gifAt 0x2B#8)) (fun t => (written t, t.seq)) = some ([0x3B], 0x30#8) := by
  decide

/-- 95 section 9: OUTPUT_OVERFLOW in the header names no frame, in a frame it names the frame. -/
theorem test_overflow_frames :
    after (exec .gSig (fullAt 0x22#8)) statusWord = some 0xFFFF0704#32
    ∧ after (exec .gGce (fullAt 0x26#8)) statusWord = some 0x00000704#32
    ∧ after (exec .bTerm (fullAt 0x29#8)) statusWord = some 0x00000704#32
    ∧ after (exec .gTrailer (fullAt 0x2B#8)) statusWord = some 0xFFFF0704#32 := by decide

/-! ### Witnesses: encoding and the step -/

theorem witness_DecodeOfEncodeIsIdentity : WellFormed (.lzwEncode 8) = true ∧ WellFormed (.wr .params 0xFFFFFFFF#32) = true := by
  decide

theorem witness_EncodeOfDecodeIsIdentity : decode (.cmd 0x00000802#32) = .ok (.lzwEncode 8) := rfl

/-- M = 2 and M = 8 are legal, M = 1 and M = 9 are not. -/
theorem witness_LegalCommandWords :
    decode (.cmd 0x00000202#32) = .ok (.lzwEncode 2) ∧ decode (.cmd 0x00000802#32) = .ok (.lzwEncode 8)
    ∧ illegalWord 0x00000102#32 = true ∧ illegalWord 0x00000902#32 = true := ⟨rfl, rfl, rfl, rfl⟩

/-- A state whose SEQ holds the unlisted code 0x17, with no turn waiting and with an engine turn first. -/
theorem witness_SeqCodesAreTheOperations :
    (¬ ∃ i, decode (.seq 0x17#8) = .ok i)
    ∧ faultOf (step { State.reset with seq := 0x17#8 }) = some .seqUnlisted
    ∧ faultOf (step { State.reset with seq := 0x17#8, agenda := [.engine] }) = some .seqUnlisted :=
  ⟨fun h => h.elim fun _ h => (nomatch h), rfl, rfl⟩

theorem witness_EngineStepRunsSeqOperation :
    (lzwMiss.agenda = [] ∧ decode (.seq lzwMiss.seq) = .ok .lStep)
    ∧ (({ lzwMiss with agenda := [.engine] } : State).agenda = .engine :: [] ∧ decode (.seq lzwMiss.seq) = .ok .lStep) :=
  ⟨⟨rfl, rfl⟩, rfl, rfl⟩

/-- The write clauses: another register than CMD; an illegal word to CMD; a legal word to CMD. -/
theorem witness_HostAccessRunsTransaction :
    ({ State.reset with agenda := [.access true Reg.params.offset 4 1] } : State).agenda
      = .access true Reg.params.offset 4 1 :: []
    ∧ Reg.params ≠ Reg.cmd ∧ illegalWord 0x00000003#32 = true ∧ decode (.cmd 0x00001001#32) = .ok .gifEncodeLoop1 :=
  ⟨rfl, by decide, rfl, rfl⟩

theorem witness_CmdWriteIsTheCommand : decode (.cmd 0x00000202#32) = .ok (.lzwEncode 2) := rfl

theorem witness_LaidInstructionRunsNext : WellFormed .lStep = true ∧ WellFormed (.wr .cmd 0x00000001#32) = true := by
  decide

/-- Offsets 0x3C and 0x40, 0x02, and a width of 2, on each side of the condition. -/
theorem witness_OtherRegisterAccessRefused :
    after (step { State.reset with agenda := [.access true 0x3C 4 1] }) (fun t => t.seq) = some 0x00#8
    ∧ refusal (step { State.reset with agenda := [.access true 0x40 4 1] }) = some .registerAccess
    ∧ refusal (step { State.reset with agenda := [.access true 0x02 4 1] }) = some .registerAccess
    ∧ refusal (step { State.reset with agenda := [.access true 0x3C 2 1] }) = some .registerAccess := by decide

/-- The last byte of the palette, of the frame table, of a pixel buffer and of a source are the job's; the next byte of
the pixel buffer and of the source is not; an idle block's host may write them all; and a read is never refused in separate
memories. In one memory the OUT region's last byte is refused, and the byte after it is not. -/
theorem witness_HostAccessOfInput :
    [0x15, 0x2F, 0x40].map (fun a => refusal (step { gifAt 0x24#8 with agenda := [.writeIn a 1] }))
        = List.replicate 3 (some .hostWritesJobInput)
    ∧ after (step { gifAt 0x24#8 with agenda := [.writeIn 0x41 1] }) (fun t => inByte t 0x41) = some 1
    ∧ after (step { gifIdle with agenda := [.writeIn 0x15 1] }) (fun t => inByte t 0x15) = some 1
    ∧ refusal (step { lzwAt 0x13#8 with agenda := [.writeIn 0x103 1] }) = some .hostWritesJobInput
    ∧ after (step { gifAt 0x24#8 with agenda := [.readIn 0x2A] }) (fun t => t.hostData) = some 1
    ∧ [0x103, 0x800F].map (fun a => refusal (step { missOn true with agenda := [.writeIn a 1] }))
        = [some .hostWritesJobInput, some .hostTouchesJobOutput]
    ∧ refusal (step { missOn true with agenda := [.readIn 0x800F] }) = some .hostTouchesJobOutput
    ∧ after (step { missOn true with agenda := [.writeIn 0x8010 1] }) (fun t => inByte t 0x8010) = some 1 := by decide

/-- What the hypotheses of that statement say of the addresses. -/
theorem witness_JobReads :
    JobReads (gifAt 0x24#8) 0x15 ∧ JobReads (gifAt 0x24#8) 0x2F ∧ JobReads (gifAt 0x24#8) 0x40
    ∧ JobReads (lzwAt 0x13#8) 0x103 ∧ OutRegion (lzwAt 0x13#8) 0x800F :=
  ⟨.inl ⟨rfl, .inl ⟨5, by decide, by decide⟩⟩, .inl ⟨rfl, .inr (.inl ⟨15, by decide, by decide⟩)⟩,
    .inl ⟨rfl, .inr (.inr ⟨0, by decide, 0, by decide, by decide⟩)⟩, .inr ⟨by decide, 3, by decide, by decide⟩,
    15, by decide, by decide⟩

/-- The region's last byte and the byte after it, read and written; in one memory a byte of the source. -/
theorem witness_HostAccessOfOutput :
    refusal (step { lzwAt 0x13#8 with agenda := [.writeOut 0x800F 1] }) = some .hostTouchesJobOutput
    ∧ refusal (step { lzwAt 0x13#8 with agenda := [.readOut 0x800F] }) = some .hostTouchesJobOutput
    ∧ after (step { lzwAt 0x13#8 with agenda := [.writeOut 0x8010 1] }) (fun t => outByteAt t 0x8010) = some 1
    ∧ after (step { lzwAt 0x13#8 with outMem := [(0x8010, 0xA5)], agenda := [.readOut 0x8010] })
        (fun t => t.hostData) = some 0x000000A5#32
    ∧ refusal (step { missOn true with agenda := [.writeOut 0x103 1] }) = some .hostWritesJobInput
    ∧ after (step { missOn false with agenda := [.writeOut 0x103 1] }) (fun t => outByteAt t 0x103) = some 1 := by decide

theorem witness_ResetValues : ∃ t, exec .softReset lzwMiss = .next t := ⟨_, rfl⟩

theorem witness_SoftResetRestoresReset : ({ lzwMiss with agenda := [.resetInput] } : State).agenda = .resetInput :: [] :=
  rfl

/-! ### Witnesses: commands and registers -/

theorem witness_NopChangesNothing : (0x00000100#32 : Word).toNat % 2 ^ 8 = 0 ∧ (0x00000100#32 : Word) ≠ 0 := by decide

/-- Both clauses: separate memories; one memory whose OUT region holds the last palette byte. -/
theorem witness_GifEncodeStartsJob :
    gifIdle.busy = false ∧ gifIdle.build.sharedMemory = false
    ∧ (let s := { gifIdle with build := sharedBuild, outBase := 0x15 }
      s.busy = false ∧ s.build.sharedMemory = true ∧ OutRegion s 0x15 ∧ GifReads s 0x15) :=
  ⟨rfl, rfl, rfl, rfl, ⟨0, by decide, by decide⟩, .inl ⟨5, by decide, by decide⟩⟩

theorem witness_LzwEncodeStartsJob :
    lzwIdle.busy = false ∧ lzwIdle.build.sharedMemory = false ∧ 2 ≤ (2 : BitVec 4).toNat ∧ (8 : BitVec 4).toNat ≤ 8
    ∧ (sharedIdle 0x103).busy = false ∧ (sharedIdle 0x103).build.sharedMemory = true
    ∧ OutRegion (sharedIdle 0x103) 0x103 ∧ LzwReads (sharedIdle 0x103) 0x103 :=
  ⟨rfl, rfl, by decide, by decide, rfl, rfl, ⟨0, by decide, by decide⟩, 3, by decide, by decide⟩

theorem witness_CommandWordDispatch :
    (lzwMiss.busy = true ∧ (0x0000000F#32 : Word) ≠ 0x00000001#32)
    ∧ (lzwIdle.busy = false ∧ illegalWord 0x0000100F#32 = true) ∧ decode (.cmd 0x0000000F#32) = .ok .softReset :=
  ⟨by decide, by decide, rfl⟩

theorem witness_ConfigWriteStoresField :
    Reg.width ∈ [Reg.width, .height, .palBase, .palLen, .frameBase, .nframes, .srcBase, .srcLen, .outBase, .outCap]
    ∧ Reg.outCap ∈ [Reg.width, .height, .palBase, .palLen, .frameBase, .nframes, .srcBase, .srcLen, .outBase, .outCap]
    ∧ lzwIdle.busy = false ∧ (lzwAt 0x13#8).busy = true := by decide

theorem witness_ReservedBitsReadZero : Reg.palLen ∈ [Reg.width, .height, .palLen, .nframes] ∧ 16 ≤ 16 := by decide

/-- Each event of the statement, from a state where the line is the other way. -/
theorem witness_InterruptFollowsDoneAndErr :
    after (exec .xFinish { gifAt 0x30#8 with ie := true }) irq = some true
    ∧ after (exec (.wr .cmd 0x00000003#32) { State.reset with ie := true }) irq = some true
    ∧ after (exec (.wr .ctrl 0) { State.reset with ie := true, done := true }) irq = some false
    ∧ after (exec (.wr .status 6) { State.reset with ie := true, done := true }) irq = some false
    ∧ after (exec .softReset { State.reset with ie := true, done := true }) irq = some false
    ∧ after (exec .gifEncodeLoop0 { State.reset with ie := true, done := true }) irq = some false
    ∧ after (exec .gifEncodeLoop1 { State.reset with ie := true, err := true }) irq = some false
    ∧ after (exec (.lzwEncode 2) { State.reset with ie := true, done := true }) irq = some false
    ∧ after (exec (.lzwEncode 8) { State.reset with ie := true, err := true }) irq = some false := by decide

/-- A step that leaves IDLE: the write of GIF_ENCODE to CMD. -/
theorem witness_IdleTakesNoStep :
    gifIdle.seq = 0x00#8 ∧ gifIdle.agenda = []
    ∧ after (step { gifIdle with agenda := [.access true 0x00 4 0x00000001#32] }) (fun t => t.seq) = some 0x20#8 := by
  decide

/-! ### Witnesses: the LZW encoder -/

theorem witness_CheckSrcValidatesSource :
    (∀ k < lzwIdle.srcLen.toNat, (inByte lzwIdle (byteAddr lzwIdle lzwIdle.srcBase k)).toNat < 2 ^ (2 : BitVec 4).toNat)
    ∧ ¬ (inByte { lzwIdle with inMem := bytesAt 0x100 [0, 0, 0, 4] } (byteAddr lzwIdle lzwIdle.srcBase 3)).toNat
        < 2 ^ (2 : BitVec 4).toNat := by decide

theorem witness_InitStartsPass : ({ lzwAt 0x11#8 with mcs := 8 } : State).mcs.toNat ≤ 8 := by decide

/-- The clauses: the byte that fills at MCS = 8 fits; does not fit; and a code that does not fit its width. -/
theorem witness_EmitClearWritesClear :
    let s := { lzwAt 0x12#8 with mcs := 8, clearCode := 256, w := 9 }
    let bl := codeBits s.clearCode.toNat s.w.toNat
    PackersReady s ∧ s.seq = 0x12#8 ∧ s.w.toNat ≤ 12 ∧ s.clearCode.toNat < 2 ^ s.w.toNat
    ∧ Fits { s with outCap := 1 } (sunkBits { s with outCap := 1 } bl).1.length
    ∧ ¬ Fits { s with outCap := 0 } (sunkBits { s with outCap := 0 } bl).1.length
    ∧ ¬ s.clearCode.toNat < 2 ^ ({ s with w := 8 } : State).w.toNat := by decide

theorem witness_StepTakesFirstSymbol :
    (inByte (lzwAt 0x13#8) (byteAddr (lzwAt 0x13#8) (lzwAt 0x13#8).curSrc 0)).toNat < 2 ^ (lzwAt 0x13#8).mcs.toNat
    ∧ (lzwAt 0x13#8).pi.toNat + 1 < 2 ^ 32 ∧ (lzwAt 0x13#8).accValid = false := by decide

theorem witness_StepExtendsAccumulator :
    (inByte lzwHit (byteAddr lzwHit lzwHit.curSrc lzwHit.pi.toNat)) = 0 ∧ (0 : Byte).toNat < 2 ^ lzwHit.mcs.toNat
    ∧ lzwHit.pi.toNat + 1 < 2 ^ 32 ∧ lzwHit.accValid = true
    ∧ 2 ^ lzwHit.mcs.toNat + 2 ≤ (6 : BitVec 12).toNat ∧ (6 : BitVec 12).toNat < lzwHit.next.toNat
    ∧ ((6 : BitVec 12).toNat, (⟨lzwHit.accCode, 0⟩ : TableEntry)) ∈ lzwHit.table
    ∧ ∀ d ∈ lzwHit.table, d.1 = (6 : BitVec 12).toNat := by decide

/-- The miss of P1, with room, without, and with a code that does not fit; NEXT below the limit and at it. -/
theorem witness_StepEmitsAndInserts :
    let bl := codeBits lzwMiss.accCode.toNat lzwMiss.w.toNat
    (inByte lzwMiss (byteAddr lzwMiss lzwMiss.curSrc lzwMiss.pi.toNat)) = 0 ∧ (0 : Byte).toNat < 2 ^ lzwMiss.mcs.toNat
    ∧ lzwMiss.pi.toNat + 1 < 2 ^ 32 ∧ lzwMiss.accValid = true
    ∧ (∀ d ∈ lzwMiss.table, d.2 ≠ ⟨lzwMiss.accCode, 0⟩) ∧ PackersReady lzwMiss ∧ lzwMiss.seq = 0x13#8
    ∧ lzwMiss.w.toNat ≤ 12 ∧ lzwMiss.accCode.toNat < 2 ^ lzwMiss.w.toNat
    ∧ Fits lzwMiss (sunkBits lzwMiss bl).1.length
    ∧ ¬ Fits { lzwMiss with outCap := 0 } (sunkBits { lzwMiss with outCap := 0 } bl).1.length
    ∧ ¬ lzwMiss.accCode.toNat < 2 ^ ({ lzwMiss with w := 2 } : State).w.toNat
    ∧ lzwMiss.next.toNat < lzwMiss.build.codeLimit.toNat
    ∧ lzwMiss.build.codeLimit.toNat ≤ ({ lzwMiss with next := 4096 } : State).next.toNat := by decide

theorem witness_FlushAccWritesAccumulator :
    let s := { lzwAt 0x14#8 with accValid := true, accCode := 6, bitBuf := 0x01, bitCnt := 6 }
    let bl := codeBits s.accCode.toNat s.w.toNat
    PackersReady s ∧ s.seq = 0x14#8 ∧ s.accValid = true ∧ s.w.toNat ≤ 12 ∧ s.accCode.toNat < 2 ^ s.w.toNat
    ∧ Fits { s with outCap := 1 } (sunkBits { s with outCap := 1 } bl).1.length
    ∧ ¬ Fits { s with outCap := 0 } (sunkBits { s with outCap := 0 } bl).1.length
    ∧ ¬ s.accCode.toNat < 2 ^ ({ s with w := 2 } : State).w.toNat
    ∧ ({ s with accValid := false } : State).accValid = false := by decide

theorem witness_EmitEndWritesEnd :
    let s := { lzwAt 0x15#8 with next := 8, bitBuf := 0x01, bitCnt := 6 }
    let bl := codeBits s.endCode.toNat 3
    PackersReady s ∧ s.seq = 0x15#8 ∧ s.endCode.toNat < 2 ^ 3 ∧ s.next.toNat = 2 ^ s.w.toNat ∧ s.w.toNat < 12
    ∧ Fits { s with outCap := 1 } (sunkBits { s with outCap := 1 } bl).1.length
    ∧ ¬ Fits { s with outCap := 0 } (sunkBits { s with outCap := 0 } bl).1.length
    ∧ ¬ s.endCode.toNat < 2 ^ ({ s with w := 2 } : State).w.toNat := by decide

/-- BITCNT = 7 needs one byte, BITCNT = 0 none. -/
theorem witness_PadEndsPass :
    let s := { lzwAt 0x16#8 with bitBuf := 0x51, bitCnt := 7 }
    PackersReady s ∧ s.seq = 0x16#8
    ∧ Fits { s with outCap := 1 } (sunkBits { s with outCap := 1 } [false]).1.length
    ∧ ¬ Fits { s with outCap := 0 } (sunkBits { s with outCap := 0 } [false]).1.length
    ∧ Fits (lzwAt 0x16#8) (sunkBits (lzwAt 0x16#8) []).1.length := by decide

theorem witness_ImpossibleStatesFault :
    faultOf (exec .lStep { lzwHit with inMem := bytesAt 0x100 [0, 0, 4, 0] }) = some .symbolOutOfRange
    ∧ faultOf (exec .lInit { lzwAt 0x11#8 with mcs := 9 }) = some .registerOverflow
    ∧ faultOf (exec .lStep { lzwHit with pi := 0xFFFFFFFF#32, curSrc := 0x101#32 }) = some .registerOverflow
    ∧ faultOf (exec .gNextFrame { gifAt 0x2A#8 with fi := 65535 }) = some .registerOverflow
    ∧ faultOf (exec .gCheckFrame { gifAt 0x21#8 with fi := 65535, frameBase := 0x20#32 - 0xFFFF0#32 })
      = some .registerOverflow
    ∧ faultOf (chunkByte 0 { gifAt 0x16#8 with chunkLen := 255 }).close = some .registerOverflow
    ∧ (let s := { gifAt 0x16#8 with sink := .sub, chunkLen := 255, bitCnt := 5, w := 3, clearCode := 4 }
      s.chunkLen.toNat = 255 ∧ s.sink = .sub ∧ 8 ≤ s.bitCnt.toNat + s.w.toNat ∧ s.clearCode.toNat < 2 ^ s.w.toNat
      ∧ s.bitCnt ≠ 0 ∧ faultOf (exec .lEmitClear s) = some .registerOverflow
      ∧ faultOf (exec .lPad s) = some .registerOverflow) := by decide

/-! ### Witnesses: the GIF writer -/

theorem witness_CheckPalNormalisesPalette :
    [1, 256].all (fun n => 1 ≤ n ∧ n ≤ 256)
    ∧ ({ gifAt 0x20#8 with palLen := 256 } : State).palLen.toNat = 256
    ∧ ({ gifAt 0x20#8 with palLen := 0 } : State).palLen.toNat = 0
    ∧ 256 < ({ gifAt 0x20#8 with palLen := 257 } : State).palLen.toNat := by decide

/-- A frame that passes; one of another length; one of other dimensions; one with a pixel that is not below PAL_LEN. -/
theorem witness_CheckFrameValidatesFrame :
    let s := gifAt 0x21#8
    let e := fun (u : State) o =>
      (inByte u ((u.frameBase.toNat + (16 * u.fi.toNat + o)) % 2 ^ u.build.addrBits)).toNat
    let short := { s with inMem := bytesAt 0x20 [0x40, 0, 0, 0, 1, 0, 0, 0, 0x0A, 0, 1, 0, 2, 0, 1, 0] }
    s.fi.toNat < 65535 ∧ e s 0 + e s 1 * 2 ^ 8 + e s 2 * 2 ^ 16 + e s 3 * 2 ^ 24 = 0x40
    ∧ e s 4 + e s 5 * 2 ^ 8 + e s 6 * 2 ^ 16 + e s 7 * 2 ^ 24 = s.width.toNat * s.height.toNat
    ∧ e s 10 % 2 = 1 ∧ e s 12 + e s 13 * 2 ^ 8 = s.width.toNat ∧ e s 14 + e s 15 * 2 ^ 8 = s.height.toNat
    ∧ (inByte s 0x40).toNat < s.palLen.toNat
    ∧ 1 ≠ ({ s with width := 2 } : State).width.toNat * s.height.toNat
    ∧ e short 10 % 2 = 1 ∧ e short 12 + e short 13 * 2 ^ 8 ≠ s.width.toNat
    ∧ ¬ (inByte s 0x40).toNat < ({ s with palLen := 1 } : State).palLen.toNat := by decide

/-- For each writing operation, the bytes fit exactly, and with one byte less they do not. -/
theorem witness_Fits_boundaries :
    [6, 7, 19, 8, 10, 1].all (fun n =>
      decide (Fits { gifAt 0x22#8 with outCap := BitVec.ofNat 32 n } n)
        && !decide (Fits { gifAt 0x22#8 with outCap := BitVec.ofNat 32 (n - 1) } n)) = true := by decide

theorem witness_SigWritesSignature : (gifAt 0x22#8).seq = 0x22#8 ∧ Fits (gifAt 0x22#8) 6 ∧ ¬ Fits (fullAt 0x22#8) 6 := by
  decide

theorem witness_LsdWritesScreenDescriptor :
    (gifAt 0x23#8).seq = 0x23#8 ∧ (gifAt 0x23#8).plen.toNat = 2 ^ 1
    ∧ ({ gifAt 0x23#8 with plen := 256 } : State).plen.toNat = 2 ^ 8
    ∧ Fits (gifAt 0x23#8) 7 ∧ ¬ Fits (fullAt 0x23#8) 7 := by decide

theorem witness_GctWritesColorTable :
    (gifAt 0x24#8).seq = 0x24#8 ∧ Fits (gifAt 0x24#8) (3 * (gifAt 0x24#8).plen.toNat)
    ∧ ¬ Fits (fullAt 0x24#8) (3 * (fullAt 0x24#8).plen.toNat) := by decide

theorem witness_NetscapeWritesLoopBlock :
    (gifAt 0x25#8).seq = 0x25#8 ∧ Fits (gifAt 0x25#8) 19 ∧ ¬ Fits (fullAt 0x25#8) 19 := by decide

theorem witness_GceWritesControlExtension :
    (gifAt 0x26#8).seq = 0x26#8 ∧ (gifAt 0x26#8).job = 0x01#8 ∧ Fits (gifAt 0x26#8) 8 ∧ ¬ Fits (fullAt 0x26#8) 8 := by
  decide

theorem witness_IdescWritesImageDescriptor :
    (gifAt 0x27#8).seq = 0x27#8 ∧ (gifAt 0x27#8).job = 0x01#8 ∧ Fits (gifAt 0x27#8) 10 ∧ ¬ Fits (fullAt 0x27#8) 10 := by
  decide

theorem witness_MincodeStartsImageData :
    (gifAt 0x28#8).seq = 0x28#8 ∧ (gifAt 0x28#8).job = 0x01#8 ∧ Fits (gifAt 0x28#8) 1 ∧ ¬ Fits (fullAt 0x28#8) 1 := by
  decide

/-- An empty sub-block and one of two bytes. -/
theorem witness_TermEndsSubBlocks :
    (gifAt 0x29#8).seq = 0x29#8 ∧ (gifAt 0x29#8).job = 0x01#8 ∧ (gifAt 0x29#8).chunkLen = 0
    ∧ Fits (gifAt 0x29#8) 1 ∧ ¬ Fits (fullAt 0x29#8) 1
    ∧ (heldChunk { gifAt 0x29#8 with chunk := [(0, 0x84), (1, 0x51)], chunkLen := 2 }) = [0x84, 0x51]
    ∧ Fits (gifAt 0x29#8) 4 ∧ ¬ Fits { gifAt 0x29#8 with outCap := 3 } 4 := by decide

theorem witness_NextFrameAdvances : ({ gifAt 0x2A#8 with fi := 65534 } : State).fi.toNat < 65535 := by decide

theorem witness_TrailerWritesLastByte :
    (gifAt 0x2B#8).seq = 0x2B#8 ∧ Fits (gifAt 0x2B#8) 1 ∧ ¬ Fits (fullAt 0x2B#8) 1 := by decide

/-! ### Witnesses: whole-machine rules -/

/-- Its table lists one code. -/
theorem missOn_get {b : Bool} {c : Nat} {e : TableEntry} (h : Cells.get (missOn b).table c = some e) : c = 6 ∧ e = ⟨0, 0⟩ := by
  by_cases h6 : c = 6
  · subst h6
    exact ⟨rfl, (Option.some.inj h).symm⟩
  · change (if 6 = c then some (⟨0, 0⟩ : TableEntry) else none) = some e at h
    rw [if_neg (Ne.symm h6)] at h
    exact absurd h (by simp)

theorem missOn_table (b : Bool) : TableInv (missOn b) where
  filled := fun c => by
    show (if 6 = c then some (⟨0, 0⟩ : TableEntry) else none).isSome = true ↔ 6 ≤ c ∧ c < 7
    split
    · next h => simp; omega
    · next h => simp; omega
  entry := fun c e h => by
    obtain ⟨rfl, rfl⟩ := missOn_get h
    exact ⟨Or.inl (by revert b; decide), by decide, by revert b; decide⟩
  distinct := fun _ _ _ hc hd => (missOn_get hc).1.trans (missOn_get hd).1.symm

/-- A state in the middle of a pass, P1's before its fourth L.STEP, meets the invariant, in one memory too. -/
theorem missOn_inv (b : Bool) : Inv (missOn b) where
  canonical := by constructor <;> revert b <;> decide
  status := by constructor <;> revert b <;> decide
  job := fun _ =>
    { jobIs := by revert b; decide
      outLow := by revert b; decide
      gif := fun h => absurd h (by revert b; decide)
      lzw := fun _ => by constructor <;> revert b <;> decide
      source := fun _ => by constructor <;> revert b <;> decide
      pass := fun _ =>
        { clearIs := by revert b; decide
          endIs := by revert b; decide
          wLow := by revert b; decide
          wHigh := by revert b; decide
          nextLow := by revert b; decide
          nextHigh := by revert b; decide
          nextLimit := by revert b; decide
          wFull := by revert b; decide
          table := missOn_table b
          accSequence := fun _ => Or.inr (by revert b; decide)
          accStarted := by revert b; decide
          piLe := by revert b; decide
          piLt := by revert b; decide
          piStart := by revert b; decide
          bits := by revert b; decide }
      disjoint := by
        rintro _ _ ⟨k, hk, rfl⟩ (⟨h, _⟩ | ⟨_, j, hj, h⟩)
        · exact absurd h ((by decide : ∀ c, (missOn c).job ≠ 0x01#8) b)
        · change k < 16 at hk
          change j < 4 at hj
          change (0x8000 + k) % 2 ^ 32 = (0x100 + j) % 2 ^ 32 at h
          omega }

/-- It is a witness for the statements over Inv: the step goes on. -/
theorem witness_StepKeepsInvariant : Inv (missOn true) ∧ ∃ t, step (missOn true) = .next t := ⟨missOn_inv _, _, rfl⟩

theorem witness_InvariantStepNeverFaults : Inv (missOn false) := missOn_inv _

theorem witness_CodeWidthNeverDecreases :
    Inv (missOn false) ∧ inPass (missOn false).seq = true
    ∧ after (step (missOn false)) (fun t => inPass t.seq) = some true :=
  ⟨missOn_inv _, by decide, by decide⟩

theorem witness_ParamsNeverChange : ∃ t, step lzwMiss = .next t := ⟨_, rfl⟩

theorem witness_ConfigStableDuringJob :
    lzwMiss.busy = true ∧ after (step lzwMiss) (fun t => t.busy) = some true
    ∧ Reg.srcLen ∈ [Reg.width, .height, .palBase, .palLen, .frameBase, .nframes, .srcBase, .srcLen, .outBase, .outCap] := by
  decide

/-- In separate memories and in one memory, where the step writes byte 84 into the region. -/
theorem witness_JobInputStable (b : Bool) :
    Inv (missOn b) ∧ (missOn b).busy = true ∧ after (step (missOn b)) (fun t => (t.busy, outByteAt t 0x8000)) = some (true, 0x84)
    ∧ JobReads (missOn b) 0x103 :=
  ⟨missOn_inv b, by revert b; decide, by revert b; decide, .inr ⟨by revert b; decide, 3, by revert b; decide, by revert b; decide⟩⟩

/-- The address just above the region. -/
theorem witness_JobWritesOnlyItsRegion :
    lzwMiss.agenda = [] ∧ (∃ t, step lzwMiss = .next t) ∧ ¬ OutRegion lzwMiss 0x8010 := by
  refine ⟨rfl, ⟨_, rfl⟩, ?_⟩
  rintro ⟨k, hk, h⟩
  change k < 16 at hk
  change 0x8010 = (0x8000 + k) % 2 ^ 32 at h
  omega

/-- The animation of S5 (a), and its 39 + 4 bytes: 14 + 6 + 19 + 1 + 1 + 1 + 1. -/
theorem witness_GifStreamLength :
    let a : Animation := ⟨[⟨0, 0, 0⟩, ⟨0, 0, 0⟩], 0, 5, false, [⟨[], 0⟩]⟩
    1 ≤ a.palette.length ∧ a.palette.length ≤ 256
    ∧ gifStream Build.default a =
      [0x47, 0x49, 0x46, 0x38, 0x39, 0x61, 0, 0, 5, 0, 0xF0, 0, 0, 0, 0, 0, 0, 0, 0, 0x21, 0xF9, 4, 0, 0, 0, 0, 0,
        0x2C, 0, 0, 0, 0, 0, 0, 5, 0, 0, 2, 1, 0x2C, 0, 0x3B] := by decide

/-- P1's job: the source is below 2^2, and its two bytes fit. -/
theorem witness_LzwJobWritesLzwBytes :
    lzwIdle.busy = false ∧ lzwIdle.agenda = [] ∧ exec (.lzwEncode 2) lzwIdle = .next (acceptLzw 2 lzwIdle)
    ∧ lzwValid (acceptLzw 2 lzwIdle) 2
    ∧ (lzwBytes lzwIdle.build (sourceOf (acceptLzw 2 lzwIdle)) 2).length ≤ lzwIdle.outCap.toNat
    ∧ (lzwBytes lzwIdle.build (sourceOf (acceptLzw 2 lzwIdle)) 2).length ≤ 2 ^ lzwIdle.build.addrBits :=
  ⟨rfl, rfl, rfl, by unfold lzwValid; decide, by decide, by decide⟩

theorem witness_GifJobWritesGifStream :
    gifIdle.busy = false ∧ gifIdle.agenda = [] ∧ exec .gifEncodeLoop1 gifIdle = .next (acceptGif true gifIdle)
    ∧ gifValid (acceptGif true gifIdle)
    ∧ (gifStream gifIdle.build (animationOf (acceptGif true gifIdle) true)).length ≤ gifIdle.outCap.toNat
    ∧ (gifStream gifIdle.build (animationOf (acceptGif true gifIdle) true)).length ≤ 2 ^ gifIdle.build.addrBits :=
  ⟨rfl, rfl, rfl, by unfold gifValid; decide, by decide, by decide⟩

/-- R58: code 4 at width 3 is the bits 0, 0, 1. Bit 8 of nine bits is bit 0 of byte 1. -/
theorem witness_PackPlacesBits :
    codeBits 4 3 = [false, false, true] ∧ pack [false, false, false, false, false, false, false, false, true] = [0x00, 0x01] ∧ 15 < 8 * 2 := by decide

end Sys2Proof.Tests
end

section
/-! PROOFS. The states outside every job in which an operation faults (R10, R90; log 11): what a full sub-block buffer does to
the packers that send it a byte, and the operations' own assertions. -/

namespace Sys2Proof.Machine

/-! ### A full sub-block buffer (R10, R103) -/

theorem chunkByte_full {s : State} (h : s.chunkLen.toNat = 255) (v : Byte) :
    chunkByte v s = .fault .registerOverflow :=
  if_pos (BitVec.eq_of_toNat_eq h)

/-- The byte in BITBUF cannot leave. -/
theorem sinkBits_full {s : State} (h : s.chunkLen.toNat = 255) (hk : s.sink = .sub) :
    sinkBits s = .fault .registerOverflow := by
  simp only [sinkBits, sinkByte, hk, chunkByte_full h, Flow.fault_andThen]

/-- A run of bits faults at the one that completes the byte in BITBUF. -/
theorem putBits_full {bl : List Bool} {s : State} (h : s.chunkLen.toNat = 255) (hk : s.sink = .sub)
    (hn : 8 ≤ s.bitCnt.toNat + bl.length) : putBits bl s = .fault .registerOverflow := by
  induction bl generalizing s with
  | nil =>
    have := s.bitCnt.isLt
    simp only [List.length_nil] at hn
    omega
  | cons b bl ih =>
    by_cases h7 : s.bitCnt = 7#3
    · rw [putBits, putBit, if_pos h7, sinkBits_full (s := setBit b s) h hk, Flow.fault_andThen]
    · rw [putBits, putBit, if_neg h7, Flow.ok_andThen]
      refine ih (s := countBit (setBit b s)) h hk ?_
      simp only [countBit_bitCnt, setBit_bitCnt, List.length_cons] at hn ⊢
      bv_omega

theorem length_codeBits (c w : Nat) : (codeBits c w).length = w := by simp [codeBits]

theorem emit_full {s : State} {c w : Nat} (h : s.chunkLen.toNat = 255) (hk : s.sink = .sub) (hw : w ≤ 12)
    (hc : c < 2 ^ w) (hn : 8 ≤ s.bitCnt.toNat + w) : emit c w s = .fault .registerOverflow := by
  rw [emit, if_pos ⟨hw, hc⟩]
  exact putBits_full h hk (by rwa [length_codeBits])

theorem padBits_full {s : State} (h : s.chunkLen.toNat = 255) (hk : s.sink = .sub) (hn : s.bitCnt ≠ 0) :
    padBits s = .fault .registerOverflow :=
  (if_neg hn).trans (sinkBits_full h hk)

/-! ### The operations that assert (R88, R90, R105, R114) -/

theorem execLInit_overflow {s : State} (h : 8 < s.mcs.toNat) : execLInit s = .fault .registerOverflow :=
  if_neg (Nat.not_le.mpr h)

theorem execLStep_symbolOutOfRange {s : State}
    (h : 2 ^ s.mcs.toNat ≤ (inByte s (byteAddr s s.curSrc s.pi.toNat)).toNat) :
    execLStep s = .fault .symbolOutOfRange :=
  if_neg (Nat.not_lt.mpr h)

theorem execLStep_overflow {s : State} (hx : (inByte s (byteAddr s s.curSrc s.pi.toNat)).toNat < 2 ^ s.mcs.toNat)
    (hp : s.pi.toNat + 1 = 2 ^ 32) : execLStep s = .fault .registerOverflow := by
  have hpi : s.pi = 0xFFFFFFFF#32 := BitVec.eq_of_toNat_eq (Nat.succ.inj hp)
  rw [execLStep, if_pos hx, if_pos hpi]

theorem execGNextFrame_overflow {s : State} (h : s.fi.toNat = 65535) : execGNextFrame s = .fault .registerOverflow :=
  if_pos (BitVec.eq_of_toNat_eq h)

/-- The frame's own checks come before FI's. -/
theorem execGCheckFrame_overflow {s : State} (h : s.fi.toNat = 65535) (hf : frameOk s 65535) :
    execGCheckFrame s = .fault .registerOverflow := by
  have hfi : s.fi = 0xFFFF#16 := BitVec.eq_of_toNat_eq h
  obtain ⟨hdims, hpixels⟩ := hf
  simp only [execGCheckFrame, hfi, hdims, hpixels, Bool.true_eq_false, if_false, if_true]

/-! ### The obligation -/

/-- Settles O36: each clause is its operation's fault, and a full sub-block buffer stops whatever completes a byte. -/
theorem impossibleStatesFault : Obligations.ImpossibleStatesFault := by
  intro s
  refine ⟨execLStep_symbolOutOfRange, execLInit_overflow, execLStep_overflow, execGNextFrame_overflow,
    execGCheckFrame_overflow, chunkByte_full, fun hlen hk => ⟨fun _ _ => emit_full hlen hk, ?_, ?_⟩⟩
  · intro hw hc hn
    simp only [exec, execLEmitClear, emit_full hlen hk hw hc hn, Flow.fault_andThen, Flow.close_fault]
  · intro hn
    simp only [exec, execLPad, padBits_full hlen hk hn, Flow.fault_andThen, Flow.close_fault]

end Sys2Proof.Machine
end

section
/-! PROOFS. No step from a state of the invariant faults (R10, R56, R82, R90). The host's turns never fault. An engine turn
runs a listed operation, and the invariant excludes the state in which that operation would fault. -/

namespace Sys2Proof.Machine

/-! ### Outcomes without a fault -/

/-- The step goes on or is refused. -/
def NoFault (o : Host.Outcome State Fault Refusal) : Prop := ∀ f, o ≠ .fault f

@[simp] theorem noFault_next (s : State) : NoFault (.next s) := fun _ => nofun
@[simp] theorem noFault_refused (r : Refusal) : NoFault (.refused r) := fun _ => nofun

theorem NoFault.ite {c : Prop} [Decidable c] {o p : Host.Outcome State Fault Refusal} (ho : NoFault o)
    (hp : NoFault p) : NoFault (if c then o else p) := by
  split
  · exact ho
  · exact hp

/-- The procedure goes on or raises an error. -/
def Flow.NoFault (x : Flow) : Prop := ∀ f, x ≠ .fault f

@[simp] theorem Flow.noFault_ok (s : State) : (Flow.ok s).NoFault := fun _ => nofun
@[simp] theorem Flow.noFault_raise (e : ErrCode) (n : FrameIdx) (s : State) : (Flow.raise e n s).NoFault :=
  fun _ => nofun

theorem Flow.NoFault.andThen {x : Flow} {f : State → Flow} (hx : x.NoFault) (hf : ∀ t, (f t).NoFault) :
    (x.andThen f).NoFault := by
  cases x with
  | ok t => exact hf t
  | raise e n t => exact noFault_raise e n t
  | fault r => exact absurd rfl (hx r)

/-- The shape of an operation: a procedure, then an update of the state. -/
theorem Flow.NoFault.close {x : Flow} (hx : x.NoFault) (g : State → State) :
    Machine.NoFault (x.andThen fun t => .ok (g t)).close := by
  cases x with
  | ok t => exact noFault_next _
  | raise e n t => exact noFault_next _
  | fault r => exact absurd rfl (hx r)

/-! ### Procedures -/

theorem outByte_noFault (v : Byte) (s : State) : (outByte v s).NoFault := by
  rcases outByte_cases v s with ⟨-, h⟩ | ⟨-, h⟩ <;> simp [h]

theorem outBytes_noFault (bs : List Byte) (s : State) : (outBytes bs s).NoFault := by
  rcases outBytes_cases bs s with ⟨-, t, h, -⟩ | ⟨-, t, h, -⟩ <;> simp [h]

theorem flushChunk_noFault (s : State) : (flushChunk s).NoFault :=
  (outBytes_noFault _ s).andThen fun _ => Flow.noFault_ok _

theorem Overflowed.noFault {s u : State} {x : Flow} (h : Overflowed s x u) : x.NoFault := by
  simp [h.raised]

/-- Packers in order take any code: one that does not fit its width raises CODE_WIDTH_OVERFLOW. -/
theorem emit_noFault {s : State} (hp : PackersReady s) (c w : Nat) : (emit c w s).NoFault := by
  by_cases hfit : w ≤ 12 ∧ c < 2 ^ w
  · rcases emit_cases c w s hp hfit.1 hfit.2 with ⟨-, t, h, -⟩ | ⟨-, u, h⟩
    · simp [h]
    · exact h.noFault
  · simp [emit_wide s (c := c) (w := w) (by omega)]

theorem padBits_noFault {s : State} (hp : PackersReady s) : (padBits s).NoFault := by
  rcases padBits_cases s hp with ⟨-, t, h, -⟩ | ⟨-, u, h⟩
  · simp [h]
  · exact h.noFault

theorem consume_noFault {s : State} (hp : PackersReady s) (x : Byte) : (consume x s).NoFault := by
  unfold consume
  split
  · split
    · exact Flow.noFault_ok _
    · exact (emit_noFault hp _ _).andThen fun _ => Flow.noFault_ok _
  · exact Flow.noFault_ok _

theorem flushAcc_noFault {s : State} (hp : PackersReady s) : (flushAcc s).NoFault := by
  unfold flushAcc
  split
  · exact (emit_noFault hp _ _).andThen fun _ => Flow.noFault_ok _
  · exact Flow.noFault_ok _

/-! ### Operations that fault outside the invariant only -/

theorem execLInit_noFault {s : State} (h : s.mcs.toNat ≤ Config.mMax) : NoFault (execLInit s) := by
  simp [execLInit, h]

theorem execLStep_noFault {s : State} (hp : PackersReady s)
    (hx : (inByte s (byteAddr s s.curSrc s.pi.toNat)).toNat < 2 ^ s.mcs.toNat) (hpi : s.pi ≠ 0xFFFFFFFF#32) :
    NoFault (execLStep s) := by
  rw [execLStep, if_pos hx, if_neg hpi]
  exact (consume_noFault (s := { s with pi := s.pi + 1 }) hp _).close _

theorem execGCheckFrame_noFault {s : State} (h : s.fi ≠ 0xFFFF#16) : NoFault (execGCheckFrame s) := by
  rw [execGCheckFrame, if_neg h]
  exact (noFault_next _).ite ((noFault_next _).ite (noFault_next _))

theorem execGNextFrame_noFault {s : State} (h : s.fi ≠ 0xFFFF#16) : NoFault (execGNextFrame s) := by
  simp [execGNextFrame, h]

theorem execGCheckPal_noFault (s : State) : NoFault (execGCheckPal s) := (noFault_next _).ite (noFault_next _)

theorem execLCheckSrc_noFault (s : State) : NoFault (execLCheckSrc s) := (noFault_next _).ite (noFault_next _)

theorem execBTerm_noFault (s : State) : NoFault (execBTerm s) := by
  refine Flow.NoFault.close (Flow.NoFault.andThen ?_ (outByte_noFault _)) _
  split
  · exact Flow.noFault_ok s
  · exact flushChunk_noFault s

/-! ### What the invariant says where SEQ stands -/

theorem Inv.running {s : State} (h : Inv s) (hc : s.seq ≠ SeqCode.idle) : JobInv s := h.job (h.status.busyIff.mpr hc)

/-- An operation that no LZW_ENCODE job runs belongs to a GIF_ENCODE job. -/
theorem JobInv.gif_of_seq {s : State} (h : JobInv s) (hc : inLzwJob s.seq = false) : GifInv s :=
  h.jobIs.elim h.gif fun hl => absurd (h.lzw hl).seqIn (by rw [hc]; decide)

theorem JobInv.packersReady {s : State} (h : JobInv s) (hc : inPass s.seq = true) : PackersReady s := by
  refine ⟨(h.pass hc).bits, fun hsub => ?_⟩
  rcases h.jobIs with hj | hj
  · exact (h.gif hj).chunkLow (.inl (by simp [inLzw, hc]))
  · obtain ⟨-, -, hraw⟩ := (h.lzw hj).source
    exact absurd (hraw.symm.trans hsub) nofun

theorem Inv.packersReady {s : State} (h : Inv s) (hc : inPass s.seq = true) : PackersReady s := by
  refine (h.running fun hidle => ?_).packersReady hc
  rw [hidle] at hc
  exact absurd hc (by decide)

/-- A frame index below NFRAMES is not the last 16-bit number. -/
theorem fi_ne_last {s : State} (h : s.fi.toNat < s.nframes.toNat) : s.fi ≠ 0xFFFF#16 := by
  bv_omega

/-- At L.STEP the symbol is below 2^MCS, and PI has a successor (R90). -/
theorem JobInv.symbol_lt {s : State} (h : JobInv s) (hc : s.seq = SeqCode.lStep) :
    (inByte s (byteAddr s s.curSrc s.pi.toNat)).toNat < 2 ^ s.mcs.toNat ∧ s.pi ≠ 0xFFFFFFFF#32 := by
  have hlt := (h.pass (by rw [hc]; decide)).piLt hc
  refine ⟨(h.source (by rw [hc]; decide)).symbols _ hlt, ?_⟩
  bv_omega

/-! ### An engine turn -/

/-- Every code at which a job stands, and IDLE, is in the operation table (R56, R57). -/
theorem decode_seq_listed {c : BitVec 8} (hc : c = SeqCode.idle ∨ inGif c = true ∨ inLzwJob c = true) :
    ∃ i, decode (.seq c) = .ok i := by
  have hok : ∀ c : BitVec 8, c = SeqCode.idle ∨ inGif c = true ∨ inLzwJob c = true →
      (decode (.seq c)).isOk = true := by decide
  cases hd : decode (.seq c) with
  | ok i => exact ⟨i, rfl⟩
  | error e =>
    have hlisted := hok c hc
    rw [hd] at hlisted
    exact nomatch hlisted

theorem Inv.seq_listed {s : State} (h : Inv s) : ∃ i, decode (.seq s.seq) = .ok i := by
  apply decode_seq_listed
  by_cases hc : s.seq = SeqCode.idle
  · exact .inl hc
  · have hj := h.running hc
    exact .inr (hj.jobIs.imp (fun hg => (hj.gif hg).seqIn) fun hl => (hj.lzw hl).seqIn)

/-- The operation decoded from a code has that code. -/
theorem encode_of_decode_seq {c : BitVec 8} {i : Instr} (h : decode (.seq c) = .ok i) : encode i = .seq c := by
  have hcode : ∀ n, c.toNat = n → Encoded.seq (BitVec.ofNat 8 n) = .seq c := by
    rintro _ rfl
    simp
  simp only [decode, decodeSeq] at h
  split at h <;> cases h <;> exact hcode _ ‹_›

/-- The operation SEQ holds does not fault. -/
theorem Inv.exec_noFault {s : State} (h : Inv s) {i : Instr} (hi : encode i = .seq s.seq) : NoFault (exec i s) := by
  have at_seq : ∀ {c : BitVec 8}, encode i = .seq c → s.seq = c := fun hc => Encoded.seq.inj (hi.symm.trans hc)
  cases i with
  | idle | xFinish => exact noFault_next _
  | lCheckSrc => exact execLCheckSrc_noFault s
  | lInit =>
    have hc := at_seq rfl
    have hj := h.running (by rw [hc]; decide)
    exact execLInit_noFault (hj.source (by rw [hc]; decide)).mHigh
  | lEmitClear => exact (emit_noFault (h.packersReady (by rw [at_seq rfl]; decide)) _ _).close _
  | lStep =>
    have hc := at_seq rfl
    have hj := h.running (by rw [hc]; decide)
    obtain ⟨hx, hpi⟩ := hj.symbol_lt hc
    exact execLStep_noFault (h.packersReady (by rw [hc]; decide)) hx hpi
  | lFlushAcc => exact (flushAcc_noFault (h.packersReady (by rw [at_seq rfl]; decide))).close _
  | lEmitEnd => exact (emit_noFault (h.packersReady (by rw [at_seq rfl]; decide)) _ _).close _
  | lPad => exact (padBits_noFault (h.packersReady (by rw [at_seq rfl]; decide))).close _
  | gCheckPal => exact execGCheckPal_noFault s
  | gCheckFrame =>
    have hc := at_seq rfl
    have hg := (h.running (by rw [hc]; decide)).gif_of_seq (by rw [hc]; decide)
    exact execGCheckFrame_noFault (fi_ne_last (hg.checking hc).1)
  | gNextFrame =>
    have hc := at_seq rfl
    have hg := (h.running (by rw [hc]; decide)).gif_of_seq (by rw [hc]; decide)
    exact execGNextFrame_noFault (fi_ne_last (hg.frame (by rw [hc]; decide)))
  | gSig | gLsd | gGct | gNetscape | gGce | gIdesc => exact (outBytes_noFault _ s).close _
  | gMincode | gTrailer => exact (outByte_noFault _ s).close _
  | bTerm => exact execBTerm_noFault s
  | _ => exact nomatch hi

theorem Inv.runEngine_noFault {s : State} (h : Inv s) : NoFault (runEngine s) := by
  rcases runEngine_cases s with ⟨i, hi, he⟩ | ⟨hnone, -⟩
  · rw [he]
    exact h.exec_noFault (encode_of_decode_seq hi)
  · obtain ⟨i, hi⟩ := h.seq_listed
    exact absurd hi (hnone i)

/-! ### A host turn -/

theorem startJob_noFault (s : State) : NoFault (startJob s) := (noFault_refused _).ite (noFault_next _)

theorem unlessBusy_noFault {o : Host.Outcome State Fault Refusal} (s : State) (ho : NoFault o) :
    NoFault (unlessBusy s o) := (noFault_next _).ite ho

theorem command_noFault (v : Word) (s : State) : NoFault (command v s) := by
  rcases command_cases v s with h | ⟨-, -, h⟩ | ⟨-, loop, h⟩ | ⟨-, m, -, -, -, h⟩ | h
  · simp [h]
  · simp [h]
  · exact h ▸ startJob_noFault _
  · exact h ▸ startJob_noFault _
  · simp [h]

/-- An instruction of the host: a command word or a bus access. -/
theorem exec_noFault_of_host {i : Instr} (hi : i.format ≠ .seq) (s : State) : NoFault (exec i s) := by
  cases i with
  | nop | softReset | rd => exact noFault_next _
  | gifEncodeLoop0 | gifEncodeLoop1 => exact unlessBusy_noFault s (startJob_noFault _)
  | lzwEncode m => exact unlessBusy_noFault s ((startJob_noFault _).ite (noFault_next _))
  | wr r v =>
    cases r with
    | cmd => exact command_noFault v s
    | _ => exact noFault_next _
  | _ => exact absurd rfl hi

theorem eq_of_decodeBare {v : Word} {i c : Instr} (h : decodeBare v i = .ok c) : c = i := by
  unfold decodeBare at h
  split at h
  · cases h
  · split at h <;> cases h
    rfl

theorem format_of_decode_cmd {v : Word} {c : Instr} (h : decode (.cmd v) = .ok c) : c.format = .cmd := by
  simp only [decode, decodeCmd] at h
  split at h
  · cases h
  split at h
  · rw [eq_of_decodeBare h]; rfl
  split at h
  · split at h
    · cases h
    · cases h
      split <;> rfl
  split at h
  · split at h
    · cases h
    · split at h <;> cases h
      rfl
  split at h
  · rw [eq_of_decodeBare h]; rfl
  · cases h

theorem format_of_decode_bus {p : BitVec 7} {d : Option Word} {i : Instr} (h : decode (.bus p d) = .ok i) :
    i.format = .bus := by
  simp only [decode, decodeBus] at h
  split at h
  · cases h
  · split at h <;> cases h <;> rfl

/-- Issuing a write of CMD gives a command, and changes no other instruction. -/
theorem format_issued {i : Instr} (hi : i.format = .bus) : (issued i).format ≠ .seq := by
  unfold issued
  split
  · split
    · next h => simp [format_of_decode_cmd h]
    · simp [hi]
  · simp [hi]

theorem runAccess_noFault (write : Bool) (offset bytes : Nat) (data : Word) (s : State) :
    NoFault (runAccess write offset bytes data s) := by
  rcases runAccess_cases write offset bytes data s with h | ⟨i, h, hi⟩
  · simp [h]
  · exact h ▸ exec_noFault_of_host (format_issued (format_of_decode_bus hi)) s

/-- A turn other than an engine turn never faults, in any state. -/
theorem runTurn_noFault_of_host {t : Turn} (ht : t ≠ .engine) (s : State) : NoFault (runTurn t s) := by
  cases t with
  | engine => exact absurd rfl ht
  | access write offset bytes data => exact runAccess_noFault write offset bytes data s
  | poll r mask value => exact noFault_next _
  | writeIn a v => exact (noFault_refused _).ite ((noFault_refused _).ite (noFault_next _))
  | readIn a => exact (noFault_refused _).ite (noFault_next _)
  | writeOut a v => exact (noFault_refused _).ite ((noFault_refused _).ite (noFault_next _))
  | readOut a => exact (noFault_refused _).ite (noFault_next _)
  | resetInput => exact noFault_next _

/-! ### The agenda -/

/-- A check of symbols depends on the bytes of IN and on P_ADDR_BITS. -/
theorem allBelow_congr {s t : State} (hb : t.build = s.build) (hi : ∀ a, inByte t a = inByte s a) (base : Word)
    (bound n k : Nat) : allBelow t base bound n k = allBelow s base bound n k := by
  rw [Bool.eq_iff_iff, allBelow_iff, allBelow_iff]
  simp only [byteAddr_congr hb, hi]

/-- The checks of a frame do not read the agenda. -/
theorem frameOk_withAgenda (s : State) (l : List Turn) (i : Nat) : frameOk { s with agenda := l } i = frameOk s i := by
  have hpixels : pixelsOk { s with agenda := l } (BitVec.ofNat 16 i) = pixelsOk s (BitVec.ofNat 16 i) :=
    allBelow_congr (s := s) (t := { s with agenda := l }) rfl (fun _ => rfl) (pixAddr s _) s.palLen.toNat
      (pixLen s _).toNat 0
  unfold frameOk
  rw [hpixels]
  rfl

theorem GifInv.withAgenda {s : State} (h : GifInv s) (l : List Turn) : GifInv { s with agenda := l } where
  seqIn := h.seqIn
  palette := h.palette
  checking hc := by simpa only [frameOk_withAgenda] using h.checking hc
  checked hc := by simpa only [frameOk_withAgenda] using h.checked hc
  header := h.header
  frame := h.frame
  source := h.source
  chunkLow := h.chunkLow

theorem LzwJobInv.withAgenda {s : State} (h : LzwJobInv s) (l : List Turn) : LzwJobInv { s with agenda := l } :=
  ⟨h.seqIn, h.mLegal, h.source⟩

theorem SourceInv.withAgenda {s : State} (h : SourceInv s) (l : List Turn) : SourceInv { s with agenda := l } :=
  ⟨h.mLow, h.mHigh, h.symbols⟩

theorem PassInv.withAgenda {s : State} (h : PassInv s) (l : List Turn) : PassInv { s with agenda := l } where
  __ := h
  table := ⟨h.table.filled, h.table.entry, h.table.distinct⟩

theorem JobInv.withAgenda {s : State} (h : JobInv s) (l : List Turn) : JobInv { s with agenda := l } where
  jobIs := h.jobIs
  outLow := h.outLow
  gif hj := (h.gif hj).withAgenda l
  lzw hj := (h.lzw hj).withAgenda l
  source hc := (h.source hc).withAgenda l
  pass hc := (h.pass hc).withAgenda l
  disjoint := h.disjoint

/-- The turns still to come are no part of the invariant. -/
theorem Inv.withAgenda {s : State} (h : Inv s) (l : List Turn) : Inv { s with agenda := l } where
  canonical := { h.canonical with }
  status := { h.status with }
  job hb := (h.job hb).withAgenda l

/-! ### The obligation -/

/-- Settles O51: the engine's turn by the invariant, a host turn in any state. -/
theorem invariantStepNeverFaults : Obligations.InvariantStepNeverFaults := by
  intro s f h
  cases ha : s.agenda with
  | nil =>
    rw [step_engine ha]
    exact h.runEngine_noFault f
  | cons t rest =>
    rw [step_turn ha]
    by_cases ht : t = .engine
    · subst ht
      exact (h.withAgenda rest).runEngine_noFault f
    · exact runTurn_noFault_of_host ht _ f

end Sys2Proof.Machine
end

section
/-! PROOFS. What an outcome leads to: a property of every state a step goes on to, the same for a procedure and the abort it
may raise, and the one rule for everything that sends bits and bytes to OUT: a property that the packers' small updates keep
holds where the procedure ends. -/

namespace Sys2Proof.Machine

/-! ### Outcomes -/

/-- Every state the outcome goes on to has the property. -/
def Keeps (I : State → Prop) (o : Host.Outcome State Fault Refusal) : Prop := ∀ t, o = .next t → I t

@[simp] theorem keeps_next {I : State → Prop} {s : State} : Keeps I (.next s) ↔ I s :=
  ⟨fun h => h s rfl, fun h _ ht => Host.Outcome.next.inj ht ▸ h⟩

@[simp] theorem keeps_refused (I : State → Prop) (r : Refusal) : Keeps I (.refused r) := fun _ => nofun

@[simp] theorem keeps_fault (I : State → Prop) (r : Fault) : Keeps I (.fault r) := fun _ => nofun

theorem Keeps.ite {I : State → Prop} {c : Prop} [Decidable c] {o p : Host.Outcome State Fault Refusal}
    (ho : c → Keeps I o) (hp : ¬ c → Keeps I p) : Keeps I (if c then o else p) := by
  split
  · exact ho ‹_›
  · exact hp ‹_›

theorem Keeps.mono {I J : State → Prop} {o : Host.Outcome State Fault Refusal} (h : Keeps I o)
    (hIJ : ∀ t, I t → J t) : Keeps J o :=
  fun t ht => hIJ t (h t ht)

/-! ### Procedures -/

/-- A procedure that goes on does so with P, and the abort of an error it raises leaves I. -/
def Flow.Reaches (I P : State → Prop) : Flow → Prop
  | .ok t => P t
  | .raise e f u => I (abort e f u)
  | .fault _ => True

namespace Flow.Reaches

variable {I P Q : State → Prop}

@[simp] theorem ok_iff {t : State} : (Flow.ok t).Reaches I P ↔ P t := Iff.rfl

@[simp] theorem raise_iff {e : ErrCode} {f : FrameIdx} {u : State} :
    (Flow.raise e f u).Reaches I P ↔ I (abort e f u) := Iff.rfl

@[simp] theorem fault (r : Fault) : (Flow.fault r).Reaches I P := trivial

theorem andThen {x : Flow} {f : State → Flow} (hx : x.Reaches I P) (hf : ∀ t, P t → (f t).Reaches I Q) :
    (x.andThen f).Reaches I Q := by
  cases x with
  | ok t => exact hf t hx
  | raise e n u => exact hx
  | fault r => trivial

theorem and {x : Flow} (hx : x.Reaches I P) (hq : ∀ t, x = .ok t → Q t) : x.Reaches I fun t => P t ∧ Q t := by
  cases x with
  | ok t => exact ⟨hx, hq t rfl⟩
  | raise e n u => exact hx
  | fault r => trivial

theorem ite {c : Prop} [Decidable c] {x y : Flow} (hx : c → x.Reaches I P) (hy : ¬ c → y.Reaches I P) :
    (if c then x else y).Reaches I P := by
  split
  · exact hx ‹_›
  · exact hy ‹_›

/-- The shape of an operation: a procedure, an update of the state, and the end. -/
theorem close {x : Flow} {g : State → State} (hx : x.Reaches I P) (hg : ∀ t, P t → I (g t)) :
    Keeps I (x.andThen fun t => .ok (g t)).close := by
  cases x with
  | ok t => exact keeps_next.mpr (hg t hx)
  | raise e n u => exact keeps_next.mpr hx
  | fault r => exact keeps_fault I r

end Flow.Reaches

/-! ### The packers -/

/-- The property survives each update of which `outByte`, the sub-block packer and the bit packer are made (R84 to R86, R102,
R103). -/
structure PackerClosed (P : State → Prop) : Prop where
  pushOut : ∀ v t, t.outPtr.toNat < t.outCap.toNat → P t → P (pushOut v t)
  emptyChunk : ∀ t, P t → P (emptyChunk t)
  pushChunk : ∀ v t, t.chunkLen ≠ 255#8 → P t → P (pushChunk v t)
  setBit : ∀ b t, P t → P (setBit b t)
  countBit : ∀ t, P t → P (countBit t)
  clearBits : ∀ t, P t → P (clearBits t)

namespace PackerClosed

variable {I P : State → Prop} (hP : PackerClosed P) (hI : ∀ f u, P u → I (abort .outputOverflow f u))
include hP hI

theorem outByte {s : State} (h : P s) (v : Byte) : (Machine.outByte v s).Reaches I P := by
  rcases outByte_cases v s with ⟨hlt, he⟩ | ⟨-, he⟩
  · rw [he]
    exact hP.pushOut v s hlt h
  · rw [he]
    exact hI _ s h

theorem outBytes {s : State} (h : P s) (bs : List Byte) : (Machine.outBytes bs s).Reaches I P := by
  induction bs generalizing s with
  | nil => exact h
  | cons v bs ih => exact (hP.outByte hI h v).andThen fun t ht => ih ht

theorem flushChunk {s : State} (h : P s) : (Machine.flushChunk s).Reaches I P :=
  (hP.outBytes hI h _).andThen hP.emptyChunk

theorem chunkByte {s : State} (h : P s) (v : Byte) : (Machine.chunkByte v s).Reaches I P :=
  .ite (fun _ => .fault _) fun hne =>
    .ite (fun _ => hP.flushChunk hI (hP.pushChunk v s hne h)) fun _ => hP.pushChunk v s hne h

theorem sinkByte {s : State} (h : P s) (v : Byte) : (Machine.sinkByte v s).Reaches I P := by
  unfold Machine.sinkByte
  cases s.sink with
  | raw => exact hP.outByte hI h v
  | sub => exact hP.chunkByte hI h v

theorem sinkBits {s : State} (h : P s) : (Machine.sinkBits s).Reaches I P :=
  (hP.sinkByte hI h _).andThen hP.clearBits

theorem putBit {s : State} (h : P s) (b : Bool) : (Machine.putBit b s).Reaches I P :=
  .ite (fun _ => hP.sinkBits hI (hP.setBit b s h)) fun _ => hP.countBit _ (hP.setBit b s h)

theorem putBits {s : State} (h : P s) (bl : List Bool) : (Machine.putBits bl s).Reaches I P := by
  induction bl generalizing s with
  | nil => exact h
  | cons b bl ih => exact (hP.putBit hI h b).andThen fun t ht => ih ht

/-- A code that does not fit its width is the other error `emit` may raise (R83). -/
theorem emit {s : State} (h : P s) {c w : Nat}
    (hwide : ¬ (w ≤ Config.wMax ∧ c < 2 ^ w) → ∀ f, I (abort .codeWidthOverflow f s)) :
    (Machine.emit c w s).Reaches I P :=
  .ite (fun _ => hP.putBits hI h _) fun hn => hwide hn _

theorem padBits {s : State} (h : P s) : (Machine.padBits s).Reaches I P :=
  .ite (fun _ => h) fun _ => hP.sinkBits hI h

end PackerClosed

end Sys2Proof.Machine
end

section
/-! PROOFS. The registers of the window: what a write of each stores and what each reads back (R22 to R25, R29, R118), the
interrupt line (R30), and the values after reset (R31). -/

namespace Sys2Proof.Machine

/-! ### Command words (R22, R53, R54) -/

/-- The fields of R53 are the whole word. -/
theorem eq_reset_word {v : Word} (hr : reservedField v = 0) (hm : mField v = 0) (hl : loopField v = false)
    (ho : opcField v = opcReset) : v = 0x0000000F#32 := by
  have hr' : v.toNat / 2 ^ 13 % 2 ^ 19 = 0 := by
    simpa [reservedField, Nat.shiftRight_eq_div_pow] using congrArg BitVec.toNat hr
  have hm' : v.toNat / 2 ^ 8 % 2 ^ 4 = 0 := by
    simpa [mField, Nat.shiftRight_eq_div_pow] using congrArg BitVec.toNat hm
  have ho' : v.toNat % 2 ^ 8 = 15 := by simpa [opcField] using congrArg BitVec.toNat ho
  have hl' : ¬ v.toNat / 2 ^ 12 % 2 = 1 := by
    simpa [loopField, BitVec.getLsbD, Nat.testBit_eq_decide_div_mod_eq] using hl
  apply BitVec.eq_of_toNat_eq
  show v.toNat = 15
  have := v.isLt
  omega

/-- A word without operands beside OPC. -/
theorem decodeBare_eq_ok {v : Word} {i c : Instr} (h : decodeBare v i = .ok c) :
    mField v = 0 ∧ loopField v = false ∧ c = i := by
  unfold decodeBare at h
  split at h
  · cases h
  next hm =>
    split at h
    · cases h
    next hl => exact ⟨not_not.mp hm, by simpa using hl, (Except.ok.inj h).symm⟩

/-- Every way a word is a command (R54). -/
theorem decode_cmd_cases {v : Word} {i : Instr} (h : decode (.cmd v) = .ok i) :
    reservedField v = 0
      ∧ ((opcField v = opcNop ∧ mField v = 0 ∧ loopField v = false ∧ i = .nop)
        ∨ (opcField v = opcGif ∧ mField v = 0 ∧ i = if loopField v then .gifEncodeLoop1 else .gifEncodeLoop0)
        ∨ (opcField v = opcLzw ∧ legalM (mField v) = true ∧ loopField v = false ∧ i = .lzwEncode (mField v))
        ∨ (opcField v = opcReset ∧ mField v = 0 ∧ loopField v = false ∧ i = .softReset)) := by
  simp only [decode, decodeCmd] at h
  split at h
  · cases h
  next hr =>
  refine ⟨not_not.mp hr, ?_⟩
  split at h
  next ho => exact .inl ⟨ho, decodeBare_eq_ok h⟩
  split at h
  next ho =>
    split at h
    · cases h
    next hm => exact .inr (.inl ⟨ho, not_not.mp hm, (Except.ok.inj h).symm⟩)
  split at h
  next ho =>
    split at h
    · cases h
    next hl =>
      split at h
      next hm => exact .inr (.inr (.inl ⟨ho, hm, by simpa using hl, (Except.ok.inj h).symm⟩))
      · cases h
  split at h
  next ho => exact .inr (.inr (.inr ⟨ho, decodeBare_eq_ok h⟩))
  · cases h

/-- A word that is a command is not illegal (R55). -/
theorem illegalWord_of_decode {v : Word} {i : Instr} (h : decode (.cmd v) = .ok i) : illegalWord v = false := by
  obtain ⟨hr, ⟨ho, hm, hl, -⟩ | ⟨ho, hm, -⟩ | ⟨ho, hm, hl, -⟩ | ⟨ho, hm, hl, -⟩⟩ := decode_cmd_cases h
  all_goals simp [illegalWord, opcNop, opcGif, opcLzw, opcReset, hr, ho, hm]
  all_goals simp [hl]

/-- While a job runs, a word other than SOFT_RESET is dropped (R120). -/
theorem command_busy {s : State} (hb : s.busy = true) {v : Word} (hv : v ≠ 0x0000000F#32) : command v s = .next s := by
  simp [command, hb, hv]

theorem command_softReset (s : State) : command 0x0000000F#32 s = .next (resetBlock s) := by
  have hlegal : illegalWord 0x0000000F#32 = false := by decide
  have hopc : opcField 0x0000000F#32 = opcReset := by decide
  cases hb : s.busy <;> simp [command, hb, hlegal, hopc, opcNop, opcGif, opcLzw, opcReset]

theorem ne_reset_word {v : Word} (ho : opcField v ≠ opcReset) : v ≠ 0x0000000F#32 := by
  rintro rfl
  exact ho (by decide)

/-- Settles O8, command by command: while a job runs, SOFT_RESET acts and every other command is dropped on both sides. -/
theorem cmdWriteIsTheCommand : Obligations.CmdWriteIsTheCommand := by
  intro s v i h
  show command v s = exec i s
  have hlegal := illegalWord_of_decode h
  obtain ⟨hr, ⟨ho, -, -, rfl⟩ | ⟨ho, -, rfl⟩ | ⟨ho, hm, -, rfl⟩ | ⟨ho, hm, hl, rfl⟩⟩ := decode_cmd_cases h
  · cases hb : s.busy with
    | true => exact command_busy hb (ne_reset_word (by rw [ho]; decide))
    | false => simp [command, hb, hlegal, ho, exec, execNop]
  · have hexec : exec (if loopField v then .gifEncodeLoop1 else .gifEncodeLoop0) s
        = unlessBusy s (startJob (acceptGif (loopField v) s)) := by
      cases loopField v <;> rfl
    rw [hexec]
    cases hb : s.busy with
    | true => simp [command_busy hb (ne_reset_word (v := v) (by rw [ho]; decide)), unlessBusy, hb]
    | false => simp [command, hb, hlegal, ho, unlessBusy]
  · cases hb : s.busy with
    | true =>
      simp [command_busy hb (ne_reset_word (v := v) (by rw [ho]; decide)), exec, execLzwEncode, unlessBusy, hb]
    | false => simp [command, hb, hlegal, ho, opcNop, opcGif, opcLzw, exec, execLzwEncode, unlessBusy, hm]
  · rw [eq_reset_word hr hm hl ho]
    exact command_softReset s

/-! ### Configuration registers (R25) -/

/-- The configuration registers. -/
abbrev configRegs : List Reg :=
  [.width, .height, .palBase, .palLen, .frameBase, .nframes, .srcBase, .srcLen, .outBase, .outCap]

/-- The registers whose field is 16 bits wide. -/
abbrev halfRegs : List Reg := [.width, .height, .palLen, .nframes]

theorem exec_wr_of_ne_cmd {r : Reg} (hr : r ≠ .cmd) (v : Word) (s : State) :
    exec (.wr r v) s = .next (regWrite r v s) := by
  cases r with
  | cmd => exact absurd rfl hr
  | _ => rfl

theorem setWidth_setWidth_half (v : Word) : (v.setWidth 16).setWidth 32 = v &&& 0xFFFF#32 := by
  apply BitVec.eq_of_toNat_eq
  have hmask : v.toNat &&& 65535 = v.toNat % 2 ^ 16 := Nat.and_two_pow_sub_one_eq_mod _ 16
  simp [hmask]
  omega

/-- A configuration write while a job runs changes nothing. -/
theorem regWrite_config_busy {r : Reg} (hr : r ∈ configRegs) (v : Word) {s : State} (hb : s.busy = true) :
    regWrite r v s = s := by
  cases r <;> simp [regWrite, configWrite, hb] at hr ⊢

/-- A configuration write while no job runs changes the configuration alone. -/
theorem regWrite_config_only {r : Reg} (hr : r ∈ configRegs) (v : Word) {s : State} (hb : s.busy = false) :
    OnlyConfig s (regWrite r v s) := by
  cases r <;> simp [regWrite, configWrite, hb, OnlyConfig] at hr ⊢

/-- What the registers read after a configuration write while no job runs. -/
theorem regRead_regWrite_config {r : Reg} (hr : r ∈ configRegs) (v : Word) {s : State} (hb : s.busy = false) (q : Reg) :
    regRead (regWrite r v s) q
      = if q = r then (if r ∈ halfRegs then v &&& 0xFFFF#32 else v) else regRead s q := by
  by_cases hq : q = r
  · subst hq
    cases q <;> simp [regRead, regWrite, configWrite, hb, setWidth_setWidth_half] at hr ⊢
  · rw [if_neg hq]
    cases r <;> simp [regWrite, configWrite, hb] at hr ⊢ <;> cases q <;>
      simp [regRead, statusWord, ctrlWord, paramsWord, hb] at hq ⊢

/-- Settles O20, by what each register reads after the write. -/
theorem configWriteStoresField : Obligations.ConfigWriteStoresField := by
  intro s r v hr
  have hexec : exec (.wr r v) s = .next (regWrite r v s) :=
    exec_wr_of_ne_cmd (by rintro rfl; exact absurd hr (by decide)) v s
  rw [hexec]
  refine ⟨fun hb => by rw [regWrite_config_busy hr v hb], fun hb => ⟨_, rfl, ?_, fun q hq => ?_, ?_⟩⟩
  · rw [regRead_regWrite_config hr v hb, if_pos rfl]
  · rw [regRead_regWrite_config hr v hb, if_neg hq]
  · exact regWrite_config_only hr v hb

/-- Settles O19: the write as one update. -/
theorem statusIsWriteOneToClear : Obligations.StatusIsWriteOneToClear := by
  intro s v
  refine ⟨writeStatus v s, rfl, ?_⟩
  rw [writeStatus_eq]
  exact ⟨rfl, rfl, rfl, rfl, rfl⟩

/-- Settles O21: the write of CTRL stores one bit, the others nothing. -/
theorem ctrlAndReadOnlyWrites : Obligations.CtrlAndReadOnlyWrites := fun _ _ => ⟨rfl, rfl, rfl, rfl⟩

/-! ### Reserved bits (R29) -/

/-- A flag has bit 0 alone. -/
theorem getLsbD_bit (b : Bool) (j : Nat) : (bit b).getLsbD j = (decide (j = 0) && b) := by
  simp [bit, BitVec.getLsbD_setWidth, BitVec.getLsbD_ofBool]
  omega

theorem status_reserved (s : State) {j : Nat} (h3 : 3 ≤ j) (h7 : j ≤ 7) : (statusWord s).getLsbD j = false := by
  have h8 : ¬ 8 ≤ j := by omega
  simp [statusWord, getLsbD_bit]
  omega

theorem params_reserved (s : State) {j : Nat} (h : 5 ≤ j) : (paramsWord s).getLsbD j = false := by
  have h0 : s.build.colorRes.getLsbD j = false := BitVec.getLsbD_of_ge _ _ (by omega)
  simp [paramsWord, getLsbD_bit, h0]
  omega

/-- Only bits 1 and 2 of a word written to STATUS matter. -/
theorem writeStatus_mask (v : Word) (s : State) : writeStatus (v &&& 0x00000006#32) s = writeStatus v s := by
  simp [writeStatus_eq]

theorem setWidth_half_mask (v : Word) : (v &&& 0x0000FFFF#32).setWidth 16 = v.setWidth 16 := by
  rw [← setWidth_setWidth_half]
  simp

/-- Settles O23, register by register. -/
theorem reservedBitsReadZero : Obligations.ReservedBitsReadZero := by
  refine ⟨fun r => by cases r <;> decide, fun s => ⟨fun j => status_reserved s, fun j hj => ?_, fun r hr j hj => ?_,
    fun j hj => ?_, fun j => params_reserved s, fun v => ⟨?_, ?_, fun r hr => ?_⟩⟩⟩
  · show (bit s.ie).getLsbD j = false
    simp [getLsbD_bit]
    omega
  · have hhigh : ∀ x : BitVec 16, (x.setWidth 32 : Word).getLsbD j = false := fun x => by
      rw [BitVec.getLsbD_setWidth, BitVec.getLsbD_of_ge x j hj, Bool.and_false]
    cases r <;> simp [regRead, hhigh] at hr ⊢
  · show (s.lzwLast.setWidth 32 : Word).getLsbD j = false
    rw [BitVec.getLsbD_setWidth, BitVec.getLsbD_of_ge s.lzwLast j hj, Bool.and_false]
  · show Host.Outcome.next (writeStatus v s) = .next (writeStatus (v &&& 0x00000006#32) s)
    rw [writeStatus_mask]
  · show Host.Outcome.next _ = .next _
    simp [regWrite]
  · simp only [List.mem_cons, List.not_mem_nil, or_false] at hr
    rcases hr with rfl | rfl | rfl | rfl <;> simp only [exec, execWr, regWrite, setWidth_half_mask]

/-! ### The interrupt line (R30, R136) -/

theorem irq_iff (s : State) : irq s = true ↔ s.ie = true ∧ (s.done = true ∨ s.err = true) := by
  rw [irq, Bool.and_eq_true, Bool.or_eq_true]

theorem irq_of_cleared {s : State} (hd : s.done = false) (he : s.err = false) : irq s = false := by
  simp [irq, hd, he]

/-- An accepted job has the line low (R121). -/
theorem keeps_irq_startJob {u : State} (hd : u.done = false) (he : u.err = false) :
    Keeps (fun t => irq t = false) (startJob u) :=
  .ite (fun _ => keeps_refused _ _) fun _ => keeps_next.mpr (irq_of_cleared hd he)

/-- Settles O24, event by event: each sets or clears IE, DONE or ERR. -/
theorem interruptFollowsDoneAndErr : Obligations.InterruptFollowsDoneAndErr := by
  refine ⟨rfl, fun s => ⟨irq_iff s, ?_, ?_, ?_, ?_, ?_, ?_, ?_, ?_⟩⟩
  · rintro t ⟨⟩
    simp [irq]
  · intro t v hb hi ht
    have hexec : exec (.wr .cmd v) s = .next (raiseIllegal s) := by simp [exec, execWr, command, hb, hi]
    cases hexec.symm.trans ht
    simp [irq]
  · rintro t v hv ⟨⟩
    show (v.getLsbD 0 && (s.done || s.err)) = false
    rw [hv, Bool.false_and]
  · rintro t v h1 h2 ⟨⟩
    exact irq_of_cleared (by simp [regWrite, writeStatus_eq, h1]) (by simp [regWrite, writeStatus_eq, h2])
  · rintro t ⟨⟩
    rfl
  · intro t hb ht
    rw [exec, execGifEncodeLoop0, unlessBusy, hb] at ht
    exact keeps_irq_startJob rfl rfl t ht
  · intro t hb ht
    rw [exec, execGifEncodeLoop1, unlessBusy, hb] at ht
    exact keeps_irq_startJob rfl rfl t ht
  · intro t m hb h2 h8 ht
    have hm : legalM m = true := by simp [legalM, mNotTooSmall, mNotTooLarge, h2, h8]
    rw [exec, execLzwEncode, unlessBusy, hb, hm] at ht
    exact keeps_irq_startJob rfl rfl t ht

/-! ### Reset (R31, R143) -/

/-- A reset changes no byte of IN or OUT. -/
theorem inByte_resetBlock (s : State) (a : Nat) : inByte (resetBlock s) a = inByte s a :=
  inByte_congr rfl rfl rfl rfl rfl a

theorem outByteAt_resetBlock (s : State) (a : Nat) : outByteAt (resetBlock s) a = outByteAt s a :=
  outByteAt_congr rfl rfl rfl a

/-- Settles O13: both are states that a reset of the block leaves. -/
theorem resetValues : Obligations.ResetValues := by
  intro s t h
  obtain ⟨u, rfl⟩ : ∃ u, t = resetBlock u := by
    rcases h with rfl | h
    · exact ⟨State.reset, rfl⟩
    · exact ⟨s, (Host.Outcome.next.inj h).symm⟩
  have hparams : (resetBlock u).build = Build.default → paramsWord (resetBlock u) = 0x00000007#32 := fun hb => by
    rw [paramsWord, hb]
    decide
  have hkept : exec .softReset s = .next (resetBlock u) → (resetBlock u).build = s.build
      ∧ ∀ a, inByte (resetBlock u) a = inByte s a ∧ outByteAt (resetBlock u) a = outByteAt s a := fun he => by
    rw [← Host.Outcome.next.inj he]
    exact ⟨rfl, fun a => ⟨inByte_resetBlock s a, outByteAt_resetBlock s a⟩⟩
  have hstatus : statusWord (resetBlock u) = 0xFFFF0000#32 := by
    show statusWord State.reset = _
    decide
  simpa [State.reset, hstatus, irq, ErrCode.code] using ⟨hparams, hkept⟩

end Sys2Proof.Machine
end

section
/-! PROOFS. What a host turn can do, said once (R47 (b), R117 (a), R118 to R125, R143), what a step can be, and that the build
and a running job's configuration stay as they are (R25, R28). -/

namespace Sys2Proof.Machine

/-! ### Host turns -/

/-- Every state a host turn can go on to. -/
inductive HostEffect (s : State) : State → Prop
  | same : HostEffect s s
  | illegal (hb : s.busy = false) : HostEffect s (raiseIllegal s)
  | accept (u : State) (hb : s.busy = false)
      (hu : (∃ loop, u = acceptGif loop s) ∨ ∃ m, legalM m = true ∧ u = acceptLzw m s)
      (hd : u.build.sharedMemory = true → ∀ a, OutRegion u a → ¬ JobReads u a) : HostEffect s u
  | reset : HostEffect s (resetBlock s)
  | status (v : Word) : HostEffect s (writeStatus v s)
  | ctrl (b : Bool) : HostEffect s { s with ie := b }
  | config (u : State) (hb : s.busy = false) (hu : OnlyConfig s u) : HostEffect s u
  | read (x : Word) (l : List Turn) : HostEffect s { s with hostData := x, agenda := l }
  | writeIn (a : Nat) (v : Byte) (hr : ¬ (s.busy = true ∧ JobReads s (wrapAddr s a))) :
      HostEffect s (writeInByte (wrapAddr s a) v s)
  | writeOut (a : Nat) (v : Byte)
      (hr : ¬ (s.build.sharedMemory = true ∧ s.busy = true ∧ JobReads s (wrapAddr s a))) :
      HostEffect s (writeOutByte (wrapAddr s a) v s)

theorem keeps_startJob {s u : State} (hb : s.busy = false)
    (hu : (∃ loop, u = acceptGif loop s) ∨ ∃ m, legalM m = true ∧ u = acceptLzw m s) :
    Keeps (HostEffect s) (startJob u) := by
  rcases startJob_cases u with ⟨hd, h⟩ | ⟨-, h⟩
  · exact h ▸ keeps_next.mpr (.accept u hb hu hd)
  · exact h ▸ keeps_refused _ _

theorem keeps_unlessBusy {s : State} {o : Host.Outcome State Fault Refusal}
    (ho : s.busy = false → Keeps (HostEffect s) o) : Keeps (HostEffect s) (unlessBusy s o) :=
  .ite (fun _ => keeps_next.mpr .same) fun hb => ho (by simpa using hb)

theorem keeps_command (v : Word) (s : State) : Keeps (HostEffect s) (command v s) := by
  rcases command_cases v s with h | ⟨hb, -, h⟩ | ⟨hb, loop, h⟩ | ⟨hb, m, hl, ho, rfl, h⟩ | h
  · exact h ▸ keeps_next.mpr .same
  · exact h ▸ keeps_next.mpr (.illegal hb)
  · exact h ▸ keeps_startJob hb (.inl ⟨loop, rfl⟩)
  · exact h ▸ keeps_startJob hb (.inr ⟨_, legalM_of_legal hl ho, rfl⟩)
  · exact h ▸ keeps_next.mpr .reset

theorem hostEffect_regWrite (r : Reg) (v : Word) (s : State) : HostEffect s (regWrite r v s) := by
  rcases regWrite_cases r v s with h | ⟨-, h⟩ | ⟨-, h⟩ | ⟨hb, h⟩
  · rw [h]
    exact .same
  · rw [h]
    exact .status v
  · rw [h]
    exact .ctrl _
  · exact .config _ hb h

/-- An instruction of the host: a command word or a bus access. -/
theorem keeps_exec_of_host {i : Instr} (hi : i.format ≠ .seq) (s : State) : Keeps (HostEffect s) (exec i s) := by
  cases i with
  | nop => exact keeps_next.mpr .same
  | softReset => exact keeps_next.mpr .reset
  | rd r => exact keeps_next.mpr (.read _ _)
  | gifEncodeLoop0 | gifEncodeLoop1 => exact keeps_unlessBusy fun hb => keeps_startJob hb (.inl ⟨_, rfl⟩)
  | lzwEncode m =>
    exact keeps_unlessBusy fun hb =>
      .ite (fun hm => keeps_startJob hb (.inr ⟨m, hm, rfl⟩)) fun _ => keeps_next.mpr (.illegal hb)
  | wr r v =>
    by_cases hr : r = .cmd
    · subst hr
      exact keeps_command v s
    · rw [exec_wr_of_ne_cmd hr]
      exact keeps_next.mpr (hostEffect_regWrite r v s)
  | _ => exact absurd rfl hi

theorem keeps_runAccess (write : Bool) (offset bytes : Nat) (data : Word) (s : State) :
    Keeps (HostEffect s) (runAccess write offset bytes data s) := by
  rcases runAccess_cases write offset bytes data s with h | ⟨i, h, hi⟩
  · exact h ▸ keeps_refused _ _
  · exact h ▸ keeps_exec_of_host (format_issued (format_of_decode_bus hi)) s

theorem hostEffect_pollAgain (r : Reg) (mask value x : Word) (s : State) :
    HostEffect s (pollAgain r mask value { s with hostData := x }) := by
  unfold pollAgain
  split
  · exact .read _ _
  · exact .read _ _

theorem keeps_hostWriteIn (a : Nat) (v : Byte) (s : State) : Keeps (HostEffect s) (hostWriteIn a v s) := by
  rcases hostWriteIn_cases a v s with ⟨-, h⟩ | ⟨hr, ⟨-, h⟩ | ⟨-, h⟩⟩
  · exact h ▸ keeps_refused _ _
  · exact h ▸ keeps_refused _ _
  · exact h ▸ keeps_next.mpr (.writeIn a v hr)

theorem keeps_hostWriteOut (a : Nat) (v : Byte) (s : State) : Keeps (HostEffect s) (hostWriteOut a v s) := by
  rcases hostWriteOut_cases a v s with ⟨-, h⟩ | ⟨-, ⟨-, h⟩ | ⟨hr, h⟩⟩
  · exact h ▸ keeps_refused _ _
  · exact h ▸ keeps_refused _ _
  · exact h ▸ keeps_next.mpr (.writeOut a v hr)

/-- What a turn other than an engine turn can do. -/
theorem keeps_runTurn_of_host {t : Turn} (ht : t ≠ .engine) (s : State) : Keeps (HostEffect s) (runTurn t s) := by
  cases t with
  | engine => exact absurd rfl ht
  | access write offset bytes data => exact keeps_runAccess write offset bytes data s
  | poll r mask value => exact keeps_next.mpr (hostEffect_pollAgain r mask value _ s)
  | writeIn a v => exact keeps_hostWriteIn a v s
  | readIn a => exact .ite (fun _ => keeps_refused _ _) fun _ => keeps_next.mpr (.read _ _)
  | writeOut a v => exact keeps_hostWriteOut a v s
  | readOut a => exact .ite (fun _ => keeps_refused _ _) fun _ => keeps_next.mpr (.read _ _)
  | resetInput => exact keeps_next.mpr .reset

/-! ### Steps -/

/-- A step is the operation SEQ holds or a host turn, with the rest of the agenda in place. -/
theorem step_next_cases {s t : State} (h : step s = .next t) :
    ∃ l, (∃ i, encode i = .seq s.seq ∧ exec i { s with agenda := l } = .next t)
      ∨ HostEffect { s with agenda := l } t := by
  have engine : ∀ {u : State}, runEngine u = .next t → ∃ i, encode i = .seq u.seq ∧ exec i u = .next t := by
    intro u hu
    rcases runEngine_cases u with ⟨i, hi, he⟩ | ⟨-, he⟩
    · exact ⟨i, encode_of_decode_seq hi, he.symm.trans hu⟩
    · rw [he] at hu
      exact nomatch hu
  cases ha : s.agenda with
  | nil =>
    rw [step_engine ha] at h
    refine ⟨s.agenda, .inl ?_⟩
    exact engine h
  | cons turn rest =>
    rw [step_turn ha] at h
    refine ⟨rest, ?_⟩
    by_cases ht : turn = .engine
    · subst ht
      exact .inl (engine h)
    · exact .inr (keeps_runTurn_of_host ht _ t h)

/-- What every operation and every effect of a host turn gives, every step gives, where the agenda does not matter. -/
theorem keeps_step {s : State} {I : State → Prop}
    (he : ∀ l i, encode i = .seq s.seq → Keeps I (exec i { s with agenda := l }))
    (hh : ∀ l t, HostEffect { s with agenda := l } t → I t) : Keeps I (step s) := by
  intro t h
  obtain ⟨l, ⟨i, hi, hx⟩ | hx⟩ := step_next_cases h
  · exact he l i hi t hx
  · exact hh l t hx

/-! ### The build and the configuration (R25, R28) -/

/-- What no operation of the engine writes: the build and the configuration registers. -/
structure Settings where
  build : Build
  width : BitVec 16
  height : BitVec 16
  palBase : Word
  palLen : BitVec 16
  frameBase : Word
  nframes : BitVec 16
  srcBase : Word
  srcLen : BitVec 32
  outBase : Word
  outCap : BitVec 32

/-- The settings of a state. -/
def State.settings (s : State) : Settings where
  build := s.build
  width := s.width
  height := s.height
  palBase := s.palBase
  palLen := s.palLen
  frameBase := s.frameBase
  nframes := s.nframes
  srcBase := s.srcBase
  srcLen := s.srcLen
  outBase := s.outBase
  outCap := s.outCap

/-- The configuration registers read the settings. -/
theorem regRead_config_congr {s t : State} (h : t.settings = s.settings) {r : Reg} (hr : r ∈ configRegs) :
    regRead t r = regRead s r := by
  simp only [State.settings, Settings.mk.injEq] at h
  cases r <;> simp [regRead, h] at hr ⊢

/-- PARAMS reads the build. -/
theorem regRead_params_congr {s t : State} (h : t.build = s.build) : regRead t .params = regRead s .params := by
  show paramsWord t = paramsWord s
  rw [paramsWord, paramsWord, h]

section

variable {c : Settings}

/-- No packer writes a setting. -/
theorem packerClosed_settings (c : Settings) : PackerClosed fun t => t.settings = c where
  pushOut _ _ _ h := h
  emptyChunk _ h := h
  pushChunk _ _ _ h := h
  setBit _ _ h := h
  countBit _ h := h
  clearBits _ h := h

theorem settings_grow (x : Byte) (s : State) : (grow x s).settings = s.settings := by
  rcases grow_cases x s with ⟨-, h⟩ | ⟨-, h⟩
  · rw [h]
  · rw [h]
    rfl

theorem consume_settings (x : Byte) {s : State} (h : s.settings = c) :
    (consume x s).Reaches (fun t => t.settings = c) fun t => t.settings = c := by
  unfold consume
  split
  · split
    · exact h
    · exact ((packerClosed_settings c).emit (fun _ _ hu => hu) h fun _ _ => h).andThen fun t ht =>
        (settings_grow x t).trans ht
  · exact h

theorem flushAcc_settings {s : State} (h : s.settings = c) :
    (flushAcc s).Reaches (fun t => t.settings = c) fun t => t.settings = c :=
  .ite (fun _ => ((packerClosed_settings c).emit (fun _ _ hu => hu) h fun _ _ => h).andThen fun _ ht => ht) fun _ => h

end

/-- No operation of the engine writes a setting, an abort neither. -/
theorem keeps_settings {i : Instr} {c : BitVec 8} (hi : encode i = .seq c) (s : State) :
    Keeps (fun t => t.settings = s.settings) (exec i s) := by
  have hP := packerClosed_settings s.settings
  have hI : ∀ (f : FrameIdx) (u : State), u.settings = s.settings →
      (abort .outputOverflow f u).settings = s.settings := fun _ _ hu => hu
  cases i with
  | idle | xFinish => exact keeps_next.mpr rfl
  | lCheckSrc | gCheckPal => exact .ite (fun _ => keeps_next.mpr rfl) fun _ => keeps_next.mpr rfl
  | gCheckFrame =>
    exact .ite (fun _ => keeps_next.mpr rfl) fun _ => .ite (fun _ => keeps_next.mpr rfl) fun _ =>
      .ite (fun _ => keeps_fault _ _) fun _ => keeps_next.mpr rfl
  | lInit => exact .ite (fun _ => keeps_next.mpr rfl) fun _ => keeps_fault _ _
  | gNextFrame => exact .ite (fun _ => keeps_fault _ _) fun _ => keeps_next.mpr rfl
  | lEmitClear | lEmitEnd => exact (hP.emit hI rfl fun _ _ => rfl).close fun _ ht => ht
  | lStep =>
    exact .ite (fun _ => .ite (fun _ => keeps_fault _ _) fun _ =>
      (consume_settings (s := { s with pi := s.pi + 1 }) _ rfl).close fun _ ht => ht) fun _ => keeps_fault _ _
  | lFlushAcc => exact (flushAcc_settings rfl).close fun _ ht => ht
  | lPad => exact (hP.padBits hI rfl).close fun _ ht => ht
  | gSig | gLsd | gGct | gNetscape | gGce | gIdesc => exact (hP.outBytes hI rfl _).close fun _ ht => ht
  | gMincode | gTrailer => exact (hP.outByte hI rfl _).close fun _ ht => ht
  | bTerm =>
    have hchunk : (if s.chunkLen = 0 then .ok s else flushChunk s : Flow).Reaches (fun t => t.settings = s.settings)
        fun t => t.settings = s.settings := .ite (fun _ => rfl) fun _ => hP.flushChunk hI rfl
    exact (hchunk.andThen fun t ht => hP.outByte hI ht _).close fun _ ht => ht
  | _ => exact nomatch hi

theorem settings_writeStatus (v : Word) (s : State) : (writeStatus v s).settings = s.settings := by
  rw [writeStatus_eq]
  rfl

theorem settings_writeInByte (a : Nat) (v : Byte) (s : State) : (writeInByte a v s).settings = s.settings := by
  rw [writeInByte_eq]
  split <;> rfl

theorem OnlyConfig.build {s t : State} (h : OnlyConfig s t) : t.build = s.build := by
  unfold OnlyConfig at h
  rw [h]

/-- A host turn keeps the build, and the configuration unless no job runs or the job is abandoned by a reset. -/
theorem HostEffect.settings {s t : State} (h : HostEffect s t) :
    t.settings = s.settings ∨ t.build = s.build ∧ (s.busy = false ∨ t.busy = false) := by
  cases h with
  | same | illegal | ctrl | read | writeOut => exact .inl rfl
  | accept u hb hu hd =>
    obtain ⟨loop, rfl⟩ | ⟨m, -, rfl⟩ := hu
    · exact .inl rfl
    · exact .inl rfl
  | reset => exact .inr ⟨rfl, .inr rfl⟩
  | status v => exact .inl (settings_writeStatus v s)
  | config u hb hu => exact .inr ⟨hu.build, .inl hb⟩
  | writeIn a v => exact .inl (settings_writeInByte _ v s)

theorem step_settings {s t : State} (h : step s = .next t) :
    t.settings = s.settings ∨ t.build = s.build ∧ (s.busy = false ∨ t.busy = false) :=
  keeps_step (I := fun t => t.settings = s.settings ∨ t.build = s.build ∧ (s.busy = false ∨ t.busy = false))
    (fun _ _ hi => (keeps_settings hi _).mono fun _ => .inl) (fun _ _ => HostEffect.settings) t h

/-- Settles O53: the build is a setting, and a reset keeps it. -/
theorem paramsNeverChange : Obligations.ParamsNeverChange := by
  intro s t h
  have hbuild : t.build = s.build := (step_settings h).elim (congrArg Settings.build) And.left
  exact ⟨hbuild, regRead_params_congr hbuild⟩

/-- Settles O54: a step that changes the configuration starts or ends without a job. -/
theorem configStableDuringJob : Obligations.ConfigStableDuringJob := by
  intro s t r hs h ht hr
  rcases step_settings h with hkept | ⟨-, hidle | hidle⟩
  · exact regRead_config_congr hkept hr
  · exact absurd (hs.symm.trans hidle) nofun
  · exact absurd (ht.symm.trans hidle) nofun

end Sys2Proof.Machine
end

section
/-! PROOFS. What a job reads (R47 (b), R95): the frame table, the pixels, the source, and everything the invariant says of them,
depend on the settings and on the bytes of IN the job reads. -/

namespace Sys2Proof.Machine

/-- A later state of a job finds the inputs of the job as they were. -/
structure SameInputs (s t : State) : Prop where
  settings : t.settings = s.settings
  job : t.job = s.job
  bytes : ∀ a, JobReads s a → inByte t a = inByte s a

namespace SameInputs

variable {s t : State} (h : SameInputs s t)
include h

theorem build : t.build = s.build := congrArg Settings.build h.settings
theorem width : t.width = s.width := congrArg Settings.width h.settings
theorem height : t.height = s.height := congrArg Settings.height h.settings
theorem palBase : t.palBase = s.palBase := congrArg Settings.palBase h.settings
theorem palLen : t.palLen = s.palLen := congrArg Settings.palLen h.settings
theorem frameBase : t.frameBase = s.frameBase := congrArg Settings.frameBase h.settings
theorem nframes : t.nframes = s.nframes := congrArg Settings.nframes h.settings
theorem srcBase : t.srcBase = s.srcBase := congrArg Settings.srcBase h.settings
theorem srcLen : t.srcLen = s.srcLen := congrArg Settings.srcLen h.settings
theorem outBase : t.outBase = s.outBase := congrArg Settings.outBase h.settings
theorem outCap : t.outCap = s.outCap := congrArg Settings.outCap h.settings

theorem outRegion_iff (a : Nat) : OutRegion t a ↔ OutRegion s a := outRegion_congr h.build h.outBase h.outCap a

/-! ### The frame table and the pixels -/

/-- A byte of the frame table. -/
theorem entryByte (hj : s.job = opcGif) {i : BitVec 16} (hi : i.toNat < s.nframes.toNat) {o : Nat} (ho : o < 16) :
    inByte t (byteAddr s s.frameBase (16 * i.toNat + o)) = inByte s (byteAddr s s.frameBase (16 * i.toNat + o)) :=
  h.bytes _ (.inl ⟨hj, .inr (.inl ⟨_, by omega, rfl⟩)⟩)

theorem read16_entry (hj : s.job = opcGif) {i : BitVec 16} (hi : i.toNat < s.nframes.toNat) {o : Nat} (ho : o + 2 ≤ 16) :
    read16 t t.frameBase (entryOffset i o) = read16 s s.frameBase (entryOffset i o) := by
  rw [h.frameBase]
  refine read16_congr h.build fun k hk => ?_
  rw [entryOffset, Nat.add_assoc]
  exact h.entryByte hj hi (by omega)

theorem read32_entry (hj : s.job = opcGif) {i : BitVec 16} (hi : i.toNat < s.nframes.toNat) {o : Nat} (ho : o + 4 ≤ 16) :
    read32 t t.frameBase (entryOffset i o) = read32 s s.frameBase (entryOffset i o) := by
  rw [h.frameBase]
  refine read32_congr h.build fun k hk => ?_
  rw [entryOffset, Nat.add_assoc]
  exact h.entryByte hj hi (by omega)

theorem pixAddr (hj : s.job = opcGif) {i : BitVec 16} (hi : i.toNat < s.nframes.toNat) :
    Machine.pixAddr t i = Machine.pixAddr s i := h.read32_entry hj hi (by decide)

theorem pixLen (hj : s.job = opcGif) {i : BitVec 16} (hi : i.toNat < s.nframes.toNat) :
    Machine.pixLen t i = Machine.pixLen s i := h.read32_entry hj hi (by decide)

theorem dimsOk (hj : s.job = opcGif) {i : BitVec 16} (hi : i.toNat < s.nframes.toNat) :
    Machine.dimsOk t i = Machine.dimsOk s i := by
  have hflags : flags t i = flags s i := h.read16_entry hj hi (by decide)
  have hw : frameWidth t i = frameWidth s i := h.read16_entry hj hi (by decide)
  have hh : frameHeight t i = frameHeight s i := h.read16_entry hj hi (by decide)
  simp only [Machine.dimsOk, dimsPresent, h.pixLen hj hi, hflags, hw, hh, h.width, h.height]

/-- A pixel of a frame. -/
theorem pixelByte (hj : s.job = opcGif) {i : BitVec 16} (hi : i.toNat < s.nframes.toNat) {k : Nat}
    (hk : k < (Machine.pixLen s i).toNat) :
    inByte t (byteAddr s (Machine.pixAddr s i) k) = inByte s (byteAddr s (Machine.pixAddr s i) k) :=
  h.bytes _ (.inl ⟨hj, .inr (.inr ⟨i, hi, k, hk, rfl⟩)⟩)

theorem pixelsOk (hj : s.job = opcGif) {i : BitVec 16} (hi : i.toNat < s.nframes.toNat) :
    Machine.pixelsOk t i = Machine.pixelsOk s i := by
  rw [Bool.eq_iff_iff, Machine.pixelsOk, Machine.pixelsOk, allBelow_iff, allBelow_iff, h.pixLen hj hi, h.pixAddr hj hi,
    h.palLen]
  simp only [byteAddr_congr h.build, Nat.zero_add]
  exact forall₂_congr fun k hk => by rw [h.pixelByte hj hi hk]

theorem frameOk_iff (hj : s.job = opcGif) {i : Nat} (hi : i < s.nframes.toNat) : frameOk t i ↔ frameOk s i := by
  have hlt : (BitVec.ofNat 16 i).toNat < s.nframes.toNat := by
    have := s.nframes.isLt
    rwa [BitVec.toNat_ofNat, Nat.mod_eq_of_lt (by omega)]
  rw [frameOk, frameOk, h.dimsOk hj hlt, h.pixelsOk hj hlt]

/-! ### The bytes a job reads -/

theorem gifReads_iff (hj : s.job = opcGif) (a : Nat) : GifReads t a ↔ GifReads s a := by
  simp only [GifReads, h.palLen, h.palBase, h.frameBase, h.nframes, byteAddr_congr h.build]
  refine or_congr Iff.rfl (or_congr Iff.rfl (exists_congr fun i => and_congr_right fun hi => ?_))
  rw [h.pixLen hj hi, h.pixAddr hj hi]

theorem jobReads_iff (a : Nat) : JobReads t a ↔ JobReads s a := by
  rw [JobReads, JobReads, h.job]
  refine or_congr (and_congr_right fun hj => h.gifReads_iff hj a) (and_congr_right fun _ => ?_)
  simp only [LzwReads, h.srcBase, h.srcLen, byteAddr_congr h.build]

end SameInputs

/-- A symbol of the current source is a byte the job reads. -/
theorem JobInv.reads_source {s : State} (hj : JobInv s) (hl : inLzw s.seq = true) {k : Nat} (hk : k < s.curN.toNat) :
    JobReads s (byteAddr s s.curSrc k) := by
  rcases hj.jobIs with hg | hz
  · have hgif := hj.gif hg
    obtain ⟨hsrc, hn, -⟩ := hgif.source hl
    have hi := hgif.frame (by simp [inFrame, hl])
    rw [hsrc]
    exact .inl ⟨hg, .inr (.inr ⟨s.fi, hi, k, hn ▸ hk, rfl⟩)⟩
  · obtain ⟨hsrc, hn, -⟩ := (hj.lzw hz).source
    rw [hsrc]
    exact .inr ⟨by rw [hz]; decide, k, hn ▸ hk, rfl⟩

/-- The symbols of a pass stay below 2^MCS while the source stays. -/
theorem JobInv.sourceInv_congr {s t : State} (hj : JobInv s) (hl : inLzw s.seq = true) (hi : SameInputs s t)
    (hm : t.mcs = s.mcs) (hsrc : t.curSrc = s.curSrc) (hn : t.curN = s.curN) : SourceInv t := by
  have hs := hj.source hl
  refine ⟨hm ▸ hs.mLow, hm ▸ hs.mHigh, fun k hk => ?_⟩
  rw [hn] at hk
  rw [hm, hsrc, byteAddr_congr hi.build, hi.bytes _ (hj.reads_source hl hk)]
  exact hs.symbols k hk

/-- In one memory the later state's regions are apart as they were (R146 (f)). -/
theorem JobInv.disjoint_congr {s t : State} (hj : JobInv s) (hi : SameInputs s t) (hs : t.build.sharedMemory = true)
    (a : Nat) (ho : OutRegion t a) : ¬ JobReads t a := by
  rw [hi.jobReads_iff]
  exact hj.disjoint (hi.build ▸ hs) a ((hi.outRegion_iff a).mp ho)

end Sys2Proof.Machine
end

section
/-! PROOFS. The invariant over a host turn (R20, R23, R25, R47 (b), R121, R125, R132): reset, register writes and reads, the
host's bytes, an illegal command, and the start of a job. -/

namespace Sys2Proof.Machine

/-! ### Without a job -/

/-- Without a job the invariant is about the memories and STATUS. -/
theorem Inv.of_idle {s : State} (hc : CanonicalInv s) (hs : StatusInv s) (hb : s.busy = false) : Inv s :=
  ⟨hc, hs, fun h => absurd (h.symm.trans hb) nofun⟩

/-- A reset keeps the memories and leaves STATUS in order, whatever stood there. -/
theorem inv_resetBlock {s : State} (hi : Memory.wf s.build.addrBits s.inMem) (ho : Memory.wf s.build.addrBits s.outMem) :
    Inv (resetBlock s) := by
  refine .of_idle ⟨hi, ho, .nil, nofun, .nil, nofun⟩ ?_ rfl
  constructor <;> simp [State.reset]

/-- Settles O49: the first state is the reset of itself. -/
theorem resetMeetsInvariant : Obligations.ResetMeetsInvariant :=
  inv_resetBlock (s := State.reset) ⟨.nil, nofun⟩ ⟨.nil, nofun⟩

/-- An abort ends the job and records its error (R131); no abort records CODE_WIDTH_OVERFLOW. -/
theorem inv_abort {e : ErrCode} {u : State} (hc : CanonicalInv u) (h0 : e ≠ .noError) (hw : e ≠ .codeWidthOverflow)
    (f : FrameIdx) : Inv (abort e f u) := by
  refine .of_idle { hc with outWf := wf_forgetOut hc.outWf } ?_ rfl
  constructor <;> simp [h0, hw]

theorem inv_raiseIllegal {s : State} (h : Inv s) (hb : s.busy = false) : Inv (raiseIllegal s) := by
  have hseq : s.seq = SeqCode.idle := not_not.mp fun hne => absurd (hb.symm.trans (h.status.busyIff.mpr hne)) nofun
  refine .of_idle { h.canonical with } ?_ hb
  constructor <;> simp [hb, hseq]

/-- The configuration is no part of the invariant without a job. -/
theorem inv_config {s u : State} (h : Inv s) (hb : s.busy = false) (hu : OnlyConfig s u) : Inv u := by
  unfold OnlyConfig at hu
  rw [hu]
  exact .of_idle { h.canonical with } { h.status with } hb

/-! ### The start of a job (R121) -/

/-- A clause about where SEQ stands that a code outside the named part meets. -/
theorem vacuous {b : Bool} {p : Prop} (hb : b = false) (h : b = true) : p := absurd (hb.symm.trans h) nofun

theorem vacuous_eq {c d : BitVec 8} {p : Prop} (hne : (c == d) = false) (h : c = d) : p :=
  vacuous hne (beq_iff_eq.mpr h)

theorem gifInv_acceptGif (loop : Bool) (s : State) : GifInv (acceptGif loop s) where
  seqIn := rfl
  palette hne := absurd rfl hne
  checking := vacuous_eq rfl
  checked := vacuous rfl
  header := vacuous rfl
  frame := vacuous rfl
  source := vacuous rfl
  chunkLow h := h.elim (vacuous rfl) (vacuous_eq rfl)

/-- STATUS as the start of a job leaves it (R121). -/
theorem statusInv_of_started {u : State} (hb : u.busy = true) (hseq : u.seq ≠ SeqCode.idle)
    (hflags : u.done = false ∧ u.err = false ∧ u.outLen = 0) (hcode : u.errCode = .noError ∧ u.errFrame = noFrame) :
    StatusInv u := by
  obtain ⟨hd, he, hl⟩ := hflags
  obtain ⟨hc, hf⟩ := hcode
  constructor <;> simp [hb, hseq, hd, he, hl, hc, hf]

/-- An accepted job stands at its first operation with STATUS cleared, and its regions are apart where they must be. -/
theorem inv_accept {s u : State} (h : Inv s)
    (hu : (∃ loop, u = acceptGif loop s) ∨ ∃ m, legalM m = true ∧ u = acceptLzw m s)
    (hd : u.build.sharedMemory = true → ∀ a, OutRegion u a → ¬ JobReads u a) : Inv u := by
  obtain ⟨loop, rfl⟩ | ⟨m, hm, rfl⟩ := hu
  · refine ⟨{ h.canonical with }, statusInv_of_started rfl (vacuous_eq rfl) ⟨rfl, rfl, rfl⟩ ⟨rfl, rfl⟩, fun _ => ?_⟩
    exact ⟨.inl rfl, Nat.zero_le _, fun _ => gifInv_acceptGif loop s, vacuous_eq rfl, vacuous rfl, vacuous rfl, hd⟩
  · refine ⟨{ h.canonical with }, statusInv_of_started rfl (vacuous_eq rfl) ⟨rfl, rfl, rfl⟩ ⟨rfl, rfl⟩, fun _ => ?_⟩
    exact ⟨.inr rfl, Nat.zero_le _, vacuous_eq rfl, fun _ => ⟨rfl, hm, rfl, rfl, rfl⟩, vacuous rfl, vacuous rfl, hd⟩

/-! ### While a job may run -/

/-- The fields of the state a host turn writes while a job runs, taken from `u`. -/
def withHostSide (u s : State) : State :=
  { s with
    done := u.done, err := u.err, errCode := u.errCode, errFrame := u.errFrame, ie := u.ie, inMem := u.inMem,
    outMem := u.outMem, agenda := u.agenda, hostData := u.hostData }

/-- A job does not see a host turn that leaves its inputs (R47). -/
theorem JobInv.withHostSide {s u : State} (h : JobInv s)
    (hb : ∀ a, JobReads s a → inByte (withHostSide u s) a = inByte s a) : JobInv (withHostSide u s) := by
  have hi : SameInputs s (Machine.withHostSide u s) := ⟨rfl, rfl, hb⟩
  refine ⟨h.jobIs, h.outLow, fun hj => ?_, fun hj => ?_, fun hl => ?_, fun hp => ?_, h.disjoint_congr hi⟩
  · have hg := h.gif hj
    refine ⟨hg.seqIn, hg.palette, fun hc => ?_, fun hc i hlt => ?_, hg.header, hg.frame, fun hl => ?_, hg.chunkLow⟩
    · obtain ⟨hlt, hok⟩ := hg.checking hc
      exact ⟨hlt, fun i hf => (hi.frameOk_iff hj (Nat.lt_trans hf hlt)).mpr (hok i hf)⟩
    · exact (hi.frameOk_iff hj hlt).mpr (hg.checked hc i hlt)
    · have hlt := hg.frame (by simp [inFrame, show inLzw s.seq = true from hl])
      obtain ⟨hsrc, hn, hk⟩ := hg.source hl
      exact ⟨hsrc.trans (hi.pixAddr hj hlt).symm, hn.trans (hi.pixLen hj hlt).symm, hk⟩
  · exact ⟨(h.lzw hj).seqIn, (h.lzw hj).mLegal, (h.lzw hj).source⟩
  · exact h.sourceInv_congr hl hi rfl rfl rfl
  · exact { h.pass hp with table := ⟨(h.pass hp).table.filled, (h.pass hp).table.entry, (h.pass hp).table.distinct⟩ }

theorem Inv.withHostSide {s u : State} (h : Inv s) (hs : StatusInv (withHostSide u s))
    (hin : Memory.wf s.build.addrBits u.inMem) (hout : Memory.wf s.build.addrBits u.outMem)
    (hb : s.busy = true → ∀ a, JobReads s a → inByte (withHostSide u s) a = inByte s a) : Inv (withHostSide u s) :=
  ⟨{ h.canonical with inWf := hin, outWf := hout }, hs, fun hbusy => (h.job hbusy).withHostSide (hb hbusy)⟩

theorem statusInv_clearDone {s : State} (h : StatusInv s) : StatusInv (clearDone s) where
  __ := h
  busyClear hb := ⟨rfl, (h.busyClear hb).2⟩
  notBoth hboth := nomatch hboth.1

theorem statusInv_clearErr {s : State} (h : StatusInv s) : StatusInv (clearErr s) where
  __ := h
  busyClear hb := ⟨(h.busyClear hb).1, rfl, (h.busyClear hb).2.2⟩
  notBoth hboth := nomatch hboth.2
  noErr _ := ⟨rfl, rfl⟩
  isErr := nofun
  noWidthError := nofun

theorem statusInv_writeStatus {s : State} (h : StatusInv s) (v : Word) : StatusInv (writeStatus v s) := by
  have hd : StatusInv (if v.getLsbD 1 then clearDone s else s) := by
    split
    · exact statusInv_clearDone h
    · exact h
  generalize hu : (if v.getLsbD 1 then clearDone s else s) = u at hd
  have hw : writeStatus v s = if v.getLsbD 2 then clearErr u else u := by
    rw [← hu]
    rfl
  rw [hw]
  split
  · exact statusInv_clearErr hd
  · exact hd

theorem inv_writeStatus {s : State} (h : Inv s) (v : Word) : Inv (writeStatus v s) := by
  have hw : writeStatus v s = withHostSide (writeStatus v s) s := by
    rw [writeStatus_eq]
    rfl
  have hs := statusInv_writeStatus h.status v
  have hin : (writeStatus v s).inMem = s.inMem := by rw [writeStatus_eq]
  have hout : (writeStatus v s).outMem = s.outMem := by rw [writeStatus_eq]
  rw [hw] at hs ⊢
  refine h.withHostSide hs (hin ▸ h.canonical.inWf) (hout ▸ h.canonical.outWf) fun _ b _ => ?_
  exact inByte_congr (s := s) (t := withHostSide (writeStatus v s) s) rfl hin rfl hout rfl b

/-- A byte of the host's in IN: the job does not read it, or no job runs. -/
theorem inv_writeInByte {s : State} (h : Inv s) (a : Nat) (v : Byte)
    (hr : ¬ (s.busy = true ∧ JobReads s (wrapAddr s a))) : Inv (writeInByte (wrapAddr s a) v s) := by
  obtain ⟨hin, hout⟩ := wf_writeInByte (v := v) (wrapAddr_lt s a) h.canonical.inWf h.canonical.outWf
  have hw : writeInByte (wrapAddr s a) v s = withHostSide (writeInByte (wrapAddr s a) v s) s := by
    rw [writeInByte_eq]
    split <;> rfl
  have hs : StatusInv (writeInByte (wrapAddr s a) v s) := by
    rw [writeInByte_eq]
    split
    · exact { h.status with }
    · exact { h.status with }
  rw [hw] at hs ⊢
  refine h.withHostSide hs hin hout fun hb b hread => ?_
  rw [← hw, inByte_writeInByte, if_neg]
  rintro rfl
  exact hr ⟨hb, hread⟩

/-- Where IN and OUT are one memory, an OUT byte that is no byte the job reads; in separate memories, any. -/
theorem inByte_writeOutByte {s : State} {a b : Nat} (v : Byte) (h : s.build.sharedMemory = true → b ≠ a) :
    inByte (writeOutByte a v s) b = inByte s b := by
  cases hs : s.build.sharedMemory with
  | false => exact inByte_congr_separate (s := s) (t := writeOutByte a v s) rfl hs rfl rfl b
  | true =>
    rw [inByte_of_shared hs, inByte_of_shared (s := writeOutByte a v s) hs, outByteAt_writeOutByte, if_neg (h hs)]

theorem inv_writeOutByte {s : State} (h : Inv s) (a : Nat) (v : Byte)
    (hr : ¬ (s.build.sharedMemory = true ∧ s.busy = true ∧ JobReads s (wrapAddr s a))) :
    Inv (writeOutByte (wrapAddr s a) v s) := by
  refine h.withHostSide (u := writeOutByte (wrapAddr s a) v s) { h.status with } h.canonical.inWf
    (wf_writeOutByte (wrapAddr_lt s a) h.canonical.outWf) fun hb b hread => inByte_writeOutByte v fun hs => ?_
  rintro rfl
  exact hr ⟨hs, hb, hread⟩

/-- Every host turn keeps the invariant. -/
theorem Inv.hostEffect {s t : State} (h : Inv s) (ht : HostEffect s t) : Inv t := by
  cases ht with
  | same => exact h
  | illegal hb => exact inv_raiseIllegal h hb
  | accept u hb hu hd => exact inv_accept h hu hd
  | reset => exact inv_resetBlock h.canonical.inWf h.canonical.outWf
  | status v => exact inv_writeStatus h v
  | ctrl b =>
    exact h.withHostSide (u := { s with ie := b }) { h.status with } h.canonical.inWf h.canonical.outWf fun _ _ _ => rfl
  | config u hb hu => exact inv_config h hb hu
  | read x l =>
    exact h.withHostSide (u := { s with hostData := x, agenda := l }) { h.status with } h.canonical.inWf h.canonical.outWf
      fun _ _ _ => rfl
  | writeIn a v hr => exact inv_writeInByte h a v hr
  | writeOut a v hr => exact inv_writeOutByte h a v hr

end Sys2Proof.Machine
end

section
/-! PROOFS. How an operation carries a running job on (R57): only the job's own registers and its OUT region change, so STATUS
stays in order and the job's inputs stay as they were, in one memory too (R146 (f)). -/

namespace Sys2Proof.Machine

/-! ### What an operation changes -/

/-- Only the registers of the job and OUT changed. -/
def OnlyJob (s t : State) : Prop :=
  t = { s with
    seq := t.seq, fi := t.fi, pi := t.pi, curSrc := t.curSrc, curN := t.curN, sink := t.sink, outPtr := t.outPtr,
    plen := t.plen, mcs := t.mcs, clearCode := t.clearCode, endCode := t.endCode, w := t.w, next := t.next,
    accValid := t.accValid, accCode := t.accCode, table := t.table, bitBuf := t.bitBuf, bitCnt := t.bitCnt,
    chunk := t.chunk, chunkLen := t.chunkLen, lzwLast := t.lzwLast, outMem := t.outMem }

/-- A state in which an operation of the job of `s` may leave the system: TABLE, CHUNK and OUT in canonical form, OUT_PTR within
OUT_CAP, and OUT as it was outside the job's region. -/
structure Advance (s t : State) : Prop where
  only : OnlyJob s t
  canonical : CanonicalInv t
  outLow : t.outPtr.toNat ≤ t.outCap.toNat
  outside : ∀ a, ¬ OutRegion s a → outByteAt t a = outByteAt s a

theorem Advance.refl {s : State} (hc : CanonicalInv s) (ho : s.outPtr.toNat ≤ s.outCap.toNat) : Advance s s :=
  ⟨rfl, hc, ho, fun _ _ => rfl⟩

theorem OnlyJob.settings {s t : State} (h : OnlyJob s t) : t.settings = s.settings := by
  unfold OnlyJob at h
  rw [h]
  rfl

theorem OnlyJob.trans {s t u : State} (h1 : OnlyJob s t) (h2 : OnlyJob t u) : OnlyJob s u := by
  unfold OnlyJob at h1 h2 ⊢
  calc u = _ := h2
    _ = _ := by rw [h1]

theorem OnlyJob.of_onlyPacker {s t : State} (h : OnlyPacker s t) : OnlyJob s t := by
  unfold OnlyPacker at h
  unfold OnlyJob
  rw [h]

/-- An update of job registers that leaves TABLE, CHUNK, OUT and OUT_PTR alone. -/
theorem Advance.update {s t u : State} (h : Advance s t) (ho : OnlyJob t u) (htable : u.table = t.table)
    (hchunk : u.chunk = t.chunk) (hout : u.outMem = t.outMem) (hptr : u.outPtr = t.outPtr) : Advance s u := by
  have hcap : u.outCap = t.outCap := congrArg Settings.outCap ho.settings
  refine ⟨h.only.trans ho, ?_, ?_, fun a ha => ?_⟩
  · unfold OnlyJob at ho
    rw [ho, htable, hchunk, hout]
    exact { h.canonical with }
  · rw [hptr, hcap]
    exact h.outLow
  · rw [← h.outside a ha]
    unfold OnlyJob at ho
    rw [ho, hout]
    rfl

/-! ### A run of the packers -/

/-- What `outByte` and the packers can do to a job (R84 to R86, R102, R103). -/
structure PackerRun (s t : State) : Prop extends Advance s t where
  packer : OnlyPacker s t
  seq : t.seq = s.seq

theorem PackerRun.refl {s : State} (hc : CanonicalInv s) (ho : s.outPtr.toNat ≤ s.outCap.toNat) : PackerRun s s :=
  ⟨.refl hc ho, rfl, rfl⟩

/-- A byte that lands lies in the job's region. -/
theorem PackerRun.pushOut {s t : State} (h : PackerRun s t) (v : Byte) (hlt : t.outPtr.toNat < t.outCap.toNat) :
    PackerRun s (pushOut v t) where
  only := h.only.trans rfl
  canonical := { h.canonical with outWf := Cells.wf_put v (byteAddr_lt _ _ _) h.canonical.outWf }
  outLow := by
    rw [outPtr_pushOut_toNat hlt]
    exact hlt
  outside a ha := by
    have hreg : ¬ OutRegion t a := by
      have hset := h.only.settings
      rwa [outRegion_congr (congrArg Settings.build hset) (congrArg Settings.outBase hset)
        (congrArg Settings.outCap hset)]
    rw [← h.outside a ha]
    exact (outByteAt_writeOutByte _ _ _ _).trans (if_neg fun heq => hreg ⟨_, hlt, heq⟩)
  packer := h.packer.trans rfl
  seq := h.seq

/-- CHUNK has no byte 255. -/
theorem PackerRun.pushChunk {s t : State} (h : PackerRun s t) (v : Byte) (hne : t.chunkLen ≠ 255#8) :
    PackerRun s (pushChunk v t) where
  only := h.only.trans rfl
  canonical := { h.canonical with
    chunkRising := Cells.rising_put _ _ h.canonical.chunkRising
    chunkBelow := Cells.below_put h.canonical.chunkBelow (by
      show t.chunkLen.toNat < 255
      bv_omega) }
  outLow := h.outLow
  outside := h.outside
  packer := h.packer.trans rfl
  seq := h.seq

/-- An update of the packers' registers. -/
theorem PackerRun.update {s t u : State} (h : PackerRun s t) (ho : OnlyPacker t u) (hseq : u.seq = t.seq)
    (hchunk : u.chunk = t.chunk) (hout : u.outMem = t.outMem) (hptr : u.outPtr = t.outPtr) : PackerRun s u := by
  have htable : u.table = t.table := by
    unfold OnlyPacker at ho
    rw [ho]
  exact ⟨h.toAdvance.update (.of_onlyPacker ho) htable hchunk hout hptr, h.packer.trans ho, hseq.trans h.seq⟩

theorem packerClosed_packerRun (s : State) : PackerClosed (PackerRun s) where
  pushOut v _ hlt h := h.pushOut v hlt
  emptyChunk _ h := h.update rfl rfl rfl rfl rfl
  pushChunk v _ hne h := h.pushChunk v hne
  setBit _ _ h := h.update rfl rfl rfl rfl rfl
  countBit _ h := h.update rfl rfl rfl rfl rfl
  clearBits _ h := h.update rfl rfl rfl rfl rfl

theorem PackerRun.inv_overflow {s u : State} (f : FrameIdx) (h : PackerRun s u) : Inv (abort .outputOverflow f u) :=
  inv_abort (e := .outputOverflow) h.canonical nofun nofun f

/-! ### The job goes on -/

theorem OnlyJob.busy {s t : State} (h : OnlyJob s t) : t.busy = s.busy := by
  unfold OnlyJob at h
  rw [h]

/-- STATUS is that of a running job while SEQ has not come back to IDLE. -/
theorem StatusInv.onlyJob {s t : State} (h : StatusInv s) (hb : s.busy = true) (ho : OnlyJob s t)
    (hseq : t.seq ≠ SeqCode.idle) : StatusInv t := by
  unfold OnlyJob at ho
  rw [ho]
  exact { h with busyIff := ⟨fun _ => hseq, fun _ => hb⟩ }

/-- An operation leaves the bytes of IN its job reads as they were: in one memory, they lie outside the OUT region. -/
theorem Advance.sameInputs {s t : State} (h : Advance s t) (hj : JobInv s) : SameInputs s t := by
  have hbuild : t.build = s.build := congrArg Settings.build h.only.settings
  have ho := h.only
  unfold OnlyJob at ho
  refine ⟨h.only.settings, by rw [ho], fun a ha => ?_⟩
  cases hs : s.build.sharedMemory with
  | false => exact inByte_congr_separate hbuild hs (by rw [ho]) (by rw [ho]) a
  | true =>
    rw [inByte_of_shared hs, inByte_of_shared (hbuild ▸ hs)]
    exact h.outside a fun hout => hj.disjoint hs a hout ha

/-- The invariant of the state an operation goes on to, from that of the job. -/
theorem Inv.advance {s t : State} (h : Inv s) (hb : s.busy = true) (ha : Advance s t) (hseq : t.seq ≠ SeqCode.idle)
    (hg : s.job = opcGif → GifInv t) (hz : s.job = opcLzw → LzwJobInv t) (hl : inLzw t.seq = true → SourceInv t)
    (hp : inPass t.seq = true → PassInv t) : Inv t := by
  have hj := h.job hb
  have hi := ha.sameInputs hj
  exact ⟨ha.canonical, h.status.onlyJob hb ha.only hseq, fun _ =>
    ⟨hi.job ▸ hj.jobIs, ha.outLow, hi.job ▸ hg, hi.job ▸ hz, hl, hp, hj.disjoint_congr hi⟩⟩

end Sys2Proof.Machine
end

section
/-! PROOFS. The invariant over the operations of the GIF writer (R99, R104 to R115). -/

namespace Sys2Proof.Machine

/-! ### Palette normalisation (R8, R99) -/

theorem le_two_pow_ceilLog2From {n fuel k : Nat} (h : n ≤ 2 ^ (k + fuel)) : n ≤ 2 ^ ceilLog2From n fuel k := by
  induction fuel generalizing k with
  | zero => exact h
  | succ fuel ih =>
    unfold ceilLog2From
    split
    · assumption
    · exact ih (by rwa [Nat.add_right_comm, Nat.add_assoc])

theorem ceilLog2From_le {n m fuel k : Nat} (hk : k ≤ m) (h : n ≤ 2 ^ m) : ceilLog2From n fuel k ≤ m := by
  induction fuel generalizing k with
  | zero => exact hk
  | succ fuel ih =>
    unfold ceilLog2From
    split
    · exact hk
    next hn => exact ih (Nat.lt_of_le_of_ne hk fun he => hn (he ▸ h))

theorem le_two_pow_ceilLog2 (n : Nat) : n ≤ 2 ^ ceilLog2 n :=
  le_two_pow_ceilLog2From (by rw [Nat.zero_add]; exact Nat.lt_two_pow_self.le)

theorem ceilLog2_le {n m : Nat} (h : n ≤ 2 ^ m) : ceilLog2 n ≤ m := ceilLog2From_le (Nat.zero_le m) h

/-- The padded length is a power of two. -/
theorem paddedLen_eq (len : Nat) : paddedLen len = 2 ^ max 1 (ceilLog2 len) := by
  rcases Nat.le_total (ceilLog2 len) 1 with h | h
  · rw [Nat.max_eq_left h]
    exact Nat.max_eq_left (Nat.pow_le_pow_right (by decide) h)
  · rw [Nat.max_eq_right h]
    exact Nat.max_eq_right (Nat.pow_le_pow_right (n := 2) (i := 1) (by decide) h)

theorem minCodeSize_paddedLen (len : Nat) : minCodeSize (paddedLen len) = max 2 (ceilLog2 len) := by
  rw [paddedLen_eq, minCodeSize, Nat.log2_two_pow]
  simp only [Config.mMin]
  omega

theorem minCodeSize_bounds {len : Nat} (h : len ≤ 256) :
    2 ≤ minCodeSize (paddedLen len) ∧ minCodeSize (paddedLen len) ≤ 8 ∧ len ≤ 2 ^ minCodeSize (paddedLen len) := by
  have h8 : ceilLog2 len ≤ 8 := ceilLog2_le h
  rw [minCodeSize_paddedLen]
  exact ⟨by omega, by omega, (le_two_pow_ceilLog2 len).trans (Nat.pow_le_pow_right (by decide) (by omega))⟩

theorem paddedLen_lt {len : Nat} (h : len ≤ 256) : paddedLen len < 2 ^ 9 := by
  have h8 : ceilLog2 len ≤ 8 := ceilLog2_le h
  rw [paddedLen_eq]
  exact Nat.pow_lt_pow_right (by decide) (by omega)

theorem palLenOk_iff (s : State) : palLenOk s = true ↔ s.palLen.toNat ≠ 0 ∧ s.palLen.toNat ≤ 256 := by
  simp [palLenOk]

/-- The registers G.CHECK_PAL sets hold what R99 gives. -/
theorem toNat_plen_setPalette {s : State} (h : palLenOk s = true) :
    (setPalette s).plen.toNat = paddedLen s.palLen.toNat :=
  (BitVec.toNat_ofNat _ _).trans (Nat.mod_eq_of_lt (paddedLen_lt ((palLenOk_iff s).mp h).2))

theorem toNat_mcs_setPalette {s : State} (h : palLenOk s = true) :
    (setPalette s).mcs.toNat = minCodeSize (paddedLen s.palLen.toNat) := by
  obtain ⟨-, h8, -⟩ := minCodeSize_bounds ((palLenOk_iff s).mp h).2
  exact (BitVec.toNat_ofNat _ _).trans (Nat.mod_eq_of_lt (by omega))

/-! ### A job on its way -/

/-- An operation other than IDLE belongs to a running job. -/
theorem Inv.busy_of_ne_idle {s : State} (h : Inv s) (hne : s.seq ≠ SeqCode.idle) : s.busy = true :=
  h.status.busyIff.mpr hne

/-- An operation that no LZW_ENCODE job runs is one of a GIF_ENCODE job. -/
theorem JobInv.job_eq_gif {s : State} (h : JobInv s) (hc : inLzwJob s.seq = false) : s.job = opcGif :=
  h.jobIs.elim id fun hl => absurd (h.lzw hl).seqIn (by rw [hc]; decide)

theorem ne_idle_of_inWriting {c : BitVec 8} (h : inWriting c = true) : c ≠ SeqCode.idle := by
  rintro rfl
  exact absurd h (by decide)

section

variable {s : State} (h : Inv s) (hb : s.busy = true)
include h hb

theorem Inv.packerRun : PackerRun s s := .refl h.canonical (h.job hb).outLow

theorem Inv.outByte_reaches (v : Byte) : (outByte v s).Reaches Inv (PackerRun s) :=
  (packerClosed_packerRun s).outByte (fun f _ hu => hu.inv_overflow f) (h.packerRun hb) v

theorem Inv.outBytes_reaches (bs : List Byte) : (outBytes bs s).Reaches Inv (PackerRun s) :=
  (packerClosed_packerRun s).outBytes (fun f _ hu => hu.inv_overflow f) (h.packerRun hb) bs

end

/-! ### The clauses of a GIF_ENCODE job -/

/-- The pixels of the frame that is encoded are symbols below 2^MCS (R67, R100). -/
theorem GifInv.sourceInv {s : State} (h : GifInv s) (hl : inLzw s.seq = true) : SourceInv s := by
  have hne : s.seq ≠ SeqCode.gCheckPal := fun he => absurd hl (by rw [he]; decide)
  have hframe : inFrame s.seq = true := by simp [inFrame, hl]
  have hwriting : inWriting s.seq = true := by simp [inWriting, hframe]
  obtain ⟨hpal, -, hmcs⟩ := h.palette hne
  obtain ⟨hm2, hm8, hlen⟩ := minCodeSize_bounds ((palLenOk_iff s).mp hpal).2
  obtain ⟨hsrc, hn, -⟩ := h.source hl
  obtain ⟨-, hpix⟩ := h.checked hwriting _ (h.frame hframe)
  rw [BitVec.ofNat_toNat, BitVec.setWidth_eq, pixelsOk, allBelow_iff] at hpix
  rw [← hmcs] at hm2 hm8 hlen
  refine ⟨hm2, hm8, fun k hk => ?_⟩
  have hlt := hpix k (hn ▸ hk)
  rw [Nat.zero_add, ← hsrc] at hlt
  exact Nat.lt_of_lt_of_le hlt hlen

/-- The writing operations of a GIF_ENCODE job keep the palette's registers and the checked frames. -/
theorem GifInv.advance {s t : State} (h : GifInv s) (hj : s.job = opcGif) (hi : SameInputs s t)
    (hw : inWriting s.seq = true) (hw' : inWriting t.seq = true) (hpal : t.plen = s.plen ∧ t.mcs = s.mcs)
    (header : inHeader t.seq = true → t.fi = 0) (frame : inFrame t.seq = true → t.fi.toNat < s.nframes.toNat)
    (source : inLzw t.seq = true → t.curSrc = pixAddr t t.fi ∧ t.curN = pixLen t t.fi ∧ t.sink = .sub)
    (chunkLow : inLzw t.seq = true ∨ t.seq = SeqCode.bTerm → t.chunkLen.toNat ≤ 254) : GifInv t where
  seqIn := by simp [inGif, hw']
  palette _ := by
    rw [palLenOk, hpal.1, hpal.2, hi.palLen]
    exact h.palette fun he => absurd hw (by rw [he]; decide)
  checking he := absurd hw' (by rw [he]; decide)
  checked _ i hlt := by
    rw [hi.nframes] at hlt
    exact (hi.frameOk_iff hj hlt).mpr (h.checked hw i hlt)
  header := header
  frame := hi.nframes ▸ frame
  source := source
  chunkLow := chunkLow

/-- A job whose palette is normalised, at a check of a frame or past the checks. -/
theorem gifInv_of_checks {t : State} (hc : t.seq = SeqCode.gSig ∨ t.seq = SeqCode.gCheckFrame)
    (hpal : palLenOk t = true ∧ t.plen.toNat = paddedLen t.palLen.toNat
      ∧ t.mcs.toNat = minCodeSize (paddedLen t.palLen.toNat))
    (checking : t.seq = SeqCode.gCheckFrame → t.fi.toNat < t.nframes.toNat ∧ ∀ i < t.fi.toNat, frameOk t i)
    (checked : t.seq = SeqCode.gSig → ∀ i < t.nframes.toNat, frameOk t i) : GifInv t := by
  obtain ⟨hin, hheader, hframe, hlzw, hterm⟩ : inGif t.seq = true ∧ inHeader t.seq = false ∧ inFrame t.seq = false
      ∧ inLzw t.seq = false ∧ t.seq ≠ SeqCode.bTerm := by
    rcases hc with hc | hc <;> rw [hc] <;> decide
  refine ⟨hin, fun _ => hpal, checking, fun hw => checked (hc.resolve_right fun he => ?_), vacuous hheader,
    vacuous hframe, vacuous hlzw, fun hor => hor.elim (vacuous hlzw) fun he => absurd he hterm⟩
  rw [he] at hw
  exact absurd hw (by decide)

/-! ### The writing operations outside a pass (R106 to R111, R113 to R115) -/

theorem OnlyPacker.palette {s t : State} (h : OnlyPacker s t) : t.plen = s.plen ∧ t.mcs = s.mcs := by
  unfold OnlyPacker at h
  rw [h]
  exact ⟨rfl, rfl⟩

/-- An operation outside a pass wrote, set FI to `x` and goes on to another one outside a pass. -/
theorem Inv.gif_goto_fi {s u : State} {c : BitVec 8} (h : Inv s) (hs : inWriting s.seq = true ∧ inLzwJob s.seq = false)
    (hu : PackerRun s u) (x : BitVec 16) (hc : inWriting c = true ∧ inLzw c = false ∧ c ≠ SeqCode.bTerm)
    (header : inHeader c = true → x = 0) (frame : inFrame c = true → x.toNat < s.nframes.toNat) :
    Inv (goto c { u with fi := x }) := by
  obtain ⟨hw, hz⟩ := hs
  obtain ⟨hw', hl, hterm⟩ := hc
  have hb := h.busy_of_ne_idle (ne_idle_of_inWriting hw)
  have hj := h.job hb
  have hgif := hj.job_eq_gif hz
  have ha : Advance s (goto c { u with fi := x }) := hu.toAdvance.update rfl rfl rfl rfl rfl
  have hg : GifInv (goto c { u with fi := x }) :=
    (hj.gif hgif).advance hgif (ha.sameInputs hj) hw hw' hu.packer.palette header frame (vacuous hl)
      fun hor => hor.elim (vacuous hl) fun he => absurd he hterm
  refine h.advance hb ha (ne_idle_of_inWriting hw') (fun _ => hg) (fun he => absurd (hgif.symm.trans he) (by decide))
    (vacuous hl) (vacuous ?_)
  rw [inLzw, Bool.or_eq_false_iff] at hl
  exact hl.2

/-- The same with FI as it was. -/
theorem Inv.gif_goto {s u : State} {c : BitVec 8} (h : Inv s) (hs : inWriting s.seq = true ∧ inLzwJob s.seq = false)
    (hu : PackerRun s u) (hc : inWriting c = true ∧ inLzw c = false ∧ c ≠ SeqCode.bTerm)
    (header : inHeader c = true → s.fi = 0) (frame : inFrame c = true → s.fi.toNat < s.nframes.toNat) :
    Inv (goto c u) := by
  obtain ⟨-, -, -, -, hfi, -⟩ := hu.packer.keeps
  rw [← hfi] at header frame
  exact h.gif_goto_fi hs hu u.fi hc header frame

/-- The header goes on to the first frame, or to the trailer without one. -/
theorem Inv.gif_goto_firstFrame {s u : State} (h : Inv s) (hs : inWriting s.seq = true ∧ inLzwJob s.seq = false)
    (hu : PackerRun s u) (hfi : s.fi = 0) : Inv (goto (firstFrame u) u) := by
  have hn : u.nframes = s.nframes := congrArg Settings.nframes hu.only.settings
  unfold firstFrame
  split
  · exact h.gif_goto hs hu (by decide) (vacuous rfl) (vacuous rfl)
  next hne =>
    refine h.gif_goto hs hu (by decide) (fun _ => hfi) fun _ => ?_
    rw [hn] at hne
    rw [hfi]
    exact Nat.pos_of_ne_zero fun h0 => hne (BitVec.eq_of_toNat_eq h0)

section

variable {s : State} (h : Inv s)
include h

/-- Where SEQ stands at an operation of a GIF_ENCODE job outside a pass. -/
theorem Inv.gif_at {c : BitVec 8} (hc : s.seq = c) (hz : inLzwJob c = false) (hne : c ≠ SeqCode.idle) :
    s.busy = true ∧ s.job = opcGif ∧ GifInv s := by
  subst hc
  have hb := h.busy_of_ne_idle hne
  have hj := (h.job hb).job_eq_gif hz
  exact ⟨hb, hj, (h.job hb).gif hj⟩

theorem keeps_execGSig (hc : s.seq = SeqCode.gSig) : Keeps Inv (execGSig s) := by
  obtain ⟨hb, -, -⟩ := h.gif_at hc rfl (by decide)
  exact (h.outBytes_reaches hb _).close fun u hu =>
    h.gif_goto_fi (by rw [hc]; decide) hu 0 (by decide) (fun _ => rfl) (vacuous rfl)

theorem keeps_execGLsd (hc : s.seq = SeqCode.gLsd) : Keeps Inv (execGLsd s) := by
  obtain ⟨hb, -, hg⟩ := h.gif_at hc rfl (by decide)
  exact (h.outBytes_reaches hb _).close fun u hu =>
    h.gif_goto (by rw [hc]; decide) hu (by decide) (fun _ => hg.header (by rw [hc]; decide)) (vacuous rfl)

theorem keeps_execGGct (hc : s.seq = SeqCode.gGct) : Keeps Inv (execGGct s) := by
  obtain ⟨hb, -, hg⟩ := h.gif_at hc rfl (by decide)
  have hfi := hg.header (by rw [hc]; decide)
  refine (h.outBytes_reaches hb _).close fun u hu => ?_
  split
  · exact h.gif_goto (by rw [hc]; decide) hu (by decide) (fun _ => hfi) (vacuous rfl)
  · exact h.gif_goto_firstFrame (by rw [hc]; decide) hu hfi

theorem keeps_execGNetscape (hc : s.seq = SeqCode.gNetscape) : Keeps Inv (execGNetscape s) := by
  obtain ⟨hb, -, hg⟩ := h.gif_at hc rfl (by decide)
  exact (h.outBytes_reaches hb _).close fun u hu =>
    h.gif_goto_firstFrame (by rw [hc]; decide) hu (hg.header (by rw [hc]; decide))

theorem keeps_execGGce (hc : s.seq = SeqCode.gGce) : Keeps Inv (execGGce s) := by
  obtain ⟨hb, -, hg⟩ := h.gif_at hc rfl (by decide)
  exact (h.outBytes_reaches hb _).close fun u hu =>
    h.gif_goto (by rw [hc]; decide) hu (by decide) (vacuous rfl) fun _ => hg.frame (by rw [hc]; decide)

theorem keeps_execGIdesc (hc : s.seq = SeqCode.gIdesc) : Keeps Inv (execGIdesc s) := by
  obtain ⟨hb, -, hg⟩ := h.gif_at hc rfl (by decide)
  exact (h.outBytes_reaches hb _).close fun u hu =>
    h.gif_goto (by rw [hc]; decide) hu (by decide) (vacuous rfl) fun _ => hg.frame (by rw [hc]; decide)

theorem keeps_execBTerm (hc : s.seq = SeqCode.bTerm) : Keeps Inv (execBTerm s) := by
  obtain ⟨hb, -, hg⟩ := h.gif_at hc rfl (by decide)
  have hP := packerClosed_packerRun s
  have hI : ∀ f u, PackerRun s u → Inv (abort .outputOverflow f u) := fun f _ hu => hu.inv_overflow f
  have hchunk : (if s.chunkLen = 0 then .ok s else flushChunk s : Flow).Reaches Inv (PackerRun s) :=
    .ite (fun _ => h.packerRun hb) fun _ => hP.flushChunk hI (h.packerRun hb)
  exact (hchunk.andThen fun u hu => hP.outByte hI hu _).close fun u hu =>
    h.gif_goto (by rw [hc]; decide) hu (by decide) (vacuous rfl) fun _ => hg.frame (by rw [hc]; decide)

theorem keeps_execGTrailer (hc : s.seq = SeqCode.gTrailer) : Keeps Inv (execGTrailer s) := by
  obtain ⟨hb, -, -⟩ := h.gif_at hc rfl (by decide)
  exact (h.outByte_reaches hb _).close fun u hu =>
    h.gif_goto (by rw [hc]; decide) hu (by decide) (vacuous rfl) (vacuous rfl)

theorem keeps_execGNextFrame (hc : s.seq = SeqCode.gNextFrame) : Keeps Inv (execGNextFrame s) := by
  obtain ⟨hb, -, hg⟩ := h.gif_at hc rfl (by decide)
  have hlt := hg.frame (by rw [hc]; decide)
  refine .ite (fun _ => keeps_fault _ _) fun _ => keeps_next.mpr ?_
  split
  · exact h.gif_goto_fi (by rw [hc]; decide) (h.packerRun hb) _ (by decide) (vacuous rfl) (vacuous rfl)
  next hne =>
    refine h.gif_goto_fi (by rw [hc]; decide) (h.packerRun hb) _ (by decide) (vacuous rfl) fun _ => ?_
    bv_omega

/-- G.MINCODE makes frame FI's pixels the current source, as IN holds them after the write (R112). -/
theorem keeps_execGMincode (hc : s.seq = SeqCode.gMincode) : Keeps Inv (execGMincode s) := by
  obtain ⟨hb, hgif, hg⟩ := h.gif_at hc rfl (by decide)
  refine (h.outByte_reaches hb _).close fun u hu => ?_
  obtain ⟨-, -, -, -, hfi, -⟩ := hu.packer.keeps
  have ha : Advance s (goto SeqCode.lInit (startImage u)) := hu.toAdvance.update rfl rfl rfl rfl rfl
  have hframe : u.fi.toNat < s.nframes.toNat := hfi ▸ hg.frame (by rw [hc]; decide)
  have hg' : GifInv (goto SeqCode.lInit (startImage u)) :=
    hg.advance hgif (ha.sameInputs (h.job hb)) (by rw [hc]; decide) rfl hu.packer.palette (vacuous rfl) (fun _ => hframe)
      (fun _ => ⟨rfl, rfl, rfl⟩) fun _ => Nat.zero_le _
  exact h.advance hb ha (vacuous_eq rfl) (fun _ => hg') (fun he => absurd (hgif.symm.trans he) (by decide))
    (fun _ => hg'.sourceInv rfl) (vacuous rfl)

/-! ### The checks (R104, R105) -/

theorem Inv.gif_checks {t : State} (hb : s.busy = true) (hj : s.job = opcGif) (ha : Advance s t)
    (hc : t.seq = SeqCode.gSig ∨ t.seq = SeqCode.gCheckFrame) (hg : GifInv t) : Inv t := by
  obtain ⟨hidle, hlzw, hpass⟩ : t.seq ≠ SeqCode.idle ∧ inLzw t.seq = false ∧ inPass t.seq = false := by
    rcases hc with hc | hc <;> rw [hc] <;> decide
  exact h.advance hb ha hidle (fun _ => hg) (fun he => absurd (hj.symm.trans he) (by decide)) (vacuous hlzw)
    (vacuous hpass)

theorem keeps_execGCheckPal (hc : s.seq = SeqCode.gCheckPal) : Keeps Inv (execGCheckPal s) := by
  obtain ⟨hb, hj, hg⟩ := h.gif_at hc rfl (by decide)
  refine .ite (fun hp => keeps_next.mpr ?_) fun _ =>
    keeps_next.mpr (inv_abort (e := .invalidPaletteSize) h.canonical nofun nofun _)
  have hpal := And.intro hp (And.intro (toNat_plen_setPalette hp) (toNat_mcs_setPalette hp))
  have ha : ∀ c, Advance s (goto c (setPalette s)) := fun c =>
    (h.packerRun hb).toAdvance.update rfl rfl rfl rfl rfl
  split
  next h0 =>
    refine h.gif_checks hb hj (ha _) (.inl rfl) (gifInv_of_checks (.inl rfl) hpal (vacuous_eq rfl) fun _ i hi => ?_)
    have hi : i < s.nframes.toNat := hi
    rw [h0] at hi
    exact absurd hi (Nat.not_lt_zero i)
  next h0 =>
    refine h.gif_checks hb hj (ha _) (.inr rfl)
      (gifInv_of_checks (.inr rfl) hpal (fun _ => ⟨?_, nofun⟩) (vacuous_eq rfl))
    exact Nat.pos_of_ne_zero fun hn => h0 (BitVec.eq_of_toNat_eq hn)

theorem keeps_execGCheckFrame (hc : s.seq = SeqCode.gCheckFrame) : Keeps Inv (execGCheckFrame s) := by
  obtain ⟨hb, hj, hg⟩ := h.gif_at hc rfl (by decide)
  obtain ⟨hlt, hok⟩ := hg.checking hc
  refine .ite (fun _ => keeps_next.mpr (inv_abort (e := .dimensionMismatch) h.canonical nofun nofun _)) fun hdims =>
    .ite (fun _ => keeps_next.mpr (inv_abort (e := .pixelIndexOutOfRange) h.canonical nofun nofun _)) fun hpix =>
    .ite (fun _ => keeps_fault _ _) fun hne => keeps_next.mpr ?_
  have hsucc : (s.fi + 1).toNat = s.fi.toNat + 1 := by bv_omega
  have hokS : ∀ i < s.fi.toNat + 1, frameOk s i := fun i hi => by
    rcases Nat.lt_succ_iff_lt_or_eq.mp hi with hi | rfl
    · exact hok i hi
    · simpa [frameOk] using And.intro hdims hpix
  have ha : ∀ c, Advance s (goto c (nextFi s)) := fun c => (h.packerRun hb).toAdvance.update rfl rfl rfl rfl rfl
  have hokT : ∀ c, ∀ i < s.fi.toNat + 1, frameOk (goto c (nextFi s)) i := fun c i hi =>
    (((ha c).sameInputs (h.job hb)).frameOk_iff hj (by omega)).mpr (hokS i hi)
  have hpal := hg.palette (by rw [hc]; decide)
  split
  next hlast =>
    refine h.gif_checks hb hj (ha _) (.inl rfl) (gifInv_of_checks (.inl rfl) hpal (vacuous_eq rfl) fun _ i hi => ?_)
    have hi : i < s.nframes.toNat := hi
    rw [← hlast, hsucc] at hi
    exact hokT _ i hi
  next hmore =>
    refine h.gif_checks hb hj (ha _) (.inr rfl)
      (gifInv_of_checks (.inr rfl) hpal (fun _ => ⟨?_, fun i hi => ?_⟩) (vacuous_eq rfl))
    · show (s.fi + 1).toNat < s.nframes.toNat
      have hne' : (s.fi + 1).toNat ≠ s.nframes.toNat := fun he => hmore (BitVec.eq_of_toNat_eq he)
      omega
    · exact hokT _ i (hsucc ▸ hi)

end

end Sys2Proof.Machine
end

section
/-! PROOFS. The invariant over a pass of the LZW encoder (R68 to R74, R79 to R81, R87 to R93), over X.FINISH (R127), and so over
every step. -/

namespace Sys2Proof.Machine

/-! ### The registers of a pass -/

theorem TableInv.congr {s t : State} (h : TableInv s) (ht : t.table = s.table) (hm : t.mcs = s.mcs)
    (hn : t.next = s.next) : TableInv t := by
  obtain ⟨hf, he, hd⟩ := h
  refine ⟨?_, ?_, ?_⟩
  · rwa [ht, hm, hn]
  · rw [ht]
    unfold isSequence
    rwa [hm, hn]
  · rwa [ht]

/-- The clauses of `PassInv` that do not speak of SEQ: those of L.PAD. -/
abbrev PassRegs (s : State) : Prop := PassInv (goto SeqCode.lPad s)

theorem PassInv.regs {s : State} (h : PassInv s) : PassRegs s where
  __ := h
  table := h.table.congr rfl rfl rfl
  accStarted := vacuous_eq rfl
  piLt := vacuous_eq rfl
  piStart := vacuous_eq rfl

/-- Where SEQ goes on to L.STEP, a symbol is left, and the accumulator is empty exactly before the first one. -/
theorem PassRegs.passInv_goto {s : State} (h : PassRegs s) {c : BitVec 8}
    (hstep : c = SeqCode.lStep → (s.accValid = true ↔ s.pi ≠ 0) ∧ s.pi.toNat < s.curN.toNat)
    (hclear : c = SeqCode.lEmitClear → s.pi = 0 ∧ s.accValid = false) : PassInv (goto c s) where
  __ := h
  table := h.table.congr rfl rfl rfl
  accStarted hc := (hstep hc).1
  piLt hc := (hstep hc).2
  piStart := hclear

/-- The packers write no register of a pass. -/
theorem PassRegs.packer {s t : State} (h : PassRegs s) (ho : OnlyPacker s t) (hb : BitsClean t) : PassRegs t := by
  unfold OnlyPacker at ho
  rw [ho]
  exact { h with table := h.table.congr rfl rfl rfl, bits := hb }

/-- The code of a sequence fits the code width (R79 (c)). -/
theorem PassRegs.lt_of_isSequence {s : State} (h : PassRegs s) {c : Nat} (hc : isSequence s c) : c < 2 ^ s.w.toNat := by
  have hlow : 2 ^ s.mcs.toNat + 2 ≤ s.next.toNat := h.nextLow
  have hhigh : s.next.toNat ≤ 2 ^ s.w.toNat := h.nextHigh
  rcases hc with hc | ⟨-, hc⟩
  · omega
  · omega

/-- Only 12 bits hold a code at P_CODE_LIMIT. -/
theorem width_full {l : CodeLimit} {n w : Nat} (hn : n ≤ 2 ^ w) (hw : w ≤ 12) (hl : n = l.toNat) : w = 12 := by
  have h2049 : 2049 ≤ l.toNat := by cases l <;> decide
  by_contra hne
  have : 2 ^ w ≤ 2 ^ 11 := Nat.pow_le_pow_right (by decide) (by omega)
  omega

/-! ### Insertion (R72, R73, R81) -/

/-- A sequence's code is below NEXT. -/
theorem lt_next_of_isSequence {s : State} (hlow : 2 ^ s.mcs.toNat + 2 ≤ s.next.toNat) {c : Nat} (h : isSequence s c) :
    c < s.next.toNat := by
  rcases h with h | ⟨-, h⟩
  · omega
  · exact h

/-- The code of a sequence stays one while NEXT grows. -/
theorem isSequence_mono {s t : State} (hm : t.mcs = s.mcs) (hn : s.next.toNat ≤ t.next.toNat) {c : Nat}
    (h : isSequence s c) : isSequence t c := by
  unfold isSequence at h ⊢
  rw [hm]
  exact h.imp_right fun ⟨h1, h2⟩ => ⟨h1, Nat.lt_of_lt_of_le h2 hn⟩

/-- A new entry at NEXT that extends an earlier sequence. -/
theorem TableInv.insert {s t : State} {p : BitVec 12} {x : Byte} (h : TableInv s)
    (hlow : 2 ^ s.mcs.toNat + 2 ≤ s.next.toNat) (hp : isSequence s p.toNat) (hx : x.toNat < 2 ^ s.mcs.toNat)
    (hnew : ∀ c, Cells.get s.table c ≠ some ⟨p, x⟩) (ht : t.table = Cells.put s.table s.next.toNat ⟨p, x⟩)
    (hm : t.mcs = s.mcs) (hn : t.next.toNat = s.next.toNat + 1) : TableInv t := by
  have hget : ∀ c, Cells.get t.table c = if c = s.next.toNat then some ⟨p, x⟩ else Cells.get s.table c := fun c => by
    rw [ht, Cells.get_put]
  refine ⟨fun c => ?_, fun c e he => ?_, fun c d e hc hd => ?_⟩
  · rw [hget, hm, hn]
    split
    · simp
      omega
    · rw [h.filled]
      omega
  · rw [hget] at he
    rw [hm]
    split at he
    next hcn =>
      obtain rfl := Option.some.inj he
      exact ⟨isSequence_mono hm (by omega) hp, hcn ▸ lt_next_of_isSequence hlow hp, hx⟩
    next hcn =>
      obtain ⟨hseq, hlt, hsuf⟩ := h.entry c e he
      exact ⟨isSequence_mono hm (by omega) hseq, hlt, hsuf⟩
  · rw [hget] at hc hd
    split at hc <;> split at hd
    next h1 h2 => exact h1.trans h2.symm
    next => exact absurd (hd.trans hc.symm) (hnew d)
    next => exact absurd (hc.trans hd.symm) (hnew c)
    next => exact h.distinct c d e hc hd

/-- A miss of the lookup: no code has the entry. -/
theorem get_ne_of_miss {s : State} (h : TableInv s) (hb : Cells.Below s.table Config.tableSize) {p : BitVec 12} {x : Byte}
    (hmiss : lookup s p x = none) (c : Nat) : Cells.get s.table c ≠ some ⟨p, x⟩ := by
  intro hc
  obtain ⟨hlow, hhigh⟩ := (h.filled c).mp (by rw [hc]; rfl)
  have hmem := Cells.mem_of_get hc
  exact lookup_none.mp hmiss _ hmem hlow hhigh (hb _ hmem) rfl

theorem codeLimit_le (l : CodeLimit) : l.toNat ≤ 4096 := by cases l <;> decide

/-- The width after an insertion, as a number. -/
theorem toNat_widened {w : BitVec 4} {c : Prop} [Decidable c] (hw : c → w.toNat < 12) :
    (if c then w + 1 else w).toNat = if c then w.toNat + 1 else w.toNat := by
  split
  next hc =>
    have := hw hc
    bv_omega
  · rfl

/-- NEXT stays within the codes of the widened width (R72, R79 (b)). -/
theorem succ_le_two_pow_widened {n w : Nat} (hn : n ≤ 2 ^ w) (h : n < 4096) (hw : w ≤ 12) :
    n + 1 ≤ 2 ^ (if n + 1 > 2 ^ w ∧ w < 12 then w + 1 else w) := by
  split
  · have := Nat.one_le_two_pow (n := w)
    rw [Nat.pow_succ]
    omega
  next hc =>
    by_cases h12 : w = 12
    · subst h12
      omega
    · omega

/-- `grow` keeps the registers of a pass where the accumulator, extended by `x`, has no code yet. -/
theorem PassRegs.grow {t : State} {x : Byte} (h : PassRegs t) (hb : Cells.Below t.table Config.tableSize)
    (hx : x.toNat < 2 ^ t.mcs.toNat) (hacc : isSequence t t.accCode.toNat) (hmiss : lookup t t.accCode x = none) :
    PassRegs (grow x t) := by
  rcases grow_cases x t with ⟨-, hg⟩ | ⟨hlim, hg⟩
  · rwa [hg]
  have hn := toNat_next_succ hlim
  have htable : TableInv t := h.table.congr rfl rfl rfl
  have hlow : 2 ^ t.mcs.toNat + 2 ≤ t.next.toNat := h.nextLow
  have hhigh : t.next.toNat ≤ 2 ^ t.w.toNat := h.nextHigh
  have hw12 : t.w.toNat ≤ 12 := h.wHigh
  have hmw : t.mcs.toNat + 1 ≤ t.w.toNat := h.wLow
  have h4096 := codeLimit_le t.build.codeLimit
  have hw := toNat_widened (w := t.w) (c := (t.next + 1).toNat > 2 ^ t.w.toNat ∧ t.w.toNat < 12) And.right
  generalize (if (t.next + 1).toNat > 2 ^ t.w.toNat ∧ t.w.toNat < 12 then t.w + 1 else t.w) = w' at hg hw
  have hnext := succ_le_two_pow_widened hhigh (by omega) hw12
  rw [← hn, ← hw] at hnext
  have hacc' : isSequence { t with next := t.next + 1 } t.accCode.toNat :=
    isSequence_mono (s := t) (t := { t with next := t.next + 1 }) rfl (hn ▸ Nat.le_succ _) hacc
  have hwle : w'.toNat ≤ 12 := by
    rw [hw]
    split <;> omega
  have hwge : t.w.toNat ≤ w'.toNat := by
    rw [hw]
    split <;> omega
  rw [hg]
  exact { h with
    wLow := hmw.trans hwge
    wHigh := hwle
    nextLow := hlow.trans (by rw [goto_next, hn]; omega)
    nextHigh := hnext
    nextLimit := by
      rw [goto_next, hn]
      exact hlim
    wFull := width_full hnext hwle
    table := htable.insert hlow hacc hx (get_ne_of_miss htable hb hmiss) rfl rfl hn
    accSequence := fun _ => hacc' }

/-- The accumulator is empty or a sequence (R80). -/
theorem PassRegs.withAcc {s : State} (h : PassRegs s) (v : Bool) (c : BitVec 12)
    (hc : v = true → isSequence s c.toNat) : PassRegs { s with accValid := v, accCode := c } where
  __ := h
  table := h.table.congr rfl rfl rfl
  accSequence := hc
  accStarted := vacuous_eq rfl
  piStart := vacuous_eq rfl

/-- A symbol is a sequence. -/
theorem isSequence_symbol {s : State} {x : Byte} (hx : x.toNat < 2 ^ s.mcs.toNat) :
    isSequence s (x.setWidth 12).toNat := by
  rw [BitVec.toNat_setWidth, Nat.mod_eq_of_lt (by omega)]
  exact .inl hx

/-! ### A pass goes on -/

/-- The registers of a job that no operation from L.INIT to L.PAD writes. -/
def State.passFixed (s : State) : BitVec 16 × BitVec 9 × BitVec 4 × Word × BitVec 32 × Sink :=
  (s.fi, s.plen, s.mcs, s.curSrc, s.curN, s.sink)

/-- What an operation of a pass can do to a job. -/
structure PassRun (s t : State) : Prop extends Advance s t where
  fixed : t.passFixed = s.passFixed

theorem PackerRun.passRun {s t : State} (h : PackerRun s t) : PassRun s t := by
  refine ⟨h.toAdvance, ?_⟩
  have ho := h.packer
  unfold OnlyPacker at ho
  rw [ho]
  rfl

theorem PassRun.update {s t u : State} (h : PassRun s t) (ho : OnlyJob t u) (htable : u.table = t.table)
    (hchunk : u.chunk = t.chunk) (hout : u.outMem = t.outMem) (hptr : u.outPtr = t.outPtr)
    (hfix : u.passFixed = t.passFixed) : PassRun s u :=
  ⟨h.toAdvance.update ho htable hchunk hout hptr, hfix.trans h.fixed⟩

/-- An insertion keeps TABLE in canonical form: NEXT is a code of TABLE. -/
theorem PassRun.grow {s t : State} (h : PassRun s t) (x : Byte) : PassRun s (grow x t) := by
  rcases grow_cases x t with ⟨-, hg⟩ | ⟨hlim, hg⟩
  · rwa [hg]
  · have h4096 := codeLimit_le t.build.codeLimit
    rw [hg]
    exact ⟨⟨h.only.trans rfl, { h.canonical with
        tableRising := Cells.rising_put _ _ h.canonical.tableRising
        tableBelow := Cells.below_put h.canonical.tableBelow (Nat.lt_of_lt_of_le hlim h4096) },
      h.outLow, h.outside⟩, h.fixed⟩

/-- Where the codes of a pass stand among the phases of a job (R57). -/
theorem inLzw_phase {c : BitVec 8} (h : inLzw c = true) :
    inWriting c = true ∧ inHeader c = false ∧ inFrame c = true ∧ inLzwJob c = true := by
  revert h
  revert c
  decide

theorem inLzw_of_inPass {c : BitVec 8} (h : inPass c = true) : inLzw c = true := by simp [inLzw, h]

/-- The invariant of the state an operation of a pass goes on to. -/
theorem Inv.pass_advance {s t : State} (h : Inv s) (hl : inLzw s.seq = true) (hr : PassRun s t)
    (hready : PackersReady t) (ht : inPass t.seq = true) (hp : PassInv t) : Inv t := by
  obtain ⟨hw, -, hframe, -⟩ := inLzw_phase hl
  have hl' := inLzw_of_inPass ht
  obtain ⟨hw', hheader', -, hjob'⟩ := inLzw_phase hl'
  have hb := h.busy_of_ne_idle (ne_idle_of_inWriting hw)
  have hj := h.job hb
  have hi := hr.sameInputs hj
  obtain ⟨hfi, hplen, hmcs, hsrc, hn, hsink⟩ : t.fi = s.fi ∧ t.plen = s.plen ∧ t.mcs = s.mcs ∧ t.curSrc = s.curSrc
      ∧ t.curN = s.curN ∧ t.sink = s.sink := by
    simpa only [State.passFixed, Prod.mk.injEq] using hr.fixed
  refine h.advance hb hr.toAdvance (ne_idle_of_inWriting hw') (fun hgif => ?_) (fun hlzw => ?_)
    (fun _ => hj.sourceInv_congr hl hi hmcs hsrc hn) fun _ => hp
  · have hg := hj.gif hgif
    have hlt := hg.frame hframe
    obtain ⟨gsrc, gn, gsink⟩ := hg.source hl
    refine hg.advance hgif hi hw hw' ⟨hplen, hmcs⟩ (vacuous hheader') (fun _ => hfi ▸ hlt) (fun _ => ?_) fun _ =>
      hready.2 (hsink.trans gsink)
    rw [hsrc, hn, hsink, hfi, hi.pixAddr hgif hlt, hi.pixLen hgif hlt]
    exact ⟨gsrc, gn, gsink⟩
  · obtain ⟨-, hm, lsrc⟩ := hj.lzw hlzw
    refine ⟨hjob', hmcs ▸ hm, ?_⟩
    rw [hsrc, hn, hsink, hi.srcBase, hi.srcLen]
    exact lsrc

theorem Inv.pass_goto {s t : State} {c : BitVec 8} (h : Inv s) (hl : inLzw s.seq = true) (hr : PassRun s t)
    (hready : PackersReady t) (hc : inPass c = true) (hp : PassInv (goto c t)) : Inv (goto c t) :=
  h.pass_advance hl (hr.update rfl rfl rfl rfl rfl rfl) hready hc hp

/-! ### The operations of a pass -/

/-- A code that fits its width leaves the packers in order, or OUTPUT_OVERFLOW is raised (R83). -/
theorem emit_reaches {s : State} (hrun : PackerRun s s) (hready : PackersReady s) {c w : Nat} (hw : w ≤ 12)
    (hc : c < 2 ^ w) : (emit c w s).Reaches Inv fun t => PackerRun s t ∧ PackersReady t := by
  refine ((packerClosed_packerRun s).emit (fun f _ hu => hu.inv_overflow f) hrun fun hn => absurd ⟨hw, hc⟩ hn).and
    fun t ht => ?_
  rcases emit_cases c w s hready hw hc with ⟨-, u, he, -, hu, -⟩ | ⟨-, u, he⟩
  · rw [Flow.ok.inj (ht.symm.trans he)]
    exact hu
  · exact nomatch ht.symm.trans he.raised

theorem padBits_reaches {s : State} (hrun : PackerRun s s) (hready : PackersReady s) :
    (padBits s).Reaches Inv fun t => PackerRun s t ∧ PackersReady t := by
  refine ((packerClosed_packerRun s).padBits (fun f _ hu => hu.inv_overflow f) hrun).and fun t ht => ?_
  rcases padBits_cases s hready with ⟨-, u, he, -, -, -, hu, -⟩ | ⟨-, u, he⟩
  · rw [Flow.ok.inj (ht.symm.trans he)]
    exact hu
  · exact nomatch ht.symm.trans he.raised

/-- What the invariant says at an operation of a pass after L.INIT. -/
theorem Inv.pass_at {s : State} (h : Inv s) {c : BitVec 8} (hc : s.seq = c) (hp : inPass c = true) :
    s.busy = true ∧ PassInv s ∧ PackerRun s s ∧ PackersReady s := by
  subst hc
  obtain ⟨hw, -⟩ := inLzw_phase (inLzw_of_inPass hp)
  have hb := h.busy_of_ne_idle (ne_idle_of_inWriting hw)
  exact ⟨hb, (h.job hb).pass hp, h.packerRun hb, (h.job hb).packersReady hp⟩

/-- `1 << m` where the register is wide enough. -/
theorem toNat_one_shiftLeft {n m : Nat} (h : m < n) : (1#n <<< m).toNat = 2 ^ m := by
  have hpow : 2 ^ m < 2 ^ n := Nat.pow_lt_pow_right (by decide) h
  rw [BitVec.toNat_shiftLeft, BitVec.toNat_ofNat, Nat.mod_eq_of_lt (Nat.one_lt_two_pow (by omega)), Nat.one_shiftLeft,
    Nat.mod_eq_of_lt hpow]

/-- The registers L.INIT sets (R88). -/
theorem passRegs_startPass {s : State} (hm : 2 ≤ s.mcs.toNat) (hm8 : s.mcs.toNat ≤ 8) : PassRegs (startPass s) := by
  have h256 : 2 ^ s.mcs.toNat ≤ 2 ^ 8 := Nat.pow_le_pow_right (by decide) hm8
  have h4 : 2 ^ 2 ≤ 2 ^ s.mcs.toNat := Nat.pow_le_pow_right (by decide) hm
  have hclear : (1#9 <<< s.mcs.toNat).toNat = 2 ^ s.mcs.toNat := toNat_one_shiftLeft (by omega)
  have hnext1 : (1#13 <<< s.mcs.toNat).toNat = 2 ^ s.mcs.toNat := toNat_one_shiftLeft (by omega)
  have hend : (1#9 <<< s.mcs.toNat + 1).toNat = 2 ^ s.mcs.toNat + 1 := by
    rw [BitVec.toNat_add, hclear]
    exact Nat.mod_eq_of_lt (by simp; omega)
  have hnext : (1#13 <<< s.mcs.toNat + 2).toNat = 2 ^ s.mcs.toNat + 2 := by
    rw [BitVec.toNat_add, hnext1]
    exact Nat.mod_eq_of_lt (by simp; omega)
  have hw : (s.mcs + 1).toNat = s.mcs.toNat + 1 := by bv_omega
  have hlimit : 2049 ≤ s.build.codeLimit.toNat := by cases s.build.codeLimit <;> decide
  have hwide : 2 ^ s.mcs.toNat + 2 ≤ 2 ^ (s.mcs.toNat + 1) := by
    rw [Nat.pow_succ]
    omega
  exact {
    clearIs := hclear
    endIs := hend
    wLow := hw.ge
    wHigh := hw.trans_le (show s.mcs.toNat + 1 ≤ 12 by omega)
    nextLow := hnext.ge
    nextHigh := by
      show (1#13 <<< s.mcs.toNat + 2).toNat ≤ 2 ^ (s.mcs + 1).toNat
      rwa [hnext, hw]
    nextLimit := hnext.trans_le (show _ ≤ s.build.codeLimit.toNat by omega)
    wFull := fun he => absurd (hnext.symm.trans he) (show _ ≠ s.build.codeLimit.toNat by omega)
    table := ⟨fun c => ⟨nofun, fun ⟨hlo, hhi⟩ => absurd (hhi.trans_le hnext.le) (Nat.not_lt.mpr hlo)⟩, nofun, nofun⟩
    accSequence := nofun
    accStarted := vacuous_eq rfl
    piLe := Nat.zero_le _
    piLt := vacuous_eq rfl
    piStart := vacuous_eq rfl
    bits := fun i _ _ => BitVec.getLsbD_zero }

section

variable {s : State} (h : Inv s)
include h

theorem keeps_execLInit (hc : s.seq = SeqCode.lInit) : Keeps Inv (execLInit s) := by
  have hl : inLzw s.seq = true := by rw [hc]; rfl
  have hb := h.busy_of_ne_idle (by rw [hc]; decide)
  have hj := h.job hb
  have hsrc := hj.source hl
  refine .ite (fun _ => keeps_next.mpr ?_) fun _ => keeps_fault _ _
  have hrun : PassRun s (goto SeqCode.lEmitClear (startPass s)) :=
    ⟨⟨rfl, { h.canonical with tableRising := .nil, tableBelow := nofun }, hj.outLow, fun _ _ => rfl⟩, rfl⟩
  refine h.pass_advance hl hrun ⟨fun i _ _ => BitVec.getLsbD_zero, fun hsub => ?_⟩ rfl
    ((passRegs_startPass hsrc.mLow hsrc.mHigh).passInv_goto (vacuous_eq rfl) fun _ => ⟨rfl, rfl⟩)
  rcases hj.jobIs with hg | hz
  · exact (hj.gif hg).chunkLow (.inl hl)
  · obtain ⟨-, -, hraw⟩ := (hj.lzw hz).source
    exact absurd (hraw.symm.trans hsub) nofun

theorem keeps_execLEmitClear (hc : s.seq = SeqCode.lEmitClear) : Keeps Inv (execLEmitClear s) := by
  obtain ⟨hb, hp, hrun, hready⟩ := h.pass_at hc rfl
  have hl : inLzw s.seq = true := by rw [hc]; rfl
  obtain ⟨hpi, hacc⟩ := hp.piStart hc
  have hlt : s.clearCode.toNat < 2 ^ s.w.toNat := by
    rw [hp.clearIs]
    exact Nat.pow_lt_pow_right (by decide) hp.wLow
  refine (emit_reaches hrun hready hp.wHigh hlt).close fun t ⟨ht, hready'⟩ => ?_
  have hregs := hp.regs.packer ht.packer hready'.1
  have hpi' : t.pi = 0 ∧ t.accValid = false := by
    have ho := ht.packer
    unfold OnlyPacker at ho
    rw [ho]
    exact ⟨hpi, hacc⟩
  split
  · exact h.pass_goto hl ht.passRun hready' rfl (hregs.passInv_goto (vacuous_eq rfl) (vacuous_eq rfl))
  next hn =>
    refine h.pass_goto hl ht.passRun hready' rfl (hregs.passInv_goto (fun _ => ?_) (vacuous_eq rfl))
    rw [hpi'.1, hpi'.2]
    exact ⟨by simp, Nat.pos_of_ne_zero fun h0 => hn (BitVec.eq_of_toNat_eq h0)⟩

end

theorem packersReady_grow {s : State} (h : PackersReady s) (x : Byte) : PackersReady (grow x s) := by
  rcases grow_cases x s with ⟨-, hg⟩ | ⟨-, hg⟩
  · rwa [hg]
  · rw [hg]
    exact h

/-- A miss: the accumulator's code leaves, the table grows, and the accumulator starts anew (R71 to R73). -/
theorem miss_reaches {s : State} {x : Byte} (hrun : PackerRun s s) (hready : PackersReady s) (hp : PassRegs s)
    (hx : x.toNat < 2 ^ s.mcs.toNat) (hv : s.accValid = true) (hmiss : lookup s s.accCode x = none) :
    ((emit s.accCode.toNat s.w.toNat s).andThen fun t => .ok (restartAcc x (grow x t))).Reaches Inv fun t =>
      PassRun s t ∧ PackersReady t ∧ PassRegs t ∧ t.accValid = true ∧ t.pi = s.pi ∧ t.curN = s.curN := by
  have hacc : isSequence s s.accCode.toNat := hp.accSequence hv
  refine (emit_reaches hrun hready hp.wHigh (hp.lt_of_isSequence hacc)).andThen fun t ⟨ht, hready'⟩ => ?_
  have hregs := hp.packer ht.packer hready'.1
  have hgrown : PassRegs (grow x t) := by
    have hcan := ht.canonical.tableBelow
    have ho := ht.packer
    unfold OnlyPacker at ho
    refine hregs.grow hcan ?_ ?_ ?_
    · rw [ho]
      exact hx
    · rw [ho]
      exact hacc
    · rw [ho]
      exact hmiss
  have hkeep : (grow x t).mcs = s.mcs ∧ (grow x t).accValid = true ∧ (grow x t).pi = s.pi
      ∧ (grow x t).curN = s.curN := by
    have ho := ht.packer
    unfold OnlyPacker at ho
    rcases grow_cases x t with ⟨-, hg⟩ | ⟨-, hg⟩ <;> rw [hg, ho] <;> exact ⟨rfl, hv, rfl, rfl⟩
  obtain ⟨hm, hv', hpi, hn⟩ := hkeep
  exact ⟨(ht.passRun.grow x).update rfl rfl rfl rfl rfl rfl, packersReady_grow hready' x,
    hgrown.withAcc (grow x t).accValid _ fun _ => isSequence_symbol (hm ▸ hx), hv', hpi, hn⟩

/-- One symbol (R71, R90). -/
theorem consume_reaches {s : State} {x : Byte} (hrun : PackerRun s s) (hready : PackersReady s) (hp : PassRegs s)
    (hx : x.toNat < 2 ^ s.mcs.toNat) :
    (consume x s).Reaches Inv fun t =>
      PassRun s t ∧ PackersReady t ∧ PassRegs t ∧ t.accValid = true ∧ t.pi = s.pi ∧ t.curN = s.curN := by
  unfold consume
  split
  next hv =>
    split
    next c hit =>
      obtain ⟨-, hlow, hhigh⟩ := lookup_some hit
      exact ⟨hrun.passRun.update rfl rfl rfl rfl rfl rfl, hready,
        hp.withAcc s.accValid c fun _ => .inr ⟨hlow, hhigh⟩, hv, rfl, rfl⟩
    next hmiss => exact miss_reaches hrun hready hp hx hv hmiss
  · exact ⟨hrun.passRun.update rfl rfl rfl rfl rfl rfl, hready,
      hp.withAcc true _ fun _ => isSequence_symbol hx, rfl, rfl, rfl⟩

section

variable {s : State} (h : Inv s)
include h

theorem keeps_execLStep (hc : s.seq = SeqCode.lStep) : Keeps Inv (execLStep s) := by
  obtain ⟨hb, hp, hrun, hready⟩ := h.pass_at hc rfl
  have hl : inLzw s.seq = true := by rw [hc]; rfl
  have hlt := hp.piLt hc
  have hsucc : (s.pi + 1).toNat = s.pi.toNat + 1 := by bv_omega
  refine .ite (fun hx => .ite (fun _ => keeps_fault _ _) fun _ => ?_) fun _ => keeps_fault _ _
  have hregs : PassRegs { s with pi := s.pi + 1 } :=
    { hp.regs with
      table := hp.table.congr rfl rfl rfl
      accStarted := vacuous_eq rfl
      piLe := hsucc.trans_le hlt
      piLt := vacuous_eq rfl
      piStart := vacuous_eq rfl }
  have hrun1 : PackerRun { s with pi := s.pi + 1 } { s with pi := s.pi + 1 } := .refl { h.canonical with } hrun.outLow
  refine (consume_reaches hrun1 hready hregs hx).close fun t ⟨ht, hready', hregs', hv, hpi, hn⟩ => ?_
  have hrun' : PassRun s t := ⟨⟨OnlyJob.trans (t := { s with pi := s.pi + 1 }) rfl ht.only, ht.canonical, ht.outLow,
    ht.outside⟩, ht.fixed⟩
  split
  · exact h.pass_goto hl hrun' hready' rfl (hregs'.passInv_goto (vacuous_eq rfl) (vacuous_eq rfl))
  next hne =>
    refine h.pass_goto hl hrun' hready' rfl
      (hregs'.passInv_goto (fun _ => ⟨⟨fun _ => ?_, fun _ => hv⟩, ?_⟩) (vacuous_eq rfl))
    · rw [hpi]
      exact fun h0 => absurd (congrArg BitVec.toNat h0) (hsucc ▸ Nat.succ_ne_zero _)
    · exact Nat.lt_of_le_of_ne hregs'.piLe fun he => hne (BitVec.eq_of_toNat_eq he)

theorem keeps_execLFlushAcc (hc : s.seq = SeqCode.lFlushAcc) : Keeps Inv (execLFlushAcc s) := by
  obtain ⟨hb, hp, hrun, hready⟩ := h.pass_at hc rfl
  have hl : inLzw s.seq = true := by rw [hc]; rfl
  have hflush : (flushAcc s).Reaches Inv fun t => PassRun s t ∧ PackersReady t ∧ PassRegs t := by
    refine .ite (fun hv => ?_) fun _ => ⟨hrun.passRun, hready, hp.regs⟩
    refine (emit_reaches hrun hready hp.wHigh (hp.regs.lt_of_isSequence (hp.accSequence hv))).andThen
      fun t ⟨ht, hready'⟩ => ?_
    exact ⟨ht.passRun.update rfl rfl rfl rfl rfl rfl, hready',
      (hp.regs.packer ht.packer hready'.1).withAcc false t.accCode nofun⟩
  exact hflush.close fun t ⟨ht, hready', hregs⟩ =>
    h.pass_goto hl ht hready' rfl (hregs.passInv_goto (vacuous_eq rfl) (vacuous_eq rfl))

/-- The end code fits the width R78 gives it. -/
theorem keeps_execLEmitEnd (hc : s.seq = SeqCode.lEmitEnd) : Keeps Inv (execLEmitEnd s) := by
  obtain ⟨hb, hp, hrun, hready⟩ := h.pass_at hc rfl
  have hl : inLzw s.seq = true := by rw [hc]; rfl
  have hw12 : s.w.toNat ≤ 12 := hp.wHigh
  obtain ⟨hle, hge⟩ : endWidth s ≤ 12 ∧ s.w.toNat ≤ endWidth s := by
    unfold endWidth
    split
    next hcond =>
      obtain ⟨-, -, hlt12⟩ := hcond
      exact ⟨hlt12, Nat.le_succ _⟩
    · exact ⟨hw12, Nat.le_refl _⟩
  have hlt : s.endCode.toNat < 2 ^ endWidth s := by
    have hnext := hp.nextLow.trans hp.nextHigh
    have hpow : 2 ^ s.w.toNat ≤ 2 ^ endWidth s := Nat.pow_le_pow_right (by decide) hge
    rw [hp.endIs]
    omega
  exact (emit_reaches hrun hready hle hlt).close fun t ⟨ht, hready'⟩ =>
    h.pass_goto hl ht.passRun hready' rfl
      ((hp.regs.packer ht.packer hready'.1).passInv_goto (vacuous_eq rfl) (vacuous_eq rfl))

/-- A frame's pass ends in B.TERM, an LZW_ENCODE job's in X.FINISH (R93). -/
theorem keeps_execLPad (hc : s.seq = SeqCode.lPad) : Keeps Inv (execLPad s) := by
  obtain ⟨hb, hp, hrun, hready⟩ := h.pass_at hc rfl
  have hl : inLzw s.seq = true := by rw [hc]; rfl
  have hj := h.job hb
  refine (padBits_reaches hrun hready).close fun t ⟨ht, hready'⟩ => ?_
  have ha : ∀ c, Advance s (goto c { t with lzwLast := lzwLastOf t }) := fun c => ht.toAdvance.update rfl rfl rfl rfl rfl
  obtain ⟨hsink, -, -, -, hfi, -⟩ := ht.packer.keeps
  have hi := fun c => (ha c).sameInputs hj
  rcases hj.jobIs with hgif | hlzw
  · have hg := hj.gif hgif
    obtain ⟨hw, -, hframe, -⟩ := inLzw_phase hl
    obtain ⟨-, -, hsub⟩ := hg.source hl
    have hsub' := hsink.trans hsub
    have hnext : afterPass t.sink = SeqCode.bTerm := congrArg afterPass hsub'
    rw [hnext]
    have hg' : GifInv (goto SeqCode.bTerm { t with lzwLast := lzwLastOf t }) :=
      hg.advance hgif (hi _) hw rfl ht.packer.palette (vacuous rfl)
        (fun _ => hfi ▸ hg.frame hframe) (vacuous rfl) fun _ => hready'.2 hsub'
    exact h.advance hb (ha _) (vacuous_eq rfl) (fun _ => hg') (fun he => absurd (hgif.symm.trans he) (by decide))
      (vacuous rfl) (vacuous rfl)
  · obtain ⟨-, hm, hsrc, hn, hraw⟩ := hj.lzw hlzw
    have hnext : afterPass t.sink = SeqCode.xFinish := congrArg afterPass (hsink.trans hraw)
    rw [hnext]
    have hz' : LzwJobInv (goto SeqCode.xFinish { t with lzwLast := lzwLastOf t }) := by
      have ho := ht.packer
      unfold OnlyPacker at ho
      rw [ho]
      exact ⟨rfl, hm, hsrc, hn, hraw⟩
    exact h.advance hb (ha _) (vacuous_eq rfl) (fun he => absurd (hlzw.symm.trans he) (by decide)) (fun _ => hz')
      (vacuous rfl) (vacuous rfl)

/-! ### The other operations -/

theorem keeps_execLCheckSrc (hc : s.seq = SeqCode.lCheckSrc) : Keeps Inv (execLCheckSrc s) := by
  have hb := h.busy_of_ne_idle (by rw [hc]; decide)
  have hj := h.job hb
  have hlzw : s.job = opcLzw := hj.jobIs.resolve_left fun hg => absurd (hj.gif hg).seqIn (by rw [hc]; decide)
  obtain ⟨-, hm, hsrc, hn, hraw⟩ := hj.lzw hlzw
  refine .ite (fun hok => keeps_next.mpr ?_) fun _ =>
    keeps_next.mpr (inv_abort (e := .lzwSymbolOutOfRange) h.canonical nofun nofun _)
  rw [allBelow_iff] at hok
  have hsource : SourceInv (goto SeqCode.lInit s) := by
    obtain ⟨hm2, hm8⟩ : 2 ≤ s.mcs.toNat ∧ s.mcs.toNat ≤ 8 := by
      simpa [legalM, mNotTooSmall, mNotTooLarge] using hm
    refine ⟨hm2, hm8, fun k hk => ?_⟩
    have hk' := hok k (hn ▸ hk)
    rwa [Nat.zero_add, ← hsrc] at hk'
  exact h.advance hb ((h.packerRun hb).toAdvance.update rfl rfl rfl rfl rfl) (vacuous_eq rfl)
    (fun he => absurd (hlzw.symm.trans he) (by decide)) (fun _ => ⟨rfl, hm, hsrc, hn, hraw⟩) (fun _ => hsource)
    (vacuous rfl)

theorem keeps_execXFinish (hc : s.seq = SeqCode.xFinish) : Keeps Inv (execXFinish s) := by
  have hb := h.busy_of_ne_idle (by rw [hc]; decide)
  obtain ⟨-, herr, -⟩ := h.status.busyClear hb
  refine keeps_next.mpr (.of_idle { h.canonical with } ⟨?_, ?_, ?_, h.status.noErr, ?_, h.status.noWidthError⟩ rfl)
  · exact ⟨nofun, fun hne => absurd rfl hne⟩
  · exact nofun
  · exact fun hboth => absurd (herr.symm.trans hboth.2) nofun
  · exact fun he => absurd (herr.symm.trans he) nofun

/-! ### Every step -/

/-- The operation SEQ holds keeps the invariant. -/
theorem Inv.keeps_exec {i : Instr} (hi : encode i = .seq s.seq) : Keeps Inv (exec i s) := by
  have at_seq : ∀ {c : BitVec 8}, encode i = .seq c → s.seq = c := fun hc => Encoded.seq.inj (hi.symm.trans hc)
  cases i with
  | idle => exact keeps_next.mpr h
  | lCheckSrc => exact keeps_execLCheckSrc h (at_seq rfl)
  | lInit => exact keeps_execLInit h (at_seq rfl)
  | lEmitClear => exact keeps_execLEmitClear h (at_seq rfl)
  | lStep => exact keeps_execLStep h (at_seq rfl)
  | lFlushAcc => exact keeps_execLFlushAcc h (at_seq rfl)
  | lEmitEnd => exact keeps_execLEmitEnd h (at_seq rfl)
  | lPad => exact keeps_execLPad h (at_seq rfl)
  | gCheckPal => exact keeps_execGCheckPal h (at_seq rfl)
  | gCheckFrame => exact keeps_execGCheckFrame h (at_seq rfl)
  | gSig => exact keeps_execGSig h (at_seq rfl)
  | gLsd => exact keeps_execGLsd h (at_seq rfl)
  | gGct => exact keeps_execGGct h (at_seq rfl)
  | gNetscape => exact keeps_execGNetscape h (at_seq rfl)
  | gGce => exact keeps_execGGce h (at_seq rfl)
  | gIdesc => exact keeps_execGIdesc h (at_seq rfl)
  | gMincode => exact keeps_execGMincode h (at_seq rfl)
  | bTerm => exact keeps_execBTerm h (at_seq rfl)
  | gNextFrame => exact keeps_execGNextFrame h (at_seq rfl)
  | gTrailer => exact keeps_execGTrailer h (at_seq rfl)
  | xFinish => exact keeps_execXFinish h (at_seq rfl)
  | _ => exact nomatch hi

end

/-- Settles O50: an operation of the engine by its own lemma, a host turn by its effect. -/
theorem stepKeepsInvariant : Obligations.StepKeepsInvariant := fun _ t h =>
  keeps_step (fun l _ hi => (h.withAgenda l).keeps_exec hi) (fun l _ => (h.withAgenda l).hostEffect) t

end Sys2Proof.Machine
end

section
/-! PROOFS. What an operation of the engine can do to the memories, in any state (R44, R131): OUT changes inside the job's region
alone, and the job's inputs stay while it goes on, as they do over a host turn (R47, R50). -/

namespace Sys2Proof.Machine

/-! ### What an operation does to the memories -/

/-- What a byte of IN or OUT and the regions of a job depend on. -/
def State.memories (s : State) : Settings × List Host.Cell × List Host.Cell × List FreeRegion × Nat × BitVec 8 :=
  (s.settings, s.inMem, s.outMem, s.outFree, s.draws, s.job)

/-- The states an operation at `s` passes through and ends in: OUT is as it was outside the job's region, and while the job goes
on so are IN and the draw of its unwritten bytes. -/
structure EngineEffect (s t : State) : Prop where
  settings : t.settings = s.settings
  outside : ∀ a, ¬ OutRegion s a → outByteAt t a = outByteAt s a
  running : t.busy = true → t.job = s.job ∧ t.inMem = s.inMem ∧ t.draws = s.draws

theorem EngineEffect.refl (s : State) : EngineEffect s s := ⟨rfl, fun _ _ => rfl, fun _ => ⟨rfl, rfl, rfl⟩⟩

section

variable {s t u : State} (h : EngineEffect s t)
include h

theorem EngineEffect.build : t.build = s.build := congrArg Settings.build h.settings

theorem EngineEffect.outRegion_iff (a : Nat) : OutRegion t a ↔ OutRegion s a :=
  outRegion_congr h.build (congrArg Settings.outBase h.settings) (congrArg Settings.outCap h.settings) a

/-- An update of registers, which may end the job. -/
theorem EngineEffect.update (hm : u.memories = t.memories) (hb : u.busy = true → t.busy = true) : EngineEffect s u := by
  simp only [State.memories, Prod.mk.injEq] at hm
  obtain ⟨hset, hin, hout, hfree, hdraws, hjob⟩ := hm
  refine ⟨hset.trans h.settings, fun a ha => ?_, fun hu => ?_⟩
  · exact (outByteAt_congr (congrArg Settings.build hset) hout hfree a).trans (h.outside a ha)
  · rw [hjob, hin, hdraws]
    exact h.running (hb hu)

/-- A byte that is checked against OUT_CAP lands in the region (R102). -/
theorem EngineEffect.pushOut (v : Byte) (hlt : t.outPtr.toNat < t.outCap.toNat) : EngineEffect s (pushOut v t) where
  settings := h.settings
  outside a ha := by
    rw [← h.outside a ha]
    exact (outByteAt_writeOutByte _ _ _ _).trans (if_neg fun heq => ha ((h.outRegion_iff a).mp ⟨_, hlt, heq⟩))
  running := h.running

/-- An abort forgets the region and ends the job (R131). -/
theorem EngineEffect.abort (e : ErrCode) (f : FrameIdx) : EngineEffect s (abort e f t) where
  settings := h.settings
  outside a ha := (outByteAt_abort e f t (mt (h.outRegion_iff a).mp ha)).trans (h.outside a ha)
  running := nofun

theorem EngineEffect.grow (x : Byte) : EngineEffect s (grow x t) := by
  rcases grow_cases x t with ⟨-, hg⟩ | ⟨-, hg⟩
  · rwa [hg]
  · rw [hg]
    exact h.update rfl id

end

theorem packerClosed_engineEffect (s : State) : PackerClosed (EngineEffect s) where
  pushOut v _ hlt h := h.pushOut v hlt
  emptyChunk _ h := h.update rfl id
  pushChunk _ _ _ h := h.update rfl id
  setBit _ _ h := h.update rfl id
  countBit _ h := h.update rfl id
  clearBits _ h := h.update rfl id

section

variable {s t : State} (h : EngineEffect s t)
include h

theorem EngineEffect.emit (c w : Nat) : (emit c w t).Reaches (EngineEffect s) (EngineEffect s) :=
  (packerClosed_engineEffect s).emit (fun f _ hu => hu.abort _ f) h fun _ f => h.abort _ f

theorem EngineEffect.consume (x : Byte) : (consume x t).Reaches (EngineEffect s) (EngineEffect s) := by
  unfold Machine.consume
  split
  · split
    · exact h.update rfl id
    · exact (h.emit _ _).andThen fun _ hu => (hu.grow x).update rfl id
  · exact h.update rfl id

theorem EngineEffect.flushAcc : (flushAcc t).Reaches (EngineEffect s) (EngineEffect s) :=
  .ite (fun _ => (h.emit _ _).andThen fun _ hu => hu.update rfl id) fun _ => h

end

/-- Every operation of the engine, in any state. -/
theorem keeps_engineEffect {i : Instr} {c : BitVec 8} (hi : encode i = .seq c) (s : State) :
    Keeps (EngineEffect s) (exec i s) := by
  have hP := packerClosed_engineEffect s
  have hI : ∀ (f : FrameIdx) (u : State), EngineEffect s u → EngineEffect s (abort .outputOverflow f u) :=
    fun f _ hu => hu.abort _ f
  have h0 := EngineEffect.refl s
  cases i with
  | idle => exact keeps_next.mpr h0
  | xFinish => exact keeps_next.mpr (h0.update rfl nofun)
  | lCheckSrc | gCheckPal => exact .ite (fun _ => keeps_next.mpr (h0.update rfl id)) fun _ => keeps_next.mpr (h0.abort _ _)
  | gCheckFrame =>
    exact .ite (fun _ => keeps_next.mpr (h0.abort _ _)) fun _ => .ite (fun _ => keeps_next.mpr (h0.abort _ _)) fun _ =>
      .ite (fun _ => keeps_fault _ _) fun _ => keeps_next.mpr (h0.update rfl id)
  | lInit => exact .ite (fun _ => keeps_next.mpr (h0.update rfl id)) fun _ => keeps_fault _ _
  | gNextFrame => exact .ite (fun _ => keeps_fault _ _) fun _ => keeps_next.mpr (h0.update rfl id)
  | lEmitClear | lEmitEnd => exact (h0.emit _ _).close fun _ ht => ht.update rfl id
  | lStep =>
    have hpi : EngineEffect s { s with pi := s.pi + 1 } := h0.update rfl id
    exact .ite (fun _ => .ite (fun _ => keeps_fault _ _) fun _ => (hpi.consume _).close fun _ ht => ht.update rfl id)
      fun _ => keeps_fault _ _
  | lFlushAcc => exact h0.flushAcc.close fun _ ht => ht.update rfl id
  | lPad => exact (hP.padBits hI h0).close fun _ ht => ht.update rfl id
  | gSig | gLsd | gGct | gNetscape | gGce | gIdesc => exact (hP.outBytes hI h0 _).close fun _ ht => ht.update rfl id
  | gMincode | gTrailer => exact (hP.outByte hI h0 _).close fun _ ht => ht.update rfl id
  | bTerm =>
    have hchunk : (if s.chunkLen = 0 then .ok s else flushChunk s : Flow).Reaches (EngineEffect s) (EngineEffect s) :=
      .ite (fun _ => h0) fun _ => hP.flushChunk hI h0
    exact (hchunk.andThen fun _ ht => hP.outByte hI ht _).close fun _ ht => ht.update rfl id
  | _ => exact nomatch hi

theorem keeps_runEngine (s : State) : Keeps (EngineEffect s) (runEngine s) := by
  rcases runEngine_cases s with ⟨i, hi, he⟩ | ⟨-, he⟩
  · exact he ▸ keeps_engineEffect (encode_of_decode_seq hi) s
  · exact he ▸ keeps_fault _ _

/-- An engine turn, waiting or not, runs the engine (R117 (b)). -/
theorem step_eq_runEngine {s : State} (h : s.agenda = [] ∨ s.agenda.head? = some .engine) :
    ∃ l, step s = runEngine { s with agenda := l } := by
  rcases h with h | h
  · exact ⟨s.agenda, step_engine h⟩
  · obtain ⟨rest, hrest⟩ := List.head?_eq_some_iff.mp h
    exact ⟨rest, step_turn hrest⟩

/-- Settles O56: a byte of the job lands in the region, and an abort forgets no other. -/
theorem jobWritesOnlyItsRegion : Obligations.JobWritesOnlyItsRegion := by
  intro s t a hs ht ha
  obtain ⟨l, he⟩ := step_eq_runEngine hs
  exact (keeps_runEngine _ t (he.symm.trans ht)).outside a ha

/-! ### The inputs of a running job -/

/-- In one memory the bytes a job reads lie outside its OUT region (R146 (f)). -/
theorem EngineEffect.sameInputs {s t : State} (h : EngineEffect s t) (hj : JobInv s) (hb : t.busy = true) :
    SameInputs s t := by
  obtain ⟨hjob, hin, hdraws⟩ := h.running hb
  refine ⟨h.settings, hjob, fun a ha => ?_⟩
  cases hs : s.build.sharedMemory with
  | false => exact inByte_congr_separate h.build hs hin hdraws a
  | true =>
    rw [inByte_of_shared hs, inByte_of_shared (h.build ▸ hs)]
    exact h.outside a fun hout => hj.disjoint hs a hout ha

/-- The host is refused a write of a byte the running job reads; other turns leave IN, or end the job (R47 (b)). -/
theorem HostEffect.sameInputs {s t : State} (h : HostEffect s t) (hs : s.busy = true) (ht : t.busy = true) :
    SameInputs s t := by
  cases h with
  | same | ctrl | read => exact ⟨rfl, rfl, fun _ _ => rfl⟩
  | illegal hb | accept _ hb | config _ hb => exact absurd (hs.symm.trans hb) nofun
  | reset => exact nomatch ht
  | status v =>
    rw [writeStatus_eq]
    exact ⟨rfl, rfl, fun _ _ => rfl⟩
  | writeIn a v hr =>
    have hjob : (writeInByte (wrapAddr s a) v s).job = s.job := by
      rw [writeInByte_eq]
      split <;> rfl
    refine ⟨settings_writeInByte _ v s, hjob, fun b hb => ?_⟩
    rw [inByte_writeInByte, if_neg]
    rintro rfl
    exact hr ⟨hs, hb⟩
  | writeOut a v hr =>
    refine ⟨rfl, rfl, fun b hb => inByte_writeOutByte v fun hshared => ?_⟩
    rintro rfl
    exact hr ⟨hshared, hs, hb⟩

theorem Inv.step_sameInputs {s t : State} (h : Inv s) (hs : s.busy = true) (hst : step s = .next t) (ht : t.busy = true) :
    SameInputs s t := by
  obtain ⟨l, ⟨i, hi, hx⟩ | hx⟩ := step_next_cases hst
  · have hl := (keeps_engineEffect hi _ t hx).sameInputs ((h.job hs).withAgenda l) ht
    exact ⟨hl.settings, hl.job, hl.bytes⟩
  · have hl := hx.sameInputs hs ht
    exact ⟨hl.settings, hl.job, hl.bytes⟩

/-- Settles O55: a step that goes on with the job leaves its inputs, and with them the set of bytes it reads. -/
theorem jobInputStable : Obligations.JobInputStable := by
  intro s t a h hs hst ht ha
  have hi := h.step_sameInputs hs hst ht
  exact ⟨hi.bytes a ha, (hi.jobReads_iff a).mpr ha⟩

end Sys2Proof.Machine
end

section
/-! PROOFS. What a host turn answers (R33, R40, R47 (b)): which register accesses are refused, and what the host's accesses to a
byte of IN and of OUT do where they are not. -/

namespace Sys2Proof.Machine

/-! ### Register accesses (R40) -/

theorem accessOk_iff (offset bytes : Nat) :
    accessOk offset bytes = true ↔ bytes = 4 ∧ offset % 4 = 0 ∧ offset ≤ 0x3C := by
  simp [accessOk, and_assoc]

theorem runAccess_of_not_accessOk {offset bytes : Nat} (h : accessOk offset bytes = false) (write : Bool) (data : Word)
    (s : State) : runAccess write offset bytes data s = .refused .registerAccess := by
  simp [runAccess, accessInstr, h]

/-- The pattern of an aligned access has OFF[1:0] = 0, and a data word exactly where it is a write (R52). -/
theorem decode_bus_of_aligned {offset : Nat} (h : offset % 4 = 0) (write : Bool) (data : Word) :
    ∃ i, decode (.bus (BitVec.ofBool write ++ BitVec.ofNat 6 offset) (if write then some data else none)) = .ok i := by
  have hlow : (BitVec.ofBool write ++ BitVec.ofNat 6 offset).extractLsb' 0 2 = 0 := by
    apply BitVec.eq_of_toNat_eq
    rw [BitVec.extractLsb'_toNat, toNat_append_eq, BitVec.toNat_ofNat, Nat.shiftRight_zero]
    show _ = 0
    omega
  have hdir : (BitVec.ofBool write ++ BitVec.ofNat 6 offset).getLsbD 6 = write := by
    rw [BitVec.getLsbD_append]
    cases write <;> rfl
  simp only [decode, decodeBus, hlow, hdir]
  cases write with
  | false => exact ⟨_, rfl⟩
  | true => exact ⟨_, rfl⟩

theorem runAccess_of_accessOk {offset bytes : Nat} (h : accessOk offset bytes = true) (write : Bool) (data : Word)
    (s : State) : ∃ i, i.format ≠ .seq ∧ runAccess write offset bytes data s = exec i s := by
  obtain ⟨-, halign, -⟩ := (accessOk_iff offset bytes).mp h
  obtain ⟨i, hi⟩ := decode_bus_of_aligned halign write data
  refine ⟨issued i, format_issued (format_of_decode_bus hi), ?_⟩
  simp [runAccess, accessInstr, h, hi]

/-! ### What a host instruction is refused as (log 14) -/

theorem startJob_refused {u : State} {r : Refusal} (h : startJob u = .refused r) : r = .regionsOverlap := by
  rcases startJob_cases u with ⟨-, hu⟩ | ⟨-, hu⟩
  · exact nomatch hu.symm.trans h
  · exact (Host.Outcome.refused.inj (hu.symm.trans h)).symm

theorem unlessBusy_refused {s : State} {o : Host.Outcome State Fault Refusal} {r : Refusal}
    (h : unlessBusy s o = .refused r) : o = .refused r := by
  unfold unlessBusy at h
  split at h
  · exact nomatch h
  · exact h

theorem command_refused {v : Word} {s : State} {r : Refusal} (h : command v s = .refused r) : r = .regionsOverlap := by
  rcases command_cases v s with hc | ⟨-, -, hc⟩ | ⟨-, loop, hc⟩ | ⟨-, m, -, -, -, hc⟩ | hc
  · exact nomatch hc.symm.trans h
  · exact nomatch hc.symm.trans h
  · exact startJob_refused (hc.symm.trans h)
  · exact startJob_refused (hc.symm.trans h)
  · exact nomatch hc.symm.trans h

theorem exec_refused_of_host {i : Instr} (hi : i.format ≠ .seq) {s : State} {r : Refusal} (h : exec i s = .refused r) :
    r = .regionsOverlap := by
  cases i with
  | nop | softReset | rd => exact nomatch h
  | gifEncodeLoop0 | gifEncodeLoop1 => exact startJob_refused (unlessBusy_refused h)
  | lzwEncode m =>
    have ho := unlessBusy_refused h
    split at ho
    · exact startJob_refused ho
    · exact nomatch ho
  | wr q v =>
    cases q with
    | cmd => exact command_refused h
    | _ => exact nomatch h
  | _ => exact absurd rfl hi

/-- Settles O10: an aligned word of the window runs a host instruction, and no such instruction is refused as an access. -/
theorem otherRegisterAccessRefused : Obligations.OtherRegisterAccessRefused := by
  intro s rest write offset bytes data hs
  rw [step_turn hs, ← accessOk_iff]
  show runAccess write offset bytes data { s with agenda := rest } = .refused .registerAccess ↔ _
  cases hok : accessOk offset bytes with
  | false => exact ⟨fun _ => nofun, fun _ => runAccess_of_not_accessOk hok write data _⟩
  | true =>
    obtain ⟨i, hi, he⟩ := runAccess_of_accessOk hok write data { s with agenda := rest }
    exact ⟨fun h => absurd (exec_refused_of_host hi (he.symm.trans h)) nofun, fun h => absurd rfl h⟩

/-! ### The host's bytes (R33, R47 (b)) -/

/-- Settles O11: the write and the read of a byte of IN by their cases; the byte written is the one read back. -/
theorem hostAccessOfInput : Obligations.HostAccessOfInput := by
  intro s rest a v w reads held
  refine ⟨fun hs => ?_, fun hs => ?_⟩
  · rw [step_turn hs]
    rcases hostWriteIn_cases a v { s with agenda := rest } with ⟨hr, h⟩ | ⟨hr, ⟨hh, h⟩ | ⟨hh, h⟩⟩
    · exact ⟨fun _ => h, fun hn => absurd hr hn, fun hn => absurd hr hn⟩
    · exact ⟨fun hp => absurd hp hr, fun _ _ => h, fun _ hn => absurd hh hn⟩
    · refine ⟨fun hp => absurd hp hr, fun _ hp => absurd hp hh, fun _ _ => ⟨_, h, ?_, fun b hb => ?_, ?_⟩⟩
      · exact (inByte_writeInByte _ _ _ _).trans (if_pos rfl)
      · exact (inByte_writeInByte _ _ _ _).trans (if_neg hb)
      · rw [writeInByte_eq]
        split <;> rfl
  · rw [step_turn hs]
    rcases hostReadIn_cases a { s with agenda := rest } with ⟨hh, h⟩ | ⟨hh, h⟩
    · exact ⟨fun _ => h, fun hn => absurd hh hn⟩
    · exact ⟨fun hp => absurd hp hh, fun _ => h⟩

/-- Settles O12: the write and the read of a byte of OUT by their cases. -/
theorem hostAccessOfOutput : Obligations.HostAccessOfOutput := by
  intro s rest a v w held reads
  refine ⟨fun hs => ?_, fun hs => ?_⟩
  · rw [step_turn hs]
    rcases hostWriteOut_cases a v { s with agenda := rest } with ⟨hh, h⟩ | ⟨hh, ⟨hr, h⟩ | ⟨hr, h⟩⟩
    · exact ⟨fun _ => h, fun hn => absurd hh hn, fun hn => absurd hh hn⟩
    · exact ⟨fun hp => absurd hp hh, fun _ _ => h, fun _ hn => absurd hr hn⟩
    · refine ⟨fun hp => absurd hp hh, fun _ hp => absurd hp hr, fun _ _ => ⟨_, h, ?_, fun b hb => ?_, rfl⟩⟩
      · exact (outByteAt_writeOutByte _ _ _ _).trans (if_pos rfl)
      · exact (outByteAt_writeOutByte _ _ _ _).trans (if_neg hb)
  · rw [step_turn hs]
    rcases hostReadOut_cases a { s with agenda := rest } with ⟨hh, h⟩ | ⟨hh, h⟩
    · exact ⟨fun _ => h, fun hn => absurd hh hn⟩
    · exact ⟨fun hp => absurd hp hh, fun _ => h⟩

end Sys2Proof.Machine
end

section
/-! PROOFS. The encodings of R52 to R56: decoder and encoder are inverse to each other, which command words and sequencer codes
stand for what; and where a code's bits and the bytes of `pack` lie (R58, R76). -/

namespace Sys2Proof.Machine

/-! ### Command words (R53, R54) -/

/-- The fields of R53 are the whole word. -/
theorem word_ext {v w : Word} (ho : opcField v = opcField w) (hm : mField v = mField w) (hl : loopField v = loopField w)
    (hr : reservedField v = reservedField w) : v = w := by
  apply BitVec.eq_of_getLsbD_eq
  intro i hi
  rcases (by omega : i < 8 ∨ (8 ≤ i ∧ i < 12) ∨ i = 12 ∨ 13 ≤ i) with h | ⟨h, h'⟩ | rfl | h
  · simpa [opcField, h] using congrArg (·.getLsbD i) ho
  · simpa [mField, h, show i - 8 < 4 by omega] using congrArg (·.getLsbD (i - 8)) hm
  · exact hl
  · simpa [reservedField, h, show i - 13 < 19 by omega] using congrArg (·.getLsbD (i - 13)) hr

theorem fields_lzwWord (m : BitVec 4) : opcField (lzwWord m) = opcLzw ∧ mField (lzwWord m) = m
    ∧ loopField (lzwWord m) = false ∧ reservedField (lzwWord m) = 0 := by
  revert m
  decide

theorem toNat_lzwWord (m : BitVec 4) : (lzwWord m).toNat = 0x00000002 + m.toNat * 2 ^ 8 := by
  revert m
  decide

/-- R124's word, in R54's words. -/
theorem eq_lzwWord_iff (v : Word) (m : BitVec 4) : v = lzwWord m ↔ v.toNat = 0x00000002 + m.toNat * 2 ^ 8 := by
  rw [← toNat_lzwWord, BitVec.toNat_inj]

theorem legalM_iff (m : BitVec 4) : legalM m = true ↔ 2 ≤ m.toNat ∧ m.toNat ≤ 8 := by
  simp [legalM, mNotTooSmall, mNotTooLarge]

theorem decode_lzwWord {m : BitVec 4} (h : legalM m = true) : decode (.cmd (lzwWord m)) = .ok (.lzwEncode m) := by
  obtain ⟨ho, hm, hl, hr⟩ := fields_lzwWord m
  simp [decode, decodeCmd, ho, hm, hl, hr, h, opcNop, opcGif, opcLzw]

/-- The fields of a command's word are those of the word it was decoded from. -/
theorem encode_of_decode_cmd {v : Word} {i : Instr} (h : decode (.cmd v) = .ok i) :
    encode i = .cmd v ∧ WellFormed i = true := by
  obtain ⟨hr, ⟨ho, hm, hl, rfl⟩ | ⟨ho, hm, rfl⟩ | ⟨ho, hm, hl, rfl⟩ | ⟨ho, hm, hl, rfl⟩⟩ := decode_cmd_cases h
  · exact ⟨congrArg Encoded.cmd (word_ext ho.symm hm.symm hl.symm hr.symm), rfl⟩
  · cases hl : loopField v with
    | false | true => exact ⟨congrArg Encoded.cmd (word_ext ho.symm hm.symm hl.symm hr.symm), rfl⟩
  · obtain ⟨ho', hm', hl', hr'⟩ := fields_lzwWord (mField v)
    exact ⟨congrArg Encoded.cmd
      (word_ext (ho'.trans ho.symm) hm' (hl'.trans hl.symm) (hr'.trans hr.symm)), hm⟩
  · exact ⟨congrArg Encoded.cmd (eq_reset_word hr hm hl ho).symm, rfl⟩

theorem decodeBare_of_no_operands {v : Word} (hm : mField v = 0) (hl : loopField v = false) (i : Instr) :
    decodeBare v i = .ok i := by
  simp [decodeBare, hm, hl]

/-- The clauses of R55, negated: a legal word's OPC is one of R54's, with the M and LOOP that OPC admits. -/
theorem fields_of_legal {v : Word} (h : illegalWord v = false) :
    reservedField v = 0
      ∧ ((opcField v = opcNop ∧ mField v = 0 ∧ loopField v = false) ∨ (opcField v = opcGif ∧ mField v = 0)
        ∨ (opcField v = opcLzw ∧ legalM (mField v) = true ∧ loopField v = false)
        ∨ (opcField v = opcReset ∧ mField v = 0 ∧ loopField v = false)) := by
  simp only [illegalWord, Bool.or_eq_false_iff] at h
  obtain ⟨⟨⟨⟨hopc, hres⟩, hbare⟩, hgif⟩, hlzw⟩ := h
  refine ⟨by simpa using hres, ?_⟩
  have ho : opcField v = opcNop ∨ opcField v = opcGif ∨ opcField v = opcLzw ∨ opcField v = opcReset := by
    simpa [or_iff_not_imp_left] using hopc
  rcases ho with ho | ho | ho | ho
  · exact .inl ⟨ho, by simpa [ho] using hbare⟩
  · exact .inr (.inl ⟨ho, by simpa [ho] using hgif⟩)
  · exact .inr (.inr (.inl ⟨ho, by simpa [ho] using hlzw⟩))
  · exact .inr (.inr (.inr ⟨ho, by simpa [ho] using hbare⟩))

/-- A word that is not illegal is a command. -/
theorem decode_of_legal {v : Word} (h : illegalWord v = false) : ∃ i, decode (.cmd v) = .ok i := by
  obtain ⟨hr, ⟨ho, hm, hl⟩ | ⟨ho, hm⟩ | ⟨ho, hm, hl⟩ | ⟨ho, hm, hl⟩⟩ := fields_of_legal h
  · exact ⟨.nop, by simp [decode, decodeCmd, hr, ho, decodeBare_of_no_operands hm hl]⟩
  · exact ⟨if loopField v then .gifEncodeLoop1 else .gifEncodeLoop0,
      by simp [decode, decodeCmd, hr, ho, hm, opcNop, opcGif]⟩
  · exact ⟨.lzwEncode (mField v), by simp [decode, decodeCmd, hr, ho, hm, hl, opcNop, opcGif, opcLzw]⟩
  · exact ⟨.softReset,
      by simp [decode, decodeCmd, hr, ho, opcNop, opcGif, opcLzw, opcReset, decodeBare_of_no_operands hm hl]⟩

/-! ### Bus patterns (R52) -/

/-- D, OFF[5:2] and OFF[1:0] are the whole pattern, and every register number is taken. -/
theorem busPattern_of_fields {p : BitVec 7} (h : p.extractLsb' 0 2 = 0) :
    busPattern (p.getLsbD 6) (Reg.ofNum (p.extractLsb' 2 4)) = p := by
  revert p
  decide

theorem encode_of_decode_bus {p : BitVec 7} {d : Option Word} {i : Instr} (h : decode (.bus p d) = .ok i) :
    encode i = .bus p d ∧ WellFormed i = true := by
  simp only [decode, decodeBus] at h
  split at h
  · cases h
  next hlow =>
    have hp := busPattern_of_fields (not_not.mp hlow)
    split at h
    next hd =>
      cases h
      exact ⟨congrArg (Encoded.bus · _) (hd ▸ hp), rfl⟩
    · cases h
    · cases h
    next hd =>
      cases h
      exact ⟨congrArg (Encoded.bus · _) (hd ▸ hp), rfl⟩

/-! ### Every format -/

/-- Settles O1: LZW_ENCODE by the fields of its word, a transaction register by register, every other row by its one word. -/
theorem decodeOfEncodeIsIdentity : Obligations.DecodeOfEncodeIsIdentity := by
  intro i hi
  cases i with
  | lzwEncode m => exact decode_lzwWord hi
  | wr r v => cases r <;> rfl
  | rd r => cases r <;> rfl
  | _ => rfl

/-- Settles O2, format by format. -/
theorem encodeOfDecodeIsIdentity : Obligations.EncodeOfDecodeIsIdentity := by
  intro e i h
  cases e with
  | cmd v => exact encode_of_decode_cmd h
  | bus p d => exact encode_of_decode_bus h
  | seq c =>
    have hi := encode_of_decode_seq h
    refine ⟨hi, ?_⟩
    cases i with
    | lzwEncode m => exact nomatch hi
    | _ => rfl

/-- The words that decode to an instruction are its own word alone, and none where it is ill-formed. -/
theorem decode_eq_ok_iff (e : Encoded) (i : Instr) : decode e = .ok i ↔ encode i = e ∧ WellFormed i = true :=
  ⟨encodeOfDecodeIsIdentity e i, fun ⟨he, hi⟩ => he ▸ decodeOfEncodeIsIdentity i hi⟩

/-! ### The rows of R54 and R56 -/

/-- Settles O3: a row of R54 is an instruction's own word, and only LZW_ENCODE can be ill-formed; R55's clauses refuse exactly
what the decoder does. -/
theorem legalCommandWords : Obligations.LegalCommandWords := by
  intro v
  refine ⟨fun i => (decode_eq_ok_iff _ i).trans ⟨fun ⟨he, hw⟩ => ?_, ?_⟩, fun h ⟨i, hi⟩ => ?_, fun h => ?_⟩
  · cases i with
    | nop => exact .inl ⟨(Encoded.cmd.inj he).symm, rfl⟩
    | gifEncodeLoop0 => exact .inr (.inl ⟨(Encoded.cmd.inj he).symm, rfl⟩)
    | gifEncodeLoop1 => exact .inr (.inr (.inl ⟨(Encoded.cmd.inj he).symm, rfl⟩))
    | softReset => exact .inr (.inr (.inr (.inl ⟨(Encoded.cmd.inj he).symm, rfl⟩)))
    | lzwEncode m =>
      obtain ⟨hlow, hhigh⟩ := (legalM_iff m).mp hw
      exact .inr (.inr (.inr (.inr ⟨m, hlow, hhigh, (eq_lzwWord_iff v m).mp (Encoded.cmd.inj he).symm, rfl⟩)))
    | _ => exact nomatch he
  · rintro (⟨rfl, rfl⟩ | ⟨rfl, rfl⟩ | ⟨rfl, rfl⟩ | ⟨rfl, rfl⟩ | ⟨m, hlow, hhigh, hv, rfl⟩)
    · exact ⟨rfl, rfl⟩
    · exact ⟨rfl, rfl⟩
    · exact ⟨rfl, rfl⟩
    · exact ⟨rfl, rfl⟩
    · exact ⟨congrArg Encoded.cmd ((eq_lzwWord_iff v m).mpr hv).symm, (legalM_iff m).mpr ⟨hlow, hhigh⟩⟩
  · exact absurd (h.symm.trans (illegalWord_of_decode hi)) nofun
  · by_contra hlegal
    exact h (decode_of_legal (Bool.eq_false_of_not_eq_true hlegal))

/-- The operation table of R56. -/
def seqTable : List (Nat × Instr) :=
  [(0x00, .idle), (0x10, .lCheckSrc), (0x11, .lInit), (0x12, .lEmitClear), (0x13, .lStep), (0x14, .lFlushAcc),
    (0x15, .lEmitEnd), (0x16, .lPad), (0x20, .gCheckPal), (0x21, .gCheckFrame), (0x22, .gSig), (0x23, .gLsd), (0x24, .gGct),
    (0x25, .gNetscape), (0x26, .gGce), (0x27, .gIdesc), (0x28, .gMincode), (0x29, .bTerm), (0x2A, .gNextFrame),
    (0x2B, .gTrailer), (0x30, .xFinish)]

theorem encode_of_mem_seqTable : ∀ row ∈ seqTable, encode row.2 = .seq (BitVec.ofNat 8 row.1) ∧ WellFormed row.2 = true := by
  decide

theorem mem_seqTable_of_encode {c : BitVec 8} {i : Instr} (h : encode i = .seq c) : (c.toNat, i) ∈ seqTable := by
  cases i with
  | nop | gifEncodeLoop0 | gifEncodeLoop1 | lzwEncode | softReset | wr | rd => exact nomatch h
  | _ =>
    cases h
    decide

theorem decode_seq_iff (c : BitVec 8) (i : Instr) : decode (.seq c) = .ok i ↔ (c.toNat, i) ∈ seqTable := by
  rw [decode_eq_ok_iff]
  refine ⟨fun h => mem_seqTable_of_encode h.1, fun h => ?_⟩
  simpa using encode_of_mem_seqTable _ h

/-- Settles O4: R56's table both ways; the invariant keeps SEQ at a listed code, and the engine faults at another. -/
theorem seqCodesAreTheOperations : Obligations.SeqCodesAreTheOperations := by
  refine ⟨decode_seq_iff, fun s h => h.seq_listed, fun s hs hn => ?_⟩
  obtain ⟨l, hl⟩ := step_eq_runEngine hs
  rcases runEngine_cases { s with agenda := l } with ⟨i, hi, -⟩ | ⟨-, hfault⟩
  · exact absurd ⟨i, hi⟩ hn
  · exact hl.trans hfault

/-- Settles O5: the decoder, run on each word. -/
theorem wordsOfTheTablesDecode : Obligations.WordsOfTheTablesDecode := ⟨rfl, rfl, rfl, rfl, rfl, rfl⟩

/-! ### Bits and bytes (R58, R76) -/

theorem getElem?_codeBits {c w i : Nat} (h : i < w) : (codeBits c w)[i]? = some (decide (c / 2 ^ i % 2 = 1)) := by
  simp [codeBits, h, Nat.testBit_eq_decide_div_mod_eq]

theorem length_pack (bl : List Bool) : (pack bl).length = (bl.length + 7) / 8 := by simp [pack]

theorem getElem?_pack {bl : List Bool} {j : Nat} (h : j < (pack bl).length) : (pack bl)[j]? = some (packByte bl j) := by
  rw [length_pack] at h
  simp [pack, h]

/-- Settles O60: byte i / 8 of `pack` is the one whose bit i mod 8 is bit 8 (i / 8) + i mod 8 of the sequence. -/
theorem packPlacesBits : Obligations.PackPlacesBits := by
  refine ⟨fun c w => ⟨length_codeBits c w, fun i hi => getElem?_codeBits hi⟩, fun bl => ⟨length_pack bl, fun i hi => ?_⟩⟩
  refine ⟨packByte bl (i / 8), getElem?_pack (by omega), ?_⟩
  rw [getLsbD_packByte _ _ _ (Nat.mod_lt i (by decide)), Nat.div_add_mod]

end Sys2Proof.Machine
end

section
/-! PROOFS. What each of the LZW encoder's operations does (R87 to R93): the shape that the operations which send bits share,
one symbol at L.STEP by its three cases, and the code width over a pass (R79). -/

namespace Sys2Proof.Machine

/-! ### Aborts of a pass -/

/-- An error that is raised before anything is written. -/
theorem aborted_self (e : ErrCode) (f : FrameIdx) (s : State) : Aborted s (abort e f s) e f :=
  aborted_abort e f rfl (fun _ _ => rfl) rfl rfl ⟨rfl, rfl, rfl, rfl, rfl, rfl, rfl, rfl, rfl, rfl⟩ rfl ⟨rfl, rfl⟩

/-- During an operation of a frame, an output error and a width error name the same frame (R83, R102). -/
theorem frameCtx_of_frameOp {s : State} (h : frameOp s.seq = true) : frameCtx s = frameOrNone s := by
  simp [frameCtx, frameOrNone, h]

theorem Overflowed.close {s u : State} {x : Flow} (h : Overflowed s x u) (hop : frameOp s.seq = true)
    (g : State → Flow) : ∃ t, (x.andThen g).close = .next t ∧ Aborted s t .outputOverflow (frameOrNone s) := by
  have hab := h.aborted
  rw [frameCtx_of_frameOp hop] at hab
  exact ⟨_, by rw [h.raised, Flow.raise_andThen, Flow.close_raise, frameCtx_of_frameOp hop], hab⟩

/-! ### An operation that emits one code (R83) -/

section

variable {s : State} {c w : Nat} (hp : PackersReady s) (hop : frameOp s.seq = true) (g : State → State)
include hp

theorem close_emit_fits (hcode : w ≤ 12 ∧ c < 2 ^ w) (hf : Fits s (sunkBits s (codeBits c w)).1.length) :
    ∃ t, ((emit c w s).andThen fun t => .ok (g t)).close = .next (g t) ∧ Appended s t (codeBits c w)
      ∧ OnlyPacker s t := by
  rcases emit_cases c w s hp hcode.1 hcode.2 with ⟨-, t, ht, ha, -, ho, -⟩ | ⟨hn, -⟩
  · exact ⟨t, by rw [ht, Flow.ok_andThen, Flow.close_ok], ha, ho⟩
  · exact absurd hf hn

include hop

theorem close_emit_overflow (hcode : w ≤ 12 ∧ c < 2 ^ w) (hf : ¬ Fits s (sunkBits s (codeBits c w)).1.length) :
    ∃ t, ((emit c w s).andThen fun t => .ok (g t)).close = .next t
      ∧ Aborted s t .outputOverflow (frameOrNone s) := by
  rcases emit_cases c w s hp hcode.1 hcode.2 with ⟨hfit, -⟩ | ⟨-, u, hu⟩
  · exact absurd hfit hf
  · exact hu.close hop _

end

theorem close_emit_wide {c w : Nat} (s : State) (hcode : ¬ (w ≤ 12 ∧ c < 2 ^ w)) (g : State → State) :
    ∃ t, ((emit c w s).andThen fun t => .ok (g t)).close = .next t
      ∧ Aborted s t .codeWidthOverflow (frameOrNone s) := by
  refine ⟨_, ?_, aborted_self .codeWidthOverflow (frameOrNone s) s⟩
  rw [emit_wide s (c := c) (w := w) (by omega), Flow.raise_andThen, Flow.close_raise]

/-! ### L.CHECK_SRC and L.INIT (R87, R88) -/

/-- The check reads the source from its first byte. -/
theorem allBelow_source_iff (s : State) (bound : Nat) : allBelow s s.srcBase bound s.srcLen.toNat 0 = true
    ↔ ∀ k < s.srcLen.toNat, (inByte s (byteAddr s s.srcBase k)).toNat < bound := by
  simp only [allBelow_iff, Nat.zero_add]

/-- Settles O27: the check of all bytes, and the abort of a state in which nothing was written. -/
theorem checkSrcValidatesSource : Obligations.CheckSrcValidatesSource := by
  intro s good
  refine ⟨fun hg => if_pos ((allBelow_source_iff s _).mpr hg), fun hn => ?_⟩
  exact ⟨_, if_neg (mt (allBelow_source_iff s _).mp hn), aborted_self .lzwSymbolOutOfRange noFrame s, rfl⟩

/-- The registers of R68 hold what L.INIT puts there. -/
theorem toNat_startPass {s : State} (hm : s.mcs.toNat ≤ 8) :
    (startPass s).clearCode.toNat = 2 ^ s.mcs.toNat ∧ (startPass s).endCode.toNat = 2 ^ s.mcs.toNat + 1
      ∧ (startPass s).w.toNat = s.mcs.toNat + 1 ∧ (startPass s).next.toNat = 2 ^ s.mcs.toNat + 2 := by
  have h256 : 2 ^ s.mcs.toNat ≤ 2 ^ 8 := Nat.pow_le_pow_right (by decide) hm
  have hclear : (1#9 <<< s.mcs.toNat).toNat = 2 ^ s.mcs.toNat := toNat_one_shiftLeft (by omega)
  have hnext : (1#13 <<< s.mcs.toNat).toNat = 2 ^ s.mcs.toNat := toNat_one_shiftLeft (by omega)
  refine ⟨hclear, ?_, ?_, ?_⟩
  · show (1#9 <<< s.mcs.toNat + 1).toNat = _
    rw [BitVec.toNat_add, hclear]
    exact Nat.mod_eq_of_lt (by simp; omega)
  · show (s.mcs + 1).toNat = _
    bv_omega
  · show (1#13 <<< s.mcs.toNat + 2).toNat = _
    rw [BitVec.toNat_add, hnext]
    exact Nat.mod_eq_of_lt (by simp; omega)

theorem execLInit_eq {s : State} (hm : s.mcs.toNat ≤ 8) : execLInit s = .next (goto SeqCode.lEmitClear (startPass s)) :=
  if_pos hm

/-- Settles O28: one update of the registers, and nothing is found in an empty table. -/
theorem initStartsPass : Obligations.InitStartsPass := by
  intro s hm
  obtain ⟨hclear, hend, hw, hnext⟩ := toNat_startPass hm
  exact ⟨_, execLInit_eq hm, hclear, hend, hw, hnext, fun _ _ => rfl, rfl⟩

/-! ### L.EMIT_CLEAR (R89) -/

/-- Settles O29: the clear code is the one code emitted. -/
theorem emitClearWritesClear : Obligations.EmitClearWritesClear := by
  intro s hp hs bl
  have hop : frameOp s.seq = true := by rw [hs]; rfl
  refine ⟨fun hcode => ⟨fun hf => ?_, close_emit_overflow hp hop _ hcode⟩, fun hcode => close_emit_wide s hcode _⟩
  obtain ⟨t, ht, ha, ho⟩ := close_emit_fits hp _ hcode hf
  refine ⟨_, ht, ha, ho.trans rfl, ?_⟩
  unfold OnlyPacker at ho
  rw [ho]
  rfl

/-! ### L.STEP (R90) -/

/-- Where L.STEP goes on: after the last symbol to L.FLUSH_ACC. -/
def afterSymbol (t : State) : State := goto (if t.pi = t.curN then SeqCode.lFlushAcc else SeqCode.lStep) t

section

variable {s : State} {x : Byte}

theorem consume_first (hv : s.accValid = false) : consume x s = .ok { restartAcc x s with accValid := true } := by
  simp [consume, hv]

theorem consume_hit (hv : s.accValid = true) {c : BitVec 12} (hc : lookup s s.accCode x = some c) :
    consume x s = .ok { s with accCode := c } := by
  simp [consume, hv, hc]

theorem consume_miss (hv : s.accValid = true) (hc : lookup s s.accCode x = none) :
    consume x s = (emit s.accCode.toNat s.w.toNat s).andThen fun t => .ok (restartAcc x (grow x t)) := by
  simp [consume, hv, hc]

end

/-- PI counts the symbol. -/
theorem toNat_pi_succ {s : State} (hpi : s.pi.toNat + 1 < 2 ^ 32) : (s.pi + 1).toNat = s.pi.toNat + 1 := by bv_omega

section

variable {s : State} (hx : (inByte s (byteAddr s s.curSrc s.pi.toNat)).toNat < 2 ^ s.mcs.toNat)
  (hpi : s.pi.toNat + 1 < 2 ^ 32)
include hx hpi

theorem execLStep_eq : execLStep s
    = ((consume (inByte s (byteAddr s s.curSrc s.pi.toNat)) { s with pi := s.pi + 1 }).andThen
        fun t => .ok (afterSymbol t)).close := by
  have hne : s.pi ≠ 0xFFFFFFFF#32 := by bv_omega
  rw [execLStep, if_pos hx, if_neg hne]
  rfl

/-- The first symbol of a pass becomes the accumulator. -/
theorem execLStep_first (hv : s.accValid = false) : execLStep s = .next (afterSymbol
    { restartAcc (inByte s (byteAddr s s.curSrc s.pi.toNat)) { s with pi := s.pi + 1 } with accValid := true }) := by
  rw [execLStep_eq hx hpi, consume_first (s := { s with pi := s.pi + 1 }) hv, Flow.ok_andThen, Flow.close_ok]

/-- The code the lookup finds becomes the accumulator. -/
theorem execLStep_hit (hv : s.accValid = true) {c : BitVec 12}
    (hc : lookup s s.accCode (inByte s (byteAddr s s.curSrc s.pi.toNat)) = some c) :
    execLStep s = .next (afterSymbol { s with pi := s.pi + 1, accCode := c }) := by
  rw [execLStep_eq hx hpi, consume_hit (s := { s with pi := s.pi + 1 }) hv hc, Flow.ok_andThen, Flow.close_ok]

/-- Where the lookup finds nothing, the accumulator's code is emitted, the table grows, and the symbol is the accumulator. -/
theorem execLStep_miss (hv : s.accValid = true)
    (hc : lookup s s.accCode (inByte s (byteAddr s s.curSrc s.pi.toNat)) = none) :
    execLStep s = ((emit s.accCode.toNat s.w.toNat { s with pi := s.pi + 1 }).andThen fun t =>
      .ok (afterSymbol (restartAcc (inByte s (byteAddr s s.curSrc s.pi.toNat))
        (grow (inByte s (byteAddr s s.curSrc s.pi.toNat)) t)))).close := by
  rw [execLStep_eq hx hpi, consume_miss (s := { s with pi := s.pi + 1 }) hv hc, Flow.andThen_assoc]
  rfl

end

theorem toNat_symbol (x : Byte) : (x.setWidth 12).toNat = x.toNat := by
  rw [BitVec.toNat_setWidth, Nat.mod_eq_of_lt (by omega)]

/-- Settles O30: the symbol is the accumulator. -/
theorem stepTakesFirstSymbol : Obligations.StepTakesFirstSymbol := by
  intro s x hx hpi hv
  exact ⟨_, execLStep_first hx hpi hv, toNat_pi_succ hpi, toNat_symbol x, rfl, rfl⟩

/-- The only entry of the searched range with the pair is what the lookup finds. -/
theorem lookup_of_unique {s : State} {p c : BitVec 12} {x : Byte} (hlow : 2 ^ s.mcs.toNat + 2 ≤ c.toNat)
    (hhigh : c.toNat < s.next.toNat) (hmem : (c.toNat, ⟨p, x⟩) ∈ s.table)
    (huniq : ∀ d ∈ s.table, 2 ^ s.mcs.toNat + 2 ≤ d.1 → d.1 < s.next.toNat → d.2 = ⟨p, x⟩ → d.1 = c.toNat) :
    lookup s p x = some c := by
  cases h : lookup s p x with
  | none => exact absurd rfl (lookup_none.mp h _ hmem hlow hhigh c.isLt)
  | some d =>
    obtain ⟨hd, hdlow, hdhigh⟩ := lookup_some h
    rw [BitVec.eq_of_toNat_eq (huniq _ hd hdlow hdhigh rfl)]

/-- Settles O31: the lookup finds the one entry. -/
theorem stepExtendsAccumulator : Obligations.StepExtendsAccumulator := by
  intro s c x hx hpi hv hlow hhigh hmem huniq
  exact ⟨_, execLStep_hit hx hpi hv (lookup_of_unique hlow hhigh hmem huniq), toNat_pi_succ hpi, rfl, rfl⟩

/-- What the insertion leaves in NEXT, TABLE and W, below P_CODE_LIMIT and at it, and that it changes nothing else. -/
theorem grow_spec (x : Byte) (s : State) :
    (s.next.toNat < s.build.codeLimit.toNat →
        (grow x s).next.toNat = s.next.toNat + 1
        ∧ (grow x s).table = Cells.put s.table s.next.toNat ⟨s.accCode, x⟩
        ∧ (grow x s).w.toNat
          = if s.next.toNat + 1 > 2 ^ s.w.toNat ∧ s.w.toNat < 12 then s.w.toNat + 1 else s.w.toNat)
      ∧ (s.build.codeLimit.toNat ≤ s.next.toNat →
        (grow x s).next = s.next ∧ (grow x s).table = s.table ∧ (grow x s).w = s.w)
      ∧ grow x s = { s with next := (grow x s).next, table := (grow x s).table, w := (grow x s).w } := by
  rcases grow_cases x s with ⟨hlim, hg⟩ | ⟨hlim, hg⟩
  · rw [hg]
    exact ⟨fun h => absurd hlim (by omega), fun _ => ⟨rfl, rfl, rfl⟩, rfl⟩
  · have hn := toNat_next_succ hlim
    rw [hn] at hg
    rw [hg]
    exact ⟨fun _ => ⟨hn, rfl, toNat_widened And.right⟩, fun h => absurd hlim (by omega), rfl⟩

/-- An abort does not look at PI. -/
theorem Aborted.of_withPi {s t : State} {x : BitVec 32} {e : ErrCode} {f : FrameIdx}
    (h : Aborted { s with pi := x } t e f) : Aborted s t e f := { h with }

/-- Settles O32: the emit of the old accumulator, then what `grow` does in the state the packers leave. -/
theorem stepEmitsAndInserts : Obligations.StepEmitsAndInserts := by
  intro s x bl hx hpi hv hmiss hp hs
  have hop : frameOp s.seq = true := by rw [hs]; rfl
  have hexec := execLStep_miss hx hpi hv (lookup_none.mpr fun d hd h1 h2 _ => hmiss d hd h1 h2)
  have hp1 : PackersReady { s with pi := s.pi + 1 } := hp
  refine ⟨fun hcode => ⟨fun hf => ?_, fun hf => ?_⟩, fun hcode => ?_⟩
  · obtain ⟨u, hu, ha, ho⟩ := close_emit_fits hp1 (fun t => afterSymbol (restartAcc x (grow x t))) hcode hf
    obtain ⟨hbelow, hfull, hkeep⟩ := grow_spec x u
    generalize grow x u = v at hu hbelow hfull hkeep
    unfold OnlyPacker at ho
    refine ⟨_, hexec.trans hu, ?_, ?_, toNat_symbol x, ?_, ?_, ?_, ?_⟩
    · rw [hkeep]
      exact ha
    · rw [hkeep, ho]
      exact toNat_pi_succ hpi
    · rw [hkeep, ho]
      rfl
    · rw [ho] at hbelow
      intro hlim
      obtain ⟨hn, ht, hw⟩ := hbelow hlim
      refine ⟨hn, ?_, fun c hc => ?_, hw⟩
      · exact (congrArg (Cells.get · _) ht).trans (Cells.get_put_self _ _ _)
      · exact (congrArg (Cells.get · c) ht).trans (Cells.get_put_of_ne _ _ hc)
    · rw [ho] at hfull
      exact hfull
    · unfold OnlyPacker
      rw [hkeep, ho]
      rfl
  · obtain ⟨t, ht, hab⟩ := close_emit_overflow (s := { s with pi := s.pi + 1 }) hp1 hop _ hcode hf
    exact ⟨t, hexec.trans ht, hab.of_withPi⟩
  · obtain ⟨t, ht, hab⟩ := close_emit_wide { s with pi := s.pi + 1 } hcode _
    exact ⟨t, hexec.trans ht, hab.of_withPi⟩

/-! ### L.FLUSH_ACC, L.EMIT_END and L.PAD (R91 to R93) -/

/-- No bits send no byte. -/
theorem sunkBits_nil (s : State) : sunkBits s [] = ([], heldChunk s) := by
  have hshort : (heldBits s).length < 8 := by
    rw [length_heldBits]
    exact s.bitCnt.isLt
  rw [sunkBits, List.append_nil, wholeBytes_short hshort, sunk_nil]

theorem execLFlushAcc_empty {s : State} (hv : s.accValid = false) : execLFlushAcc s = .next (goto SeqCode.lEmitEnd s) := by
  simp [execLFlushAcc, flushAcc, hv]

theorem execLFlushAcc_held {s : State} (hv : s.accValid = true) :
    execLFlushAcc s = ((emit s.accCode.toNat s.w.toNat s).andThen fun t =>
      .ok (goto SeqCode.lEmitEnd { t with accValid := false })).close := by
  simp only [execLFlushAcc, flushAcc, hv, if_true, Flow.andThen_assoc, Flow.ok_andThen]

/-- Settles O33: without an accumulator nothing is written; with one, its code is the one code emitted. -/
theorem flushAccWritesAccumulator : Obligations.FlushAccWritesAccumulator := by
  intro s hp hs bl narrow
  have hop : frameOp s.seq = true := by rw [hs]; rfl
  cases hv : s.accValid with
  | false =>
    have hbl : bl = [] := if_neg (by rw [hv]; decide)
    rw [hbl]
    have hnarrow : narrow := fun h => absurd (hv.symm.trans h) nofun
    refine ⟨fun _ => ⟨fun _ => ⟨_, execLFlushAcc_empty hv, ?_, ?_, rfl⟩, fun hf => ?_⟩, fun hn => absurd hnarrow hn⟩
    · exact appended_nil hp.1 rfl rfl rfl rfl rfl rfl rfl rfl
    · rw [← hv]
      rfl
    · exact absurd (.inl (by rw [sunkBits_nil]; rfl)) hf
  | true =>
    have hbl : bl = codeBits s.accCode.toNat s.w.toNat := if_pos hv
    have hexec := execLFlushAcc_held hv
    rw [hbl]
    refine ⟨fun hcode => ⟨fun hf => ?_, fun hf => ?_⟩, fun hcode => ?_⟩
    · obtain ⟨t, ht, ha, ho⟩ := close_emit_fits hp _ (hcode hv) hf
      refine ⟨_, hexec.trans ht, ha, ?_, rfl⟩
      unfold OnlyPacker at ho ⊢
      rw [ho]
      rfl
    · obtain ⟨t, ht, hab⟩ := close_emit_overflow hp hop _ (hcode hv) hf
      exact ⟨t, hexec.trans ht, hab⟩
    · obtain ⟨t, ht, hab⟩ := close_emit_wide s (mt (fun h _ => h) hcode) _
      exact ⟨t, hexec.trans ht, hab⟩

/-- Settles O34: the end code is the one code emitted. -/
theorem emitEndWritesEnd : Obligations.EmitEndWritesEnd := by
  intro s hp hs we bl
  have hop : frameOp s.seq = true := by rw [hs]; rfl
  refine ⟨fun hcode => ⟨fun hf => ?_, close_emit_overflow hp hop _ hcode⟩, fun hcode => close_emit_wide s hcode _⟩
  obtain ⟨t, ht, ha, ho⟩ := close_emit_fits hp (goto SeqCode.lPad) hcode hf
  exact ⟨_, ht, ha, ho.trans rfl, rfl⟩

theorem toNat_lzwLastOf (s : State) :
    (lzwLastOf s).toNat = s.next.toNat * 2 ^ 8 + s.mcs.toNat * 2 ^ 4 + s.w.toNat := by
  rw [lzwLastOf, toNat_append_eq, toNat_append_eq]
  omega

theorem afterPass_eq (k : Sink) : afterPass k = if k = .raw then 0x30#8 else 0x29#8 := by
  cases k <;> rfl

/-- Settles O35: the bits that complete the byte, then LZW_LAST from registers the packers leave alone. -/
theorem padEndsPass : Obligations.PadEndsPass := by
  intro s hp hs bl
  have hop : frameOp s.seq = true := by rw [hs]; rfl
  rcases padBits_cases s hp with ⟨hfit, t, ht, ha, hcnt, hbuf, -, ho, -⟩ | ⟨hover, u, hu⟩
  · refine ⟨fun _ => ?_, fun hf => absurd hfit hf⟩
    have hexec : exec .lPad s = .next (goto (afterPass t.sink) { t with lzwLast := lzwLastOf t }) := by
      simp only [exec, execLPad, ht, Flow.ok_andThen, Flow.close_ok]
    unfold OnlyPacker at ho
    refine ⟨_, hexec, ha, hcnt, hbuf, ?_, ?_, ?_⟩
    · rw [ho]
      exact toNat_lzwLastOf s
    · rw [ho]
      exact afterPass_eq s.sink
    · unfold OnlyPacker
      rw [ho]
      rfl
  · exact ⟨fun hf => absurd hf hover, fun _ => hu.close hop _⟩

/-! ### The code width over a pass (R72, R79) -/

theorem w_le_grow (x : Byte) (s : State) : s.w.toNat ≤ (grow x s).w.toNat := by
  obtain ⟨hbelow, hfull, -⟩ := grow_spec x s
  rcases Nat.lt_or_ge s.next.toNat s.build.codeLimit.toNat with hlim | hlim
  · obtain ⟨-, -, hw⟩ := hbelow hlim
    rw [hw]
    split <;> omega
  · obtain ⟨-, -, hw⟩ := hfull hlim
    rw [hw]

/-- While a pass goes on, the width is at least `n`. -/
def WidthAtLeast (n : Nat) (t : State) : Prop := inPass t.seq = true → n ≤ t.w.toNat

theorem widthAtLeast_abort (n : Nat) (e : ErrCode) (f : FrameIdx) (u : State) : WidthAtLeast n (abort e f u) :=
  vacuous rfl

/-- The packers do not write W. -/
theorem packerClosed_width (n : Nat) : PackerClosed fun t => n ≤ t.w.toNat where
  pushOut _ _ _ h := h
  emptyChunk _ h := h
  pushChunk _ _ _ h := h
  setBit _ _ h := h
  countBit _ h := h
  clearBits _ h := h

section

variable {n : Nat} {s : State} (h : n ≤ s.w.toNat)
include h

theorem emit_width (c w : Nat) : (emit c w s).Reaches (WidthAtLeast n) fun t => n ≤ t.w.toNat :=
  (packerClosed_width n).emit (fun _ _ _ => widthAtLeast_abort _ _ _ _) h fun _ _ => widthAtLeast_abort _ _ _ _

theorem consume_width (x : Byte) : (consume x s).Reaches (WidthAtLeast n) fun t => n ≤ t.w.toNat := by
  unfold consume
  split
  · split
    · exact h
    · exact (emit_width h _ _).andThen fun t ht => ht.trans (w_le_grow x t)
  · exact h

theorem flushAcc_width : (flushAcc s).Reaches (WidthAtLeast n) fun t => n ≤ t.w.toNat :=
  .ite (fun _ => (emit_width h _ _).andThen fun _ ht => ht) fun _ => h

end

/-- An operation of a pass does not make the width smaller. -/
theorem keeps_width {i : Instr} {s : State} (hi : encode i = .seq s.seq) (hs : inPass s.seq = true) :
    Keeps (WidthAtLeast s.w.toNat) (exec i s) := by
  cases i with
  | lEmitClear | lEmitEnd => exact (emit_width (Nat.le_refl _) _ _).close fun _ ht _ => ht
  | lStep =>
    exact .ite (fun _ => .ite (fun _ => keeps_fault _ _) fun _ =>
      (consume_width (s := { s with pi := s.pi + 1 }) (Nat.le_refl _) _).close fun _ ht _ => ht) fun _ => keeps_fault _ _
  | lFlushAcc => exact (flushAcc_width (Nat.le_refl _)).close fun _ ht _ => ht
  | lPad =>
    exact ((packerClosed_width _).padBits (fun _ _ _ => widthAtLeast_abort _ _ _ _) (Nat.le_refl _)).close
      fun _ ht _ => ht
  | nop | gifEncodeLoop0 | gifEncodeLoop1 | lzwEncode | softReset | wr | rd => exact nomatch hi
  | _ =>
    rw [← Encoded.seq.inj hi] at hs
    exact absurd hs (by decide)

/-- No host turn writes W, but for a reset, which ends the pass. -/
theorem HostEffect.width {s t : State} (h : HostEffect s t) : WidthAtLeast s.w.toNat t := by
  cases h with
  | same | illegal | ctrl | read | writeOut => exact fun _ => Nat.le_refl _
  | accept u hb hu hd => obtain ⟨loop, rfl⟩ | ⟨m, -, rfl⟩ := hu <;> exact vacuous rfl
  | reset => exact vacuous rfl
  | status v =>
    rw [writeStatus_eq]
    exact fun _ => Nat.le_refl _
  | config u hb hu =>
    unfold OnlyConfig at hu
    rw [hu]
    exact fun _ => Nat.le_refl _
  | writeIn a v =>
    rw [writeInByte_eq]
    split <;> exact fun _ => Nat.le_refl _

/-- Settles O52: no turn makes the width of a pass smaller, and the invariant bounds it. -/
theorem codeWidthNeverDecreases : Obligations.CodeWidthNeverDecreases := by
  intro s t h hst hs ht
  have hmono : WidthAtLeast s.w.toNat t := keeps_step
    (fun l _ hi => keeps_width (s := { s with agenda := l }) hi hs) (fun _ _ => HostEffect.width) t hst
  obtain ⟨-, hpass, -⟩ := (stepKeepsInvariant s t h hst).pass_at rfl ht
  exact ⟨hmono ht, hpass.wHigh⟩

end Sys2Proof.Machine
end

section
/-! PROOFS. The code table as the dictionary of `lzw_codes` (R58, R69, R71, R81): which sequence a code stands for, what an
insertion adds on both sides, and the codes and bytes the function writes. -/

namespace Sys2Proof.Machine

/-! ### The dictionary -/

theorem dictGet_append_of_some {d e : List (List Byte × Nat)} {l : List Byte} {c : Nat} (h : dictGet d l = some c) :
    dictGet (d ++ e) l = some c := by
  obtain ⟨row, hrow, hc⟩ := Option.map_eq_some_iff.mp h
  simp [dictGet, List.find?_append, hrow, hc]

/-- A new sequence is found beside the others. -/
theorem dictGet_insert {d : List (List Byte × Nat)} {k : List Byte} (hk : dictGet d k = none) (v : Nat) (l : List Byte)
    (c : Nat) : dictGet (d ++ [(k, v)]) l = some c ↔ dictGet d l = some c ∨ (l = k ∧ c = v) := by
  cases hl : dictGet d l with
  | some e =>
    have hne : l ≠ k := by
      rintro rfl
      exact nomatch hk.symm.trans hl
    simp [dictGet_append_of_some hl, hne]
  | none =>
    have hfind : d.find? (fun e => e.1 == l) = none := Option.map_eq_none_iff.mp hl
    by_cases he : k = l
    · simp [dictGet, List.find?_append, hfind, he, eq_comm]
    · simp [dictGet, List.find?_append, hfind, he, Ne.symm he]

/-- The literals, each alone (R69). -/
theorem dictGet_lzwStart {m : Nat} (hm : m ≤ 8) (l : List Byte) (c : Nat) :
    dictGet (lzwStart m).dict l = some c ↔ ∃ x : Byte, x.toNat < 2 ^ m ∧ l = [x] ∧ c = x.toNat := by
  have h256 : 2 ^ m ≤ 2 ^ 8 := Nat.pow_le_pow_right (by decide) hm
  have hof : ∀ i < 2 ^ m, (BitVec.ofNat 8 i).toNat = i := fun i hi => by
    rw [BitVec.toNat_ofNat, Nat.mod_eq_of_lt (by omega)]
  simp only [dictGet, lzwStart, List.find?_map, Option.map_map, Option.map_eq_some_iff, List.find?_range_eq_some,
    Function.comp_apply, beq_iff_eq, List.mem_range, Bool.not_eq_true', beq_eq_false_iff_ne]
  constructor
  · rintro ⟨i, ⟨hl, hi, -⟩, rfl⟩
    exact ⟨BitVec.ofNat 8 i, by rwa [hof i hi], hl.symm, (hof i hi).symm⟩
  · rintro ⟨x, hx, rfl, rfl⟩
    refine ⟨x.toNat, ⟨by simp, hx, fun j hj he => ?_⟩, rfl⟩
    have hjx := congrArg BitVec.toNat (List.singleton_inj.mp he)
    rw [hof j (by omega)] at hjx
    omega

/-! ### What a code stands for -/

/-- The sequence a code stands for: a literal for itself, an entry (p, x) for the sequence of p followed by x (R58, R69). -/
inductive Denotes (m : Nat) (table : List (Nat × TableEntry)) : List Byte → Nat → Prop
  | symbol {x : Byte} (hx : x.toNat < 2 ^ m) : Denotes m table [x] x.toNat
  | entry {l : List Byte} {p : BitVec 12} {x : Byte} {c : Nat} (hl : Denotes m table l p.toNat)
      (hc : Cells.get table c = some ⟨p, x⟩) : Denotes m table (l ++ [x]) c

section

variable {m : Nat} {table : List (Nat × TableEntry)} {l : List Byte} {c : Nat}

theorem denotes_iff : Denotes m table l c ↔ (∃ x : Byte, x.toNat < 2 ^ m ∧ l = [x] ∧ c = x.toNat)
    ∨ ∃ k p x, Denotes m table k (BitVec.toNat p) ∧ Cells.get table c = some ⟨p, x⟩ ∧ l = k ++ [x] := by
  constructor
  · rintro (hx | ⟨hl, hc⟩)
    · exact .inl ⟨_, hx, rfl, rfl⟩
    · exact .inr ⟨_, _, _, hl, hc, rfl⟩
  · rintro (⟨x, hx, rfl, rfl⟩ | ⟨k, p, x, hl, hc, rfl⟩)
    · exact .symbol hx
    · exact .entry hl hc

/-- Without an entry, only the literals stand for something. -/
theorem denotes_nil_iff : Denotes m [] l c ↔ ∃ x : Byte, x.toNat < 2 ^ m ∧ l = [x] ∧ c = x.toNat := by
  rw [denotes_iff]
  simp

/-- A sequence of two symbols or more is an entry's. -/
theorem denotes_append_iff (hne : l ≠ []) (x : Byte) :
    Denotes m table (l ++ [x]) c ↔ ∃ p, Denotes m table l (BitVec.toNat p) ∧ Cells.get table c = some ⟨p, x⟩ := by
  rw [denotes_iff]
  constructor
  · rintro (⟨y, -, hy, -⟩ | ⟨k, p, y, hk, hc, hy⟩)
    · exact absurd (List.append_eq_singleton_iff.mp hy) (by simp [hne])
    · obtain ⟨rfl, rfl⟩ := List.append_singleton_inj.mp hy
      exact ⟨p, hk, hc⟩
  · rintro ⟨p, hk, hc⟩
    exact .inr ⟨l, p, x, hk, hc, rfl⟩

end

section

variable {s : State} (h : TableInv s) {l k : List Byte} {c : Nat}
include h

theorem Denotes.isSequence (hl : Denotes s.mcs.toNat s.table l c) : isSequence s c := by
  cases hl with
  | symbol hx => exact .inl hx
  | entry _ hc => exact .inr ((h.filled c).mp (by rw [hc]; rfl))

/-- A literal has no entry. -/
theorem get_literal {x : Byte} (hx : x.toNat < 2 ^ s.mcs.toNat) (e : TableEntry) :
    Cells.get s.table x.toNat ≠ some e := by
  intro hc
  obtain ⟨hlow, -⟩ := (h.filled x.toNat).mp (by rw [hc]; rfl)
  omega

/-- A code stands for one sequence (R81). -/
theorem Denotes.inj (hl : Denotes s.mcs.toNat s.table l c) (hk : Denotes s.mcs.toNat s.table k c) : l = k := by
  induction hl generalizing k with
  | symbol hx =>
    rcases denotes_iff.mp hk with ⟨y, -, rfl, hy⟩ | ⟨-, p, y, -, hc, -⟩
    · rw [BitVec.eq_of_toNat_eq hy]
    · exact absurd hc (get_literal h hx _)
  | entry _ hc ih =>
    rcases denotes_iff.mp hk with ⟨y, hy, -, rfl⟩ | ⟨j, p, y, hj, hc', rfl⟩
    · exact absurd hc (get_literal h hy _)
    · cases hc.symm.trans hc'
      rw [ih hj]

end

/-- An insertion adds the sequence of the new entry and no other. -/
theorem denotes_insert_iff {s : State} (h : TableInv s) (hlow : 2 ^ s.mcs.toNat + 2 ≤ s.next.toNat) {a : List Byte}
    {p : BitVec 12} (ha : Denotes s.mcs.toNat s.table a p.toNat) (x : Byte) (l : List Byte) (c : Nat) :
    Denotes s.mcs.toNat (Cells.put s.table s.next.toNat ⟨p, x⟩) l c
      ↔ Denotes s.mcs.toNat s.table l c ∨ (l = a ++ [x] ∧ c = s.next.toNat) := by
  have hold : ∀ {k d}, Denotes s.mcs.toNat s.table k d →
      Denotes s.mcs.toNat (Cells.put s.table s.next.toNat ⟨p, x⟩) k d := fun hk => by
    induction hk with
    | symbol hx => exact .symbol hx
    | entry _ hc ih =>
      refine .entry ih ((Cells.get_put_of_ne _ _ ?_).trans hc)
      rintro rfl
      obtain ⟨-, hlt⟩ := (h.filled _).mp (by rw [hc]; rfl)
      omega
  constructor
  · intro hl
    induction hl with
    | symbol hx => exact .inl (.symbol hx)
    | @entry k q y d _ hc ih =>
      rw [Cells.get_put] at hc
      split at hc
      next hd =>
        obtain ⟨rfl, rfl⟩ : p = q ∧ x = y := by simpa using hc
        rcases ih with hk | ⟨-, hp⟩
        · exact .inr ⟨by rw [hk.inj h ha], hd⟩
        · exact absurd hp (lt_next_of_isSequence hlow (ha.isSequence h)).ne
      next hd =>
        rcases ih with hk | ⟨-, hq⟩
        · exact .inl (.entry hk hc)
        · obtain ⟨-, hlt, -⟩ := h.entry d _ hc
          obtain ⟨-, hd'⟩ := (h.filled d).mp (by rw [hc]; rfl)
          exact absurd hlt (by simp only [hq]; omega)
  · rintro (hl | ⟨rfl, rfl⟩)
    · exact hold hl
    · exact .entry (hold ha) (Cells.get_put_self _ _ _)

/-! ### The codes of a run -/

theorem bitsOf_append (codes : List (Nat × Nat)) (c w : Nat) :
    bitsOf (codes ++ [(c, w)]) = bitsOf codes ++ codeBits c w := by
  simp [bitsOf]

theorem out_lzwInsert (limit : Nat) (ext : List Byte) (r : LzwRun) : (lzwInsert limit ext r).out = r.out := by
  unfold lzwInsert
  split <;> rfl

/-- Nothing that was written is taken back. -/
theorem out_prefix_lzwSymbol (limit : Nat) (r : LzwRun) (x : Byte) : r.out <+: (lzwSymbol limit r x).out := by
  unfold lzwSymbol
  split
  · exact List.prefix_refl _
  · show r.out <+: (lzwInsert limit _ _).out
    rw [out_lzwInsert]
    exact List.prefix_append _ _

theorem out_prefix_foldl (limit : Nat) (xs : List Byte) (r : LzwRun) :
    r.out <+: (xs.foldl (lzwSymbol limit) r).out := by
  induction xs generalizing r with
  | nil => exact List.prefix_refl _
  | cons x xs ih => exact (out_prefix_lzwSymbol limit r x).trans (ih _)

theorem out_prefix_lzwFlush (r : LzwRun) : r.out <+: (lzwFlush r).out := by
  unfold lzwFlush
  split
  · exact List.prefix_refl _
  · exact List.prefix_append _ _

/-- A sequence the dictionary holds goes on. -/
theorem lzwSymbol_known {r : LzwRun} {x : Byte} {c : Nat} (h : dictGet r.dict (r.acc ++ [x]) = some c) (limit : Nat) :
    lzwSymbol limit r x = { r with acc := r.acc ++ [x] } := by
  simp [lzwSymbol, h]

/-- One it does not hold ends: its code is written, and it is inserted with the symbol. -/
theorem lzwSymbol_new {r : LzwRun} {x : Byte} {c : Nat} (h : dictGet r.dict (r.acc ++ [x]) = none)
    (hc : dictGet r.dict r.acc = some c) (limit : Nat) :
    lzwSymbol limit r x
      = { lzwInsert limit (r.acc ++ [x]) { r with out := r.out ++ [(c, r.width)] } with acc := [x] } := by
  simp [lzwSymbol, h, codeOf, hc]

/-- Zero bits up to the next byte make whole bytes of what `pack` pads (R76, R85). -/
theorem wholeBytes_zeros (bl : List Bool) :
    wholeBytes (bl ++ List.replicate ((8 - bl.length % 8) % 8) false) = pack bl := by
  have hlen : (bl ++ List.replicate ((8 - bl.length % 8) % 8) false).length / 8 = (bl.length + 7) / 8 := by
    rw [List.length_append, List.length_replicate]
    omega
  rw [wholeBytes, pack, hlen]
  refine List.map_congr_left fun j _ => packByte_congr fun i _ => ?_
  simp only [List.getD_eq_getElem?_getD, List.getElem?_append, List.getElem?_replicate]
  split
  · rfl
  next hge =>
    rw [List.getElem?_eq_none (by omega)]
    split <;> rfl

end Sys2Proof.Machine
end

section
/-! PROOFS. A pass of the encoder against `lzw_codes` (R70 to R78, R88 to R93), whatever the sink: how the machine's table,
packers and accumulator stand for the variables of the function, and that each operation goes on as the function does. -/

namespace Sys2Proof.Machine

/-! ### Room for the codes -/

/-- The bytes that leave for OUT for these codes fit (R102). -/
def RoomFor (b : State) (codes : List (Nat × Nat)) : Prop := Fits b (sunkBits b (bitsOf codes)).1.length

/-- Later bits take no byte back. -/
theorem sunkBits_prefix (b : State) (x y : List Bool) : (sunkBits b x).1 <+: (sunkBits b (x ++ y)).1 := by
  unfold sunkBits
  rw [← List.append_assoc, wholeBytes_append (heldBits b ++ x) y, sunk_append]
  exact List.prefix_append _ _

theorem Fits.mono {s : State} {m n : Nat} (h : Fits s n) (hmn : m ≤ n) : Fits s m := by
  simp only [Fits] at h ⊢
  omega

theorem RoomFor.of_prefix {b : State} {codes codes' : List (Nat × Nat)} (h : RoomFor b codes') (hp : codes <+: codes') :
    RoomFor b codes := by
  obtain ⟨bl, hbl⟩ := hp.flatMap fun c => codeBits c.1 c.2
  refine Fits.mono h (sunkBits_prefix b (bitsOf codes) bl |>.length_le.trans (Nat.le_of_eq ?_))
  rw [bitsOf, hbl, bitsOf]

/-! ### The simulation -/

/-- The registers of a pass stand for the variables of `lzw_codes` (R77): NEXT and W for the next code and the width, TABLE
for the dictionary, and ACC_CODE for the accumulator. -/
structure StandsFor (r : LzwRun) (t : State) : Prop where
  tableRising : Cells.Rising t.table
  tableBelow : Cells.Below t.table Config.tableSize
  width : t.w.toNat = r.width
  next : t.next.toNat = r.nextCode
  dict : ∀ l c, dictGet r.dict l = some c ↔ Denotes t.mcs.toNat t.table l c
  accEmpty : t.accValid = false → r.acc = []
  accHeld : t.accValid = true → r.acc ≠ [] ∧ dictGet r.dict r.acc = some t.accCode.toNat

/-- The state `t` of a pass that began at `b` has written the codes of `r` and goes on from its variables. -/
structure Encodes (b : State) (r : LzwRun) (t : State) : Prop extends StandsFor r t where
  only : OnlyJob b t
  fixed : t.passFixed = b.passFixed
  room : RoomFor b r.out
  appended : Appended b t (bitsOf r.out)
  ready : PackersReady t
  regs : PassRegs t

/-- The start of the function before the clear code is written (R68, R69). -/
def lzwFresh (m : Nat) : LzwRun := { lzwStart m with out := [] }

/-- The state L.INIT leaves (R88). -/
def passStart (s : State) : State := goto SeqCode.lEmitClear (startPass s)

/-- L.INIT makes the registers stand for the start. -/
theorem encodes_passStart {s : State} (hm : 2 ≤ s.mcs.toNat) (hm8 : s.mcs.toNat ≤ 8)
    (hc : s.sink = .sub → s.chunkLen.toNat ≤ 254) :
    Encodes (passStart s) (lzwFresh s.mcs.toNat) (passStart s) := by
  obtain ⟨-, -, hw, hnext⟩ := toNat_startPass hm8
  have hclean : BitsClean (passStart s) := fun _ _ _ => BitVec.getLsbD_zero
  refine ⟨⟨.nil, nofun, hw, hnext, fun l c => ?_, fun _ => rfl, nofun⟩, rfl, rfl, .inl ?_,
    appended_nil hclean rfl rfl rfl rfl rfl rfl rfl rfl, ⟨hclean, hc⟩, passRegs_startPass hm hm8⟩
  · exact (dictGet_lzwStart hm8 l c).trans denotes_nil_iff.symm
  · exact congrArg (·.1.length) (sunkBits_nil _)

/-- One run of bits after another, where the packers' registers of configuration stay. -/
theorem Appended.trans {s t u : State} {x y : List Bool} (h1 : Appended s t x) (hset : t.settings = s.settings)
    (hk : t.sink = s.sink) (h2 : Appended t u y) : Appended s u (x ++ y) := by
  obtain ⟨w1, c1, b1, -⟩ := h1
  obtain ⟨w2, c2, b2, k2⟩ := h2
  have hsplit := sunkBits_append y hk c1 b1
  refine ⟨?_, ?_, ?_, k2⟩
  · rw [hsplit]
    exact w1.append (congrArg Settings.outBase hset) (congrArg Settings.build hset) w2
  · rw [hsplit]
    exact c2
  · rw [b2, b1, ← leftBits_append, List.append_assoc]

theorem PassRegs.withPi {s : State} (h : PassRegs s) {p : BitVec 32} (hp : p.toNat ≤ s.curN.toNat) :
    PassRegs { s with pi := p } where
  __ := h
  table := h.table.congr rfl rfl rfl
  accStarted := vacuous_eq rfl
  piLe := hp
  piLt := vacuous_eq rfl
  piStart := vacuous_eq rfl

/-- The insertion leaves the accumulator and the place in the source alone. -/
theorem grow_keeps (x : Byte) (s : State) : (grow x s).mcs = s.mcs ∧ (grow x s).accValid = s.accValid
    ∧ (grow x s).accCode = s.accCode ∧ (grow x s).pi = s.pi := by
  obtain ⟨-, -, hkeep⟩ := grow_spec x s
  rw [hkeep]
  exact ⟨rfl, rfl, rfl, rfl⟩

/-- The end code fits the width R78 gives it. -/
theorem PassRegs.endCode_lt {s : State} (h : PassRegs s) : endWidth s ≤ 12 ∧ s.endCode.toNat < 2 ^ endWidth s := by
  have hend : s.endCode.toNat = 2 ^ s.mcs.toNat + 1 := h.endIs
  have hlow : 2 ^ s.mcs.toNat + 2 ≤ s.next.toNat := h.nextLow
  have hhigh : s.next.toNat ≤ 2 ^ s.w.toNat := h.nextHigh
  have hw : s.w.toNat ≤ 12 := h.wHigh
  unfold endWidth
  split
  next hc =>
    obtain ⟨-, -, hlt⟩ := hc
    rw [Nat.pow_succ]
    exact ⟨hlt, by omega⟩
  · exact ⟨hw, by omega⟩

section

variable {b t : State} {r : LzwRun} (h : Encodes b r t)
include h

theorem Encodes.passFixed_eq : t.mcs = b.mcs ∧ t.curSrc = b.curSrc ∧ t.curN = b.curN ∧ t.sink = b.sink := by
  have hfix := h.fixed
  simp only [State.passFixed, Prod.mk.injEq] at hfix
  obtain ⟨-, -, hm, hsrc, hn, hk⟩ := hfix
  exact ⟨hm, hsrc, hn, hk⟩

theorem Encodes.tableInv : TableInv t := h.regs.table.congr rfl rfl rfl

theorem Encodes.withSeq (c : BitVec 8) : Encodes b r (goto c t) := { h with only := h.only.trans rfl }

theorem Encodes.withPi {p : BitVec 32} (hp : p.toNat ≤ t.curN.toNat) : Encodes b r { t with pi := p } :=
  { h with only := h.only.trans rfl, regs := h.regs.withPi hp }

/-- Another accumulator, on both sides. -/
theorem Encodes.withAcc (v : Bool) (c : BitVec 12) (l : List Byte) (hempty : v = false → l = [])
    (hheld : v = true → l ≠ [] ∧ dictGet r.dict l = some c.toNat) :
    Encodes b { r with acc := l } { t with accValid := v, accCode := c } :=
  { h with
    only := h.only.trans rfl
    regs := h.regs.withAcc v c fun hv => ((h.dict _ _).mp (hheld hv).2).isSequence h.tableInv
    accEmpty := hempty
    accHeld := hheld }

/-- The bytes that leave for more bits fit where those of all bits do. -/
theorem Encodes.fits {bl : List Bool} (hroom : Fits b (sunkBits b (bitsOf r.out ++ bl)).1.length) :
    Fits t (sunkBits t bl).1.length := by
  obtain ⟨-, -, -, hk⟩ := h.passFixed_eq
  obtain ⟨⟨hptr, -⟩, hc, hb, -⟩ := h.appended
  have hcap : t.outCap = b.outCap := congrArg Settings.outCap h.only.settings
  rw [sunkBits_append bl hk hc hb, List.length_append] at hroom
  simp only [Fits, hptr, hcap] at hroom ⊢
  omega

/-- A code is emitted and written down. -/
theorem Encodes.emit {c w : Nat} (hw : w ≤ 12) (hc : c < 2 ^ w) (hroom : RoomFor b (r.out ++ [(c, w)])) :
    ∃ u, emit c w t = .ok u ∧ OnlyPacker t u ∧ Encodes b { r with out := r.out ++ [(c, w)] } u := by
  have hroom' : Fits b (sunkBits b (bitsOf r.out ++ codeBits c w)).1.length := by
    rwa [RoomFor, bitsOf_append] at hroom
  obtain ⟨-, -, -, hk⟩ := h.passFixed_eq
  rcases emit_cases c w t h.ready hw hc with ⟨-, u, hu, ha, hr, ho, -⟩ | ⟨hn, -⟩
  · have happ := h.appended.trans h.only.settings hk ha
    rw [← bitsOf_append] at happ
    have hregs := h.regs.packer ho hr.1
    refine ⟨u, hu, ho, ?_, h.only.trans (.of_onlyPacker ho), ?_, hroom, happ, hr, hregs⟩
    all_goals
      unfold OnlyPacker at ho
      rw [ho]
    · exact { h.toStandsFor with }
    · exact h.fixed
  · exact absurd (h.fits hroom') hn

/-! ### One symbol (R71, R90) -/

section

variable (hv : t.accValid = true) {x : Byte}
include hv

theorem Encodes.dictGet_of_hit {c : BitVec 12} (hit : lookup t t.accCode x = some c) :
    dictGet r.dict (r.acc ++ [x]) = some c.toNat := by
  obtain ⟨-, hacc⟩ := h.accHeld hv
  obtain ⟨hmem, -, -⟩ := lookup_some hit
  exact (h.dict _ _).mpr (.entry ((h.dict _ _).mp hacc) (Cells.get_of_mem h.tableRising hmem))

theorem Encodes.dictGet_of_miss (hmiss : lookup t t.accCode x = none) : dictGet r.dict (r.acc ++ [x]) = none := by
  obtain ⟨hne, hacc⟩ := h.accHeld hv
  refine Option.eq_none_iff_forall_ne_some.mpr fun c hc => ?_
  obtain ⟨p, hp, hget⟩ := (denotes_append_iff hne x).mp ((h.dict _ _).mp hc)
  have hpc : p = t.accCode :=
    BitVec.eq_of_toNat_eq (Option.some.inj (((h.dict _ _).mpr hp).symm.trans hacc))
  exact get_ne_of_miss h.tableInv h.tableBelow hmiss c (hpc ▸ hget)

/-- The insertion and the widening, on both sides (R72, R73). -/
theorem Encodes.grow (hx : x.toNat < 2 ^ t.mcs.toNat) (hmiss : lookup t t.accCode x = none) :
    Encodes b (lzwInsert t.build.codeLimit.toNat (r.acc ++ [x]) r) (grow x t) := by
  obtain ⟨hne, hacc⟩ := h.accHeld hv
  have hden := (h.dict _ _).mp hacc
  have hregs := h.regs.grow h.tableBelow hx (hden.isSequence h.tableInv) hmiss
  obtain ⟨hbelow, -, hkeep⟩ := grow_spec x t
  rw [lzwInsert, ← h.next]
  rcases grow_cases x t with ⟨hlim, hg⟩ | ⟨hlim, -⟩
  · rwa [if_neg (by omega), hg]
  · obtain ⟨hn, ht, hw⟩ := hbelow hlim
    have hnew := h.dictGet_of_miss hv hmiss
    rw [if_pos hlim]
    obtain ⟨hm, hv', hc', -⟩ := grow_keeps x t
    have hrise := Cells.rising_put t.next.toNat ⟨t.accCode, x⟩ h.tableRising
    have hbel := Cells.below_put (v := ⟨t.accCode, x⟩) h.tableBelow (Nat.lt_of_lt_of_le hlim (codeLimit_le _))
    refine ⟨⟨ht ▸ hrise, ht ▸ hbel, ?_, by rw [hn], fun l c => ?_, ?_, ?_⟩, ?_, ?_, h.room, ?_, ?_, hregs⟩
    · rw [hw, h.width]
    · rw [ht, hm, denotes_insert_iff h.tableInv h.regs.nextLow hden, dictGet_insert hnew, h.dict]
    · rw [hv']
      exact h.accEmpty
    · rw [hv', hc']
      exact fun _ => ⟨hne, dictGet_append_of_some hacc⟩
    all_goals rw [hkeep]
    · exact h.only.trans rfl
    · exact h.fixed
    · exact h.appended
    · exact h.ready

end

/-- A symbol that extends no known sequence (R71 to R73). -/
theorem Encodes.consume_miss (hv : t.accValid = true) {x : Byte} (hx : x.toNat < 2 ^ t.mcs.toNat)
    (hmiss : lookup t t.accCode x = none) (hroom : RoomFor b (lzwSymbol t.build.codeLimit.toNat r x).out) :
    ∃ u, consume x t = .ok u ∧ u.pi = t.pi ∧ Encodes b (lzwSymbol t.build.codeLimit.toNat r x) u := by
  obtain ⟨-, hacc⟩ := h.accHeld hv
  have hsym := lzwSymbol_new (h.dictGet_of_miss hv hmiss) hacc t.build.codeLimit.toNat
  have hout : (lzwSymbol t.build.codeLimit.toNat r x).out = r.out ++ [(t.accCode.toNat, t.w.toNat)] := by
    rw [hsym, h.width]
    exact out_lzwInsert _ _ _
  have hw : t.w.toNat ≤ 12 := h.regs.wHigh
  have hcode := h.regs.lt_of_isSequence (((h.dict _ _).mp hacc).isSequence h.tableInv)
  obtain ⟨v, hemit, ho, henc⟩ := h.emit hw hcode (hout ▸ hroom)
  obtain ⟨hm, hv', -, hpi⟩ := grow_keeps x v
  unfold OnlyPacker at ho
  have hxv : x.toNat < 2 ^ v.mcs.toNat := by rwa [ho]
  have hbuild : v.build = t.build := by rw [ho]
  have hvv : v.accValid = true := by rwa [ho]
  have hgrown := henc.grow hvv hxv (by rw [ho]; exact hmiss)
  rw [hbuild, h.width] at hgrown
  refine ⟨restartAcc x (Machine.grow x v), ?_, ?_, ?_⟩
  · rw [Machine.consume_miss hv hmiss, hemit, Flow.ok_andThen]
  · rw [restartAcc_pi, hpi, ho]
  · rw [hsym]
    refine hgrown.withAcc (Machine.grow x v).accValid (x.setWidth 12) [x] (fun he => ?_) fun _ => ⟨by simp, ?_⟩
    · exact nomatch (hv'.trans hvv).symm.trans he
    · exact (hgrown.dict _ _).mpr (toNat_symbol x ▸ .symbol (hm ▸ hxv))

/-- One symbol, as the function takes it (R71). -/
theorem Encodes.consume {x : Byte} (hx : x.toNat < 2 ^ t.mcs.toNat)
    (hroom : RoomFor b (lzwSymbol t.build.codeLimit.toNat r x).out) :
    ∃ u, consume x t = .ok u ∧ u.pi = t.pi ∧ Encodes b (lzwSymbol t.build.codeLimit.toNat r x) u := by
  cases hv : t.accValid with
  | false =>
    have hacc := h.accEmpty hv
    have hknown : dictGet r.dict (r.acc ++ [x]) = some (x.setWidth 12).toNat := by
      rw [hacc, toNat_symbol]
      exact (h.dict _ _).mpr (.symbol hx)
    refine ⟨_, consume_first hv, rfl, ?_⟩
    rw [lzwSymbol_known hknown]
    exact h.withAcc true _ _ nofun fun _ => ⟨by simp, hknown⟩
  | true =>
    cases hit : lookup t t.accCode x with
    | some c =>
      have hknown := h.dictGet_of_hit hv hit
      refine ⟨_, consume_hit hv hit, rfl, ?_⟩
      rw [lzwSymbol_known hknown]
      exact h.withAcc t.accValid c _ (fun he => nomatch hv.symm.trans he) fun _ => ⟨by simp, hknown⟩
    | none => exact h.consume_miss hv hx hit hroom

/-- L.STEP takes the symbol at PI (R90). -/
theorem Encodes.execLStep {x : Byte} (hsrc : inByte t (byteAddr t t.curSrc t.pi.toNat) = x)
    (hx : x.toNat < 2 ^ t.mcs.toNat) (hpi : t.pi.toNat < t.curN.toNat)
    (hroom : RoomFor b (lzwSymbol t.build.codeLimit.toNat r x).out) :
    ∃ u, execLStep t = .next (afterSymbol u) ∧ u.pi.toNat = t.pi.toNat + 1
      ∧ Encodes b (lzwSymbol t.build.codeLimit.toNat r x) u := by
  have hlt : t.pi.toNat + 1 < 2 ^ 32 := by
    have := t.curN.isLt
    omega
  have hsucc := toNat_pi_succ hlt
  obtain ⟨u, hu, hpi', henc⟩ := (h.withPi (p := t.pi + 1) (hsucc.trans_le hpi)).consume hx hroom
  subst hsrc
  exact ⟨u, by rw [execLStep_eq hx hlt, hu, Flow.ok_andThen, Flow.close_ok], by rw [hpi', hsucc], henc⟩

/-! ### The end of the data (R74, R78, R91, R92) -/

/-- L.FLUSH_ACC writes what the function writes; the accumulator is empty after it. -/
theorem Encodes.execLFlushAcc (hroom : RoomFor b (lzwFlush r).out) :
    ∃ u, execLFlushAcc t = .next (goto SeqCode.lEmitEnd u) ∧ Encodes b { lzwFlush r with acc := [] } u := by
  cases hv : t.accValid with
  | false =>
    have hacc := h.accEmpty hv
    have hflush : lzwFlush r = r := if_pos hacc
    refine ⟨t, execLFlushAcc_empty hv, ?_⟩
    rw [hflush, ← hacc]
    exact h
  | true =>
    obtain ⟨hne, hacc⟩ := h.accHeld hv
    have hflush : lzwFlush r = { r with out := r.out ++ [(t.accCode.toNat, t.w.toNat)] } := by
      rw [lzwFlush, if_neg hne, codeOf, hacc, h.width]
      rfl
    rw [hflush] at hroom ⊢
    have hw : t.w.toNat ≤ 12 := h.regs.wHigh
    have hcode := h.regs.lt_of_isSequence (((h.dict _ _).mp hacc).isSequence h.tableInv)
    obtain ⟨u, hu, -, henc⟩ := h.emit hw hcode hroom
    refine ⟨_, by rw [execLFlushAcc_held hv, hu, Flow.ok_andThen, Flow.close_ok], ?_⟩
    exact henc.withAcc false u.accCode [] (fun _ => rfl) nofun

theorem Encodes.endWidth_eq : endWidth t = lzwEndWidth t.build.endCodeWidth r := by
  rw [endWidth, lzwEndWidth, h.next, h.width]

theorem Encodes.execLEmitEnd
    (hroom : RoomFor b (r.out ++ [(2 ^ b.mcs.toNat + 1, lzwEndWidth t.build.endCodeWidth r)])) :
    ∃ u, execLEmitEnd t = .next (goto SeqCode.lPad u)
      ∧ Encodes b { r with out := r.out ++ [(2 ^ b.mcs.toNat + 1, lzwEndWidth t.build.endCodeWidth r)] } u := by
  have hend : t.endCode.toNat = 2 ^ b.mcs.toNat + 1 := by
    obtain ⟨hm, -⟩ := h.passFixed_eq
    rw [← hm]
    exact h.regs.endIs
  obtain ⟨hw, hlt⟩ := h.regs.endCode_lt
  rw [← hend, ← h.endWidth_eq] at hroom ⊢
  obtain ⟨u, hu, -, henc⟩ := h.emit hw hlt hroom
  exact ⟨u, by rw [Machine.execLEmitEnd, hu, Flow.ok_andThen, Flow.close_ok], henc⟩

end

end Sys2Proof.Machine
end

section
/-! PROOFS. A pass of the encoder from L.INIT to L.PAD as a run of the machine, and a whole LZW_ENCODE job (R77, R94, R124,
R151). -/

namespace Sys2Proof.Machine

/-! ### Runs without host turns -/

theorem runs_succ_iff {n : Nat} {s u : State} : Runs (n + 1) s u ↔ ∃ t, step s = .next t ∧ Runs n t u := by
  constructor
  · intro h
    simp only [Runs, Host.Core.run] at h
    split at h
    next t ht => exact ⟨t, ht, h⟩
    · exact nomatch h
    · exact nomatch h
  · rintro ⟨t, ht, h⟩
    have ht' : Sys2Proof.core.step s = .next t := ht
    simp only [Runs, Host.Core.run, ht']
    exact h

theorem Runs.trans {m n : Nat} {s t u : State} (h : Runs m s t) (h' : Runs n t u) : Runs (m + n) s u := by
  induction m generalizing s with
  | zero =>
    cases h
    rwa [Nat.zero_add]
  | succ m ih =>
    obtain ⟨v, hv, hr⟩ := runs_succ_iff.mp h
    rw [Nat.add_right_comm]
    exact runs_succ_iff.mpr ⟨v, hv, ih hr⟩

/-- With no turn waiting, a step is the operation SEQ holds. -/
theorem step_eq_exec {s : State} {i : Instr} (ha : s.agenda = []) (hi : decode (.seq s.seq) = .ok i) :
    step s = exec i s := by
  rw [step_engine ha]
  rcases runEngine_cases s with ⟨j, hj, he⟩ | ⟨hn, -⟩
  · rw [he, Except.ok.inj (hi.symm.trans hj)]
  · exact absurd hi (hn i)

theorem runs_one {s t : State} {i : Instr} (ha : s.agenda = []) (hi : decode (.seq s.seq) = .ok i)
    (he : exec i s = .next t) : Runs 1 s t :=
  runs_succ_iff.mpr ⟨t, (step_eq_exec ha hi).trans he, rfl⟩

theorem runs_goto {s t : State} {c : BitVec 8} {i : Instr} (ha : s.agenda = []) (hi : decode (.seq c) = .ok i)
    (he : exec i (goto c s) = .next t) : Runs 1 (goto c s) t :=
  runs_one ha hi he

/-! ### The source during a pass -/

/-- The current source as a pass needs it: symbols below 2^MCS, and where IN and OUT are one memory, none in the OUT region
(R67, R146 (f)). -/
structure SourceReady (s : State) : Prop where
  symbols : ∀ k < s.curN.toNat, (inByte s (byteAddr s s.curSrc k)).toNat < 2 ^ s.mcs.toNat
  apart : s.build.sharedMemory = true → ∀ k < s.curN.toNat, ¬ OutRegion s (byteAddr s s.curSrc k)

theorem OnlyJob.agenda {s t : State} (h : OnlyJob s t) : t.agenda = s.agenda := by
  unfold OnlyJob at h
  rw [h]

/-- A job's own operations change a byte of IN only where it is a byte of OUT that they write. -/
theorem OnlyJob.inByte_eq {s t : State} (h : OnlyJob s t) {a : Nat}
    (hout : s.build.sharedMemory = true → outByteAt t a = outByteAt s a) : inByte t a = inByte s a := by
  have hb : t.build = s.build := congrArg Settings.build h.settings
  unfold OnlyJob at h
  cases hs : s.build.sharedMemory with
  | false => exact inByte_congr_separate hb hs (by rw [h]) (by rw [h]) a
  | true => rw [inByte_of_shared hs, inByte_of_shared (hb ▸ hs), hout hs]

theorem inBytes_congr {s t : State} (hb : t.build = s.build) (hi : ∀ a, inByte t a = inByte s a) (base : Word)
    (n k : Nat) : inBytes t base n k = inBytes s base n k := by
  simp only [inBytes_eq_map, byteAddr_congr hb, hi]

theorem mem_inBytes {s : State} {base : Word} {n k : Nat} (h : k < n) :
    inByte s (byteAddr s base k) ∈ inBytes s base n 0 := by
  rw [inBytes_eq_map]
  exact List.mem_map.mpr ⟨k, List.mem_range.mpr h, by rw [Nat.zero_add]⟩

section

variable {b t : State} {r : LzwRun}

/-- The codes written so far left the source as it was. -/
theorem Encodes.source_byte (h : Encodes b r t) (hs : SourceReady b) {k : Nat} (hk : k < b.curN.toNat) :
    inByte t (byteAddr t t.curSrc k) = inByte b (byteAddr b b.curSrc k) := by
  obtain ⟨-, hsrc, -⟩ := h.passFixed_eq
  obtain ⟨hwrote, -⟩ := h.appended
  rw [hsrc, byteAddr_congr (congrArg Settings.build h.only.settings)]
  exact h.only.inByte_eq fun hshared => hwrote.outside h.room (hs.apart hshared k hk)

/-! ### The operations in order (R94) -/

/-- L.EMIT_CLEAR starts the codes (R70, R89). -/
theorem Encodes.runs_emitClear {m : Nat} (h : Encodes b (lzwFresh m) t) (ha : t.agenda = [])
    (hseq : t.seq = SeqCode.lEmitClear) (hpi : t.pi = 0) (hw : t.w.toNat = m + 1)
    (hm : t.mcs.toNat = m) (hroom : RoomFor b (lzwStart m).out) :
    ∃ u, Runs 1 t (afterSymbol u) ∧ u.pi.toNat = 0 ∧ Encodes b (lzwStart m) u := by
  have hclear : t.clearCode.toNat = 2 ^ m := hm ▸ h.regs.clearIs
  have hle : m + 1 ≤ 12 := hw ▸ h.regs.wHigh
  obtain ⟨u, hu, ho, henc⟩ := h.emit hle (Nat.pow_lt_pow_right (by decide) (Nat.lt_succ_self m)) hroom
  unfold OnlyPacker at ho
  have hpi' : u.pi = 0 := by rw [ho, hpi]
  refine ⟨u, runs_one ha (i := .lEmitClear) (by rw [hseq]; rfl) ?_, by rw [hpi']; rfl, henc⟩
  rw [exec, execLEmitClear, hclear, hw, hu, Flow.ok_andThen, Flow.close_ok, afterSymbol, hpi']
  simp only [eq_comm]

/-- L.STEP takes the rest of the source, symbol by symbol. -/
theorem Encodes.runs_steps (hs : SourceReady b) (hag : b.agenda = []) (n : Nat) (h : Encodes b r t)
    (hn : t.pi.toNat + n = b.curN.toNat)
    (hroom : RoomFor b
      ((inBytes b b.curSrc n t.pi.toNat).foldl (lzwSymbol b.build.codeLimit.toNat) r).out) :
    ∃ u, Runs n (afterSymbol t) (goto SeqCode.lFlushAcc u)
      ∧ Encodes b ((inBytes b b.curSrc n t.pi.toNat).foldl (lzwSymbol b.build.codeLimit.toNat) r) u := by
  induction n generalizing t r with
  | zero =>
    obtain ⟨-, -, hcur, -⟩ := h.passFixed_eq
    have hend : t.pi = t.curN := BitVec.eq_of_toNat_eq (by rw [hcur]; exact hn)
    refine ⟨t, ?_, h⟩
    rw [afterSymbol, if_pos hend]
    rfl
  | succ n ih =>
    obtain ⟨hm, -, hcur, -⟩ := h.passFixed_eq
    have hbuild : t.build = b.build := congrArg Settings.build h.only.settings
    have hlt : t.pi.toNat < b.curN.toNat := by omega
    have hne : t.pi ≠ t.curN := fun he => by
      rw [he, hcur] at hlt
      exact Nat.lt_irrefl _ hlt
    rw [inBytes, List.foldl_cons] at hroom ⊢
    generalize hx : inByte b (byteAddr b b.curSrc t.pi.toNat) = x at hroom ⊢
    have hsym : x.toNat < 2 ^ t.mcs.toNat := by
      rw [← hx, hm]
      exact hs.symbols _ hlt
    rw [← hbuild] at hroom ⊢
    have hroom1 := hroom.of_prefix (out_prefix_foldl _ _ _)
    obtain ⟨v, hexec, hpi, henc⟩ :=
      (h.withSeq SeqCode.lStep).execLStep ((h.source_byte hs hlt).trans hx) hsym (hcur ▸ hlt) hroom1
    replace hpi : v.pi.toNat = t.pi.toNat + 1 := hpi
    rw [hbuild, ← hpi] at hroom ⊢
    obtain ⟨u, hruns, hu⟩ := ih (hbuild ▸ henc) (by omega) hroom
    refine ⟨u, ?_, hu⟩
    rw [afterSymbol, if_neg hne, Nat.add_comm]
    exact (runs_goto (h.only.agenda.trans hag) (i := .lStep) rfl hexec).trans hruns

/-- L.FLUSH_ACC and L.EMIT_END end the codes (R74, R78). -/
theorem Encodes.runs_end (h : Encodes b r t) (hag : b.agenda = [])
    (hroom : RoomFor b ((lzwFlush r).out
      ++ [(2 ^ b.mcs.toNat + 1, lzwEndWidth b.build.endCodeWidth (lzwFlush r))])) :
    ∃ u, Runs 2 (goto SeqCode.lFlushAcc t) (goto SeqCode.lPad u)
      ∧ Encodes b { lzwFlush r with
          out := (lzwFlush r).out ++ [(2 ^ b.mcs.toNat + 1, lzwEndWidth b.build.endCodeWidth (lzwFlush r))]
          acc := [] } u := by
  have ha : ∀ {v}, OnlyJob b v → v.agenda = [] := fun hv => hv.agenda.trans hag
  obtain ⟨v, hflush, hv⟩ := (h.withSeq SeqCode.lFlushAcc).execLFlushAcc (hroom.of_prefix (List.prefix_append _ _))
  have hbuild : (goto SeqCode.lEmitEnd v).build = b.build := congrArg Settings.build hv.only.settings
  rw [← hbuild] at hroom ⊢
  obtain ⟨u, hend, hu⟩ := (hv.withSeq SeqCode.lEmitEnd).execLEmitEnd hroom
  have hflush' := runs_goto (ha h.only) (i := .lFlushAcc) rfl hflush
  exact ⟨u, hflush'.trans (runs_goto (ha hv.only) (i := .lEmitEnd) rfl hend), hu⟩

end

/-! ### A pass -/

/-- What a pass that wrote the packed bytes `bs` leaves (R86, R93). -/
structure PassDone (s t : State) (bs : List Byte) : Prop where
  only : OnlyJob s t
  fixed : t.passFixed = s.passFixed
  seq : t.seq = afterPass s.sink
  wrote : WroteOut s t (sunk s.sink (heldChunk s) bs).1
  held : heldChunk t = (sunk s.sink (heldChunk s) bs).2
  chunkLow : t.sink = .sub → t.chunkLen.toNat ≤ 254

/-- Without held bits, the bits that are appended are packed from their start. -/
theorem sunkBits_of_empty {s : State} (h : s.bitCnt = 0) (bl : List Bool) :
    sunkBits s bl = sunk s.sink (heldChunk s) (wholeBytes bl) := by
  have hnil : heldBits s = [] := List.eq_nil_of_length_eq_zero (by rw [length_heldBits, h]; rfl)
  rw [sunkBits, hnil, List.nil_append]

theorem RoomFor.of_pack {b : State} {codes : List (Nat × Nat)} (hb : b.bitCnt = 0)
    (h : Fits b (sunk b.sink (heldChunk b) (pack (bitsOf codes))).1.length) : RoomFor b codes := by
  rw [← wholeBytes_zeros, ← sunkBits_of_empty hb] at h
  exact h.mono (sunkBits_prefix b _ _).length_le

/-- L.PAD makes the codes the bytes of `pack` (R76, R93). -/
theorem Encodes.execLPad {b t : State} {r : LzwRun} (h : Encodes b r t) (hb : b.bitCnt = 0)
    (hroom : Fits b (sunk b.sink (heldChunk b) (pack (bitsOf r.out))).1.length) :
    ∃ u, execLPad t = .next u ∧ PassDone b u (pack (bitsOf r.out)) := by
  obtain ⟨-, -, -, hk⟩ := h.passFixed_eq
  have hcnt : t.bitCnt.toNat = (bitsOf r.out).length % 8 := by
    obtain ⟨-, -, hheld, -⟩ := h.appended
    have hlen := congrArg List.length hheld
    rw [length_heldBits, length_leftBits, List.length_append, length_heldBits, hb] at hlen
    rw [hlen]
    exact congrArg (· % 8) (Nat.zero_add _)
  have hpack := wholeBytes_zeros (bitsOf r.out)
  rw [← hcnt] at hpack
  rw [← hpack, ← sunkBits_of_empty hb] at hroom
  rcases padBits_cases t h.ready with ⟨-, u, hu, ha, -, -, hready, ho, -⟩ | ⟨hn, -⟩
  · obtain ⟨hwrote, hchunk, -, -⟩ := h.appended.trans h.only.settings hk ha
    rw [sunkBits_of_empty hb, hpack] at hwrote hchunk
    obtain ⟨hsink, -⟩ := ho.keeps
    have hfix : u.passFixed = t.passFixed := by
      unfold OnlyPacker at ho
      rw [ho]
      rfl
    refine ⟨goto (afterPass u.sink) { u with lzwLast := lzwLastOf u }, ?_, ?_⟩
    · rw [Machine.execLPad, hu, Flow.ok_andThen, Flow.close_ok]
    · exact ⟨(h.only.trans (.of_onlyPacker ho)).trans rfl, hfix.trans h.fixed,
        congrArg afterPass (hsink.trans hk), hwrote, hchunk, hready.2⟩
  · exact absurd (h.fits hroom) hn

/-- A pass writes `lzw_bytes` of its source to the sink, in five operations and one for each symbol (R94). -/
theorem runs_pass {s : State} (ha : s.agenda = []) (hseq : s.seq = SeqCode.lInit) (hm : 2 ≤ s.mcs.toNat)
    (hm8 : s.mcs.toNat ≤ 8) (hs : SourceReady s) (hc : s.sink = .sub → s.chunkLen.toNat ≤ 254)
    (hroom : Fits s (sunk s.sink (heldChunk s)
      (lzwBytes s.build (inBytes s s.curSrc s.curN.toNat 0) s.mcs.toNat)).1.length) :
    ∃ t, Runs (s.curN.toNat + 5) s t
      ∧ PassDone s t (lzwBytes s.build (inBytes s s.curSrc s.curN.toNat 0) s.mcs.toNat) := by
  obtain ⟨-, -, hw, -⟩ := toNat_startPass hm8
  have hdata := inBytes_congr (s := s) (t := passStart s) rfl (fun _ => rfl) s.curSrc s.curN.toNat 0
  rw [← hdata] at hroom ⊢
  have hinit : Runs 1 s (passStart s) := runs_one ha (i := .lInit) (by rw [hseq]; rfl) (execLInit_eq hm8)
  have hready : SourceReady (passStart s) := ⟨hs.symbols, hs.apart⟩
  have hcodes : RoomFor (passStart s) (lzwCodes s.build (inBytes (passStart s) s.curSrc s.curN.toNat 0) s.mcs.toNat) :=
    .of_pack rfl hroom
  have hflush := hcodes.of_prefix (List.prefix_append _ _)
  have hfold := hflush.of_prefix (out_prefix_lzwFlush _)
  obtain ⟨u, hclear, hpi, hu⟩ := (encodes_passStart hm hm8 hc).runs_emitClear ha rfl rfl hw rfl
    (hfold.of_prefix (out_prefix_foldl _ _ _))
  rw [← hpi] at hfold hflush hcodes hroom ⊢
  obtain ⟨v, hsteps, hv⟩ := hu.runs_steps hready ha s.curN.toNat (by rw [hpi]; exact Nat.zero_add _) hfold
  obtain ⟨w, hend, hw⟩ := hv.runs_end ha hcodes
  obtain ⟨t, hpad, ht⟩ := (hw.withSeq SeqCode.lPad).execLPad rfl hroom
  have hpad' : Runs 1 (goto SeqCode.lPad w) t := runs_goto (hw.only.agenda.trans ha) (i := .lPad) rfl hpad
  refine ⟨t, ?_, OnlyJob.trans (t := passStart s) rfl ht.only, ht.fixed, ht.seq, ht.wrote, ht.held, ht.chunkLow⟩
  rw [show s.curN.toNat + 5 = 1 + (1 + (s.curN.toNat + (2 + 1))) by omega]
  exact hinit.trans (hclear.trans (hsteps.trans (hend.trans hpad')))

/-! ### An LZW_ENCODE job -/

/-- Bytes that all fit in the space stand in OUT in their order. -/
theorem WroteOut.outBytesFrom {s t : State} {bs : List Byte} (h : WroteOut s t bs) (h0 : s.outPtr = 0)
    (hset : t.settings = s.settings) (hlen : bs.length ≤ 2 ^ s.build.addrBits) : outBytesFrom t bs.length = bs := by
  obtain ⟨-, hbytes, -⟩ := h
  have hptr : ∀ k, s.outPtr.toNat + k = k := fun k => by rw [h0]; exact Nat.zero_add k
  have hbase : t.outBase = s.outBase := congrArg Settings.outBase hset
  simp only [hptr] at hbytes
  refine List.ext_getElem (by simp [Machine.outBytesFrom]) fun k hk hk' => ?_
  simp only [Machine.outBytesFrom, List.getElem_map, List.getElem_range, hbase,
    byteAddr_congr (congrArg Settings.build hset)]
  refine hbytes k _ (List.getElem?_eq_getElem hk') fun j hkj hj he => ?_
  exact absurd (byteAddr_inj s s.outBase (by omega) (by omega) he) (by omega)

theorem OnlyJob.error {s t : State} (h : OnlyJob s t) :
    t.err = s.err ∧ t.errCode = s.errCode ∧ t.errFrame = s.errFrame := by
  unfold OnlyJob at h
  rw [h]
  exact ⟨rfl, rfl, rfl⟩

/-- STATUS after a job that ended without error (R23, R127). -/
theorem statusWord_done {u : State} (hb : u.busy = false) (hd : u.done = true)
    (he : u.err = false ∧ u.errCode = .noError ∧ u.errFrame = noFrame) : statusWord u = 0xFFFF0002#32 := by
  obtain ⟨he, hc, hf⟩ := he
  rw [statusWord, hb, hd, he, hc, hf]
  decide

/-- What an accepted LZW_ENCODE leaves (R121, R124, R146 (f)). -/
theorem lzwEncode_accepted {s t : State} {m : BitVec 4} (hb : s.busy = false) (hm : 2 ≤ m.toNat ∧ m.toNat ≤ 8)
    (h : exec (.lzwEncode m) s = .next t) :
    t = acceptLzw m s ∧ (t.build.sharedMemory = true → ∀ a, OutRegion t a → ¬ JobReads t a) := by
  rw [exec, execLzwEncode, unlessBusy, hb, (legalM_iff m).mpr hm] at h
  rcases startJob_cases (acceptLzw m s) with ⟨hd, he⟩ | ⟨-, he⟩
  · cases he.symm.trans h
    exact ⟨rfl, hd⟩
  · exact nomatch he.symm.trans h

/-- The source of a job that passes its check is ready for the pass. -/
theorem sourceReady_of_lzwValid {s : State} {m : BitVec 4} (hv : lzwValid (acceptLzw m s) m.toNat)
    (hd : (acceptLzw m s).build.sharedMemory = true →
      ∀ a, OutRegion (acceptLzw m s) a → ¬ JobReads (acceptLzw m s) a) : SourceReady (acceptLzw m s) where
  symbols _ hk := hv _ (mem_inBytes hk)
  apart hs k hk ho := hd hs _ ho (.inr ⟨show opcLzw ≠ 0x01#8 by decide, k, hk, rfl⟩)

/-- The pass of an accepted job writes its bytes to OUT from OUT_BASE on. -/
theorem runs_lzwPass {s : State} {m : BitVec 4} (ha : s.agenda = []) (hm : 2 ≤ m.toNat) (hm8 : m.toNat ≤ 8)
    (hs : SourceReady (acceptLzw m s))
    (hcap : (lzwBytes s.build (sourceOf (acceptLzw m s)) m.toNat).length ≤ s.outCap.toNat) :
    ∃ t, Runs (s.srcLen.toNat + 5) (goto SeqCode.lInit (acceptLzw m s)) t
      ∧ PassDone (goto SeqCode.lInit (acceptLzw m s)) t (lzwBytes s.build (sourceOf (acceptLzw m s)) m.toNat) := by
  have hdata : inBytes (goto SeqCode.lInit (acceptLzw m s)) s.srcBase s.srcLen.toNat 0 = sourceOf (acceptLzw m s) :=
    inBytes_congr (s := acceptLzw m s) (t := goto SeqCode.lInit (acceptLzw m s)) rfl (fun _ => rfl) _ _ _
  have hroom : Fits (goto SeqCode.lInit (acceptLzw m s))
      (lzwBytes s.build (inBytes (goto SeqCode.lInit (acceptLzw m s)) s.srcBase s.srcLen.toNat 0) m.toNat).length := by
    rw [hdata]
    exact .inr ((Nat.zero_add _).trans_le hcap)
  rw [← hdata]
  exact runs_pass (s := goto SeqCode.lInit (acceptLzw m s)) ha rfl hm hm8 ⟨hs.symbols, hs.apart⟩ nofun hroom

/-- Settles O58: the check of the source, the pass, and X.FINISH. -/
theorem lzwJobWritesLzwBytes : Obligations.LzwJobWritesLzwBytes := by
  intro s s0 m hb ha hm hm8 hexec hvalid hcap hspace
  obtain ⟨rfl, hd⟩ := lzwEncode_accepted hb ⟨hm, hm8⟩ hexec
  have hs := sourceReady_of_lzwValid hvalid hd
  obtain ⟨hok, -⟩ := checkSrcValidatesSource (acceptLzw m s)
  have hcheck := runs_one (s := acceptLzw m s) ha (i := .lCheckSrc) rfl (hok hs.symbols)
  obtain ⟨t, hpass, ht⟩ := runs_lzwPass ha hm hm8 hs hcap
  have hfinish := runs_one (ht.only.agenda.trans ha) (i := .xFinish) (by rw [ht.seq]; rfl) rfl
  have hrun := hcheck.trans (hpass.trans hfinish)
  rw [Nat.add_comm] at hrun
  obtain ⟨hlen, -⟩ := ht.wrote
  have hptr : t.outPtr.toNat = (lzwBytes s.build (sourceOf (acceptLzw m s)) m.toNat).length := hlen.trans (Nat.zero_add _)
  refine ⟨_, hrun, rfl, ?_, hptr, ?_⟩
  · exact statusWord_done (u := goto SeqCode.idle { t with outLen := t.outPtr, done := true, busy := false }) rfl rfl
      ht.only.error
  · show outBytesFrom t t.outPtr.toNat = _
    rw [hptr]
    exact ht.wrote.outBytesFrom rfl ht.only.settings hspace

end Sys2Proof.Machine
end

section
/-! PROOFS. What each of the GIF writer's operations and B.TERM does (R104 to R115): the shape that the operations which write
bytes share, the checks of the palette and of a frame (R99, R100), and the bytes of the sections (R59 to R63). -/

namespace Sys2Proof.Machine

/-! ### An operation that writes bytes (R102) -/

/-- The operation at `s` writes `bs` and goes on to `c`, or aborts with OUTPUT_OVERFLOW for frame `f` where they do not fit. -/
def Writes (s : State) (o : Host.Outcome State Fault Refusal) (bs : List Byte) (c : BitVec 8) (f : FrameIdx) : Prop :=
  (Fits s bs.length → ∃ t, o = .next t ∧ WroteOut s t bs ∧ t.seq = c ∧ OnlyOut s t)
    ∧ (¬ Fits s bs.length → ∃ t, o = .next t ∧ Aborted s t .outputOverflow f)

theorem frameCtx_outside {s : State} (h : frameOp s.seq = false) : frameCtx s = noFrame := by
  simp [frameCtx, h]

theorem frameCtx_frame {s : State} (h : frameOp s.seq = true) (hj : s.job = opcGif) : frameCtx s = s.fi :=
  if_pos ⟨hj, h⟩

section

variable {bs : List Byte} {s : State}

theorem close_outBytes_fits (hf : Fits s bs.length) (g : State → State) :
    ∃ t, ((outBytes bs s).andThen fun t => .ok (g t)).close = .next (g t) ∧ WroteOut s t bs ∧ OnlyOut s t := by
  rcases outBytes_cases bs s with ⟨-, t, ht, hw, ho, -⟩ | ⟨hn, -⟩
  · exact ⟨t, by rw [ht, Flow.ok_andThen, Flow.close_ok], hw, ho⟩
  · exact absurd hf hn

/-- An overflow ends the operation with its abort, whatever was to follow. -/
theorem Overflowed.close_frameCtx {u : State} {x : Flow} (h : Overflowed s x u) (g : State → Flow) :
    ∃ t, (x.andThen g).close = .next t ∧ Aborted s t .outputOverflow (frameCtx s) :=
  ⟨_, by rw [h.raised, Flow.raise_andThen, Flow.close_raise], h.aborted⟩

theorem close_outBytes_overflow {f : FrameIdx} (hctx : frameCtx s = f) (hf : ¬ Fits s bs.length) (g : State → Flow) :
    ∃ t, ((outBytes bs s).andThen g).close = .next t ∧ Aborted s t .outputOverflow f := by
  rw [← hctx]
  rcases outBytes_cases bs s with ⟨hfit, -⟩ | ⟨-, u, hu, ho, hs, hout⟩
  · exact absurd hfit hf
  · exact Overflowed.close_frameCtx ⟨hu, .of_onlyOut ho, hs, hout⟩ g

/-- Bytes, then the transfer to a code that the bytes written do not decide. -/
theorem writes_outBytes {f : FrameIdx} (hctx : frameCtx s = f) (bs : List Byte) (c : State → BitVec 8)
    (hc : ∀ t, OnlyOut s t → c t = c s) :
    Writes s ((outBytes bs s).andThen fun t => .ok (goto (c t) t)).close bs (c s) f := by
  refine ⟨fun hf => ?_, fun hf => close_outBytes_overflow hctx hf _⟩
  obtain ⟨t, ht, hw, ho⟩ := close_outBytes_fits hf fun t => goto (c t) t
  refine ⟨_, ht, hw, hc t ho, ?_⟩
  unfold OnlyOut at ho ⊢
  rw [ho]
  rfl

/-- An overflow after a run that succeeded is one of the whole. -/
theorem Overflowed.of_prefix {t u : State} {x : Flow} (h : Overflowed t x u) (ho : OnlyPacker s t) (hseq : t.seq = s.seq)
    (hout : ∀ a, ¬ OutRegion s a → outByteAt t a = outByteAt s a) : Overflowed s x u := by
  obtain ⟨-, hbase, hcap, hjob, hfi, hbuild⟩ := ho.keeps
  have hctx : frameCtx t = frameCtx s := by simp only [frameCtx, hjob, hfi, hseq]
  refine ⟨hctx ▸ h.raised, ho.trans h.only, h.seq.trans hseq, fun a ha => ?_⟩
  rw [h.outside a (mt (outRegion_congr hbuild hbase hcap a).mp ha), hout a ha]

theorem outByte_eq_outBytes (v : Byte) (s : State) : outByte v s = outBytes [v] s := by
  rw [outBytes]
  cases outByte v s <;> rfl

end

/-! ### The header and the trailer (R106 to R109, R115) -/

/-- Settles O39: the six bytes, then FI and SEQ. -/
theorem sigWritesSignature : Obligations.SigWritesSignature := by
  intro s hs
  have hctx : frameCtx s = noFrame := frameCtx_outside (by rw [hs]; rfl)
  refine ⟨fun hf => ?_, fun hf => ?_⟩
  · obtain ⟨t, ht, hw, ho⟩ := close_outBytes_fits (bs := signature) hf fun t => goto SeqCode.gLsd { t with fi := 0 }
    refine ⟨_, ht, hw, rfl, ?_⟩
    unfold OnlyOut at ho ⊢
    rw [ho]
    rfl
  · exact close_outBytes_overflow (bs := signature) hctx hf _

theorem gLsd_writes {s : State} (hs : s.seq = SeqCode.gLsd) :
    Writes s (exec .gLsd s) (screenDescriptor s) SeqCode.gGct noFrame := by
  have hctx : frameCtx s = noFrame := frameCtx_outside (by rw [hs]; rfl)
  exact writes_outBytes hctx _ (fun _ => SeqCode.gGct) fun _ _ => rfl

theorem le16_eq (v : BitVec 16) : le16 v = [v.setWidth 8, (v >>> 8).setWidth 8] := by
  rw [le16, BitVec.setWidth_eq_extractLsb' (by decide), BitVec.setWidth_ushiftRight_eq_extractLsb]

/-- The packed byte of a legal padded length as a number (R60). -/
theorem packedLsd_eq (colorRes : BitVec 3) {p : BitVec 9} {e : Nat} (he : 1 ≤ e) (he8 : e ≤ 8) (hp : p.toNat = 2 ^ e) :
    packedLsd colorRes p = BitVec.ofNat 8 (0x80 + colorRes.toNat * 2 ^ 4 + (e - 1)) := by
  have hlegal : legalPlen p = true := by
    rw [legalPlen, hp]
    interval_cases e <;> rfl
  have hsize : (sizeField p).toNat = e - 1 := by
    rw [sizeField, if_pos hlegal, hp, Nat.log2_two_pow, BitVec.toNat_ofNat]
    omega
  have hres := colorRes.isLt
  apply BitVec.eq_of_toNat_eq
  rw [packedLsd, toNat_append_eq, toNat_append_eq, toNat_append_eq, hsize, BitVec.toNat_ofNat]
  simp
  omega

/-- Settles O40: the descriptor's bytes in the spec's numbers. -/
theorem lsdWritesScreenDescriptor : Obligations.LsdWritesScreenDescriptor := by
  intro s e hs he he8 hp
  have hbytes := gLsd_writes hs
  rw [screenDescriptor, le16_eq, le16_eq, packedLsd_eq _ he he8 hp] at hbytes
  exact hbytes

theorem onlyOut_header {s t : State} (h : OnlyOut s t) : t.loopL = s.loopL ∧ t.nframes = s.nframes := by
  unfold OnlyOut at h
  rw [h]
  exact ⟨rfl, rfl⟩

theorem firstFrame_onlyOut {s t : State} (h : OnlyOut s t) : firstFrame t = firstFrame s := by
  obtain ⟨-, hn⟩ := onlyOut_header h
  rw [firstFrame, hn, firstFrame]

theorem gGct_writes {s : State} (hs : s.seq = SeqCode.gGct) :
    Writes s (exec .gGct s) (colorTable s) (if s.loopL then SeqCode.gNetscape else firstFrame s) noFrame := by
  have hctx : frameCtx s = noFrame := frameCtx_outside (by rw [hs]; rfl)
  refine writes_outBytes hctx _ (fun t => if t.loopL then SeqCode.gNetscape else firstFrame t) fun t ht => ?_
  rw [(onlyOut_header ht).1, firstFrame_onlyOut ht]

@[simp] theorem length_tableEntryBytes (s : State) (j : Nat) : (tableEntryBytes s j).length = 3 := by
  unfold tableEntryBytes
  split <;> rfl

/-- Groups of one length, one after another. -/
theorem length_flatMap_range {f : Nat → List Byte} {k : Nat} (hf : ∀ j, (f j).length = k) (n : Nat) :
    ((List.range n).flatMap f).length = k * n := by
  simp [List.length_flatMap, hf, Nat.mul_comm]

theorem getElem?_flatMap_range {f : Nat → List Byte} {k : Nat} (hf : ∀ j, (f j).length = k) {n j c : Nat} (hj : j < n)
    (hc : c < k) : ((List.range n).flatMap f)[k * j + c]? = (f j)[c]? := by
  induction n with
  | zero => omega
  | succ n ih =>
    have hlen := length_flatMap_range hf n
    rw [List.range_succ, List.flatMap_append, List.flatMap_singleton]
    rcases Nat.lt_succ_iff_lt_or_eq.mp hj with hlt | rfl
    · have : k * (j + 1) ≤ k * n := Nat.mul_le_mul_left k hlt
      rw [Nat.mul_succ] at this
      rw [List.getElem?_append_left (by rw [hlen]; omega), ih hlt]
    · rw [List.getElem?_append_right (by omega), hlen, Nat.add_sub_cancel_left]

@[simp] theorem length_colorTable (s : State) : (colorTable s).length = 3 * s.plen.toNat :=
  length_flatMap_range (length_tableEntryBytes s) _

/-- Channel c of entry j (R35, R108). -/
theorem getElem?_tableEntryBytes (s : State) (j : Nat) {c : Nat} (hc : c < 3) : (tableEntryBytes s j)[c]? = some
    (if j < s.palLen.toNat then inByte s (palAddr s j c)
      else if c = 0 then s.build.filler.r else if c = 1 then s.build.filler.g else s.build.filler.b) := by
  unfold tableEntryBytes
  split <;> interval_cases c <;> rfl

/-- Settles O41: entry by entry, channel by channel. -/
theorem gctWritesColorTable : Obligations.GctWritesColorTable := by
  intro s hs
  obtain ⟨hfits, hover⟩ := gGct_writes hs
  rw [length_colorTable] at hfits hover
  refine ⟨fun hf => ?_, hover⟩
  obtain ⟨t, ht, hw, hseq, ho⟩ := hfits hf
  refine ⟨t, colorTable s, ht, hw, length_colorTable s, fun j hj c hc => ?_, hseq, ho⟩
  rw [colorTable, getElem?_flatMap_range (length_tableEntryBytes s) hj hc, getElem?_tableEntryBytes s j hc]
  rfl

theorem gNetscape_writes {s : State} (hs : s.seq = SeqCode.gNetscape) :
    Writes s (exec .gNetscape s) netscapeBlock (firstFrame s) noFrame := by
  have hctx : frameCtx s = noFrame := frameCtx_outside (by rw [hs]; rfl)
  exact writes_outBytes hctx _ firstFrame fun _ => firstFrame_onlyOut

/-- Settles O42: the bytes of R63. -/
theorem netscapeWritesLoopBlock : Obligations.NetscapeWritesLoopBlock := fun _ => gNetscape_writes

/-- Settles O48: one byte. -/
theorem trailerWritesLastByte : Obligations.TrailerWritesLastByte := by
  intro s hs
  have hctx : frameCtx s = noFrame := frameCtx_outside (by rw [hs]; rfl)
  have hw := writes_outBytes hctx [0x3B#8] (fun _ => SeqCode.xFinish) fun _ _ => rfl
  rw [← outByte_eq_outBytes] at hw
  exact hw

/-! ### One frame (R110 to R114) -/

theorem gGce_writes {s : State} (hs : s.seq = SeqCode.gGce) (hj : s.job = opcGif) :
    Writes s (exec .gGce s) (graphicControl (delay s s.fi)) SeqCode.gIdesc s.fi := by
  have hctx : frameCtx s = s.fi := frameCtx_frame (by rw [hs]; rfl) hj
  exact writes_outBytes hctx _ (fun _ => SeqCode.gIdesc) fun _ _ => rfl

/-- A little-endian field is written as its bytes stand in IN (R8, R36). -/
theorem le16_read16 (s : State) (base : Word) (o : Nat) :
    le16 (read16 s base o) = [inByte s (byteAddr s base o), inByte s (byteAddr s base (o + 1))] := by
  rw [le16, read16, BitVec.extractLsb'_append_eq_right, BitVec.extractLsb'_append_eq_left]

/-- Settles O43: DELAY's bytes are the bytes of IN. -/
theorem gceWritesControlExtension : Obligations.GceWritesControlExtension := by
  intro s hs hj
  have hbytes := gGce_writes hs hj
  rw [graphicControl, delay, le16_read16] at hbytes
  exact hbytes

theorem gIdesc_writes {s : State} (hs : s.seq = SeqCode.gIdesc) (hj : s.job = opcGif) :
    Writes s (exec .gIdesc s) (imageDescriptor s.width s.height) SeqCode.gMincode s.fi := by
  have hctx : frameCtx s = s.fi := frameCtx_frame (by rw [hs]; rfl) hj
  exact writes_outBytes hctx _ (fun _ => SeqCode.gMincode) fun _ _ => rfl

/-- Settles O44: the descriptor's bytes in the spec's numbers. -/
theorem idescWritesImageDescriptor : Obligations.IdescWritesImageDescriptor := by
  intro s hs hj
  have hbytes := gIdesc_writes hs hj
  rw [imageDescriptor, le16_eq, le16_eq] at hbytes
  exact hbytes

/-- What G.MINCODE does, in the model's own terms (R112). -/
theorem gMincode_writes {s : State} (hf : Fits s 1) :
    ∃ u, exec .gMincode s = .next (goto SeqCode.lInit (startImage u)) ∧ WroteOut s u [BitVec.ofNat 8 s.mcs.toNat]
      ∧ OnlyOut s u := by
  have hbyte : s.mcs.setWidth 8 = BitVec.ofNat 8 s.mcs.toNat := (BitVec.ofNat_toNat 8 _).symm
  obtain ⟨u, hu, hw, ho⟩ := close_outBytes_fits (bs := [s.mcs.setWidth 8]) hf fun t => goto SeqCode.lInit (startImage t)
  rw [← outByte_eq_outBytes] at hu
  exact ⟨u, hu, hbyte ▸ hw, ho⟩

/-- Settles O45: the entry's fields are read from the state after the write. -/
theorem mincodeStartsImageData : Obligations.MincodeStartsImageData := by
  intro s hs hj
  have hctx : frameCtx s = s.fi := frameCtx_frame (by rw [hs]; rfl) hj
  refine ⟨fun hf => ?_, fun hf => ?_⟩
  · obtain ⟨u, hu, hw, ho⟩ := gMincode_writes hf
    have hfi : u.fi = s.fi ∧ u.frameBase = s.frameBase ∧ u.build = s.build := by
      unfold OnlyOut at ho
      rw [ho]
      exact ⟨rfl, rfl, rfl⟩
    refine ⟨_, hu, hw, ?_, rfl, ?_⟩
    · obtain ⟨hfi, hbase, hbuild⟩ := hfi
      rw [← hfi, ← hbase, ← hbuild]
      exact ⟨toNat_read32 u u.frameBase (entryOffset u.fi 0), toNat_read32 u u.frameBase (entryOffset u.fi 4)⟩
    · unfold OnlyOut at ho ⊢
      rw [ho]
      rfl
  · obtain ⟨t, ht, hab⟩ := close_outBytes_overflow (bs := [s.mcs.setWidth 8]) hctx hf
      fun t => .ok (goto SeqCode.lInit (startImage t))
    rw [← outByte_eq_outBytes] at ht
    exact ⟨t, ht, hab⟩

/-- The sub-block buffer is written with its length, then the terminator (R103, R113). -/
theorem endChunk_cases (s : State) :
    (Fits s (s.chunkLen.toNat + 2) ∧ ∃ t, (flushChunk s).andThen (outByte 0x00#8) = .ok t
        ∧ WroteOut s t (s.chunkLen :: heldChunk s ++ [0x00#8]) ∧ OnlyOut { s with chunkLen := 0 } t)
      ∨ (¬ Fits s (s.chunkLen.toNat + 2) ∧ ∃ u, Overflowed s ((flushChunk s).andThen (outByte 0x00#8)) u) := by
  rcases flushChunk_cases s with ⟨hf, t, ht, hw, hseq, ho⟩ | ⟨hf, u, hu, ho, hseq, hout⟩
  · have hpacker : OnlyPacker s t := OnlyPacker.trans (t := { s with chunkLen := 0 }) rfl (.of_onlyOut ho)
    obtain ⟨-, hbase, hcap, -, -, hbuild⟩ := hpacker.keeps
    have hptr := hw.1
    rw [List.length_cons, length_heldChunk] at hptr
    rw [ht, Flow.ok_andThen, outByte_eq_outBytes]
    rcases outBytes_cases [0x00#8] t with ⟨hf2, u, hu, hw2, ho2, -⟩ | ⟨hf2, u, hu, ho2, hseq2, hout⟩
    · refine .inl ⟨?_, u, hu, hw.append hbase hbuild hw2, ?_⟩
      · simp only [Fits, List.length_singleton, hptr, hcap] at hf2 ⊢
        omega
      · unfold OnlyOut at ho ho2 ⊢
        rw [ho2, ho]
    · have hover : Overflowed t (outBytes [0x00#8] t) u := ⟨hu, .of_onlyOut ho2, hseq2, hout⟩
      refine .inr ⟨?_, u, hover.of_prefix hpacker hseq fun a ha => hw.outside (by simpa using hf) ha⟩
      simp only [Fits, List.length_singleton, hptr, hcap] at hf hf2 ⊢
      omega
  · refine .inr ⟨?_, u, by rw [hu, Flow.raise_andThen], .of_onlyOut ho, hseq, hout⟩
    simp only [Fits] at hf ⊢
    omega

/-- Settles O46: the terminator alone, or after the sub-block. -/
theorem termEndsSubBlocks : Obligations.TermEndsSubBlocks := by
  intro s hs hj bs
  have hctx : frameCtx s = s.fi := frameCtx_frame (by rw [hs]; rfl) hj
  by_cases h0 : s.chunkLen = 0
  · have hbs : bs = [0x00#8] := if_pos h0
    have hexec : exec .bTerm s = ((outBytes [0x00#8] s).andThen fun t => .ok (goto SeqCode.gNextFrame t)).close := by
      rw [exec, execBTerm, if_pos h0, Flow.ok_andThen, outByte_eq_outBytes]
    have hempty : { s with chunkLen := 0 } = s := by rw [← h0]
    rw [hbs, hexec, hempty]
    exact writes_outBytes hctx _ (fun _ => SeqCode.gNextFrame) fun _ _ => rfl
  · have hbs : bs = s.chunkLen :: heldChunk s ++ [0x00#8] := if_neg h0
    have hlen : bs.length = s.chunkLen.toNat + 2 := by simp [hbs]
    have hexec : exec .bTerm s = (((flushChunk s).andThen (outByte 0x00#8)).andThen fun t =>
        .ok (goto SeqCode.gNextFrame t)).close := by
      rw [exec, execBTerm, if_neg h0]
    rw [hlen, hbs, hexec]
    rcases endChunk_cases s with ⟨hfit, t, ht, hw, ho⟩ | ⟨hover, u, hu⟩
    · refine ⟨fun _ => ⟨goto SeqCode.gNextFrame t, ?_, hw, rfl, ?_⟩, fun hf => absurd hfit hf⟩
      · rw [ht, Flow.ok_andThen, Flow.close_ok]
      · unfold OnlyOut at ho ⊢
        rw [ho]
        rfl
    · exact ⟨fun hf => absurd hf hover, fun _ => hctx ▸ hu.close_frameCtx _⟩

/-- Settles O47: FI does not wrap. -/
theorem nextFrameAdvances : Obligations.NextFrameAdvances := by
  intro s hfi
  have hne : s.fi ≠ 0xFFFF#16 := fun he => by
    rw [he] at hfi
    exact absurd hfi (by decide)
  refine ⟨_, if_neg hne, ?_, rfl, rfl⟩
  show (s.fi + 1).toNat = _
  bv_omega

/-! ### The checks (R104, R105) -/

/-- Settles O37: the exponent is max(1, ceil_log2(PAL_LEN)), at most 8. -/
theorem checkPalNormalisesPalette : Obligations.CheckPalNormalisesPalette := by
  intro s
  refine ⟨fun ⟨h1, h256⟩ => ?_, fun hbad => ?_⟩
  · have hok : palLenOk s = true := (palLenOk_iff s).mpr ⟨by omega, h256⟩
    have h8 : ceilLog2 s.palLen.toNat ≤ 8 := ceilLog2_le h256
    refine ⟨_, max 1 (ceilLog2 s.palLen.toNat), if_pos hok, ?_, ?_, by omega, by omega, fun j hj hle => ?_, ?_, rfl, rfl⟩
    · exact (toNat_plen_setPalette hok).trans (paddedLen_eq _)
    · exact (le_two_pow_ceilLog2 _).trans (Nat.pow_le_pow_right (by decide) (by omega))
    · exact max_le hj (ceilLog2_le hle)
    · refine (toNat_mcs_setPalette hok).trans ((minCodeSize_paddedLen _).trans ?_)
      omega
  · have hbad' : ¬ palLenOk s = true := by
      rw [palLenOk_iff]
      omega
    exact ⟨_, if_neg hbad', aborted_self .invalidPaletteSize noFrame s, rfl⟩

theorem dimsOk_iff (s : State) (i : BitVec 16) : dimsOk s i = true ↔
    (pixLen s i).toNat = s.width.toNat * s.height.toNat
      ∧ (dimsPresent s i = true → frameWidth s i = s.width ∧ frameHeight s i = s.height) := by
  rw [dimsOk, Bool.and_eq_true, decide_eq_true_iff]
  refine and_congr_right fun _ => ?_
  cases dimsPresent s i <;> simp

theorem pixelsOk_iff (s : State) (i : BitVec 16) : pixelsOk s i = true ↔
    ∀ k < (pixLen s i).toNat, (inByte s (byteAddr s (pixAddr s i) k)).toNat < s.palLen.toNat := by
  simp only [pixelsOk, allBelow_iff, Nat.zero_add]

/-- DIMS_PRESENT is bit 0 of FLAGS, and so of its first byte (R35, R36). -/
theorem dimsPresent_iff (s : State) (i : BitVec 16) :
    dimsPresent s i = true ↔ (inByte s (byteAddr s s.frameBase (entryOffset i 10))).toNat % 2 = 1 := by
  rw [dimsPresent, BitVec.getLsbD, Nat.testBit_zero, decide_eq_true_iff, flags, toNat_read16]
  omega

theorem execGCheckFrame_ok {s : State} (hd : dimsOk s s.fi = true) (hp : pixelsOk s s.fi = true)
    (hfi : s.fi.toNat < 65535) : exec .gCheckFrame s
      = .next (goto (if s.fi + 1 = s.nframes then SeqCode.gSig else SeqCode.gCheckFrame) (nextFi s)) := by
  have hne : s.fi ≠ 0xFFFF#16 := fun he => by
    rw [he] at hfi
    exact absurd hfi (by decide)
  rw [exec, execGCheckFrame, hd, hp, if_neg (by decide), if_neg (by decide), if_neg hne]

theorem toNat_nextFi {s : State} (hfi : s.fi.toNat < 65535) : (nextFi s).fi.toNat = s.fi.toNat + 1 := by
  rw [nextFi_fi]
  bv_omega

/-- Settles O38: the entry's fields as numbers, then the three outcomes. -/
theorem checkFrameValidatesFrame : Obligations.CheckFrameValidatesFrame := by
  intro s e pixAddr' pixLen' dims pixels
  have hlen : (pixLen s s.fi).toNat = pixLen' := toNat_read32 s s.frameBase (entryOffset s.fi 4)
  have haddr : (pixAddr s s.fi).toNat = pixAddr' := toNat_read32 s s.frameBase (entryOffset s.fi 0)
  have hw : (frameWidth s s.fi).toNat = e 12 + e 13 * 2 ^ 8 := toNat_read16 s s.frameBase (entryOffset s.fi 12)
  have hh : (frameHeight s s.fi).toNat = e 14 + e 15 * 2 ^ 8 := toNat_read16 s s.frameBase (entryOffset s.fi 14)
  have hdims : dimsOk s s.fi = true ↔ dims := by
    rw [dimsOk_iff, dimsPresent_iff, hlen, ← BitVec.toNat_inj, ← BitVec.toNat_inj, hw, hh]
    rfl
  have hpixels : pixelsOk s s.fi = true ↔ pixels := by
    simp only [pixelsOk_iff, hlen, byteAddr, haddr]
    rfl
  refine ⟨fun hd hp hfi => ?_, fun hd => ?_, fun hd hp => ?_⟩
  · exact ⟨_, execGCheckFrame_ok (hdims.mpr hd) (hpixels.mpr hp) hfi, toNat_nextFi hfi, rfl, rfl⟩
  · have hd' : dimsOk s s.fi = false := Bool.eq_false_iff.mpr (mt hdims.mp hd)
    exact ⟨_, if_pos hd', aborted_self .dimensionMismatch s.fi s, rfl⟩
  · have hp' : pixelsOk s s.fi = false := Bool.eq_false_iff.mpr (mt hpixels.mp hp)
    have hexec : exec .gCheckFrame s = .next (abort .pixelIndexOutOfRange s.fi s) := by
      rw [exec, execGCheckFrame, hdims.mpr hd, if_neg (by decide), if_pos hp', Flow.close_raise]
    exact ⟨_, hexec, aborted_self .pixelIndexOutOfRange s.fi s, rfl⟩

end Sys2Proof.Machine
end

section
/-! PROOFS. The sub-blocks of R101 as the sub-block packer and B.TERM write them (R103, R113), and the length of the stream of R96
(R97). -/

namespace Sys2Proof.Machine

/-! ### Sub-blocks -/

/-- Bytes that do not fill the sub-block are held. -/
theorem chunked_short {held d : List Byte} (h : held.length + d.length < 255) : chunked held d = ([], held ++ d) := by
  induction d generalizing held with
  | nil => simp [chunked]
  | cons v d ih =>
    rw [List.length_cons] at h
    rw [chunked, if_neg (by simp only [Config.subMax]; omega), ih (by simp; omega), List.append_assoc, List.singleton_append]

/-- Bytes that just fill the sub-block leave with its length. -/
theorem chunked_full {held d : List Byte} (hd : d ≠ []) (h : held.length + d.length = 255) :
    chunked held d = (0xFF#8 :: (held ++ d), []) := by
  induction d generalizing held with
  | nil => exact absurd rfl hd
  | cons v d ih =>
    rw [List.length_cons] at h
    rw [chunked]
    by_cases hlast : d = []
    · subst hlast
      rw [if_pos (show held.length + 1 = Config.subMax from h)]
      simp [chunked]
    · have hpos := List.length_pos_iff.mpr hlast
      rw [if_neg (by simp only [Config.subMax]; omega), ih hlast (by simp; omega), List.append_assoc, List.singleton_append]

/-- What B.TERM writes where the sub-block being filled has the bytes `held` (R113). -/
def termBytes (held : List Byte) : List Byte :=
  if held = [] then [0x00#8] else BitVec.ofNat 8 held.length :: held ++ [0x00#8]

theorem termBytes_heldChunk (s : State) :
    termBytes (heldChunk s) = if s.chunkLen = 0 then [0x00#8] else s.chunkLen :: heldChunk s ++ [0x00#8] := by
  have hnil : heldChunk s = [] ↔ s.chunkLen = 0 := by
    rw [← List.length_eq_zero_iff, length_heldChunk, ← BitVec.toNat_inj]
    rfl
  simp only [termBytes, hnil, length_heldChunk, BitVec.ofNat_toNat, BitVec.setWidth_eq]

theorem subblocksFrom_nil (fuel : Nat) : subblocksFrom fuel [] = [0x00#8] := by
  cases fuel <;> rfl

/-- A round of `subblocks` takes the whole of a short rest. -/
theorem subblocksFrom_short {fuel : Nat} {d : List Byte} (hd : d ≠ []) (h : d.length < 255) :
    subblocksFrom (fuel + 1) d = BitVec.ofNat 8 d.length :: d ++ [0x00#8] := by
  rw [subblocksFrom, if_neg hd, Nat.min_eq_right (Nat.le_of_lt h), List.take_length, List.drop_length, subblocksFrom_nil]

/-- A round of `subblocks` takes 255 bytes where there are as many. -/
theorem subblocksFrom_long {fuel : Nat} {d : List Byte} (h : 255 ≤ d.length) :
    subblocksFrom (fuel + 1) d = 0xFF#8 :: d.take 255 ++ subblocksFrom fuel (d.drop 255) := by
  have hd : d ≠ [] := List.ne_nil_of_length_pos (by omega)
  rw [subblocksFrom, if_neg hd, Nat.min_eq_left h]

theorem chunked_long {d : List Byte} (h : 255 ≤ d.length) :
    chunked [] d = (0xFF#8 :: d.take 255 ++ (chunked [] (d.drop 255)).1, (chunked [] (d.drop 255)).2) := by
  have hlen : (d.take 255).length = 255 := List.length_take_of_le h
  have hfull : chunked [] (d.take 255) = (0xFF#8 :: d.take 255, []) :=
    chunked_full (List.ne_nil_of_length_pos (by omega)) ((Nat.zero_add _).trans hlen)
  conv_lhs => rw [← List.take_append_drop 255 d, chunked_append, hfull]

/-- The packer's sub-blocks and B.TERM's bytes are the sub-blocks of R101. -/
theorem subblocksFrom_eq {fuel : Nat} {d : List Byte} (h : d.length ≤ fuel) :
    subblocksFrom fuel d = (chunked [] d).1 ++ termBytes (chunked [] d).2 := by
  induction fuel generalizing d with
  | zero =>
    rw [List.eq_nil_of_length_eq_zero (Nat.le_zero.mp h)]
    rfl
  | succ fuel ih =>
    by_cases hd : d = []
    · rw [hd]
      rfl
    · rcases Nat.lt_or_ge d.length 255 with hlt | hge
      · have hheld := chunked_short (held := []) ((Nat.zero_add _).trans_lt hlt)
        rw [subblocksFrom_short hd hlt, hheld, List.nil_append, List.nil_append, termBytes, if_neg hd]
      · rw [subblocksFrom_long hge, chunked_long hge, ih (by rw [List.length_drop]; omega), List.append_assoc]

theorem subblocks_eq (d : List Byte) : subblocks d = (chunked [] d).1 ++ termBytes (chunked [] d).2 :=
  subblocksFrom_eq (Nat.le_refl _)

/-! ### Lengths (R97) -/

theorem length_subblocksFrom {fuel : Nat} {d : List Byte} (h : d.length ≤ fuel) :
    (subblocksFrom fuel d).length = d.length + (d.length + 254) / 255 + 1 := by
  induction fuel generalizing d with
  | zero =>
    rw [List.eq_nil_of_length_eq_zero (Nat.le_zero.mp h)]
    rfl
  | succ fuel ih =>
    by_cases hd : d = []
    · rw [hd]
      rfl
    · have hpos := List.length_pos_iff.mpr hd
      rcases Nat.lt_or_ge d.length 255 with hlt | hge
      · rw [subblocksFrom_short hd hlt, List.length_append, List.length_cons, List.length_singleton]
        omega
      · have hdrop : (d.drop 255).length = d.length - 255 := List.length_drop
        rw [subblocksFrom_long hge, List.length_append, List.length_cons, List.length_take_of_le hge,
          ih (by omega), hdrop]
        omega

theorem length_subblocks (d : List Byte) : (subblocks d).length = d.length + (d.length + 254) / 255 + 1 :=
  length_subblocksFrom (Nat.le_refl _)

theorem length_frameBytes (b : Build) (a : Animation) (m : Nat) (f : Frame) :
    (frameBytes b a m f).length
      = 19 + (lzwBytes b f.pix m).length + ((lzwBytes b f.pix m).length + 254) / 255 + 1 := by
  have hfixed : (graphicControl f.delay ++ imageDescriptor a.width a.height ++ [BitVec.ofNat 8 m]).length = 19 := rfl
  rw [frameBytes, List.length_append, hfixed, length_subblocks]
  omega

theorem length_headerBytes (b : Build) (a : Animation) :
    (headerBytes b a).length = 13 + 3 * paddedLen a.palette.length + if a.loop then 19 else 0 := by
  have hloop : (if a.loop then netscapeBlock else []).length = if a.loop then 19 else 0 := by
    cases a.loop <;> rfl
  have htable := length_flatMap_range (f := fun j => rgbBytes (paddedEntry b a.palette j)) (k := 3) (fun _ => rfl)
    (paddedLen a.palette.length)
  rw [headerBytes, List.length_append, List.length_append, htable, hloop]
  rfl

/-- Settles O57: header, frames and trailer. -/
theorem gifStreamLength : Obligations.GifStreamLength := by
  intro b a _ _ p n
  simp only [gifStream, List.length_append, length_headerBytes, List.length_flatMap, length_frameBytes,
    List.length_singleton, p, n]
  omega

end Sys2Proof.Machine
end

section
/-! PROOFS. A whole GIF_ENCODE job as a run of the machine (R96, R100, R116, R121, R151): what stands between two of its
operations, the checks, the header, the frames with their passes, and the end. -/

namespace Sys2Proof.Machine

/-! ### What a job finds -/

/-- A GIF_ENCODE job at its start (R100, R121, R146 (f)), with no turn waiting. -/
structure GifReady (b : State) : Prop where
  valid : gifValid b
  apart : b.build.sharedMemory = true → ∀ a, OutRegion b a → ¬ JobReads b a
  job : b.job = opcGif
  seq : b.seq = SeqCode.gCheckPal
  outPtr : b.outPtr = 0
  agenda : b.agenda = []

/-- Number i of a frame, as FI holds it. -/
theorem toNat_frameIdx {b : State} {i : Nat} (hi : i < b.nframes.toNat) : (BitVec.ofNat 16 i).toNat = i := by
  have := b.nframes.isLt
  rw [BitVec.toNat_ofNat, Nat.mod_eq_of_lt (by omega)]

/-- Every frame that passes the checks has WIDTH × HEIGHT pixels (R100 (b)). -/
theorem GifReady.toNat_pixLen {b : State} (h : GifReady b) {i : Nat} (hi : i < b.nframes.toNat) :
    (pixLen b (BitVec.ofNat 16 i)).toNat = b.width.toNat * b.height.toNat := by
  obtain ⟨-, hframes⟩ := h.valid
  exact ((dimsOk_iff b _).mp (hframes i hi).1).1

/-- The minimum code size of a legal palette (R99). -/
def gifCodeSize (b : State) : Nat := minCodeSize (paddedLen b.palLen.toNat)

theorem GifReady.gifCodeSize_bounds {b : State} (h : GifReady b) :
    2 ≤ gifCodeSize b ∧ gifCodeSize b ≤ 8 ∧ b.palLen.toNat ≤ 2 ^ gifCodeSize b := by
  obtain ⟨hpal, -⟩ := h.valid
  exact minCodeSize_bounds ((palLenOk_iff b).mp hpal).2

section

variable {b t : State} (h : SameInputs b t) (hj : b.job = opcGif)
include h hj

/-- The bytes of a frame are those the job found. -/
theorem SameInputs.inBytes_pixels {i : Nat} (hi : i < b.nframes.toNat) :
    inBytes t (Machine.pixAddr b (BitVec.ofNat 16 i)) (Machine.pixLen b (BitVec.ofNat 16 i)).toNat 0
      = (frameAt b i).pix := by
  rw [frameAt, inBytes_eq_map, inBytes_eq_map]
  refine List.map_congr_left fun k hk => ?_
  rw [Nat.zero_add, byteAddr_congr h.build]
  exact h.pixelByte hj ((toNat_frameIdx hi).trans_lt hi) (List.mem_range.mp hk)

theorem SameInputs.delay {i : Nat} (hi : i < b.nframes.toNat) :
    Machine.delay t (BitVec.ofNat 16 i) = (frameAt b i).delay :=
  h.read16_entry hj ((toNat_frameIdx hi).trans_lt hi) (by decide)

theorem SameInputs.tableEntryBytes (j : Nat) :
    tableEntryBytes t j = rgbBytes (paddedEntry b.build (animationOf b b.loopL).palette j) := by
  have hbyte : ∀ c < 3, j < b.palLen.toNat → inByte t (palAddr t j c) = inByte b (palAddr b j c) := fun c hc hlt => by
    rw [palAddr, h.palBase, byteAddr_congr h.build]
    exact h.bytes _ (.inl ⟨hj, .inl ⟨3 * j + c, by omega, rfl⟩⟩)
  rw [Machine.tableEntryBytes, h.palLen, h.build, paddedEntry, animationOf, List.getD_eq_getElem?_getD, List.getElem?_map]
  split
  next hlt =>
    rw [List.getElem?_range hlt, hbyte 0 (by decide) hlt, hbyte 1 (by decide) hlt, hbyte 2 (by decide) hlt]
    rfl
  next hge =>
    rw [List.getElem?_eq_none (by simpa using hge)]
    rfl

end

/-! ### Between two operations -/

/-- The job that began at `b` has written the bytes `bs`, stands at frame `i` with a normalised palette, and goes on with the
operation `c`. -/
structure GifAt (b : State) (c : BitVec 8) (bs : List Byte) (i : Nat) (t : State) : Prop where
  only : OnlyJob b t
  wrote : WroteOut b t bs
  seq : t.seq = c
  fi : t.fi = BitVec.ofNat 16 i
  palette : t.plen = (setPalette b).plen ∧ t.mcs = (setPalette b).mcs

theorem OnlyJob.of_onlyOut {s t : State} (h : OnlyOut s t) : OnlyJob s t := .of_onlyPacker (.of_onlyOut h)

theorem OnlyOut.registers {s t : State} (h : OnlyOut s t) : t.fi = s.fi ∧ t.plen = s.plen ∧ t.mcs = s.mcs := by
  unfold OnlyOut at h
  rw [h]
  exact ⟨rfl, rfl, rfl⟩

section

variable {b t : State} {c : BitVec 8} {bs : List Byte} {i : Nat} (h : GifAt b c bs i t)
include h

/-- More bytes, and the next operation. -/
theorem GifAt.next {u : State} {cs : List Byte} {c' : BitVec 8} {j : Nat} (ho : OnlyJob t u) (hw : WroteOut t u cs)
    (hseq : u.seq = c') (hfi : u.fi = BitVec.ofNat 16 j) (hpal : u.plen = t.plen ∧ u.mcs = t.mcs) :
    GifAt b c' (bs ++ cs) j u where
  only := h.only.trans ho
  wrote := h.wrote.append (congrArg Settings.outBase h.only.settings) (congrArg Settings.build h.only.settings) hw
  seq := hseq
  fi := hfi
  palette := ⟨hpal.1.trans h.palette.1, hpal.2.trans h.palette.2⟩

theorem GifAt.loopL : t.loopL = b.loopL := by
  have ho := h.only
  unfold OnlyJob at ho
  rw [ho]

variable (hr : GifReady b)
include hr

theorem GifAt.agenda : t.agenda = [] := h.only.agenda.trans hr.agenda

theorem GifAt.job : t.job = opcGif := by
  have ho := h.only
  unfold OnlyJob at ho
  rw [ho]
  exact hr.job

theorem GifAt.outPtr : t.outPtr.toNat = bs.length := by
  obtain ⟨hptr, -⟩ := h.wrote
  rw [hptr, hr.outPtr]
  exact Nat.zero_add _

/-- The next bytes fit where the stream fits (R102). -/
theorem GifAt.fits {cs : List Byte} (hcap : (bs ++ cs).length ≤ b.outCap.toNat) : Fits t cs.length := by
  have hout : t.outCap = b.outCap := congrArg Settings.outCap h.only.settings
  rw [List.length_append] at hcap
  simp only [Fits, h.outPtr hr, hout]
  omega

/-- What was written so far left the inputs as they were: in one memory, they lie outside the region (R146 (f)). -/
theorem GifAt.sameInputs (hcap : bs.length ≤ b.outCap.toNat) : SameInputs b t := by
  have hroom : Fits b bs.length := by
    rw [Fits, hr.outPtr]
    exact .inr ((Nat.zero_add _).trans_le hcap)
  refine ⟨h.only.settings, (h.job hr).trans hr.job.symm, fun a ha => h.only.inByte_eq fun hs => ?_⟩
  exact h.wrote.outside hroom fun ho => hr.apart hs a ho ha

/-- An operation that writes bytes which fit. -/
theorem GifAt.runs_writes {op : Instr} {cs : List Byte} {c' : BitVec 8} {f : FrameIdx} (hop : decode (.seq c) = .ok op)
    (hw : Writes t (exec op t) cs c' f) (hcap : (bs ++ cs).length ≤ b.outCap.toNat) :
    ∃ u, Runs 1 t u ∧ GifAt b c' (bs ++ cs) i u := by
  obtain ⟨u, hu, hwrote, hseq, ho⟩ := hw.1 (h.fits hr hcap)
  obtain ⟨hfi, hpal⟩ := ho.registers
  exact ⟨u, runs_one (h.agenda hr) (h.seq ▸ hop) hu, h.next (.of_onlyOut ho) hwrote hseq (hfi.trans h.fi) hpal⟩

end

/-! ### The checks (R100, R104, R105) -/

/-- Where G.CHECK_PAL and G.CHECK_FRAME go on with `i` frames checked. -/
def nextCheck (b : State) (i : Nat) : BitVec 8 := if i = b.nframes.toNat then SeqCode.gSig else SeqCode.gCheckFrame

/-- FI counts the frames. -/
theorem frameIdx_succ (i : Nat) : BitVec.ofNat 16 i + 1 = BitVec.ofNat 16 (i + 1) := (BitVec.ofNat_add i 1).symm

theorem frameIdx_eq_iff {b : State} {i : Nat} (hi : i ≤ b.nframes.toNat) :
    BitVec.ofNat 16 i = b.nframes ↔ i = b.nframes.toNat := by
  have := b.nframes.isLt
  rw [← BitVec.toNat_inj, BitVec.toNat_ofNat, Nat.mod_eq_of_lt (by omega)]

theorem nframes_eq_zero_iff (b : State) : b.nframes = 0 ↔ 0 = b.nframes.toNat := by
  rw [← frameIdx_eq_iff (Nat.zero_le _), eq_comm]
  rfl

theorem GifReady.runs_checkPal {b : State} (hr : GifReady b) :
    ∃ t, Runs 1 b t ∧ GifAt b (nextCheck b 0) [] 0 t := by
  obtain ⟨hpal, -⟩ := hr.valid
  have hrun := runs_one hr.agenda (i := .gCheckPal) (by rw [hr.seq]; rfl) (if_pos hpal)
  exact ⟨_, hrun, rfl, .nil _ _ rfl rfl rfl rfl, if_congr (nframes_eq_zero_iff b) rfl rfl, rfl, rfl, rfl⟩

/-- G.CHECK_FRAME runs once for each frame that is left. -/
theorem GifAt.runs_checkFrames {b t : State} (hr : GifReady b) {i : Nat} (n : Nat) (h : GifAt b (nextCheck b i) [] i t)
    (hn : i + n = b.nframes.toNat) : ∃ u, Runs n t u ∧ GifAt b SeqCode.gSig [] b.nframes.toNat u := by
  induction n generalizing i t with
  | zero =>
    have hi : i = b.nframes.toNat := hn
    rw [nextCheck, if_pos hi, hi] at h
    exact ⟨t, rfl, h⟩
  | succ n ih =>
    have hlt : i < b.nframes.toNat := by omega
    have hmax := b.nframes.isLt
    obtain ⟨-, hframes⟩ := hr.valid
    obtain ⟨hd, hp⟩ := hframes i hlt
    have hin := h.sameInputs hr (Nat.zero_le _)
    have hidx := (toNat_frameIdx hlt).trans_lt hlt
    rw [← hin.dimsOk hr.job hidx, ← h.fi] at hd
    rw [← hin.pixelsOk hr.job hidx, ← h.fi] at hp
    have hexec := execGCheckFrame_ok hd hp (by rw [h.fi, toNat_frameIdx hlt]; omega)
    rw [h.fi, frameIdx_succ, hin.nframes] at hexec
    have hseq : t.seq = SeqCode.gCheckFrame := h.seq.trans (if_neg (by omega))
    have hnext := h.next (u := goto (if BitVec.ofNat 16 (i + 1) = b.nframes then SeqCode.gSig else SeqCode.gCheckFrame)
      (nextFi t)) (c' := nextCheck b (i + 1)) (j := i + 1) rfl (.nil _ _ rfl rfl rfl rfl) ?_ ?_ ⟨rfl, rfl⟩
    · obtain ⟨u, hu, hdone⟩ := ih hnext (by omega)
      exact ⟨u, Nat.add_comm 1 n ▸ (runs_one (h.agenda hr) (by rw [hseq]; rfl) hexec).trans hu, hdone⟩
    · exact if_congr (frameIdx_eq_iff hlt) rfl rfl
    · rw [goto_fi, nextFi_fi, h.fi, frameIdx_succ]

/-- The checks of a valid job, in one operation and one for each frame. -/
theorem GifReady.runs_checks {b : State} (hr : GifReady b) :
    ∃ t, Runs (1 + b.nframes.toNat) b t ∧ GifAt b SeqCode.gSig [] b.nframes.toNat t := by
  obtain ⟨t, hpal, ht⟩ := hr.runs_checkPal
  obtain ⟨u, hframes, hu⟩ := ht.runs_checkFrames hr b.nframes.toNat (Nat.zero_add _)
  exact ⟨u, hpal.trans hframes, hu⟩

end Sys2Proof.Machine
end

section
/-! PROOFS. The writing operations of a GIF_ENCODE job in order (R96, R106 to R116, R127): the header, each frame with its pass,
and the end. -/

namespace Sys2Proof.Machine

/-- Where the header and G.NEXT_FRAME go on with `i` frames written. -/
def nextFrame (b : State) (i : Nat) : BitVec 8 := if i = b.nframes.toNat then SeqCode.gTrailer else SeqCode.gGce

/-- What a job writes for its color table (R99, R108). -/
def paddedTable (b : State) : List Byte :=
  (List.range (paddedLen b.palLen.toNat)).flatMap fun j => rgbBytes (paddedEntry b.build (animationOf b b.loopL).palette j)

/-- The header as the operations write it (R96). -/
theorem headerBytes_animationOf (b : State) : headerBytes b.build (animationOf b b.loopL)
    = signature ++ screenDescriptor (setPalette b) ++ paddedTable b ++ (if b.loopL then netscapeBlock else []) := by
  have hlen : (animationOf b b.loopL).palette.length = b.palLen.toNat := by simp [animationOf]
  rw [headerBytes, hlen]
  rfl

/-- The pass of frame `i` is about to begin (R112). -/
structure ImageStart (b : State) (i : Nat) (t : State) : Prop where
  curSrc : t.curSrc = pixAddr b (BitVec.ofNat 16 i)
  curN : t.curN = pixLen b (BitVec.ofNat 16 i)
  sink : t.sink = .sub
  chunkLen : t.chunkLen = 0

/-- The bytes of frame `i`'s pass (R77). -/
def imageBytes (b : State) (i : Nat) : List Byte := lzwBytes b.build (frameAt b i).pix (gifCodeSize b)

theorem length_le_of_append {xs ys : List Byte} {n : Nat} (h : (xs ++ ys).length ≤ n) : xs.length ≤ n :=
  (List.prefix_append xs ys).length_le.trans h

/-- The header goes on to the first frame, or to the trailer without one. -/
theorem GifAt.firstFrame_eq {b t : State} {c : BitVec 8} {bs : List Byte} {i : Nat} (h : GifAt b c bs i t) :
    firstFrame t = nextFrame b 0 := by
  have hn : t.nframes = b.nframes := congrArg Settings.nframes h.only.settings
  rw [firstFrame, hn]
  exact if_congr (nframes_eq_zero_iff b) rfl rfl

section

variable {b t : State} {bs : List Byte} {i : Nat} (hr : GifReady b)
include hr

/-! ### The header (R106 to R109) -/

theorem GifAt.runs_sig (h : GifAt b SeqCode.gSig bs i t) (hcap : (bs ++ signature).length ≤ b.outCap.toNat) :
    ∃ u, Runs 1 t u ∧ GifAt b SeqCode.gLsd (bs ++ signature) 0 u := by
  obtain ⟨u, hu, hwrote, hseq, ho⟩ := (sigWritesSignature t h.seq).1 (h.fits hr hcap)
  obtain ⟨hfi, hpal⟩ := ho.registers
  have hjob : OnlyJob t u := OnlyJob.trans (t := { t with fi := 0 }) rfl (.of_onlyOut ho)
  exact ⟨u, runs_one (h.agenda hr) (by rw [h.seq]; rfl) hu, h.next hjob hwrote hseq hfi hpal⟩

theorem GifAt.runs_lsd (h : GifAt b SeqCode.gLsd bs i t)
    (hcap : (bs ++ screenDescriptor (setPalette b)).length ≤ b.outCap.toNat) :
    ∃ u, Runs 1 t u ∧ GifAt b SeqCode.gGct (bs ++ screenDescriptor (setPalette b)) i u := by
  have hin := h.sameInputs hr (length_le_of_append hcap)
  have hbytes : screenDescriptor t = screenDescriptor (setPalette b) := by
    simp only [screenDescriptor, hin.width, hin.height, hin.build, h.palette.1]
    rfl
  have hw := gLsd_writes h.seq
  rw [hbytes] at hw
  exact h.runs_writes hr rfl hw hcap

theorem GifAt.runs_gct (h : GifAt b SeqCode.gGct bs i t) (hcap : (bs ++ paddedTable b).length ≤ b.outCap.toNat) :
    ∃ u, Runs 1 t u ∧ GifAt b (if b.loopL then SeqCode.gNetscape else nextFrame b 0) (bs ++ paddedTable b) i u := by
  have hin := h.sameInputs hr (length_le_of_append hcap)
  obtain ⟨hpal, -⟩ := hr.valid
  have hbytes : colorTable t = paddedTable b := by
    rw [colorTable, h.palette.1, toNat_plen_setPalette hpal, funext (hin.tableEntryBytes hr.job), paddedTable]
  have hw := gGct_writes h.seq
  rw [hbytes, h.loopL, h.firstFrame_eq] at hw
  exact h.runs_writes hr rfl hw hcap

theorem GifAt.runs_netscape (h : GifAt b SeqCode.gNetscape bs i t)
    (hcap : (bs ++ netscapeBlock).length ≤ b.outCap.toNat) :
    ∃ u, Runs 1 t u ∧ GifAt b (nextFrame b 0) (bs ++ netscapeBlock) i u := by
  have hw := gNetscape_writes h.seq
  rw [h.firstFrame_eq] at hw
  exact h.runs_writes hr rfl hw hcap

/-- The header, in three operations and one for the loop extension. -/
theorem GifAt.runs_header (h : GifAt b SeqCode.gSig [] i t)
    (hcap : (headerBytes b.build (animationOf b b.loopL)).length ≤ b.outCap.toNat) :
    ∃ u, Runs (3 + b.loopL.toNat) t u
      ∧ GifAt b (nextFrame b 0) (headerBytes b.build (animationOf b b.loopL)) 0 u := by
  rw [headerBytes_animationOf] at hcap ⊢
  have hcap3 := length_le_of_append hcap
  have hcap2 := length_le_of_append hcap3
  obtain ⟨u, hsig, hu⟩ := h.runs_sig hr (length_le_of_append hcap2)
  obtain ⟨v, hlsd, hv⟩ := hu.runs_lsd hr hcap2
  obtain ⟨w, hgct, hw⟩ := hv.runs_gct hr hcap3
  have hruns := hsig.trans (hlsd.trans hgct)
  cases hl : b.loopL with
  | false =>
    rw [hl] at hw
    refine ⟨w, hruns, ?_⟩
    rw [if_neg (by decide), List.append_nil]
    exact hw
  | true =>
    rw [hl] at hw hcap
    obtain ⟨x, hnet, hx⟩ := GifAt.runs_netscape hr hw hcap
    exact ⟨x, hruns.trans hnet, hx⟩

/-! ### One frame (R110 to R114) -/

theorem GifAt.runs_idesc (h : GifAt b SeqCode.gIdesc bs i t)
    (hcap : (bs ++ imageDescriptor b.width b.height).length ≤ b.outCap.toNat) :
    ∃ u, Runs 1 t u ∧ GifAt b SeqCode.gMincode (bs ++ imageDescriptor b.width b.height) i u := by
  have hin := h.sameInputs hr (length_le_of_append hcap)
  have hw := gIdesc_writes h.seq (h.job hr)
  rw [hin.width, hin.height] at hw
  exact h.runs_writes hr rfl hw hcap

theorem GifAt.toNat_mcs {c : BitVec 8} (h : GifAt b c bs i t) : t.mcs.toNat = gifCodeSize b := by
  obtain ⟨hpal, -⟩ := hr.valid
  rw [h.palette.2, toNat_mcs_setPalette hpal, gifCodeSize]

theorem GifAt.runs_term (h : GifAt b SeqCode.bTerm bs i t)
    (hcap : (bs ++ termBytes (heldChunk t)).length ≤ b.outCap.toNat) :
    ∃ u, Runs 1 t u ∧ GifAt b SeqCode.gNextFrame (bs ++ termBytes (heldChunk t)) i u := by
  have hfits := h.fits hr hcap
  rw [termBytes_heldChunk] at hfits ⊢
  obtain ⟨u, hu, hwrote, hseq, ho⟩ := (termEndsSubBlocks t h.seq (h.job hr)).1 hfits
  obtain ⟨hfi, hpal⟩ := ho.registers
  have hjob : OnlyJob t u := OnlyJob.trans (t := { t with chunkLen := 0 }) rfl (.of_onlyOut ho)
  exact ⟨u, runs_one (h.agenda hr) (by rw [h.seq]; rfl) hu, h.next hjob hwrote hseq (hfi.trans h.fi) hpal⟩

section

variable (hi : i < b.nframes.toNat)
include hi

theorem GifAt.runs_gce (h : GifAt b SeqCode.gGce bs i t)
    (hcap : (bs ++ graphicControl (frameAt b i).delay).length ≤ b.outCap.toNat) :
    ∃ u, Runs 1 t u ∧ GifAt b SeqCode.gIdesc (bs ++ graphicControl (frameAt b i).delay) i u := by
  have hin := h.sameInputs hr (length_le_of_append hcap)
  have hw := gGce_writes h.seq (h.job hr)
  rw [h.fi, hin.delay hr.job hi] at hw
  exact h.runs_writes hr rfl hw hcap

theorem GifAt.runs_mincode (h : GifAt b SeqCode.gMincode bs i t)
    (hcap : (bs ++ [BitVec.ofNat 8 (gifCodeSize b)]).length ≤ b.outCap.toNat) :
    ∃ u, Runs 1 t u ∧ GifAt b SeqCode.lInit (bs ++ [BitVec.ofNat 8 (gifCodeSize b)]) i u ∧ ImageStart b i u := by
  obtain ⟨u, hu, hwrote, ho⟩ := gMincode_writes (h.fits hr hcap)
  rw [h.toNat_mcs hr] at hwrote
  obtain ⟨hfi, hpal⟩ := ho.registers
  have hidx := (toNat_frameIdx hi).trans_lt hi
  have hnext : GifAt b SeqCode.lInit (bs ++ [BitVec.ofNat 8 (gifCodeSize b)]) i (goto SeqCode.lInit (startImage u)) :=
    h.next ((OnlyJob.of_onlyOut ho).trans rfl) hwrote rfl (hfi.trans h.fi) hpal
  have hin := hnext.sameInputs hr hcap
  have hsrc : (goto SeqCode.lInit (startImage u)).curSrc = pixAddr (goto SeqCode.lInit (startImage u)) u.fi := rfl
  have hn : (goto SeqCode.lInit (startImage u)).curN = pixLen (goto SeqCode.lInit (startImage u)) u.fi := rfl
  rw [hfi, h.fi, hin.pixAddr hr.job hidx] at hsrc
  rw [hfi, h.fi, hin.pixLen hr.job hidx] at hn
  exact ⟨_, runs_one (h.agenda hr) (by rw [h.seq]; rfl) hu, hnext, hsrc, hn, rfl, rfl⟩

/-- The pixels of a checked frame are symbols below 2^MCS, apart from the OUT region (R67, R100, R146 (f)). -/
theorem GifAt.sourceReady {c : BitVec 8} (h : GifAt b c bs i t) (hs : ImageStart b i t)
    (hcap : bs.length ≤ b.outCap.toNat) : SourceReady t := by
  have hin := h.sameInputs hr hcap
  have hidx := (toNat_frameIdx hi).trans_lt hi
  obtain ⟨-, -, hsize⟩ := hr.gifCodeSize_bounds
  obtain ⟨-, hframes⟩ := hr.valid
  refine ⟨fun k hk => ?_, fun hshared k hk hout => ?_⟩
  · rw [hs.curN] at hk
    rw [h.toNat_mcs hr, hs.curSrc, byteAddr_congr hin.build, hin.pixelByte hr.job hidx hk]
    exact ((pixelsOk_iff b _).mp (hframes i hi).2 k hk).trans_le hsize
  · rw [hs.curN] at hk
    rw [hs.curSrc, byteAddr_congr hin.build, hin.outRegion_iff] at hout
    exact hr.apart (hin.build ▸ hshared) _ hout (.inl ⟨hr.job, .inr (.inr ⟨_, hidx, k, hk, rfl⟩)⟩)

/-- The pass writes the sub-blocks that are full and holds the rest. -/
theorem GifAt.runs_imagePass (h : GifAt b SeqCode.lInit bs i t) (hs : ImageStart b i t)
    (hcap : (bs ++ (chunked [] (imageBytes b i)).1).length ≤ b.outCap.toNat) :
    ∃ u, Runs (b.width.toNat * b.height.toNat + 5) t u
      ∧ GifAt b SeqCode.bTerm (bs ++ (chunked [] (imageBytes b i)).1) i u
      ∧ heldChunk u = (chunked [] (imageBytes b i)).2 := by
  have hcap' := length_le_of_append hcap
  have hin := h.sameInputs hr hcap'
  obtain ⟨hm2, hm8, -⟩ := hr.gifCodeSize_bounds
  have hmcs := h.toNat_mcs hr
  have hheld : heldChunk t = [] := by
    rw [← List.length_eq_zero_iff, length_heldChunk, hs.chunkLen]
    rfl
  have hdata : lzwBytes t.build (inBytes t t.curSrc t.curN.toNat 0) t.mcs.toNat = imageBytes b i := by
    rw [hs.curSrc, hs.curN, hin.inBytes_pixels hr.job hi, hin.build, hmcs, imageBytes]
  have hsunk : sunk t.sink (heldChunk t) (imageBytes b i) = chunked [] (imageBytes b i) := by
    rw [hs.sink, hheld, sunk]
  have hroom := h.fits hr hcap
  rw [← hsunk, ← hdata] at hroom
  obtain ⟨u, hu, hdone⟩ := runs_pass (h.agenda hr) h.seq (hmcs ▸ hm2) (hmcs ▸ hm8) (h.sourceReady hr hi hs hcap')
    (fun _ => by rw [hs.chunkLen]; decide) hroom
  rw [hs.curN, hr.toNat_pixLen hi] at hu
  have hfix := hdone.fixed
  simp only [State.passFixed, Prod.mk.injEq] at hfix
  obtain ⟨hfi, hplen, hm, -⟩ := hfix
  have hwrote := hdone.wrote
  have hleft := hdone.held
  rw [hdata, hsunk] at hwrote hleft
  have hseq : u.seq = SeqCode.bTerm := by rw [hdone.seq, hs.sink, afterPass]
  exact ⟨u, hu, h.next hdone.only hwrote hseq (hfi.trans h.fi) ⟨hplen, hm⟩, hleft⟩

theorem GifAt.runs_nextFrame (h : GifAt b SeqCode.gNextFrame bs i t) :
    ∃ u, Runs 1 t u ∧ GifAt b (nextFrame b (i + 1)) bs (i + 1) u := by
  have hmax := b.nframes.isLt
  have hn : t.nframes = b.nframes := congrArg Settings.nframes h.only.settings
  have hlt : t.fi.toNat < 65535 := by
    rw [h.fi, toNat_frameIdx hi]
    omega
  obtain ⟨u, hu, hfi, hseq, ho⟩ := nextFrameAdvances t hlt
  have hfi' : u.fi = BitVec.ofNat 16 (i + 1) := by
    rw [← frameIdx_succ, ← h.fi]
    bv_omega
  rw [hfi', hn, if_congr (frameIdx_eq_iff (Nat.succ_le_of_lt hi)) rfl rfl] at hseq
  have hnext := h.next (u := u) (cs := []) (by unfold OnlyJob; rw [ho])
    (by rw [ho]; exact .nil _ _ rfl rfl rfl rfl) hseq hfi' (by rw [ho]; exact ⟨rfl, rfl⟩)
  rw [List.append_nil] at hnext
  exact ⟨u, runs_one (h.agenda hr) (by rw [h.seq]; rfl) hu, hnext⟩

/-- One frame, in ten operations and one for each pixel (R116). -/
theorem GifAt.runs_frame (h : GifAt b SeqCode.gGce bs i t)
    (hcap : (bs ++ frameBytes b.build (animationOf b b.loopL) (gifCodeSize b) (frameAt b i)).length ≤ b.outCap.toNat) :
    ∃ u, Runs (b.width.toNat * b.height.toNat + 10) t u ∧ GifAt b (nextFrame b (i + 1))
      (bs ++ frameBytes b.build (animationOf b b.loopL) (gifCodeSize b) (frameAt b i)) (i + 1) u := by
  have hbytes : bs ++ frameBytes b.build (animationOf b b.loopL) (gifCodeSize b) (frameAt b i)
      = bs ++ graphicControl (frameAt b i).delay ++ imageDescriptor b.width b.height ++ [BitVec.ofNat 8 (gifCodeSize b)]
        ++ (chunked [] (imageBytes b i)).1 ++ termBytes (chunked [] (imageBytes b i)).2 := by
    rw [frameBytes, subblocks_eq]
    simp only [List.append_assoc]
    rfl
  rw [hbytes] at hcap ⊢
  have hcap4 := length_le_of_append hcap
  have hcap3 := length_le_of_append hcap4
  have hcap2 := length_le_of_append hcap3
  obtain ⟨u1, hgce, h1⟩ := h.runs_gce hr hi (length_le_of_append hcap2)
  obtain ⟨u2, hidesc, h2⟩ := h1.runs_idesc hr hcap2
  obtain ⟨u3, hmincode, h3, hs⟩ := h2.runs_mincode hr hi hcap3
  obtain ⟨u4, hpass, h4, hheld⟩ := h3.runs_imagePass hr hi hs hcap4
  rw [← hheld] at hcap ⊢
  obtain ⟨u5, hterm, h5⟩ := h4.runs_term hr hcap
  obtain ⟨u6, hnext, h6⟩ := h5.runs_nextFrame hr hi
  refine ⟨u6, ?_, h6⟩
  rw [show b.width.toNat * b.height.toNat + 10 = 1 + (1 + (1 + (b.width.toNat * b.height.toNat + 5 + (1 + 1)))) by omega]
  exact hgce.trans (hidesc.trans (hmincode.trans (hpass.trans (hterm.trans hnext))))

end

/-! ### All frames, and the end (R115, R116, R127) -/

/-- The frames from number `i` on. -/
theorem GifAt.runs_frames (n : Nat) (h : GifAt b (nextFrame b i) bs i t) (hn : i + n = b.nframes.toNat)
    (hcap : (bs ++ ((List.range' i n).map (frameAt b)).flatMap
      (frameBytes b.build (animationOf b b.loopL) (gifCodeSize b))).length ≤ b.outCap.toNat) :
    ∃ u, Runs (n * (b.width.toNat * b.height.toNat + 10)) t u
      ∧ GifAt b SeqCode.gTrailer (bs ++ ((List.range' i n).map (frameAt b)).flatMap
        (frameBytes b.build (animationOf b b.loopL) (gifCodeSize b))) b.nframes.toNat u := by
  induction n generalizing i t bs with
  | zero =>
    have hi : i = b.nframes.toNat := hn
    rw [nextFrame, if_pos hi, hi] at h
    refine ⟨t, by rw [Nat.zero_mul]; rfl, ?_⟩
    rw [List.range'_zero, List.map_nil, List.flatMap_nil, List.append_nil]
    exact h
  | succ n ih =>
    have hi : i < b.nframes.toNat := by omega
    rw [nextFrame, if_neg (by omega)] at h
    rw [List.range'_succ, List.map_cons, List.flatMap_cons, ← List.append_assoc] at hcap ⊢
    obtain ⟨u, hframe, hu⟩ := h.runs_frame hr hi (length_le_of_append hcap)
    obtain ⟨v, hrest, hv⟩ := ih hu (by omega) hcap
    refine ⟨v, ?_, hv⟩
    rw [Nat.succ_mul, Nat.add_comm]
    exact hframe.trans hrest

theorem GifAt.runs_trailer (h : GifAt b SeqCode.gTrailer bs i t) (hcap : (bs ++ [0x3B#8]).length ≤ b.outCap.toNat) :
    ∃ u, Runs 1 t u ∧ GifAt b SeqCode.xFinish (bs ++ [0x3B#8]) i u :=
  h.runs_writes hr rfl (trailerWritesLastByte t h.seq) hcap

/-- The state X.FINISH leaves (R127). -/
def finished (t : State) : State := goto SeqCode.idle { t with outLen := t.outPtr, done := true, busy := false }

/-- A whole job: the checks, the header, the frames, the trailer, and X.FINISH (R116). -/
theorem GifReady.runs_job (hcap : (gifStream b.build (animationOf b b.loopL)).length ≤ b.outCap.toNat) :
    ∃ t, Runs (6 + b.loopL.toNat + b.nframes.toNat
        + b.nframes.toNat * (b.width.toNat * b.height.toNat + 10)) b (finished t)
      ∧ GifAt b SeqCode.xFinish (gifStream b.build (animationOf b b.loopL)) b.nframes.toNat t := by
  have hsize : minCodeSize (paddedLen (animationOf b b.loopL).palette.length) = gifCodeSize b := by
    simp [animationOf, gifCodeSize]
  have hframes : (animationOf b b.loopL).frames = (List.range' 0 b.nframes.toNat).map (frameAt b) := by
    rw [← List.range_eq_range']
    rfl
  rw [gifStream, hsize, hframes] at hcap ⊢
  have hcap2 := length_le_of_append hcap
  obtain ⟨t1, hchecks, h1⟩ := hr.runs_checks
  obtain ⟨t2, hheader, h2⟩ := h1.runs_header hr (length_le_of_append hcap2)
  obtain ⟨t3, hall, h3⟩ := h2.runs_frames hr b.nframes.toNat (Nat.zero_add _) hcap2
  obtain ⟨t4, htrailer, h4⟩ := h3.runs_trailer hr hcap
  have hfinish : Runs 1 t4 (finished t4) := runs_one (h4.agenda hr) (i := .xFinish) (by rw [h4.seq]; rfl) rfl
  refine ⟨t4, ?_, h4⟩
  generalize b.nframes.toNat * (b.width.toNat * b.height.toNat + 10) = steps at hall ⊢
  rw [show 6 + b.loopL.toNat + b.nframes.toNat + steps
    = 1 + b.nframes.toNat + (3 + b.loopL.toNat + (steps + (1 + 1))) by omega]
  exact hchecks.trans (hheader.trans (hall.trans (htrailer.trans hfinish)))

end

/-! ### A GIF_ENCODE job -/

/-- What an accepted GIF_ENCODE leaves (R121, R123, R146 (f)). -/
theorem gifEncode_accepted {s t : State} {loop : Bool} (hb : s.busy = false)
    (h : exec (if loop then .gifEncodeLoop1 else .gifEncodeLoop0) s = .next t) :
    t = acceptGif loop s ∧ (t.build.sharedMemory = true → ∀ a, OutRegion t a → ¬ JobReads t a) := by
  have hstart : startJob (acceptGif loop s) = .next t := by
    rw [← h]
    cases loop <;> simp [exec, execGifEncodeLoop0, execGifEncodeLoop1, unlessBusy, hb]
  rcases startJob_cases (acceptGif loop s) with ⟨hd, he⟩ | ⟨-, he⟩
  · cases he.symm.trans hstart
    exact ⟨rfl, hd⟩
  · exact nomatch he.symm.trans hstart

/-- Settles O59: the run of the accepted state, and what it leaves in STATUS, OUT_LEN and OUT. -/
theorem gifJobWritesGifStream : Obligations.GifJobWritesGifStream := by
  intro s s0 loop hb ha hexec hvalid hcap hspace
  obtain ⟨rfl, hd⟩ := gifEncode_accepted hb hexec
  have hr : GifReady (acceptGif loop s) := ⟨hvalid, hd, rfl, rfl, rfl, ha⟩
  obtain ⟨t, hrun, ht⟩ := hr.runs_job hcap
  have hptr := ht.outPtr hr
  refine ⟨finished t, hrun, rfl, statusWord_done rfl rfl ht.only.error, hptr, ?_⟩
  show outBytesFrom t t.outPtr.toNat = _
  rw [hptr]
  exact ht.wrote.outBytesFrom rfl ht.only.settings hspace

end Sys2Proof.Machine
end

section
/-! PROOFS. A register access as the instruction it stands for (R22, R52, R117 (a)), and which instruction the next step runs:
the operation SEQ holds (R117 (b)), or the one laid where `step` takes it. -/

namespace Sys2Proof.Machine

/-! ### Register accesses as instructions (R22, R52, R117) -/

/-- A write of CMD and the command it issues are one (R22). -/
theorem exec_issued (i : Instr) (s : State) : exec (issued i) s = exec i s := by
  unfold issued
  split
  next v =>
    split
    next c hc => exact (cmdWriteIsTheCommand s v c hc).symm
    · rfl
  · rfl

theorem busPattern_eq (write : Bool) (r : Reg) : BitVec.ofBool write ++ BitVec.ofNat 6 r.offset = busPattern write r := by
  cases write <;> cases r <;> rfl

/-- A write of one aligned word is the register's WR (R118). -/
theorem runAccess_write (r : Reg) (v : Word) (s : State) : runAccess true r.offset 4 v s = exec (.wr r v) s := by
  have hok : accessOk r.offset 4 = true := by cases r <;> rfl
  have hdec : decode (.bus (busPattern true r) (some v)) = .ok (.wr r v) := decodeOfEncodeIsIdentity (.wr r v) rfl
  simp only [runAccess, accessInstr, hok, busPattern_eq, if_true, hdec, exec_issued]

/-- A read of one aligned word is the register's RD (R119). -/
theorem runAccess_read (r : Reg) (v : Word) (s : State) : runAccess false r.offset 4 v s = exec (.rd r) s := by
  have hok : accessOk r.offset 4 = true := by cases r <;> rfl
  have hdec : decode (.bus (busPattern false r) none) = .ok (.rd r) := decodeOfEncodeIsIdentity (.rd r) rfl
  simp only [runAccess, accessInstr, hok, busPattern_eq, if_true, Bool.false_eq_true, if_false, hdec, exec_issued]

/-- Every aligned offset of the window is a register's (R21). -/
theorem exists_offset_eq {offset : Nat} (halign : offset % 4 = 0) (hle : offset ≤ 0x3C) : ∃ r : Reg, offset = r.offset := by
  have hnum : ∀ n : BitVec 4, (Reg.ofNum n).num = n := by decide
  refine ⟨Reg.ofNum (BitVec.ofNat 4 (offset / 4)), ?_⟩
  rw [Reg.offset, hnum, BitVec.toNat_ofNat]
  omega

/-- An access is refused, or is a register's RD or WR (R40). -/
theorem runAccess_eq (write : Bool) (offset bytes : Nat) (v : Word) (s : State) :
    runAccess write offset bytes v s = .refused .registerAccess
      ∨ ∃ r : Reg, offset = r.offset ∧ bytes = 4
          ∧ runAccess write offset bytes v s = exec (if write then .wr r v else .rd r) s := by
  cases hok : accessOk offset bytes with
  | false => exact .inl (runAccess_of_not_accessOk hok write v s)
  | true =>
    obtain ⟨rfl, halign, hle⟩ := (accessOk_iff offset bytes).mp hok
    obtain ⟨r, rfl⟩ := exists_offset_eq halign hle
    refine .inr ⟨r, rfl, rfl, ?_⟩
    cases write with
    | false => exact runAccess_read r v s
    | true => exact runAccess_write r v s

/-- An engine turn runs the operation SEQ holds (R117 (b)). -/
theorem runEngine_eq_exec {s : State} {i : Instr} (hi : decode (.seq s.seq) = .ok i) : runEngine s = exec i s := by
  rcases runEngine_cases s with ⟨j, hj, he⟩ | ⟨hn, -⟩
  · rw [he, Except.ok.inj (hi.symm.trans hj)]
  · exact absurd hi (hn i)

/-- Settles O6: both kinds of step are an engine turn. -/
theorem engineStepRunsSeqOperation : Obligations.EngineStepRunsSeqOperation := by
  rintro s rest i (⟨ha, rfl⟩ | ha) hi
  · have hsame : { s with agenda := [] } = s := by rw [← ha]
    rw [hsame]
    exact step_eq_exec ha hi
  · rw [step_turn ha]
    exact runEngine_eq_exec (s := { s with agenda := rest }) hi

/-- Settles O7: the access is RD or WR of its register, and WR of CMD the command its word stands for. -/
theorem hostAccessRunsTransaction : Obligations.HostAccessRunsTransaction := by
  intro s rest r v
  refine ⟨fun ha => ?_, fun ha => ?_⟩
  · rw [step_turn ha]
    exact runAccess_read r v _
  · have hwr : step s = exec (.wr r v) { s with agenda := rest } := by
      rw [step_turn ha]
      exact runAccess_write r v _
    refine ⟨fun _ => hwr, fun i hr hi => ?_⟩
    subst hr
    rw [hwr, cmdWriteIsTheCommand _ v i hi]

/-- A turn put first is the one the next step runs. -/
theorem step_withTurn (s : State) (t : Turn) : step (s.withTurn t) = runTurn t s := step_turn rfl

/-- The turn of a bus instruction's word is the access of its register. -/
theorem busTurn_write (r : Reg) (v : Word) : busTurn (busPattern true r) (some v) = .access true r.offset 4 v := by
  cases r <;> rfl

theorem busTurn_read (r : Reg) : busTurn (busPattern false r) none = .access false r.offset 4 0 := by
  cases r <;> rfl

/-- A command word laid as a write of CMD runs as its command. -/
theorem step_withEncoded_cmd {i : Instr} {v : Word} (hi : encode i = .cmd v) (hw : WellFormed i = true) (s : State) :
    step (s.withEncoded (.cmd v)) = exec i s := by
  have hdec : decode (.cmd v) = .ok i := hi ▸ decodeOfEncodeIsIdentity i hw
  show step (s.withTurn (.access true Reg.cmd.offset 4 v)) = exec i s
  rw [step_withTurn, ← cmdWriteIsTheCommand s v i hdec]
  exact runAccess_write .cmd v s

/-- A code laid in SEQ with an engine turn first runs as its operation. -/
theorem step_withEncoded_seq {i : Instr} {c : BitVec 8} (hi : encode i = .seq c) (hw : WellFormed i = true) (s : State) :
    step (s.withEncoded (.seq c)) = exec i { s with seq := c } := by
  have hdec : decode (.seq c) = .ok i := hi ▸ decodeOfEncodeIsIdentity i hw
  exact (step_withTurn { s with seq := c } .engine).trans (runEngine_eq_exec (s := { s with seq := c }) hdec)

/-- Settles O9, by the format of the instruction's word. -/
theorem laidInstructionRunsNext : Obligations.LaidInstructionRunsNext := by
  intro s i hw
  cases i with
  | nop | gifEncodeLoop0 | gifEncodeLoop1 | lzwEncode | softReset => exact step_withEncoded_cmd rfl hw s
  | wr r v =>
    show step (s.withTurn (busTurn (busPattern true r) (some v))) = exec (issued (.wr r v)) s
    rw [step_withTurn, busTurn_write, exec_issued]
    exact runAccess_write r v s
  | rd r =>
    show step (s.withTurn (busTurn (busPattern false r) none)) = exec (.rd r) s
    rw [step_withTurn, busTurn_read]
    exact runAccess_read r 0 s
  | _ => exact step_withEncoded_seq rfl hw s

end Sys2Proof.Machine
end

section
/-! PROOFS. What a word written to CMD does (R120, R122, R125, R132), reset (R143), and the start of a job with the refusal
where one memory makes its regions overlap (R121, R123, R124, R146 (f)). -/

namespace Sys2Proof.Machine

/-! ### A word written to CMD (R120, R122, R125, R132) -/

/-- While no job runs, an illegal word is reported (R132). -/
theorem command_illegal {v : Word} {s : State} (hb : s.busy = false) (hi : illegalWord v = true) :
    command v s = .next (raiseIllegal s) := by
  simp [command, hb, hi]

/-- Settles O18: each clause is one case of the word and of BUSY. -/
theorem commandWordDispatch : Obligations.CommandWordDispatch := by
  intro s v
  refine ⟨fun _ hv => ?_, fun hb hv => command_busy hb hv, command_illegal, fun i _ hi => cmdWriteIsTheCommand s v i hi⟩
  subst hv
  exact command_softReset s

/-- Settles O15: NOP's word is NOP (R22), and no other legal word has OPC 0x00. -/
theorem nopChangesNothing : Obligations.NopChangesNothing := by
  refine ⟨fun s => ⟨rfl, cmdWriteIsTheCommand s _ .nop rfl⟩, fun v hopc hne => ?_⟩
  rw [(legalCommandWords v).2]
  rintro ⟨i, hi⟩
  rcases ((legalCommandWords v).1 i).mp hi with ⟨rfl, -⟩ | ⟨rfl, -⟩ | ⟨rfl, -⟩ | ⟨rfl, -⟩ | ⟨m, -, -, hv, -⟩
  · exact hne rfl
  · exact absurd hopc (by decide)
  · exact absurd hopc (by decide)
  · exact absurd hopc (by decide)
  · omega

/-- Settles O14: SOFT_RESET and the reset input are one reset of the block. -/
theorem softResetRestoresReset : Obligations.SoftResetRestoresReset := by
  intro s rest
  have hstatus : statusWord State.reset = 0xFFFF0000#32 := by decide
  refine ⟨resetBlock s, rfl, rfl, inByte_resetBlock s, outByteAt_resetBlock s, hstatus, rfl, fun ha => ?_⟩
  rw [step_turn ha]
  rfl

/-! ### The start of a job (R121, R123, R124, R146 (f)) -/

theorem startJob_of_apart {u : State} (h : ¬ (u.build.sharedMemory = true ∧ ∃ a, OutRegion u a ∧ JobReads u a)) :
    startJob u = .next u :=
  if_neg fun hr => h ((regionsOverlap_iff u).mp hr)

theorem startJob_of_overlap {u : State} (h : u.build.sharedMemory = true ∧ ∃ a, OutRegion u a ∧ JobReads u a) :
    startJob u = .refused .regionsOverlap :=
  if_pos ((regionsOverlap_iff u).mpr h)

/-- STATUS after an accept (R121). -/
theorem statusWord_started {u : State} (hb : u.busy = true) (hd : u.done = false)
    (he : u.err = false ∧ u.errCode = .noError ∧ u.errFrame = noFrame) : statusWord u = 0xFFFF0001#32 := by
  obtain ⟨he, hc, hf⟩ := he
  rw [statusWord, hb, hd, he, hc, hf]
  decide

/-- In one memory the accept changes no byte of IN, so the job reads what the registers name before it. -/
theorem jobReads_acceptGif {s : State} (hs : s.build.sharedMemory = true) (loop : Bool) (a : Nat) :
    JobReads (acceptGif loop s) a ↔ GifReads s a := by
  have hin : SameInputs { s with job := opcGif } (acceptGif loop s) := by
    refine ⟨rfl, rfl, fun b _ => ?_⟩
    rw [inByte_of_shared (s := acceptGif loop s) hs, inByte_of_shared (s := { s with job := opcGif }) hs]
    exact outByteAt_congr rfl rfl rfl b
  have hreads : GifReads (acceptGif loop s) a ↔ GifReads s a := hin.gifReads_iff rfl a
  rw [← hreads]
  exact ⟨fun h => h.elim And.right fun hn => absurd rfl hn.1, fun h => .inl ⟨rfl, h⟩⟩

theorem jobReads_acceptLzw (m : BitVec 4) (s : State) (a : Nat) : JobReads (acceptLzw m s) a ↔ LzwReads s a := by
  have hjob : (acceptLzw m s).job ≠ 0x01#8 := show opcLzw ≠ 0x01#8 by decide
  exact ⟨fun h => h.elim (fun hg => absurd hg.1 hjob) And.right, fun h => .inr ⟨hjob, h⟩⟩

/-- While no job runs, the regions the accepted job would use overlap exactly where those of the registers do. -/
theorem overlap_acceptGif_iff (loop : Bool) (s : State) :
    ((acceptGif loop s).build.sharedMemory = true
        ∧ ∃ a, OutRegion (acceptGif loop s) a ∧ JobReads (acceptGif loop s) a)
      ↔ s.build.sharedMemory = true ∧ ∃ a, OutRegion s a ∧ GifReads s a :=
  and_congr_right fun hs => exists_congr fun a => and_congr Iff.rfl (jobReads_acceptGif (s := s) hs loop a)

theorem overlap_acceptLzw_iff (m : BitVec 4) (s : State) :
    ((acceptLzw m s).build.sharedMemory = true ∧ ∃ a, OutRegion (acceptLzw m s) a ∧ JobReads (acceptLzw m s) a)
      ↔ s.build.sharedMemory = true ∧ ∃ a, OutRegion s a ∧ LzwReads s a :=
  and_congr_right fun _ => exists_congr fun a => and_congr Iff.rfl (jobReads_acceptLzw m s a)

theorem exec_gifEncode_idle {s : State} (hb : s.busy = false) (loop : Bool) :
    exec (if loop then .gifEncodeLoop1 else .gifEncodeLoop0) s = startJob (acceptGif loop s) := by
  cases loop <;> simp [exec, execGifEncodeLoop0, execGifEncodeLoop1, unlessBusy, hb]

theorem exec_lzwEncode_idle {s : State} (hb : s.busy = false) {m : BitVec 4} (hm : legalM m = true) :
    exec (.lzwEncode m) s = startJob (acceptLzw m s) := by
  simp [exec, execLzwEncode, unlessBusy, hb, hm]

/-- Settles O16: the accept, or its refusal. -/
theorem gifEncodeStartsJob : Obligations.GifEncodeStartsJob := by
  intro s loop hb clash
  rw [exec_gifEncode_idle hb]
  refine ⟨fun hapart => ⟨_, startJob_of_apart ?_, statusWord_started rfl rfl ⟨rfl, rfl, rfl⟩, rfl⟩, fun hclash => ?_⟩
  · rwa [overlap_acceptGif_iff]
  · exact startJob_of_overlap ((overlap_acceptGif_iff loop s).mpr hclash)

/-- Settles O17: the accept, or its refusal. -/
theorem lzwEncodeStartsJob : Obligations.LzwEncodeStartsJob := by
  intro s m hb hlow hhigh clash
  rw [exec_lzwEncode_idle hb ((legalM_iff m).mpr ⟨hlow, hhigh⟩)]
  refine ⟨fun hapart => ⟨_, startJob_of_apart ?_, statusWord_started rfl rfl ⟨rfl, rfl, rfl⟩, rfl⟩, fun hclash => ?_⟩
  · rwa [overlap_acceptLzw_iff]
  · exact startJob_of_overlap ((overlap_acceptLzw_iff m s).mpr hclash)

end Sys2Proof.Machine
end

section
/-! PROOFS. The words the registers read, as numbers (R23, R28, R119); the end of a job (R127); and which step leaves IDLE
(R126, R147). -/

namespace Sys2Proof.Machine

/-! ### The words the registers read (R23, R28, R119) -/

@[simp] theorem toNat_bit (b : Bool) : (bit b).toNat = b.toNat := by
  cases b <;> rfl

/-- A field above the bits of another word. -/
theorem toNat_shiftLeft_or {x y : Word} {n : Nat} (hx : x.toNat * 2 ^ n < 2 ^ 32) (hy : y.toNat < 2 ^ n) :
    (x <<< n ||| y).toNat = x.toNat * 2 ^ n + y.toNat := by
  rw [BitVec.toNat_or, BitVec.toNat_shiftLeft, Nat.shiftLeft_eq, Nat.mod_eq_of_lt hx, ← Nat.shiftLeft_eq,
    ← Nat.shiftLeft_add_eq_or_of_lt hy]

/-- A flag above the bits of another word. -/
theorem toNat_bit_shiftLeft_or (b : Bool) {y : Word} {n : Nat} (hn : n < 31) (hy : y.toNat < 2 ^ n) :
    (bit b <<< n ||| y).toNat = b.toNat * 2 ^ n + y.toNat := by
  have hfits : b.toNat * 2 ^ n < 2 ^ 32 := by
    have hpow : 2 ^ n < 2 ^ 31 := Nat.pow_lt_pow_right (by decide) hn
    have hle : b.toNat * 2 ^ n ≤ 1 * 2 ^ n := Nat.mul_le_mul_right _ (Bool.toNat_le b)
    omega
  rw [toNat_shiftLeft_or (by rwa [toNat_bit]) hy, toNat_bit]

theorem toNat_statusWord (s : State) :
    (statusWord s).toNat = s.errFrame.toNat * 2 ^ 16 + s.errCode.code.toNat * 2 ^ 8 + s.err.toNat * 4 + s.done.toNat * 2
      + s.busy.toNat := by
  have hframe : (s.errFrame.setWidth 32 : Word).toNat = s.errFrame.toNat := BitVec.toNat_setWidth_of_le (by decide)
  have hcode : (s.errCode.code.setWidth 32 : Word).toNat = s.errCode.code.toNat := BitVec.toNat_setWidth_of_le (by decide)
  have hbusy := s.busy.toNat_lt
  have hdone := s.done.toNat_lt
  have herr := s.err.toNat_lt
  have hlow := toNat_bit_shiftLeft_or s.done (y := bit s.busy) (n := 1) (by decide) (by rwa [toNat_bit])
  rw [toNat_bit] at hlow
  have hflags := toNat_bit_shiftLeft_or s.err (n := 2) (by decide) (y := _) (by rw [hlow]; omega)
  have hcoded := toNat_shiftLeft_or (x := s.errCode.code.setWidth 32) (n := 8) (by omega) (y := _) (by rw [hflags]; omega)
  rw [statusWord, BitVec.or_assoc, BitVec.or_assoc, BitVec.or_assoc, toNat_shiftLeft_or (by omega) (by omega)]
  omega

theorem toNat_paramsWord (s : State) :
    (paramsWord s).toNat = s.build.colorRes.toNat + (if s.build.codeLimit = .l2049 then 8 else 0)
      + (if s.build.endCodeWidth = .decoderAligned then 16 else 0) := by
  have hcolor : (s.build.colorRes.setWidth 32 : Word).toNat = s.build.colorRes.toNat :=
    BitVec.toNat_setWidth_of_le (by decide)
  have hlimit : (codeLimitBit s.build.codeLimit).toNat * 2 ^ 3 = if s.build.codeLimit = .l2049 then 8 else 0 := by
    cases s.build.codeLimit <;> rfl
  have hend : (endWidthBit s.build.endCodeWidth).toNat * 2 ^ 4
      = if s.build.endCodeWidth = .decoderAligned then 16 else 0 := by
    cases s.build.endCodeWidth <;> rfl
  have hlt := (codeLimitBit s.build.codeLimit).toNat_lt
  have hlow := toNat_bit_shiftLeft_or (codeLimitBit s.build.codeLimit) (n := 3) (by decide)
    (y := s.build.colorRes.setWidth 32) (by omega)
  rw [paramsWord, BitVec.or_assoc, toNat_bit_shiftLeft_or _ (by decide) (by omega), hlow, hend, hlimit]
  omega

/-- Settles O22, register by register. -/
theorem registerReadReturnsWord : Obligations.RegisterReadReturnsWord := by
  intro s r
  refine ⟨regRead s r, rfl, ?_⟩
  cases r with
  | status => exact toNat_statusWord s
  | params => exact toNat_paramsWord s
  | ctrl => exact toNat_bit s.ie
  | width | height | palLen | nframes | lzwLast => exact BitVec.toNat_setWidth_of_le (by decide)
  | _ => rfl

/-! ### IDLE and X.FINISH (R126, R127, R147) -/

/-- Settles O26: the operation is that one update of the state. -/
theorem finishEndsJob : Obligations.FinishEndsJob := by
  intro s
  refine ⟨_, rfl, rfl, ?_⟩
  simp [irq]

/-- The word starts a job (R121): it is legal, and its OPC is that of GIF_ENCODE or LZW_ENCODE. -/
def StartsJob (v : Word) : Prop := illegalWord v = false ∧ (v.toNat % 2 ^ 8 = 0x01 ∨ v.toNat % 2 ^ 8 = 0x02)

theorem startsJob_of_opc {v : Word} (hl : illegalWord v = false) (ho : opcField v = opcGif ∨ opcField v = opcLzw) :
    StartsJob v := by
  have hopc : (opcField v).toNat = v.toNat % 2 ^ 8 := by simp [opcField]
  rw [StartsJob, ← hopc]
  exact ⟨hl, ho.imp (congrArg BitVec.toNat) (congrArg BitVec.toNat)⟩

/-- A word that starts no job leaves SEQ at IDLE (R120). -/
theorem keeps_idle_command {v : Word} {s : State} (hs : s.seq = SeqCode.idle) (hv : ¬ StartsJob v) :
    Keeps (fun t => t.seq = SeqCode.idle) (command v s) := by
  cases hi : illegalWord v with
  | true =>
    cases hb : s.busy with
    | true =>
      have hne : v ≠ 0x0000000F#32 := by
        rintro rfl
        exact absurd hi (by decide)
      rw [command_busy hb hne]
      exact keeps_next.mpr hs
    | false =>
      rw [command_illegal hb hi]
      exact keeps_next.mpr hs
  | false =>
    obtain ⟨i, hd⟩ := decode_of_legal hi
    have hcmd : command v s = exec i s := cmdWriteIsTheCommand s v i hd
    rw [hcmd]
    obtain ⟨-, ⟨-, -, -, rfl⟩ | ⟨ho, -⟩ | ⟨ho, -⟩ | ⟨-, -, -, rfl⟩⟩ := decode_cmd_cases hd
    · exact keeps_next.mpr hs
    · exact absurd (startsJob_of_opc hi (.inl ho)) hv
    · exact absurd (startsJob_of_opc hi (.inr ho)) hv
    · exact keeps_next.mpr rfl

theorem seq_regWrite (r : Reg) (v : Word) (s : State) : (regWrite r v s).seq = s.seq := by
  rcases regWrite_cases r v s with h | ⟨-, h⟩ | ⟨-, h⟩ | ⟨-, h⟩
  · rw [h]
  · rw [h, writeStatus_eq]
  · rw [h]
  · unfold OnlyConfig at h
    rw [h]

theorem seq_writeInByte (a : Nat) (v : Byte) (s : State) : (writeInByte a v s).seq = s.seq := by
  rw [writeInByte_eq]
  split <;> rfl

theorem seq_pollAgain (r : Reg) (mask value : Word) (s : State) : (pollAgain r mask value s).seq = s.seq := by
  unfold pollAgain
  split <;> rfl

/-- A register access other than a write to CMD of a word that starts a job leaves SEQ at IDLE. -/
theorem keeps_idle_runAccess {write : Bool} {offset bytes : Nat} {v : Word} {s : State} (hs : s.seq = SeqCode.idle)
    (hv : write = true → offset = 0x00 → bytes = 4 → ¬ StartsJob v) :
    Keeps (fun t => t.seq = SeqCode.idle) (runAccess write offset bytes v s) := by
  rcases runAccess_eq write offset bytes v s with h | ⟨r, rfl, rfl, h⟩
  · exact h ▸ keeps_refused _ _
  rw [h]
  cases write with
  | false => exact keeps_next.mpr hs
  | true =>
    by_cases hr : r = .cmd
    · subst hr
      exact keeps_idle_command hs (hv rfl rfl rfl)
    · rw [if_pos rfl, exec_wr_of_ne_cmd hr]
      exact keeps_next.mpr ((seq_regWrite r v s).trans hs)

/-- The start of a job is the only turn that takes SEQ away from IDLE (R126). -/
theorem keeps_idle_runTurn {turn : Turn} {s : State} (hs : s.seq = SeqCode.idle)
    (hturn : ∀ v, turn = .access true 0x00 4 v → ¬ StartsJob v) :
    Keeps (fun t => t.seq = SeqCode.idle) (runTurn turn s) := by
  cases turn with
  | engine =>
    have hidle : runEngine s = exec .idle s := runEngine_eq_exec (by rw [hs]; rfl)
    show Keeps _ (runEngine s)
    rw [hidle]
    exact keeps_next.mpr hs
  | access write offset bytes v =>
    refine keeps_idle_runAccess hs fun hw ho hb => hturn v ?_
    rw [hw, ho, hb]
  | poll r mask value => exact keeps_next.mpr ((seq_pollAgain r mask value _).trans hs)
  | writeIn a v =>
    exact .ite (fun _ => keeps_refused _ _) fun _ => .ite (fun _ => keeps_refused _ _) fun _ =>
      keeps_next.mpr ((seq_writeInByte _ v s).trans hs)
  | writeOut a v =>
    exact .ite (fun _ => keeps_refused _ _) fun _ => .ite (fun _ => keeps_refused _ _) fun _ => keeps_next.mpr hs
  | readIn a | readOut a => exact .ite (fun _ => keeps_refused _ _) fun _ => keeps_next.mpr hs
  | resetInput => exact keeps_next.mpr rfl

/-- At IDLE an engine step changes nothing. -/
theorem step_idle {s : State} (hs : s.seq = SeqCode.idle) (ha : s.agenda = []) : step s = .next s :=
  step_eq_exec (i := .idle) ha (by rw [hs]; rfl)

/-- Settles O25: every turn but the start of a job keeps SEQ at IDLE. -/
theorem idleTakesNoStep : Obligations.IdleTakesNoStep := by
  refine ⟨fun s => ⟨rfl, step_idle⟩, fun s t hs h ht => ?_, fun s hinv => ?_⟩
  · cases ha : s.agenda with
    | nil =>
      cases (step_idle hs ha).symm.trans h
      exact absurd hs ht
    | cons turn rest =>
      rw [step_turn ha] at h
      by_contra hnone
      refine ht (keeps_idle_runTurn (s := { s with agenda := rest }) hs ?_ t h)
      rintro v rfl ⟨hlegal, hopc⟩
      exact hnone ⟨rest, v, rfl, hlegal, hopc⟩
  · rw [← Bool.not_eq_true, hinv.status.busyIff, not_not]

end Sys2Proof.Machine
end
